-- ==== Sys2Proof/Word.lean ====
section
/-! DEFINITION. The machine's words and the few names every other file uses (R2, R63: little-endian
bytes, 32-bit W and K registers, 64-bit S registers). -/

namespace Sys2Proof

/-- One byte of memory. -/
abbrev Byte := BitVec 8
/-- A W or K register, or a 32-bit control register (R63). -/
abbrev W32 := BitVec 32
/-- An S register, an instruction word, a virtual address (R63, R309). -/
abbrev W64 := BitVec 64

/-- A sparse table: pairs of a key and a value, keys rising, no entry equal to the default. -/
abbrev Store (α : Type) := List (Nat × α)

end Sys2Proof
end

