-- ==== Sys2Proof/Machine/Store.lean ====
section
/-! DEFINITION. The sparse table every large piece of state is held in: memory, register files, caches, register
arrays. One canonical form: keys rising, no entry equal to what an unlisted key reads as. -/

namespace Sys2Proof

/-- What key `k` reads as, `d` being what an unlisted key reads as. -/
def Store.get {α : Type} (d : α) : Store α → Nat → α
  | [], _ => d
  | (j, v) :: m, k => if j = k then v else Store.get d m k

/-- The table without key `k`. -/
def Store.erase {α : Type} : Store α → Nat → Store α
  | [], _ => []
  | (j, v) :: m, k => if j = k then Store.erase m k else (j, v) :: Store.erase m k

/-- The table with `(k, v)` in front of the first larger key. -/
def Store.place {α : Type} (k : Nat) (v : α) : Store α → Store α
  | [] => [(k, v)]
  | (j, u) :: m => if k < j then (k, v) :: (j, u) :: m else (j, u) :: Store.place k v m

/-- Key `k` set to `v`; setting the value an unlisted key reads as removes the entry. -/
def Store.set {α : Type} [DecidableEq α] (d : α) (m : Store α) (k : Nat) (v : α) : Store α :=
  if v = d then Store.erase m k else Store.place k v (Store.erase m k)

/-- Every key of the table is above `lo` (`none`: no bound) and the keys rise. -/
def Store.rising {α : Type} : Option Nat → Store α → Bool
  | _, [] => true
  | none, (j, _) :: m => Store.rising (some j) m
  | some l, (j, _) :: m => decide (l < j) && Store.rising (some j) m

/-- The canonical form: keys strictly rising, no entry equal to the default. -/
def Store.wf {α : Type} [DecidableEq α] (d : α) (m : Store α) : Bool :=
  Store.rising none m && m.all (fun e => decide (e.2 ≠ d))

/-- The keys listed. -/
def Store.keys {α : Type} (m : Store α) : List Nat := m.map (·.1)

/-- The table with key `k`'s value changed by `f`. -/
def Store.modify {α : Type} [DecidableEq α] (d : α) (m : Store α) (k : Nat) (f : α → α) : Store α :=
  Store.set d m k (f (Store.get d m k))

/-- The entries whose key and value satisfy `p`. -/
def Store.keep {α : Type} (m : Store α) (p : Nat → α → Bool) : Store α := m.filter (fun e => p e.1 e.2)

/-- `n` bytes read little-endian from address `a` (R2), as a number. -/
def Store.readLE (m : Store Byte) (a : Nat) : Nat → Nat
  | 0 => 0
  | n + 1 => (Store.get 0 m a).toNat + 256 * Store.readLE m (a + 1) n

/-- The `n` bytes from address `a`. -/
def Store.bytes (m : Store Byte) (a : Nat) : Nat → List Byte
  | 0 => []
  | n + 1 => Store.get 0 m a :: Store.bytes m (a + 1) n

/-- Bytes written from address `a` upward. -/
def Store.writeBytes (m : Store Byte) (a : Nat) : List Byte → Store Byte
  | [] => m
  | b :: bs => Store.writeBytes (Store.set 0 m a b) (a + 1) bs

/-- The `n` low bytes of a number, least significant first (R2). -/
def toLE : Nat → Nat → List Byte
  | 0, _ => []
  | n + 1, v => BitVec.ofNat 8 v :: toLE n (v / 256)

/-- A list of bytes as a number, least significant first (R2). -/
def ofLE : List Byte → Nat
  | [] => 0
  | b :: bs => b.toNat + 256 * ofLE bs

end Sys2Proof
end

