-- ==== Sys2Proof/Syntax.lean ====
section
/-! DEFINITION. The instruction set as data: register names, code fields, and ONE inductive `Instr` with a
constructor for every row of the table of operations and events. Instructions carry decoded operands; events carry
the party they concern. -/

namespace Sys2Proof

/-- The clause classes, CLASS codes 0-5 (R309). -/
inductive Cls where
  | sc | vx | tx | mx | cf | ex
  deriving DecidableEq, Repr

/-- The TY codes (R62). -/
inductive Ty where
  | i8 | i16 | i32 | i64 | i4 | n8 | n16 | n32 | n64 | f16 | bf16 | f32 | rt
  deriving DecidableEq, Repr

/-- The rounding field (R74). -/
inductive Rm where
  | dflt | rne | rtz | rup | rdn | rto
  deriving DecidableEq, Repr

/-- Relations of CMP, SCMP and FCMP (R317). -/
inductive Rel where
  | eq | ne | lt | le | gt | ge
  deriving DecidableEq, Repr

/-- The AOP field of ATOM and RED (R315). -/
inductive Aop where
  | add | min | max | and | or | xor | xchg | cas | fadd
  deriving DecidableEq, Repr

/-- The ORD field (R315). -/
inductive Ord where
  | plain | acq | rel | ar | sc | rmt
  deriving DecidableEq, Repr

/-- The scope field (R139). -/
inductive Scope where
  | team | part | device | system
  deriving DecidableEq, Repr

/-- The SP field (R124). -/
inductive Space where
  | g | s | p | see | fh
  deriving DecidableEq, Repr

/-- DSP and SSP of CPY (R165): the destination code 2 is FH, the source code 2 is SEE. -/
inductive CpySpace where
  | g | s | h
  deriving DecidableEq, Repr

/-- CK of CPY and TCPY (R165): what the copy signals. -/
inductive CpyKind where
  | flag | teamBar | netBar
  deriving DecidableEq, Repr

/-- A scalar register S0-S63. -/
abbrev SReg := Fin 64

/-- A register field (R312). -/
inductive Reg where
  | w (n : Fin 64)
  | s (n : Fin 64)
  | k (n : Fin 128)
  deriving DecidableEq, Repr

/-- The configuration record of a flash slot: what distinguishes one shipped module from another. -/
structure FlashRecord where
  trims : List Byte
  disabled : List Nat
  devices : List Nat
  wellFormed : Bool
  deriving DecidableEq, Repr

/-- An image slot of the on-package flash (R301): whether its two signatures verify, its configuration record, its firmware and
its security version number. -/
structure FlashSlot where
  ecdsa : Bool
  lms : Bool
  record : FlashRecord
  firmware : List Byte
  svn : W32
  deriving DecidableEq, Repr

/-- The aperture a register write goes through: function `fn`'s; `pf`: the PF makes it on the function's behalf (R267, log 87). -/
structure RegPort where
  pf : Bool
  fn : Nat
  deriving DecidableEq, Repr

/-- A byte that the host writes: of its own memory (R288) or of the HBM (R287). -/
structure HostPlace where
  host : Bool
  pa : Nat
  deriving DecidableEq, Repr

/-- What an uncorrectable soft error strikes (R306). -/
inductive ErrorSite where
  | team (team : Nat)
  | sharedL1 (core : Nat) (key : Nat)
  | line (pa : Nat)
  | pairSlot (die slot : Nat)
  | savedContext (team : Nat)
  /-- State of the hub die outside the Foreman (R307). -/
  | hub
  deriving DecidableEq, Repr

/-- A peer's access that arrives at this home device (R247, R296). `tagged`: the register that holds the fill handle carries the
linear tag (R231 order 6). `align`: what the offset is a multiple of. -/
inductive RemoteAccess where
  | stFh (h : W64) (tagged : Bool) (off align : Nat) (data : List Byte)
  | ldFh (h : W64) (tagged : Bool) (off n align : Nat)
  | ldsee (h : W64) (off n align : Nat)
  | drop (h : W64) (tagged : Bool)
  | seeh (h : W64) (tagged : Bool) (rights : Nat)
  | free (h : W64)
  /-- The checks of a copy into the tile, and of one out of it, which waits until the tile is sealed (R167). -/
  | copyTo (h : W64) (tagged : Bool) (off n : Nat)
  | copyFrom (h : W64) (off n : Nat)
  /-- HSEND's check; a fill handle goes to the transport (R245). -/
  | pass (h : W64) (tagged : Bool)
  /-- The device whose team or partition holds a fill handle now (R245, R246). -/
  | hold (h : W64) (dev : Nat)
  /-- A fill handle has ceased to exist without a drop (R241). -/
  | abandon (h : W64)
  /-- The sender, of this device number, withdraws an acceptance that came too late (R299). -/
  | withdraw (tag : W32) (h : W64) (dev : Nat)
  /-- The pieces of a PUT or of a rank's lines: each an address and its bytes. -/
  | put (fn : Nat) (pieces : List (W64 × List Byte))
  /-- The pieces of a GET or of a rank's elements: each an address and a byte count. -/
  | get (fn : Nat) (pieces : List (W64 × Nat))
  deriving DecidableEq, Repr

/-- What happens to a work request at its end (R296). -/
inductive WqEnd where
  | ok | saturated
  /-- The peer refused, with its code. -/
  | refused (code : Nat)
  | faulted (code : Nat)
  deriving DecidableEq, Repr

/-- The rows of the table of operations and events, one constructor each. -/
inductive Instr where
  -- class SC (R321, R389-R400)
  | sadd (ty : Ty) (d a b : SReg)
  | ssub (ty : Ty) (d a b : SReg)
  | smul (ty : Ty) (d a b : SReg)
  | smulh (ty : Ty) (d a b : SReg)
  | sdiv (ty : Ty) (d a b : SReg)
  | srem (ty : Ty) (d a b : SReg)
  | smin (ty : Ty) (d a b : SReg)
  | smax (ty : Ty) (d a b : SReg)
  | sand (ty : Ty) (d a b : SReg)
  | sor (ty : Ty) (d a b : SReg)
  | sxor (ty : Ty) (d a b : SReg)
  | sshl (ty : Ty) (d a b : SReg)
  | sshr (ty : Ty) (d a b : SReg)
  | ssha (ty : Ty) (d a b : SReg)
  | sclz (ty : Ty) (d a : SReg)
  | spopc (ty : Ty) (d a : SReg)
  | scmp (rel : Rel) (ty : Ty) (d a b : SReg)
  | ssel (ty : Ty) (d a b c : SReg)
  | smov (ty : Ty) (d a : SReg)
  | smovMv (d a : SReg)
  | smovi (ty : Ty) (d : SReg) (imm : W32)
  | sld (ord : Ord) (sc : Scope) (ty : Ty) (sp : Space) (d a : SReg) (b : Option SReg) (off : BitVec 16)
  | sst (ord : Ord) (sc : Scope) (ty : Ty) (sp : Space) (d a : SReg) (b : Option SReg) (off : BitVec 16)
  | sprm (ty : Ty) (d : SReg) (imm : W32)
  | sget (sel : BitVec 16) (d : SReg) (a b : Option SReg)
  | sset (sel : BitVec 16) (a : SReg)
  -- class VX (R322)
  | add (ty : Ty) (d a b : Reg)
  | sub (ty : Ty) (d a b : Reg)
  | mul (ty : Ty) (d a b : Reg)
  | mulh (ty : Ty) (d a b : Reg)
  | mad (ty : Ty) (d a b c : Reg)
  | div (ty : Ty) (d a b : Reg)
  | rem (ty : Ty) (d a b : Reg)
  | min (ty : Ty) (d a b : Reg)
  | max (ty : Ty) (d a b : Reg)
  | abs (ty : Ty) (d a : Reg)
  | neg (ty : Ty) (d a : Reg)
  | and (ty : Ty) (d a b : Reg)
  | or (ty : Ty) (d a b : Reg)
  | xor (ty : Ty) (d a b : Reg)
  | not (ty : Ty) (d a : Reg)
  | shl (ty : Ty) (d a b : Reg)
  | shr (ty : Ty) (d a b : Reg)
  | sha (ty : Ty) (d a b : Reg)
  | clz (ty : Ty) (d a : Reg)
  | popc (ty : Ty) (d a : Reg)
  | brev (ty : Ty) (d a : Reg)
  | cmp (rel : Rel) (ty : Ty) (push : Bool) (d a b : Reg)
  | sel (ty : Ty) (d a b c : Reg)
  | mov (ty : Ty) (d a : Reg)
  | movi (ty : Ty) (d : Reg) (imm : W32)
  | bcst (ty : Ty) (d : Reg) (a : SReg)
  | idx (sel : BitVec 16) (d : Reg)
  | fadd (ty : Ty) (rm : Rm) (d a b : Reg)
  | fsub (ty : Ty) (rm : Rm) (d a b : Reg)
  | fmul (ty : Ty) (rm : Rm) (d a b : Reg)
  | fma (ty : Ty) (rm : Rm) (d a b c : Reg)
  | fmin (ty : Ty) (d a b : Reg)
  | fmax (ty : Ty) (d a b : Reg)
  | fabs (ty : Ty) (d a : Reg)
  | fneg (ty : Ty) (d a : Reg)
  | fcmp (rel : Rel) (ty : Ty) (push : Bool) (d a b : Reg)
  | fclass (ty : Ty) (d a : Reg)
  | frcp (ty : Ty) (rm : Rm) (d a : Reg)
  | frsq (ty : Ty) (rm : Rm) (d a : Reg)
  | fsqrt (ty : Ty) (rm : Rm) (d a : Reg)
  | fdiv (ty : Ty) (rm : Rm) (d a b : Reg)
  | fexp2 (ty : Ty) (rm : Rm) (d a : Reg)
  | flog2 (ty : Ty) (rm : Rm) (d a : Reg)
  | cvt (dty sty : Ty) (sym : Bool) (rm : Rm) (d a : Reg)
  | rfwd (ty : Ty) (d a : Reg)
  | radd (d a b : Reg)
  | rmul (d a b : Reg)
  | rmad (d a b c : Reg)
  | rback (d a : Reg)
  | qnt (dty sty : Ty) (rm : Rm) (d a b : Reg)
  | dqnt (ty : Ty) (d a b : Reg)
  | cmpr (ty : Ty) (d a : Reg)
  | xpnd (ty : Ty) (d a : Reg)
  -- class TX (R103)
  | tcfg (cv td : Fin 16) (sa : SReg)
  | tzero (cv : Fin 16) (acc : Bool) (td : Fin 16)
  | tld (cv td : Fin 16) (base stride : SReg) (sparse scratch : Bool)
  | tst (cv td : Fin 16) (base stride : SReg) (scratch : Bool)
  | tlds (cv td : Fin 16) (src : Reg) (half col : Bool) (ix : SReg) (imm : BitVec 8)
  | tsts (cv td : Fin 16) (kd : Fin 128) (half col : Bool) (ix : SReg) (imm : BitVec 8)
  | ttrn (cv td ta : Fin 16)
  | tmma (cv : Fin 16) (opn : Bool) (ty : Ty) (rm : Rm) (ad : Fin 8) (ta tb : Fin 16) (sa sb : Reg) (bsel : Bool)
  | tmmf (cv : Fin 16) (ty : Ty) (rm : Rm) (ad : Fin 8) (ta tb : Fin 16)
  | tspm (cv : Fin 16) (opn : Bool) (ty : Ty) (rm : Rm) (ad : Fin 8) (ta tb : Fin 16) (sa sb : Reg) (bsel : Bool)
  | tclose (cv : Fin 16) (rm : Rm) (ad : Fin 8) (sa sb : Reg) (bsel : Bool)
  | tdrain (cv : Fin 16) (rm : Rm) (td : Fin 16) (aa : Fin 8) (half : Bool)
  | tqnt (cv : Fin 16) (ty : Ty) (rm : Rm) (td : Fin 16) (aa : Fin 8) (kd : Fin 128)
  | tgemm (cv : Fin 16) (ty : Ty) (rm : Rm) (ad : Fin 8) (ta tb : Fin 16) (sa sb : Reg) (bsel : Bool) (sn : SReg)
  | tgemmPhase (team : Nat)
  -- class MX (R323)
  | ld (ord : Ord) (sc : Scope) (ty : Ty) (sp : Space) (d a : Reg) (b : Option Reg) (off : BitVec 16)
  | st (ord : Ord) (sc : Scope) (ty : Ty) (sp : Space) (d a : Reg) (b : Option Reg) (off : BitVec 16)
  | ldsee (np : Bool) (ord : Ord) (sc : Scope) (ty : Ty) (d : Reg) (a : SReg) (b : Option Reg) (off : BitVec 16)
  | ldp (ty : Ty) (sp : Space) (d a : Reg) (b : Option Reg) (off : BitVec 16)
  | atom (aop : Aop) (ord : Ord) (sc : Scope) (ty : Ty) (sp : Space) (d a b : Reg) (off : BitVec 16)
  | red (aop : Aop) (ord : Ord) (sc : Scope) (ty : Ty) (sp : Space) (a b : Reg) (off : BitVec 16)
  | fence (ord : Ord) (sc : Scope)
  | pref (ty : Ty) (sp : Space) (a : Reg) (b : Option Reg) (off : BitVec 16)
  -- class CF (R323)
  | bra (t : BitVec 24)
  | brc (t : BitVec 24)
  | bsw (t : BitVec 24) (a : Reg) (n : BitVec 16)
  | call (t : BitVec 24) (a : Fin 128)
  | ret (a : Reg)
  | exit
  | yield (t : BitVec 24)
  | pnot
  | ppop
  | bar (net : Bool) (b : BitVec 8) (t : BitVec 24)
  | bara (net : Bool) (b : BitVec 8)
  | barw (net : Bool) (b : BitVec 8) (t : BitVec 24)
  | nbmem (b : BitVec 8) (join : Bool)
  | waitf (np : Bool) (a : Reg) (t : BitVec 24)
  | grab
  | relx
  | cvset (cv : Fin 16) (n : BitVec 16)
  | bkpt (tag : BitVec 16)
  | nop
  | trap (code : BitVec 16)
  -- class EX (R323)
  | cpy (dsp ssp : CpySpace) (ck : CpyKind) (d a : Reg) (b : Option Reg) (c : Reg) (target : BitVec 16)
  | tcpy (toScratch : Bool) (ck : CpyKind) (d : Reg) (a : SReg) (target : BitVec 16)
  | bexp (net : Bool) (a : Reg) (b : BitVec 8)
  | gstart (d : Reg) (a : SReg)
  | gcond (a : SReg) (b : Reg) (off : BitVec 16)
  | launch (d a : SReg)
  | ptnew (scratch : Bool) (d a b : SReg)
  | ptfree (a : SReg)
  | seeh (d a : SReg) (rights : BitVec 3)
  | drop (a : SReg)
  | hsend (d a b : SReg)
  | hrecv (d a : SReg)
  | wqpost (d a : SReg) (ring : Fin 64)
  | triga (or : Bool) (d a : SReg)
  | cntadd (tc : Fin 64) (a : Reg)
  | sysc (d : SReg) (a : Reg)
  | sret (a b : SReg) (faulted : Bool)
  | tstamp (cyc : Bool) (d : SReg)
  | ktlbi (kind : Fin 4) (a : Option SReg) (b : Reg)
  | kget (sel : Fin 4) (d a : SReg) (b : Reg) (n : BitVec 16)
  | kset (isW : Bool) (a : SReg) (b c : Reg) (n : BitVec 16)
  | kresumeResume (a : SReg) (b : Reg)
  | kresumeStep (a : SReg) (b : Reg)
  | kresumeKill (a : SReg) (b : Reg)
  | kresumeEngresume (a b : Reg)
  | kresumeEngend (a b : Reg)
  -- events on the cores
  | selection (team : Nat)
  | clauseStart
  | longLatencyWriteDone (team tok : Nat)
  | writePerformed (team tok : Nat)
  | trapRecordPost (team thread : Nat)
  | registrationAccepted (core : Nat)
  | waitPoll (team thread : Nat)
  | copyLine (engine : Nat)
  | barrierWave (core : Nat)
  | recordWrite (fn : Nat) (ring : W64)
  | ringHeaderRecheck (fn : Nat) (ring : W64)
  | gridRetire (grid : Nat)
  | teamPlacement (part : Nat)
  | duskGraceExpiry (grid lin : Nat)
  | watchdogExpiry (team : Nat)
  | waitLimitExpiry (team thread : Nat)
  | switchTick (part : Nat)
  | saveShareComplete (part die : Nat)
  | saveDeadlineExpiry (part : Nat)
  -- events on the queues
  | qkick (fn q : Nat) (w : W32)
  | packetLaunch (fn q : Nat)
  | packetCopy (fn q : Nat)
  | packetBarrierAnd (fn q : Nat)
  | packetSignal (fn q : Nat)
  | barrierAndComplete (fn q : Nat)
  | foremanError
  | journalValidated
  | networkTriggeredLaunch (part : Nat) (tag : W32) (payload : W64)
  | graphNodeFinish (team node : Nat)
  -- events of the transport
  | handleArrival (part : Nat) (tag : W32) (h : W64)
  | hsendOutcome (xfer : Nat) (accepted : Bool)
  | hsendTimeout (xfer : Nat)
  | peerLost (part dev : Nat)
  | collectiveResult (fn entry elem : Nat) (value : W64) (sat : Bool)
  | workRequestStart (fn ring : Nat)
  | workRequestComplete (req : Nat) (how : WqEnd)
  -- power and timing events
  | powerEpoch (measured fixed : Nat)
  | canaryAlarm (core : Nat)
  | canaryStretchEnd (core : Nat)
  | halfIssueEnd (core : Nat)
  | l1MarkClear (core : Nat)
  | l2WayEpoch (slice : Nat)
  -- memory management events
  | migrationRecallDone (fn page : Nat)
  | scrub (v : W32)
  | scrubFrameDone
  | keyLoad (v : W32)
  | keyLoadDone
  -- register writes with a row of their own
  | queueEnable (fn q : Nat) (v : W32)
  | queueDisable (fn q : Nat) (v : W32)
  | queueErrClear (fn q : Nat) (v : W32)
  | qmapWrite (fn q : Nat) (v : W32)
  | partEnable (slice : Nat) (v : W32)
  | partDisable (slice : Nat) (v : W32)
  | vfEnable (f : Nat) (v : W64)
  | vfDisable (f : Nat) (v : W64)
  | vfL2Write (f : Nat) (v : W32)
  | vfBwWrite (f : Nat) (v : W32)
  | engOwnWrite (e : Nat) (v : W32)
  | pwrCtlWrite (v : W32)
  | collApEnable (fn e : Nat) (v : W64)
  | wqRingEnable (fn r : Nat) (v : W64)
  | ntlCtlWrite (fn e : Nat) (v : W64)
  | decliaEnable (slice : Nat) (v : W32) (answers : List Nat)
  | registerWrite (fn : RegPort) (off : Nat) (v : W64)
  -- the host
  | hostMemRead (pa n : Nat)
  | hostMemWrite (pa : HostPlace) (data : List Byte)
  | getVersion (f : Nat)
  | getCapabilities (f : Nat)
  | lockInterface (f session : Nat)
  | startInterface (f : Nat)
  | stopInterface (f : Nat)
  | getDeviceInterfaceReport (f : Nat)
  | getDeviceInterfaceState (f : Nat)
  | sessionExpiry (session : Nat)
  -- start-up, errors
  | devReset (v : W32)
  | functionLevelReset (f : Nat)
  | deviceStart
  | startStageDone
  | startStageTimeout
  | lampImageReplace (img : FlashSlot)
  | correctableError
  | uncorrectableError (site : ErrorSite)
  | operandParityError (team thread : Nat)
  | unassignedOpcode (cls : Cls) (word : W64)
  | foremanTest (pass : Bool)
  | peerReturn (part dev : Nat)
  | remoteAccessArrival (part : Nat) (acc : RemoteAccess)
  | rankAcknowledgement (xfer code : Nat) (data : List Byte)
  deriving DecidableEq, Repr

end Sys2Proof
end

