-- ==== Sys2Proof/Machine/State.lean ====
section
/-! DEFINITION. The whole state of the machine as plain data, the reasons a step can stop, and the machine right after
reset. The structures follow the spec's units: threads, batches, teams and grids; memory, caches and registries; the
pair tables; the copy engines; the control apertures; the queues; the links to the host and to other devices. -/

namespace Sys2Proof.Machine

/-- Why a step can end with no next state. -/
inductive Fault where
  /-- Raised by a program instruction executed while no batch is issuing: the hardware has no such moment, so the
  stop is safe. -/
  | noBatch
  deriving DecidableEq, Repr

/-- Why an instruction has no meaning here. -/
inductive Refusal where
  /-- Raised by an arm of `exec` that has no meaning yet; safe. -/
  | notModelled (mnemonic : String)
  deriving DecidableEq, Repr

/-- The fault codes of R207. -/
inductive Code where
  | illegalClause | illegalInstruction | privilege | alignment | pageFault | access | frameKeyConflict
  | outOfPartition | progressClass | promotionBlocked | abandonedFill | staleHandle | linearCopy | accHeadroom
  | tileShape | barrierOverflow | predOverflow | breakpoint | softwareTrap | watchdog | uncorrectable
  | contextSaveTimeout | regDeadlock
  | other (n : Nat)
  deriving DecidableEq, Repr

/-- The 8-bit code of a fault (R207). -/
def Code.num : Code → Nat
  | .illegalClause => 1 | .illegalInstruction => 2 | .privilege => 3 | .alignment => 4 | .pageFault => 5
  | .access => 6 | .frameKeyConflict => 7 | .outOfPartition => 8 | .progressClass => 9 | .promotionBlocked => 10
  | .abandonedFill => 11 | .staleHandle => 12 | .linearCopy => 13 | .accHeadroom => 14 | .tileShape => 15
  | .barrierOverflow => 17 | .predOverflow => 18 | .breakpoint => 19 | .softwareTrap => 20 | .watchdog => 21
  | .uncorrectable => 22 | .contextSaveTimeout => 23 | .regDeadlock => 24
  | .other n => n

/-- The code of a number that another device's answer carries; none where R207 has no such code. -/
def Code.ofNum (n : Nat) : Option Code :=
  ([.illegalClause, .illegalInstruction, .privilege, .alignment, .pageFault, .access, .frameKeyConflict, .outOfPartition,
    .progressClass, .promotionBlocked, .abandonedFill, .staleHandle, .linearCopy, .accHeadroom, .tileShape, .barrierOverflow,
    .predOverflow, .breakpoint, .softwareTrap, .watchdog, .uncorrectable, .contextSaveTimeout, .regDeadlock] : List Code).find?
    (fun c => c.num == n)

/-- A program position (R25). -/
structure Pos where
  block : Nat
  clause : Nat
  instr : Nat
  deriving DecidableEq, Repr

/-- A wait record as read (R195). -/
structure WaitRec where
  waddr : W64
  value : W64
  target : W64
  rel : Nat
  n64 : Bool
  scratch : Bool
  deriving DecidableEq, Repr

/-- What a parked thread waits for. -/
inductive Park where
  /-- GRAB: a free extended block (R26). -/
  | grab
  /-- BAR or BARW of a team barrier (R57). -/
  | bar (b gen target : Nat)
  /-- BAR.N or BARW.N of a network barrier (R175). -/
  | netBar (b gen target : Nat)
  /-- WAITF (R196), with its wait record, its .NP bit and the block it continues at. -/
  | waitf (r : WaitRec) (np : Bool) (target : Nat)
  /-- LDSEE, or CPY with a SEE source, on a FILLING slot (R238), with its .NP bit. -/
  | see (die slot gen : Nat) (np : Bool)
  /-- HRECV for a tag into an S register, by the threads of a batch together (R234, R246). -/
  | hrecv (tag d batch : Nat)
  /-- A load of the multicast-and-reduce aperture: entry, element and round (R293). -/
  | aperture (entry elem round : Nat)
  /-- An access through a handle homed on another device (R247). -/
  | remote (h : W64)
  deriving DecidableEq, Repr

/-- The states of a thread (R47), with the trapped state of R209. -/
inductive TState where
  | waiting | yielded | inBatch
  | parked (p : Park)
  | resuming | trapped | held | ended
  deriving DecidableEq, Repr

/-- The operand log of a faulting instruction (R59): the source registers as they stood. -/
structure OpLog where
  k : Store W32
  w : Store W32
  s : Store W64
  deriving DecidableEq, Repr

/-- A resume frame (R59, R92): the recorded W registers, the log, whether the clause's header had been passed, what the
park was granted, the batches a save took it out of, whose parked copies still count in its batch flags (R171, R220), and the
clauses whose operations it waits for (R92). -/
structure Frame where
  log : Option OpLog
  w : List (Nat × W32)
  passed : Bool
  grant : Option W64
  old : List Nat
  toks : List Nat
  deriving DecidableEq, Repr

/-- The trap state of a thread (R211); STATE follows from the thread's state. -/
structure Trap where
  cause : Nat
  block : Nat
  clause : Nat
  instr : Nat
  detail : Nat
  addr : W64
  posted : Bool
  /-- One more than the cycle it was taken in (R209); 0 within the step that takes it. -/
  cycle : Nat
  deriving DecidableEq, Repr

/-- The old value of a register that a long-latency write has not yet reached (R90). -/
structure Old (α : Type) where
  reg : Nat
  isW : Bool
  old : α
  tok : Nat
  id : Nat
  deriving DecidableEq, Repr

/-- Exception flags that an instruction set and that an SGET may or may not see yet (R73). -/
structure FexcNote where
  flags : BitVec 5
  tok : Nat
  id : Nat
  deriving DecidableEq, Repr

/-- A thread (R23). -/
structure Thread where
  /-- The block it will run, or the point it stands at (R25). -/
  pos : Pos
  /-- Address of the clause it stands at, where it stands inside a block. -/
  at_ : W64
  st : TState
  k : Store W32
  w : Store W32
  /-- The predicate stack, top first, at most 8 deep (R56). -/
  preds : List Bool
  trap : Trap
  frame : Option Frame
  /-- Old values under long-latency writes (R90), newest first. -/
  olds : List (Old W32)
  /-- When it parked, in picoseconds, and the time of earlier parks of the same wait (R226). -/
  parkedFor : Nat
  /-- Its place in the order of parking (R246). -/
  parkedAt : Nat
  /-- It parked while stepping: it enters debug-hold when its condition holds (R61). -/
  holdNext : Bool
  /-- KRESUME STEP: it is to run one instruction alone (R61). -/
  stepping : Bool
  /-- The watchdog has bitten it in the midst of an instruction: it traps at the next boundary (R226). -/
  bitten : Bool
  deriving DecidableEq, Repr

/-- A clause as fetched (R326). -/
structure Clause where
  header : W64
  words : List W64
  deriving DecidableEq, Repr

/-- What a batch that has completed a convergence set carries until its operation issues (R58, R99, R100): the register and
its set size, the batch's position, the threads it signed with, and the deposits of the set. -/
structure Sig where
  cv : Nat
  n : Nat
  pos : Pos
  act : List Nat
  depA : List W32
  depB : List W32
  /-- Rows of a TST written so far (R105). -/
  rows : Nat
  /-- The place of its completion among those of its team (R90). -/
  order : Nat
  /-- The S operands of a TLD or TST, read once at issue (R404). -/
  ops : List W64
  /-- The memory checks of its issue have passed (R99, R406). -/
  sure : Bool
  /-- The operation has issued and accesses scratchpad (R52, R101). -/
  scr : Bool
  deriving DecidableEq, Repr

/-- A batch (R51): W registers stand in its threads. -/
structure Batch where
  id : Nat
  threads : List Nat
  block : Nat
  clause : Nat
  instr : Nat
  /-- Address of the header of the clause it stands at (R309). -/
  addr : W64
  /-- The clause it is running; none before a clause start. -/
  buf : Option Clause
  /-- It resumes inside a clause whose header it had passed (R92). -/
  passed : Bool
  tok : Nat
  /-- Outstanding counts of F0-F7 (R89). -/
  flags : Store Nat
  /-- Flags an engine copy completed on since the batch last started a clause (R149). -/
  acq : List Nat
  /-- Threads that have performed the instruction the batch stands at, while others are held (R137, R164). -/
  done : List Nat
  /-- The instruction is held at a claimed line, a blocked page or a full queue. -/
  held : Bool
  /-- The vector slice it keeps until its clause ends (R277). -/
  vslice : Option Nat
  /-- A batch of one run by KRESUME STEP (R61). -/
  stepped : Bool
  /-- Batches its threads were in when they were saved (R220). -/
  heirs : List Nat
  /-- It has completed the set of the tile operation it stands at, which has not issued yet. -/
  sig : Option Sig
  /-- It is held at a full engine queue, service ring or work-request ring (R226, R297). -/
  full : Bool
  /-- The instruction it stands at has occupied its cycles (R276). -/
  charged : Bool
  deriving DecidableEq, Repr

/-- The outstanding operations of one started clause (R89). -/
structure Tok where
  id : Nat
  batch : Nat
  /-- The threads of the batch as the clause started: whose operations they are (R92). -/
  threads : List Nat
  seta : Option Nat
  setb : Option Nat
  regs : Nat
  mems : Nat
  /-- Copies the clause has posted that have not completed. -/
  posts : Nat
  /-- The last instruction of the clause has issued. -/
  issued : Bool
  aDone : Bool
  bDone : Bool
  deriving DecidableEq, Repr

/-- A convergence register (R58) with its deposits (R100). -/
structure Cv where
  n : Nat
  count : Nat
  pos : Option Pos
  depA : List W32
  depB : List W32
  deriving DecidableEq, Repr

/-- A barrier (R57, R177, R179). -/
structure Bar where
  gen : Nat
  /-- Crews arrived at the current generation; for a network barrier the pairs (team, crew). -/
  arrived : List (Nat × Nat)
  under : Bool
  pending : Nat
  /-- The generation counted pending bytes (R149). -/
  counted : Bool
  /-- The last generation each crew arrived at. -/
  last : List ((Nat × Nat) × Nat)
  /-- Network membership changes that wait for the opening (R176): team, join, and the cycle they were made in (R376). -/
  changes : List (Nat × Bool × Nat)
  /-- Bytes of lines that have landed in the present cycle (R178). -/
  lowered : Nat
  deriving DecidableEq, Repr

def Bar.zero : Bar := ⟨0, [], false, 0, false, [], [], 0⟩

/-- An accumulator's mode and bound (R97). -/
structure Acst where
  mode : Nat
  bound : Nat
  deriving DecidableEq, Repr

/-- TGEMM's saved state (R118) with the fields of the instruction. -/
structure Gemm where
  s : Nat
  phase : Nat
  ty : Ty
  rm : Rm
  ad : Nat
  ta : Nat
  tb : Nat
  sa : List W32
  sb : List W32
  bsel : Bool
  descA : W64
  descB : W64
  strideA : W64
  strideB : W64
  steps : Nat
  scratch : Bool
  tok : Nat
  batch : Nat
  pos : Pos
  /-- Address of the clause it stands in. -/
  addr : W64
  cv : Nat
  n : Nat
  active : List Nat
  /-- A phase faulted: the threads' signing continues there (R118). -/
  stopped : Bool
  deriving DecidableEq, Repr

/-- A graph node (R182). -/
structure Node where
  type : Nat
  npred : Nat
  succ : List Nat
  payload : List Byte
  count : Nat
  iter : Nat
  running : Bool
  /-- The child grid it runs. -/
  work : Option Nat
  /-- Its work is over and its finish is still to be dealt with (R184). -/
  finished : Bool
  deriving DecidableEq, Repr

/-- A resident graph (R181-R186). -/
structure Graph where
  tag : W32
  ring : W64
  nodes : List Node
  faulted : Bool
  deriving DecidableEq, Repr

/-- A selection in progress (R48): the block and the batches not yet ended, in the order formed. -/
structure Sel where
  block : Nat
  batches : List Nat
  /-- The laggard crew (R258). -/
  laggard : Nat
  /-- HOIST_CTL as the selection took it (R50). -/
  ctl : W32
  deriving DecidableEq, Repr

/-- Where a team stands between its admission and its end. -/
inductive Phase where
  | unstarted
  | live
  /-- EXIT or a fault has ended it while children or copies keep it (R37, R172). -/
  | retiring
  | ended
  deriving DecidableEq, Repr

/-- A team (R23) with everything its saved context holds (R220). -/
structure Team where
  uid : Nat
  grid : Nat
  lin : Nat
  phase : Phase
  core : Nat
  placed : Bool
  place : Nat
  placedAt : Nat
  /-- It has been placed before: an evicted team is ahead of unstarted ones (R191). -/
  started : Bool
  /-- Saved at a switch tick or an eviction (R220). -/
  saved : Bool
  /-- Its eviction has been decided and waits for an instruction boundary (R192, R200). -/
  leaving : Bool
  /-- The current class (R188). -/
  cls : Nat
  /-- Its PRIO: the launch value until SSET writes it (R400). -/
  prio : Nat
  endedBy : Option Nat
  threads : List Thread
  s : Store W64
  /-- S registers that carry the linear tag (R232). -/
  tags : List Nat
  /-- Old values of S registers under long-latency writes (R90); with `isW`, of TCTL and ACST by their SGET selector (R98). -/
  sOlds : List (Old W64)
  /-- Skip counts by block (R49). -/
  skip : Store Nat
  /-- The selection in progress (R48). -/
  sel : Option Sel
  /-- Its batches that have not ended (R50). -/
  batches : List Batch
  /-- ALL_STOP: no further selection (R61). -/
  stopped : Bool
  /-- Outstanding counts of F8-F11 (R89). -/
  flags : Store Nat
  toks : List Tok
  /-- The sticky floating-point flags (R72). -/
  fexc : BitVec 5
  /-- Settings of them that an SGET may not see yet (R73). -/
  fexcLate : List FexcNote
  tile : Store Byte
  tctl : Store W32
  acc : Store W32
  acst : List Acst
  cv : List Cv
  bars : List Bar
  /-- Network barriers it is a member of (R176). -/
  netMask : List Nat
  scratch : Store Byte
  /-- Crews that hold an extended block (R26). -/
  holders : List Nat
  walker : Option Graph
  gemm : Option Gemm
  /-- Sets whose completing signature was withdrawn while a later set of the register was under way (R99): register and set. -/
  owed : List (Nat × Cv)
  wdog : Nat
  /-- WDOG_CTL as taken at the last reset of the count (R225). -/
  wdogCtl : W32
  /-- The count has been reset and WDOG_CTL is still to be taken. -/
  wdogNew : Bool
  /-- Core cycles since its last issue with an eligible block (R189). -/
  starve : Nat
  /-- FAIR_WINDOW as taken when that run began (R190). -/
  fair : Nat
  /-- Picoseconds it has waited unplaced while its tenant held its turn (R190). -/
  waited : Nat
  /-- Saved at a switch tick, to be placed again when its tenant's turn comes (R206). -/
  ticked : Bool
  /-- Its core's memory holds an uncorrectable error to be met at restore (R306). -/
  doomed : Option Nat
  deriving DecidableEq, Repr

/-- What started a grid (R36, R32). -/
inductive Road where
  | packet (fn q idx : Nat)
  | launch (team : Nat)
  | node (team node : Nat)
  | network
  deriving DecidableEq, Repr

/-- A grid (R23, R29). -/
structure Grid where
  uid : Nat
  fn : Nat
  part : Nat
  kmode : Bool
  image : W64
  entry : Nat
  threads : Nat
  cls : Nat
  prio : Nat
  ext : Nat
  gx : Nat
  gy : Nat
  gz : Nat
  pool : W32
  psize : Nat
  param : Store Byte
  ring : W64
  tag : W32
  blocks : Nat
  doff : Nat
  dsize : Nat
  depth : Nat
  parent : Option Nat
  road : Road
  /-- Teams not yet given an object of their own start at this index. -/
  nextLin : Nat
  /-- Teams that have ended and left the retiring state. -/
  gone : Nat
  /-- Order and time of admission. -/
  admitted : Nat
  admittedAt : Nat
  /-- Picoseconds its tenant has held its turn since (R190). -/
  waited : Nat
  /-- The first fault that ended a team: code and linear index (R42). -/
  fault : Option (Nat × Nat)
  /-- When that was. -/
  faultAt : Nat
  /-- Its teams that had not started were ended by a fault (R224, R273). -/
  lost : Bool
  retired : Bool
  /-- Its GRID_DONE has joined its ring's records (R37). -/
  queued : Bool
  /-- Its GRID_DONE is written (R37). -/
  reported : Bool
  deriving DecidableEq, Repr

/-- What a grid or team handle names (R34). -/
inductive Target where
  | grid (uid : Nat)
  | team (grid lin : Nat)
  deriving DecidableEq, Repr

/-- A released crew that has not left its barrier yet (R180, R281): the core cycle it leaves at. -/
structure Wave where
  due : Nat
  team : Nat
  crew : Nat
  net : Bool
  b : Nat
  gen : Nat
  deriving DecidableEq, Repr

/-- The instruction that occupies an issue slice (R276): the slice, its weight per lane (R282), the lanes it still has to process,
and one more than the team whose clause it completes, 0 for none (R226). -/
structure Job where
  slice : Nat
  weight : Nat
  lanes : Nat
  team : Nat
  deriving DecidableEq, Repr

/-- A core (R11): what is not a team's. -/
structure Core where
  /-- Cycle counter of TSTAMP.CYC (R22, R285). -/
  cyc : Nat
  /-- E of the last four cycles, newest first (R282). -/
  hist : List Nat
  /-- One more than the stretched cycles still to come; 1 is an end not yet recorded, 0 no stretch (R283). -/
  stretch : Nat
  /-- The same for the cycles under half issue (R283). -/
  half : Nat
  /-- An alarm found and not yet acted on (R283). -/
  alarm : Bool
  /-- The team place the round stands at, and the issues it has left (R257): with none the next place is due, place 0 at first. -/
  turn : Nat
  left : Nat
  /-- Cached clauses: (function, address) and the clause (R326). -/
  clauses : List ((Nat × W64) × Clause)
  /-- Marked L1 lines (R258). -/
  marks : List Nat
  /-- CLK_RATIO as it is in force (R275). -/
  ratio : W32
  /-- The throttle level in force (R279). -/
  level : Nat
  /-- Issue cycles its matrix slice is still occupied for (R119, R277). -/
  matrix : Nat
  /-- Picoseconds at which its present cycle starts. -/
  at_ : Nat
  waves : List Wave
  job : Job
  deriving DecidableEq, Repr

def Core.zero : Core := ⟨0, [], 0, 0, false, 3, 0, [], [], 0x00888888, 0, 0, 0, [], ⟨0, 0, 0, 0⟩⟩

/-- A switch tick's save in progress (R223): the outgoing function, the tick, the shares not yet saved (4 is the hub
die's), and those saved with their times. -/
structure Save where
  part : Nat
  fn : Nat
  start : Nat
  left : List Nat
  shares : List (Nat × Nat)
  deriving DecidableEq, Repr

/-- The teams, grids and cores. -/
structure Work where
  cores : Store Core
  teams : Store (Option Team)
  grids : Store (Option Grid)
  handles : List (W64 × Target)
  /-- Function whose turn it is in each partition, keyed by first slice (R266). -/
  turns : Store (Option Nat)
  /-- Picoseconds left of the turn. -/
  turnLeft : Store Nat
  /-- Placements decided and not yet carried out: team and core (R200). -/
  plans : List (Nat × Nat)
  saves : List Save
  /-- The tenant that owes each partition's DEBT (R223). -/
  debtor : Store (Option Nat)
  /-- When the waits were last read for the microsecond's sake (R197). -/
  polled : Nat
  /-- Barriers that something has reached in the present cycle, to be tested at its end (R178): whether it is a network barrier,
  its team or partition, and its number. -/
  tests : List (Bool × Nat × Nat)
  deriving DecidableEq, Repr

/-- One word of an L1 (R134): the value its core reads, the owned bit, and the registry word it is of. -/
structure L1Word where
  val : W32
  owned : Bool
  home : Nat
  /-- The value that reads of other cores get while the registry records this copy as the owner: the one its last accepted
  registration had. -/
  pub : W32
  /-- Bytes stored since that registration, one bit each: what the registration in flight carries. -/
  mask : Nat
  deriving DecidableEq, Repr

/-- A registration in flight (R134). -/
structure Flight where
  core : Nat
  key : Nat
  /-- It is of the word at `key` and of the one after it: a 64-bit store is one write (R143). -/
  wide : Bool
  /-- A store at SYSTEM scope: once accepted, its value goes to host memory (R140). -/
  sys : Bool
  /-- The time by which it is accepted (R134); none in the instant it is sent. -/
  due : Option Nat
  /-- The grids whose teams stored what it carries: they retire only once it has been accepted (R37). -/
  grids : List Nat
  deriving DecidableEq, Repr

/-- A translation a home caches (R126): the leaf, and whether it is of a 2 MiB page. -/
structure TlbEntry where
  leaf : W64
  big : Bool
  deriving DecidableEq, Repr

/-- A destination an engine has claimed (R149). -/
inductive Claim where
  /-- A 128-byte line: the function and partition its address is translated for, its virtual line number, and whether it is
  written through a fill handle. -/
  | line (copy fn part line : Nat) (fill : Bool)
  /-- A range of a team's scratchpad. -/
  | scratch (copy team lo hi : Nat)
  deriving DecidableEq, Repr

/-- What moves next: a batch, an event, or the device's own choice. -/
inductive Act where
  | batch (team id : Nat)
  | event (i : Instr)
  /-- What the device does by itself (log 2). -/
  | own
  deriving DecidableEq, Repr

/-- A page that a home agent has blocked (R137): its function, its 64 KiB page number with the home field, its size. -/
structure Migration where
  fn : Nat
  page : Nat
  big : Bool
  recalled : Bool
  /-- Queued accesses in arrival order: what makes each, and its thread. -/
  queue : List (Act × Nat)
  deriving DecidableEq, Repr

/-- The image of a saved context in its function's save area (R220, R221). -/
structure Image where
  team : Nat
  /-- Names its bytes, which are free values (log 106). -/
  draw : Nat
  /-- Its place in HBM. -/
  lo : Nat
  size : Nat
  /-- Ranges of it written since, first byte and count: its integrity tag is wrong. -/
  redone : List (Nat × Nat)
  deriving DecidableEq, Repr

/-- Memory, keys, caches and registries. -/
structure Mem where
  /-- HBM by device physical address (R128). -/
  hbm : List Host.Cell
  /-- Host memory by host physical address. -/
  host : List Host.Cell
  /-- The frame key maps, by 64 KiB frame (R131). -/
  frameKey : Store Nat
  /-- Loads of each key slot since start-up (R132). -/
  keyLoads : Store Nat
  /-- The load a line was written under; by line, and by frame for lines written only by a scrub. -/
  lineLoad : Store (Option Nat)
  frameLoad : Store Nat
  /-- Poisoned lines, by their line number in HBM (R306). -/
  poison : List Nat
  /-- The owner a registry records for a word (R134). -/
  owner : Store (Option Nat)
  /-- The core whose thread wrote the value a byte has at its registry (R145), by word × 4 + byte; none for an engine, the host, the device. -/
  writer : Store (Option Nat)
  l1 : Store (Option L1Word)
  /-- Lines that L1s have evicted for room, a name counter read by free values. -/
  evicts : Nat
  flights : List Flight
  tlb : Store (Option TlbEntry)
  claims : List Claim
  moves : List Migration
  /-- The registry has changed since waits were last read (R197). -/
  dirty : Bool
  /-- Accesses to be replayed after a move, in arrival order (R137). -/
  replays : List Act
  /-- Shadow tags of the sampled L2 sets, newest first: (slice × 1024 + function) × 16384 + set (R269). -/
  shadow : Store (List Nat)
  /-- L2 sampling counts: slice × 1024 + function, gain and loss (R269). -/
  gains : Store (Nat × Nat)
  /-- Frames of a scrub in progress: next and count left, key (R133). -/
  scrub : Option (Nat × Nat × Nat)
  /-- A key load in progress (R132). -/
  keyLoad : Option Nat
  /-- Images of saved contexts, the newest first (R220). -/
  images : List Image
  deriving DecidableEq, Repr

/-- The states of a pair slot (R228). -/
inductive SlotState where
  | free | filling | sealed | abandoned
  deriving DecidableEq, Repr

/-- Who holds a fill handle (R228). -/
inductive Holder where
  | none
  | team (uid : Nat)
  | engine (copy : Nat)
  | transport
  | queue (part : Nat)
  | remote (dev : Nat)
  deriving DecidableEq, Repr

/-- A slot of a pair table (R228). -/
structure Slot where
  st : SlotState
  gen : Nat
  base : W64
  size : Nat
  scratch : Bool
  team : Nat
  fn : Nat
  part : Nat
  holder : Holder
  /-- Withdrawn from allocation until the next start (R242). -/
  withdrawn : Bool
  deriving DecidableEq, Repr

def Slot.zero : Slot := ⟨.free, 0, 0, 0, false, 0, 0, 0, .none, false⟩

/-- A transfer by HSEND (R245). -/
structure Transfer where
  id : Nat
  handle : W64
  team : Nat
  d : Nat
  dest : Nat
  tag : W32
  fill : Bool
  tok : Nat
  deadline : Nat
  deriving DecidableEq, Repr

/-- The pair tables and the receive queues. -/
structure Pairs where
  /-- Slots by die × 16384 + number. -/
  slots : Store Slot
  /-- Seal key of each die (R230). -/
  seals : Store W64
  /-- Receive queues: partition, tag, handle, oldest first (R246). -/
  queue : List (Nat × W32 × W64)
  transfers : List Transfer
  /-- Fill handles returned to their senders before any answer came (R299): an acceptance that still comes is withdrawn. -/
  returned : List Transfer
  deriving DecidableEq, Repr

/-- Where a copy reads or writes. -/
inductive Place where
  /-- A global virtual address of a function and partition. -/
  | global (fn part : Nat) (va : Nat)
  /-- A scratchpad offset of a team. -/
  | scratch (team off : Nat)
  /-- A tile of another device, by its handle (R247). -/
  | remote (dev : Nat) (h : W64) (off : Nat)
  deriving DecidableEq, Repr

/-- Who posted a copy (R164). -/
inductive Issuer where
  | thread (team thread batch : Nat)
  | node (team node : Nat)
  | packet (fn q idx : Nat)
  deriving DecidableEq, Repr

/-- What a copy signals (R169). -/
inductive Signal where
  | none
  | flag (team batch : Nat) (f : Nat)
  | bar (team b : Nat)
  | netBar (part b : Nat)
  deriving DecidableEq, Repr

/-- A TCPY shape record (R173). -/
structure Shape where
  base : W64
  strides : List Int
  ext : List Nat
  tile : List Nat
  pos : List Nat
  ety : Ty
  redop : Nat
  devbase : Nat
  gridw : Nat
  x : Nat
  y : Nat
  repl : Nat
  deriving DecidableEq, Repr

/-- A posted copy (R168). -/
structure Copy where
  id : Nat
  issuer : Issuer
  fn : Nat
  part : Nat
  core : Nat
  src : Place
  dst : Place
  count : Nat
  /-- Bytes written so far; of a tensor copy, lines written (to the present rank). -/
  moved : Nat
  /-- The copy writes through a fill handle (R129 order 4). -/
  viaFill : Bool
  signal : Signal
  /-- The fill handle it holds (R167). -/
  fill : Option W64
  shape : Option Shape
  /-- Ranks of a tensor copy still to serve, by device, and the data read from those served (R174). -/
  ranks : List Nat
  gathered : List (List Byte)
  /-- An access to the first of them has been sent and not answered. -/
  asked : Bool
  tag : W32
  ring : W64
  /-- Parked at a fault: code and address (R170). -/
  parked : Option (Nat × W64)
  /-- The engine fault has been delivered. -/
  told : Bool
  /-- The token of the clause that posted it, 0 for none (R89). -/
  tok : Nat
  deriving DecidableEq, Repr

/-- The copy engines. -/
structure Engines where
  /-- Queues by engine number, the copy being served first (R164). -/
  queues : Store (List Copy)
  /-- Saved copies of saved teams (R171). -/
  saved : List Copy
  /-- What a TDI that has left RUN had under way, by identifier (copies, packets, requests, teams' graphs): no access or record of
  theirs reaches host memory any more (R273). -/
  cut : List Nat
  /-- Engines whose ENG_OWN a write has changed: the cycle of the write, and the value before it (R274). -/
  taken : List (Nat × Nat × W32)
  deriving DecidableEq, Repr

/-- The registers of the control apertures (R3). Arrays are keyed as each comment says. -/
structure Ctl where
  /-- XLT_ROOT: function × 8 + home (R126). -/
  xltRoot : Store W64
  hostBase : Store W64
  hostLim : Store W64
  keyCmd : W32
  keyData : Store W32
  scrubAddr : W64
  scrubCtl : W32
  /-- By slice. -/
  progress : Store W32
  wdog : Store W32
  svcRing : Store W64
  switchCtl : Store W32
  switchStat : Store W32
  partCtl : Store W32
  declia : Store W32
  slicePwr : Store W64
  /-- By function. -/
  ctxArea : Store W64
  vfCfg : Store W64
  vfL2 : Store W32
  vfBw : Store W32
  /-- Slice × 1024 + function. -/
  l2Cur : Store W32
  /-- By engine. -/
  engOwn : Store W32
  schedStat : W32
  pwrCtl : W32
  pwrStat : W32
  /-- By core. -/
  hoist : Store W32
  clkRatio : Store W32
  wave : Store W32
  canary : Store W32
  /-- Function × 256 + entry. -/
  collAp : Store W64
  /-- Function × 64 + ring. -/
  wqRing : Store W64
  bootReason : W32
  errCnt : W64
  /-- Function × 64 + queue. -/
  qmap : Store W32
  /-- Function × 16 + entry. -/
  ntlDesc : Store W64
  ntlCtl : Store W64
  deriving DecidableEq, Repr

/-- A packet between its start and its completion (R251). -/
structure Packet where
  fn : Nat
  q : Nat
  /-- Its name. -/
  idx : Nat
  kind : Nat
  /-- The grid it waits for. -/
  work : Option Nat
  words : List W64
  deriving DecidableEq, Repr

/-- A device queue (R248). -/
structure Queue where
  base : W64
  ctl : W32
  rd : W32
  /-- The kicked index. -/
  k : W32
  /-- Its bit of the pending-kick bitmap (R249). -/
  pend : Bool
  /-- The packet at RD has been read and has not started (R253). -/
  read : Bool
  deriving DecidableEq, Repr

def Queue.zero : Queue := ⟨0, 0, 0, 0, false, false⟩

/-- A record on its way to a ring (R44). -/
structure Rec where
  fn : Nat
  part : Nat
  ring : W64
  kind : Nat
  status : Nat
  tag : W32
  value : W64
  handle : W64
  /-- Vector to send once it is written (R251). -/
  msix : Option Nat
  /-- A service record's body (R217): 128-byte record, TIME and SEQ filled in at the write. -/
  service : Option (List Byte)
  /-- Grid whose GRID_DONE it is. -/
  grid : Option Nat
  /-- SIGNAL node of a graph that finishes with it: team and node (R182). -/
  node : Option (Nat × Nat)
  /-- Trigger counter raised once it is written (R295). -/
  trig : Option Nat
  /-- The service record whose ANSWERED byte is stored once it is written (R219): function, partition, address and byte. -/
  answer : Option (Nat × Nat × Nat × Byte)
  deriving DecidableEq, Repr

/-- The queues, the command processors and the rings. -/
structure Queues where
  /-- Function × 64 + queue of the mapped device queue's registers. -/
  q : Store Queue
  /-- Slots: command processor, function × 64 + queue, oldest mapping first (R253). -/
  slots : List (Nat × Nat)
  /-- Rotating pointers: command processor × 8 + priority, for slots and for starts (R254). -/
  slotPtr : Store Nat
  startPtr : Store Nat
  packets : List Packet
  /-- Records held, in order (R44). -/
  held : List Rec
  /-- The Foreman's journal: RD, k and the slot's mapping, by function × 64 + queue (R255). -/
  journal : Store (W32 × W32 × Bool)
  /-- The journal's snapshot of the pending-kick bitmap, by function × 64 + queue. -/
  snapshot : List Nat
  standby : Bool
  testing : Bool
  deriving DecidableEq, Repr

/-- A work request in progress (R296). -/
structure Request where
  id : Nat
  fn : Nat
  ring : Option Nat
  bytes : List Byte
  part : Nat
  sat : Bool
  /-- A REDUCE: the round it takes of each element, by element; what has not been delivered yet. -/
  rounds : List (Nat × Nat)
  /-- Its data has moved, or it has failed. -/
  outcome : Option WqEnd
  /-- The address of its ring when it started, whose CONS its end advances (R296). -/
  base : Nat
  deriving DecidableEq, Repr

/-- A trigger slot that is armed (R297). -/
structure Trigger where
  slot : Nat
  or : Bool
  terms : List (Nat × Nat)
  bytes : List Byte
  part : Nat
  deriving DecidableEq, Repr

/-- An access through a handle homed on another device, sent and not yet used up (R247): the answer is a fault code, 0 for
none, and a value. -/
structure RemoteWait where
  id : Nat
  dev : Nat
  team : Nat
  thread : Nat
  h : W64
  /-- A see-load, which parks at the home device: its core acquires when it goes on (R240). -/
  see : Bool
  /-- The code and the data of the answer. -/
  answer : Option (Nat × List Byte)
  deriving DecidableEq, Repr

/-- A peer's LDSEE parked at this home device (R239, R247): partition, handle, offset, size. -/
structure RemoteSee where
  part : Nat
  h : W64
  off : Nat
  n : Nat
  /-- The bytes are asked for; else only whether the tile is sealed (R167). -/
  data : Bool
  deriving DecidableEq, Repr

/-- The links to other devices. -/
structure Net where
  /-- Peer table of a partition (R290). -/
  peers : Store (List Nat)
  /-- Contribution and load counts by ((function × 256 + entry) × 2^46 + element) (R293). -/
  stores : Store Nat
  loads : Store Nat
  /-- Rounds delivered by the switch. -/
  delivered : Store Nat
  /-- Results delivered: key of the element, round, value, and the flag of a saturated sum (R294). -/
  results : List (Nat × Nat × W64 × Bool)
  requests : List Request
  /-- The next index the hub die assigns in a work-request ring: function × 64 + ring (R417). -/
  wqNext : Store Nat
  /-- The ring a function's next visit starts at (R296). -/
  visit : Store Nat
  /-- Function's trigger queue (R298). -/
  fired : List (Nat × List Byte × Nat)
  /-- Armed slots by function. -/
  triggers : Store (List Trigger)
  /-- Counters: function × 64 + n (R297). -/
  tc : Store W32
  /-- Network barriers: partition × 256 + b (R175). -/
  bars : Store Bar
  waits : List RemoteWait
  sees : List RemoteSee
  /-- Tagged messages that have come and are not handled yet, in their order: partition, tag, payload address (R261). -/
  inbox : List (Nat × W32 × W64)
  /-- Peers' accesses through fill handles that wait here, in the order of their arrival: partition and access (R247). -/
  fhWait : List (Nat × RemoteAccess)
  /-- Posts that wait for their index to be filled, in the order of their arrival (R417): function × 64 + ring, team, thread. -/
  posts : List (Nat × Nat × Nat)
  deriving DecidableEq, Repr

/-- What survives a reset, and the start in progress (R301-R305). -/
structure Boot where
  slots : List FlashSlot
  antiRollback : Nat
  fails : Nat
  lastCause : Nat
  /-- Picoseconds since this start began and since its stage began. -/
  began : Nat
  stageAt : Nat
  slot : Nat
  /-- The reset has been accepted and not yet begun (R308). -/
  resetDue : Bool
  /-- This start has failed, and has been counted (R303, R304). -/
  failed : Bool
  deriving DecidableEq, Repr

/-- A response to a TDISP request (R272): the request's code, whether it was rejected, and a value. -/
structure Reply where
  fn : Nat
  code : Nat
  rejected : Bool
  value : W64
  deriving DecidableEq, Repr

/-- TDISP sessions and responses (R272, R273). -/
structure Tdisp where
  /-- Function to session. -/
  bound : Store (Option Nat)
  /-- Responses sent, oldest first. -/
  replies : List Reply
  deriving DecidableEq, Repr

/-- What leaves the device. -/
inductive Out where
  | msix (fn vec : Nat)
  | hostWrite (pa : Nat) (data : List Byte)
  | hostRead (pa : Nat) (data : List Byte) (poisoned : Bool)
  | message (part dest : Nat) (tag : W32) (payload : W64)
  /-- A handle sent by HSEND under the name of its transfer (R245). -/
  | handle (part dest id : Nat) (tag : W32) (h : W64)
  | contribution (fn entry elem : Nat) (value : W64)
  /-- An access sent to another device under a name of its own (R247, R296). -/
  | remote (part dev id : Nat) (acc : RemoteAccess)
  /-- The answer to a peer's access: a fault code, 0 for none, and bytes. -/
  | answer (part code : Nat) (data : List Byte)
  | refused (part : Nat) (tag : W32)
  deriving DecidableEq, Repr

/-- A turn: picoseconds that pass first, then what moves. -/
structure Turn where
  dt : Nat
  what : Act
  deriving DecidableEq, Repr

/-- Which agent moves next, and the clocks (log 2). -/
structure Sched where
  agenda : List Turn
  /-- The batch issuing: team and batch. -/
  cur : Option (Nat × Nat)
  /-- Picoseconds since power-on; the reference counter counts 1000 of them (R22). -/
  now : Nat
  /-- When the last start began (R22). -/
  startAt : Nat
  /-- Power epochs since then (R17, R279), and epochs of the L2 ways by slice (R269). -/
  powered : Nat
  waysAt : Store Nat
  /-- Reference counter at the last synchronisation (R303). -/
  refBase : Nat
  /-- Source of names and of positions of free values. -/
  fresh : Nat
  /-- A name counter for steps, read by free values. -/
  tick : Nat
  deriving DecidableEq, Repr

/-- The machine. -/
structure State where
  sched : Sched
  work : Work
  mem : Mem
  pairs : Pairs
  eng : Engines
  ctl : Ctl
  queues : Queues
  net : Net
  boot : Boot
  tdisp : Tdisp
  out : List Out
  deriving DecidableEq, Repr

/-- The canonical form of the two memories. -/
abbrev Mem.wf (m : Mem) : Prop := Store.wf 0 m.hbm = true ∧ Store.wf 0 m.host = true

/-- A flash slot that verifies (log 17). -/
def FlashSlot.good : FlashSlot := ⟨true, true, ⟨[], [], [], true⟩, [], 0⟩

def Sched.reset : Sched := ⟨[], none, 0, 0, 0, [], 0, 1, 0⟩
def Work.reset : Work := ⟨[], [], [], [], [], [], [], [], [], 0, []⟩
def Mem.reset : Mem := ⟨[], [], [], [], [], [], [], [], [], [], 0, [], [], [], [], false, [], [], [], none, none, []⟩
def Pairs.reset : Pairs := ⟨[], [], [], [], []⟩
def Engines.reset : Engines := ⟨[], [], [], []⟩
/-- Every array stands at its reset value, which is what an unlisted entry reads as (see Machine/HostRegs.lean). -/
def Ctl.reset : Ctl :=
  { xltRoot := [], hostBase := [], hostLim := [], keyCmd := 0, keyData := [], scrubAddr := 0, scrubCtl := 0
    progress := [], wdog := [], svcRing := [], switchCtl := [], switchStat := [], partCtl := [], declia := []
    slicePwr := [], ctxArea := [], vfCfg := [], vfL2 := [], vfBw := [], l2Cur := [], engOwn := [], schedStat := 0
    pwrCtl := 0x0E100BB8, pwrStat := 6000000, hoist := [], clkRatio := [], wave := [], canary := [], collAp := []
    wqRing := [], bootReason := 0, errCnt := 0, qmap := [], ntlDesc := [], ntlCtl := [] }
def Queues.reset : Queues := ⟨[], [], [], [], [], [], [], [], true, false⟩
def Net.reset : Net := ⟨[], [], [], [], [], [], [], [], [], [], [], [], [], [], [], [], []⟩
def Boot.reset : Boot := ⟨[FlashSlot.good, FlashSlot.good], 0, 0, 0, 0, 0, 0, false, false⟩
def Tdisp.reset : Tdisp := ⟨[], []⟩

/-- The machine right after power-on: stage 0 of a start (R303), every register at its reset value. -/
def State.reset : State :=
  { sched := Sched.reset, work := Work.reset, mem := Mem.reset, pairs := Pairs.reset, eng := Engines.reset
    ctl := Ctl.reset, queues := Queues.reset, net := Net.reset, boot := Boot.reset, tdisp := Tdisp.reset, out := [] }

end Sys2Proof.Machine
end

