-- ==== Sys2Proof/Machine/Regs.lean ====
section
/-! DEFINITION. The control registers by name: each array's reset value, and the fields programs and the device read.
The reset value of a register is what its unlisted entry reads as. -/

namespace Sys2Proof.Machine

/-- Bits lo+len-1:lo of a number. -/
def bits (x lo len : Nat) : Nat := x / 2 ^ lo % 2 ^ len
/-- Bit `i` of a number. -/
def bit (x i : Nat) : Bool := x / 2 ^ i % 2 == 1

/-- PROGRESS_CTL of a slice (R190). -/
def Ctl.progressOf (c : Ctl) (s : Nat) : W32 := Store.get 0x00641000 c.progress s
/-- WDOG_CTL of a slice (R225). -/
def Ctl.wdogOf (c : Ctl) (s : Nat) : W32 := Store.get 0x27100400 c.wdog s
/-- SVC_RING of the partition whose first slice is `s` (R216). -/
def Ctl.svcRingOf (c : Ctl) (s : Nat) : W64 := Store.get 0 c.svcRing s
/-- SWITCH_CTL (R222). -/
def Ctl.switchCtlOf (c : Ctl) (s : Nat) : W32 := Store.get 0x01F40028 c.switchCtl s
/-- SWITCH_STAT (R222). -/
def Ctl.switchStatOf (c : Ctl) (s : Nat) : W32 := Store.get 0 c.switchStat s
/-- PART_CTL (R264). -/
def Ctl.partCtlOf (c : Ctl) (s : Nat) : W32 := Store.get 0 c.partCtl s
/-- DECLIA_CTL (R290). -/
def Ctl.decliaOf (c : Ctl) (s : Nat) : W32 := Store.get 0 c.declia s
/-- SLICE_PWR: GRANT resets to 250 (R278). -/
def Ctl.slicePwrOf (c : Ctl) (s : Nat) : W64 := Store.get 0x00FA000000000000 c.slicePwr s
/-- CTX_AREA of a function (R221). -/
def Ctl.ctxAreaOf (c : Ctl) (f : Nat) : W64 := Store.get 0 c.ctxArea f
/-- VF_CFG of a function; entry 0 is PF_CFG (R265). -/
def Ctl.vfCfgOf (c : Ctl) (f : Nat) : W64 := Store.get 0 c.vfCfg f
/-- VF_L2: CEIL 0x18, FLOOR 1 (R268). -/
def Ctl.vfL2Of (c : Ctl) (f : Nat) : W32 := Store.get 0x1801 c.vfL2 f
/-- VF_BW: HBM_CEIL 0x80 (R270). -/
def Ctl.vfBwOf (c : Ctl) (f : Nat) : W32 := Store.get 0x8000 c.vfBw f
/-- L2_CUR of slice and function (R268). -/
def Ctl.l2CurOf (c : Ctl) (s f : Nat) : W32 := Store.get 0 c.l2Cur (s * 1024 + f)
/-- ENG_OWN of an engine: EN resets to 1 (R271). -/
def Ctl.engOwnOf (c : Ctl) (e : Nat) : W32 := Store.get 1 c.engOwn e
/-- HOIST_CTL of a core (R50). -/
def Ctl.hoistOf (c : Ctl) (k : Nat) : W32 := Store.get 0x40 c.hoist k
/-- CLK_RATIO of a core as last written (R275). -/
def Ctl.clkRatioOf (c : Ctl) (k : Nat) : W32 := Store.get 0x00888888 c.clkRatio k
/-- WAVE_CTL of a core (R281). -/
def Ctl.waveOf (c : Ctl) (k : Nat) : W32 := Store.get 0x1004 c.wave k
/-- CANARY_CTL of a core (R283). -/
def Ctl.canaryOf (c : Ctl) (k : Nat) : W32 := Store.get 0xC0 c.canary k
/-- COLL_AP of a function's entry (R292). -/
def Ctl.collApOf (c : Ctl) (f e : Nat) : W64 := Store.get 0 c.collAp (f * 256 + e)
/-- WQ_RING of a function's ring (R295). -/
def Ctl.wqRingOf (c : Ctl) (f r : Nat) : W64 := Store.get 0 c.wqRing (f * 64 + r)
/-- XLT_ROOT of a function and home (R126). -/
def Ctl.xltRootOf (c : Ctl) (f h : Nat) : W64 := Store.get 0 c.xltRoot (f * 8 + h)
/-- The reset value of HOST_BASE: enabled for the PF's window 0 (R421). -/
def hostBaseReset (f w : Nat) : W64 := if f = 0 ∧ w = 0 then 1 else 0
/-- The reset value of HOST_LIM: all ones for the PF's window 0 (R421). -/
def hostLimReset (f w : Nat) : W64 := if f = 0 ∧ w = 0 then 0x000FFFFFFFFF0000 else 0
/-- HOST_BASE of a function's window (R421). -/
def Ctl.hostBaseOf (c : Ctl) (f w : Nat) : W64 := Store.get (hostBaseReset f w) c.hostBase (f * 4 + w)
/-- HOST_LIM of a function's window (R421). -/
def Ctl.hostLimOf (c : Ctl) (f w : Nat) : W64 := Store.get (hostLimReset f w) c.hostLim (f * 4 + w)
/-- QMAP of a function's queue (R250). -/
def Ctl.qmapOf (c : Ctl) (f q : Nat) : W32 := Store.get 0 c.qmap (f * 64 + q)
/-- NTL_DESC of a launch entry (R260). -/
def Ctl.ntlDescOf (c : Ctl) (f e : Nat) : W64 := Store.get 0 c.ntlDesc (f * 16 + e)
/-- NTL_CTL of a launch entry (R260). -/
def Ctl.ntlCtlOf (c : Ctl) (f e : Nat) : W64 := Store.get 0 c.ntlCtl (f * 16 + e)

/-- A 32-bit register with bits hi:lo replaced. -/
def put32 (x : W32) (lo len v : Nat) : W32 :=
  BitVec.ofNat 32 (x.toNat - bits x.toNat lo len * 2 ^ lo + v % 2 ^ len * 2 ^ lo)
/-- A 64-bit register with bits hi:lo replaced. -/
def put64 (x : W64) (lo len v : Nat) : W64 :=
  BitVec.ofNat 64 (x.toNat - bits x.toNat lo len * 2 ^ lo + v % 2 ^ len * 2 ^ lo)

/-- Partition sizes by SIZE code (R264). -/
def sizeOfCode : Nat → Nat
  | 0 => 1 | 1 => 2 | 2 => 3 | 3 => 4 | 4 => 6 | 5 => 12 | _ => 0

/-- The partition of first slice `s` exists (R264). -/
def Ctl.partOn (c : Ctl) (s : Nat) : Bool := decide (s < 12) && bit (c.partCtlOf s).toNat 0
/-- Its number of slices. -/
def Ctl.partSize (c : Ctl) (s : Nat) : Nat := sizeOfCode (bits (c.partCtlOf s).toNat 4 3)
/-- Its Declia device number (R264). -/
def Ctl.devnum (c : Ctl) (s : Nat) : Nat := bits (c.partCtlOf s).toNat 16 11
/-- Slice `x` belongs to partition `s` (R262). -/
def Ctl.owns (c : Ctl) (s x : Nat) : Bool := c.partOn s && decide (s ≤ x ∧ x < s + c.partSize s)
/-- The partition a slice belongs to. -/
def Ctl.partOfSlice (c : Ctl) (x : Nat) : Option Nat := (List.range 12).find? (fun s => c.owns s x)
/-- The partition has a slice on die `d` (R125). -/
def Ctl.onDie (c : Ctl) (s d : Nat) : Bool := (List.range 12).any (fun x => c.owns s x && decide (x / 3 = d))
/-- Number of the partition's slices on die `d` (R229). -/
def Ctl.slicesOn (c : Ctl) (s d : Nat) : Nat := ((List.range 12).filter (fun x => c.owns s x && decide (x / 3 = d))).length
/-- Copy engine `e` is owned by partition `s` (R271). -/
def Ctl.ownsEngine (c : Ctl) (s e : Nat) : Bool :=
  decide (e < 48) && bit (c.engOwnOf e).toNat 0 && decide (bits (c.engOwnOf e).toNat 8 4 = s)
/-- The engines a partition owns, in ascending number. -/
def Ctl.enginesOf (c : Ctl) (s : Nat) : List Nat := (List.range 48).filter (c.ownsEngine s)

/-- VF `f` is enabled (R265); the PF always is. -/
def Ctl.fnOn (c : Ctl) (f : Nat) : Bool := decide (f = 0) || (decide (f ≤ 384) && bit (c.vfCfgOf f).toNat 0)
/-- First slice of VF `f`'s partition (R265). -/
def Ctl.vfPart (c : Ctl) (f : Nat) : Nat := bits (c.vfCfgOf f).toNat 8 4
/-- MODE of VF `f`: core subset (R265). -/
def Ctl.vfSubset (c : Ctl) (f : Nat) : Bool := bit (c.vfCfgOf f).toNat 1
/-- TDISP state of VF `f` (R265). -/
def Ctl.tdiOf (c : Ctl) (f : Nat) : Nat := if f = 0 then 0 else bits (c.vfCfgOf f).toNat 60 2
/-- Key `k` belongs to VF `f` (R267). -/
def Ctl.keyOf (c : Ctl) (f k : Nat) : Bool :=
  let v := (c.vfCfgOf f).toNat
  decide (bits v 38 11 ≤ k ∧ k < bits v 38 11 + bits v 49 11)
/-- The enabled VFs. -/
def Ctl.vfs (c : Ctl) : List Nat := ((Store.keys c.vfCfg).filter (fun f => decide (1 ≤ f ∧ f ≤ 384) && bit (c.vfCfgOf f).toNat 0))

/-- Core `k` within its slice is held by an enabled core-subset VF of partition `s`. -/
def Ctl.subsetHas (c : Ctl) (s k : Nat) : Bool :=
  c.vfs.any (fun f => c.vfSubset f && decide (c.vfPart f = s) &&
    decide (bits (c.vfCfgOf f).toNat 12 5 ≤ k ∧ k < bits (c.vfCfgOf f).toNat 12 5 + bits (c.vfCfgOf f).toNat 17 5))

/-- The cores function `f` may use in partition `s`, ascending (R266). The PF runs on every core of the partition. -/
def Ctl.coresOf (c : Ctl) (f s : Nat) : List Nat :=
  (List.range 288).filter (fun k =>
    c.owns s (k / 24) &&
      (if f = 0 then true
       else if c.vfSubset f then
         decide (bits (c.vfCfgOf f).toNat 12 5 ≤ k % 24 ∧ k % 24 < bits (c.vfCfgOf f).toNat 12 5 + bits (c.vfCfgOf f).toNat 17 5)
       else !c.subsetHas s (k % 24)))

/-- SKIP_MAX of a core (R50). -/
def Ctl.skipMax (c : Ctl) (k : Nat) : Nat := bits (c.hoistOf k).toNat 0 10
/-- DBG_MODE of a core: NON_STOP (R50). -/
def Ctl.nonStop (c : Ctl) (k : Nat) : Bool := bit (c.hoistOf k).toNat 16
/-- Throttle level of a slice (R278). -/
def Ctl.level (c : Ctl) (s : Nat) : Nat := bits (c.slicePwrOf s).toNat 0 3

/-- The reference counter (R22). -/
def State.refTime (s : State) : Nat := (s.sched.now - s.sched.refBase) / 1000
/-- The start has reached stage 5 (R303). -/
def State.running (s : State) : Bool := bits s.ctl.bootReason.toNat 0 3 == 5
/-- Lamp mode (R304). -/
def State.lamp (s : State) : Bool := bit s.ctl.bootReason.toNat 31

end Sys2Proof.Machine
end

