-- ==== Sys2Proof/Machine/Access.lean ====
section
/-! DEFINITION. Finding and replacing the parts of the state: teams, grids, batches, threads, cores. -/

namespace Sys2Proof.Machine

/-- Two byte ranges meet. -/
def overlap (a n b m : Nat) : Bool := decide (a < b + m) && decide (b < a + n)

def State.setSched (s : State) (x : Sched) : State := { s with sched := x }
def State.setWork (s : State) (x : Work) : State := { s with work := x }
def State.setMem (s : State) (x : Mem) : State := { s with mem := x }
def State.setPairs (s : State) (x : Pairs) : State := { s with pairs := x }
def State.setEng (s : State) (x : Engines) : State := { s with eng := x }
def State.setCtl (s : State) (x : Ctl) : State := { s with ctl := x }
def State.setQueues (s : State) (x : Queues) : State := { s with queues := x }
def State.setNet (s : State) (x : Net) : State := { s with net := x }
def State.setBoot (s : State) (x : Boot) : State := { s with boot := x }
def State.setTdisp (s : State) (x : Tdisp) : State := { s with tdisp := x }
def State.emit (s : State) (x : Out) : State := { s with out := s.out ++ [x] }

/-- A fresh name. -/
def State.fresh (s : State) : Nat := s.sched.fresh
/-- The state after `n` fresh names have been used. -/
def State.bump (s : State) (n : Nat) : State := s.setSched { s.sched with fresh := s.sched.fresh + n }

def State.team? (s : State) (u : Nat) : Option Team := Store.get none s.work.teams u
def State.setTeam (s : State) (t : Team) : State :=
  s.setWork { s.work with teams := Store.set none s.work.teams t.uid (some t) }
def State.dropTeam (s : State) (u : Nat) : State :=
  s.setWork { s.work with teams := Store.set none s.work.teams u none }
/-- Team `u` changed by `f`; nothing where there is none. -/
def State.onTeam (s : State) (u : Nat) (f : Team → Team) : State :=
  match s.team? u with
  | some t => s.setTeam { f t with uid := u }
  | none => s
def State.grid? (s : State) (g : Nat) : Option Grid := Store.get none s.work.grids g
def State.setGrid (s : State) (g : Grid) : State :=
  s.setWork { s.work with grids := Store.set none s.work.grids g.uid (some g) }
def State.onGrid (s : State) (u : Nat) (f : Grid → Grid) : State :=
  match s.grid? u with
  | some g => s.setGrid { f g with uid := u }
  | none => s
def State.core (s : State) (k : Nat) : Core := Store.get Core.zero s.work.cores k
def State.setCore (s : State) (k : Nat) (c : Core) : State :=
  s.setWork { s.work with cores := Store.set Core.zero s.work.cores k c }

/-- Every team there is, by name. -/
def State.teams (s : State) : List Team := s.work.teams.filterMap (·.2)
/-- Every grid there is, by name. -/
def State.grids (s : State) : List Grid := s.work.grids.filterMap (·.2)

/-- The place of an element in a list replaced. -/
def listPut {α : Type} : List α → Nat → α → List α
  | [], _, _ => []
  | _ :: xs, 0, v => v :: xs
  | x :: xs, n + 1, v => x :: listPut xs n v

def Thread.blank : Thread :=
  { pos := ⟨0, 0, 0⟩, at_ := 0, st := .waiting, k := [], w := [], preds := [], trap := ⟨0, 0, 0, 0, 0, 0, true, 0⟩, frame := none
    olds := [], parkedFor := 0, parkedAt := 0, holdNext := false, stepping := false, bitten := false }

def Team.thread (t : Team) (i : Nat) : Thread := t.threads.getD i Thread.blank
def Team.setThread (t : Team) (i : Nat) (x : Thread) : Team := { t with threads := listPut t.threads i x }
def Team.onThread (t : Team) (i : Nat) (f : Thread → Thread) : Team := t.setThread i (f (t.thread i))
/-- Indices of threads that satisfy a test, ascending. -/
def Team.indices (t : Team) (p : Thread → Bool) : List Nat :=
  (List.range t.threads.length).filter (fun i => p (t.thread i))
def Team.batch? (t : Team) (b : Nat) : Option Batch := t.batches.find? (fun x => x.id == b)
def Team.setBatch (t : Team) (b : Batch) : Team :=
  { t with batches := t.batches.map (fun x => if x.id = b.id then b else x) }
def Team.dropBatch (t : Team) (b : Nat) : Team := { t with batches := t.batches.filter (fun x => x.id != b) }

/-- The top of a thread's predicate stack; an empty stack has an all-true top (R56). -/
def Thread.top (t : Thread) : Bool := t.preds.headD true
/-- The thread lives: it has not ended. -/
def Thread.live (t : Thread) : Bool := t.st != .ended

/-- The threads of a batch whose predicate top is true (R52), in batch order. -/
def Team.active (t : Team) (b : Batch) : List Nat := b.threads.filter (fun i => (t.thread i).top)
/-- They, in ascending index. -/
def insertNat (x : Nat) : List Nat → List Nat
  | [] => [x]
  | y :: ys => if x < y then x :: y :: ys else if x = y then y :: ys else y :: insertNat x ys
def sortNat : List Nat → List Nat
  | [] => []
  | x :: xs => insertNat x (sortNat xs)

/-- What is issuing: the team and the batch. -/
structure Ctx where
  team : Team
  batch : Batch
  deriving Repr

def State.ctx? (s : State) : Option Ctx :=
  match s.sched.cur with
  | none => none
  | some (u, b) =>
    match s.team? u with
    | none => none
    | some t =>
      match t.batch? b with
      | none => none
      | some x => some ⟨t, x⟩

/-- The grid of a team; a placeholder where it is gone. -/
def Grid.blank : Grid :=
  { uid := 0, fn := 0, part := 0, kmode := false, image := 0, entry := 0, threads := 0, cls := 0, prio := 0, ext := 0
    gx := 0, gy := 0, gz := 0, pool := 0, psize := 0, param := [], ring := 0, tag := 0, blocks := 0, doff := 0
    dsize := 0, depth := 0, parent := none, road := .network, nextLin := 0, gone := 0, admitted := 0, admittedAt := 0
    waited := 0, fault := none, faultAt := 0, lost := false, retired := false, queued := false, reported := false }
def State.gridOf (s : State) (t : Team) : Grid := (s.grid? t.grid).getD Grid.blank

/-- Scratchpad bytes of a grid's teams: SP granules of the pool word (R121). -/
def Grid.spBytes (g : Grid) : Nat := bits g.pool.toNat 8 6 * 32768
/-- RF granules (R121). -/
def Grid.rf (g : Grid) : Nat := bits g.pool.toNat 0 7
/-- SP granules (R121). -/
def Grid.sp (g : Grid) : Nat := bits g.pool.toNat 8 6
/-- ACC granules (R121). -/
def Grid.accGr (g : Grid) : Nat := bits g.pool.toNat 16 6
/-- The number of teams of a grid (R28). -/
def Grid.count (g : Grid) : Nat := g.gx * g.gy * g.gz

/-- Crew of a thread (R24). -/
def crewOf (i : Nat) : Nat := i / 32
/-- The crew holds an extended block (R26). -/
def Team.ext (t : Team) (crew : Nat) : Bool := t.holders.contains crew
/-- K registers a thread may name (R313). -/
def Team.kTop (t : Team) (i : Nat) : Nat := if t.ext (crewOf i) then 128 else 32
/-- A crew has a live thread. -/
def Team.crewLive (t : Team) (c : Nat) : Bool :=
  (List.range 32).any (fun j => (t.threads.getD (32 * c + j) { Thread.blank with st := .ended }).live)
/-- The live crews, ascending. -/
def Team.liveCrews (t : Team) : List Nat := (List.range (t.threads.length / 32)).filter t.crewLive

end Sys2Proof.Machine
end

