-- ==== Sys2Proof/WellFormed.lean ====
section
/-! DEFINITION. The static checks of an instruction: accepted types, register positions, pairs, ordering codes
(R62, R63, R84, R103, R141, R311-R318 and the entries). A word whose fields break one of them raises
ILLEGAL_INSTRUCTION. Checks that need the machine's state are not here. -/

namespace Sys2Proof

/-- I8-I64 (R332). -/
def Ty.isI : Ty → Bool
  | .i8 | .i16 | .i32 | .i64 => true
  | _ => false

/-- N8-N64 (R332). -/
def Ty.isN : Ty → Bool
  | .n8 | .n16 | .n32 | .n64 => true
  | _ => false

/-- I8-I64 and N8-N64 (R332). -/
def Ty.isInt (t : Ty) : Bool := t.isI || t.isN

/-- F16, BF16 and F32 (R353). -/
def Ty.isFloat : Ty → Bool
  | .f16 | .bf16 | .f32 => true
  | _ => false

/-- The width of a type in bits (R62). -/
def Ty.bits : Ty → Nat
  | .i4 => 4
  | .i8 | .n8 => 8
  | .i16 | .n16 | .f16 | .bf16 => 16
  | .i32 | .n32 | .f32 | .rt => 32
  | .i64 | .n64 => 64

/-- Size in bytes of a memory element (R369). -/
def Ty.bytes (t : Ty) : Nat := t.bits / 8

/-- A type a load or store accepts (R369, R401): all but I4. -/
def Ty.isMem (t : Ty) : Bool := t != .i4

/-- W or K: a register of the lanes (R313). -/
def Reg.isLane : Reg → Bool
  | .s _ => false
  | _ => true

/-- An S register. -/
def Reg.isS : Reg → Bool
  | .s _ => true
  | _ => false

/-- The number of a register within its file. -/
def Reg.num : Reg → Nat
  | .w n => n.val
  | .s n => n.val
  | .k n => n.val

/-- R63, R313: a field carrying a 64-bit operand names an even W or K register, or any S register. -/
def Reg.pairOk (r : Reg) : Bool := r.isS || r.num % 2 == 0

/-- R313: the register field `r` can carry an operand of type `t`. -/
def Reg.fits (r : Reg) (t : Ty) : Bool := t.bits != 64 || r.pairOk

/-- A VX destination: W or K, even for 64 bits (R313). -/
def Reg.destOk (r : Reg) (t : Ty) : Bool := r.isLane && r.fits t

/-- R84, R313: the index of a memory operand is never W0. -/
def idxOk : Option Reg → Bool
  | some (.w 0) => false
  | _ => true

/-- R84: the base register of a memory operand, by space. -/
def baseOk (sp : Space) (a : Reg) : Bool :=
  match sp with
  | .g => a.pairOk
  | .s | .p => true
  | .see | .fh => a.isS

/-- R141: ORD 0 goes with scope 0; ORD 5 with space G and scope DEVICE. -/
def ordOk (allowed : List Ord) (ord : Ord) (sc : Scope) (sp : Space) : Bool :=
  allowed.contains ord &&
  (ord != .plain || sc == .team) &&
  (ord != .rmt || (sp == .g && sc == .device))

/-- R333: the types an atomic operation accepts. -/
def aopTy (aop : Aop) (ty : Ty) : Bool :=
  let word := ty == .i32 || ty == .i64 || ty == .n32 || ty == .n64
  match aop with
  | .fadd => ty == .f32
  | .xchg | .cas => word || ty == .f32
  | _ => word

/-- R333: the operand register b of ATOM and RED. -/
def aopReg (aop : Aop) (ty : Ty) (b : Reg) : Bool :=
  match aop with
  | .cas => if ty.bits == 64 && !b.isS then b.num % 4 == 0 else b.num % 2 == 0
  | _ => b.fits ty

/-- R318, R348: the pairs CVT accepts. -/
def cvtOk (dty sty : Ty) (sym : Bool) : Bool :=
  dty != sty &&
  ((dty.isFloat && (sty.isFloat || sty.isInt)) ||
   (dty.isInt && (sty.isFloat || sty.isInt)) ||
   (dty == .i4 && sty.isFloat)) &&
  (!sym || (dty == .i8 && sty.isFloat))

/-- R383: `n` registers from `r` on lie within W0-W63 or within K0-K127. -/
def rangeOk (r : Reg) (n : Nat) : Bool :=
  match r with
  | .w i => i.val + n ≤ 64
  | .k i => i.val + n ≤ 128
  | .s _ => false

/-- R383: how many source registers QNT reads. -/
def qntSources (sty : Ty) : Nat := if sty == .f32 then 32 else 16

/-- R383: how many code registers QNT writes. -/
def qntCodes (dty : Ty) : Nat := if dty == .i8 then 8 else 4

/-- R165: the target field of CPY and TCPY. -/
def targetOk (ck : CpyKind) (t : BitVec 16) : Bool :=
  match ck with
  | .flag => t.toNat < 12
  | .teamBar => t.toNat < 16
  | .netBar => t.toNat < 256

/-- R84, R165: a base of CPY, FH and SEE named by `h`. -/
def cpyBaseOk (sp : CpySpace) (r : Reg) : Bool :=
  match sp with
  | .g => r.pairOk
  | .s => true
  | .h => r.isS

/-- R394: selectors of SGET that read no register, one register, or two. -/
def sgetArity (sel : BitVec 16) : Option Nat :=
  let n := sel.toNat
  if n ≤ 0x0F then some 0
  else if n = 0x10 then some 2
  else if n = 0x11 then some 0
  else if 0x20 ≤ n && n ≤ 0x2F then some 0
  else if 0x30 ≤ n && n ≤ 0x37 then some 0
  else if 0x40 ≤ n && n ≤ 0x4F then some 0
  else if n = 0x50 then some 1
  else if 0x60 ≤ n && n ≤ 0x9F then some 0
  else none

/-- R394: the registers SGET names fit its selector. -/
def sgetOk (sel : BitVec 16) (a b : Option SReg) : Bool :=
  match sgetArity sel with
  | some 0 => a.isNone && b.isNone
  | some 1 => a.isSome && b.isNone
  | some _ => a.isSome && b.isSome
  | none => false

/-- A two-source VX integer word (R332). -/
def int3 (ty : Ty) (d a b : Reg) : Bool := ty.isInt && d.destOk ty && a.fits ty && b.fits ty
/-- A one-source VX integer word (R332). -/
def int2 (ty : Ty) (d a : Reg) : Bool := ty.isInt && d.destOk ty && a.fits ty
/-- A shift: b is a single register (R378). -/
def intShift (ty : Ty) (d a : Reg) : Bool := ty.isInt && d.destOk ty && a.fits ty
/-- A count: d is a single register (R332, R377). -/
def intCount (ty : Ty) (d a : Reg) : Bool := ty.isInt && d.isLane && a.fits ty
/-- A floating word (R353). -/
def flt (ty : Ty) (d : Reg) : Bool := ty.isFloat && d.isLane

/-- R103: a W or K field of a TX word. -/
def scaleOk (opn : Bool) (rm : Rm) (sa sb : Reg) (bsel : Bool) : Bool :=
  if opn then rm == .dflt && sa == .w 0 && sb == .w 0 && !bsel else sa.isLane && sb.isLane

/-- R103: I8 or I4. -/
def Ty.isElem (t : Ty) : Bool := t == .i8 || t == .i4

/-- The opcodes that the map of a class assigns (R321-R323). -/
def Cls.opcodes : Cls → List Nat
  | .sc => [0x01, 0x02, 0x03, 0x04, 0x05, 0x06, 0x07, 0x08, 0x10, 0x11, 0x12, 0x13, 0x14, 0x15, 0x16, 0x17, 0x20, 0x21,
      0x22, 0x23, 0x30, 0x31, 0x32, 0x38, 0x39]
  | .vx => [0x01, 0x02, 0x03, 0x04, 0x05, 0x06, 0x07, 0x08, 0x09, 0x0A, 0x0B, 0x10, 0x11, 0x12, 0x13, 0x14, 0x15, 0x16,
      0x17, 0x18, 0x19, 0x20, 0x21, 0x22, 0x23, 0x24, 0x25, 0x40, 0x41, 0x42, 0x43, 0x44, 0x45, 0x46, 0x47, 0x48, 0x49,
      0x50, 0x51, 0x52, 0x53, 0x54, 0x55, 0x58, 0x60, 0x61, 0x62, 0x63, 0x64, 0x70, 0x71, 0x72, 0x73]
  | .tx => [0x01, 0x02, 0x03, 0x04, 0x05, 0x06, 0x07, 0x10, 0x11, 0x12, 0x18, 0x19, 0x1A, 0x20]
  | .mx => [0x01, 0x02, 0x03, 0x04, 0x08, 0x09, 0x10, 0x11]
  | .cf => [0x01, 0x02, 0x03, 0x04, 0x05, 0x06, 0x07, 0x10, 0x11, 0x20, 0x21, 0x22, 0x23, 0x28, 0x30, 0x31, 0x38, 0x3D,
      0x3E, 0x3F]
  | .ex => [0x01, 0x02, 0x03, 0x08, 0x09, 0x0A, 0x10, 0x11, 0x12, 0x13, 0x14, 0x15, 0x18, 0x19, 0x1A, 0x20, 0x21, 0x22,
      0x30, 0x31, 0x32, 0x33]

/-- The static checks of an instruction. Events carry none; an unassigned opcode is one its class does not assign. -/
def Instr.wellFormed : Instr → Bool
  | .sadd ty _ _ _ | .ssub ty _ _ _ | .smul ty _ _ _ | .smulh ty _ _ _ | .sdiv ty _ _ _ | .srem ty _ _ _
  | .smin ty _ _ _ | .smax ty _ _ _ | .sand ty _ _ _ | .sor ty _ _ _ | .sxor ty _ _ _
  | .sshl ty _ _ _ | .sshr ty _ _ _ | .ssha ty _ _ _ => ty.isInt
  | .sclz ty _ _ | .spopc ty _ _ | .scmp _ ty _ _ _ | .ssel ty _ _ _ _ | .smov ty _ _ | .smovi ty _ _ => ty.isInt
  | .smovMv _ _ => true
  | .sld ord sc ty sp _ _ _ _ =>
      ordOk [.plain, .acq, .sc] ord sc sp && (sp == .g || sp == .s) && (ty.isInt || ty.isFloat)
  | .sst ord sc ty sp _ _ _ _ =>
      ordOk [.plain, .rel, .sc] ord sc sp && (sp == .g || sp == .s) && (ty.isInt || ty.isFloat)
  | .sprm ty _ _ => ty == .i32 || ty == .n32 || ty == .i64 || ty == .n64
  | .sget q _ a b => sgetOk q a b
  | .sset _ _ => true
  | .add ty d a b | .sub ty d a b | .mul ty d a b | .mulh ty d a b | .div ty d a b | .rem ty d a b
  | .min ty d a b | .max ty d a b | .and ty d a b | .or ty d a b | .xor ty d a b => int3 ty d a b
  | .mad ty d a b c => int3 ty d a b && c.fits ty
  | .abs ty d a => ty.isI && d.destOk ty && a.fits ty
  | .neg ty d a | .not ty d a | .brev ty d a => int2 ty d a
  | .shl ty d a _ | .shr ty d a _ | .sha ty d a _ => intShift ty d a
  | .clz ty d a | .popc ty d a => intCount ty d a
  | .cmp _ ty _ d a b => ty.isInt && d.isLane && a.fits ty && b.fits ty
  | .sel ty d a b _ => ty.isMem && d.destOk ty && a.fits ty && b.fits ty
  | .mov ty d a => ty.isMem && d.destOk ty && a.fits ty
  | .movi ty d _ => (ty.isInt || ty.isFloat) && d.destOk ty
  | .bcst ty d _ => (ty.isInt || ty.isFloat) && d.destOk ty
  | .idx q d => q.toNat < 3 && d.isLane
  | .fadd ty _ d _ _ | .fsub ty _ d _ _ | .fmul ty _ d _ _ | .fdiv ty _ d _ _ => flt ty d
  | .fma ty _ d _ _ _ => flt ty d
  | .fmin ty d _ _ | .fmax ty d _ _ => flt ty d
  | .fabs ty d _ | .fneg ty d _ | .fclass ty d _ => flt ty d
  | .fcmp _ ty _ d _ _ => flt ty d
  | .frcp ty _ d _ | .frsq ty _ d _ | .fsqrt ty _ d _ | .fexp2 ty _ d _ | .flog2 ty _ d _ => flt ty d
  | .cvt dty sty sym _ d a => cvtOk dty sty sym && d.destOk dty && a.fits sty
  | .rfwd ty d a => ty.isInt && d.isLane && a.fits ty
  | .radd d _ _ | .rmul d _ _ | .rmad d _ _ _ | .rback d _ => d.isLane
  | .qnt dty sty _ d a b =>
      dty.isElem && sty.isFloat && rangeOk a (qntSources sty) && rangeOk d (qntCodes dty) && rangeOk b 1
  | .dqnt ty d _ _ => ty.isElem && d.isLane
  | .cmpr ty d a | .xpnd ty d a =>
      d.isLane && (ty == .i8 || ((ty == .f16 || ty == .bf16) && d.pairOk && a.num % 2 == 0))
  | .tcfg .. | .tst .. | .ttrn .. | .tld .. => true
  | .tzero _ acc td => !acc || td.val < 8
  | .tlds _ _ src _ _ _ _ => src.isLane
  | .tsts .. => true
  | .tmma _ opn ty rm _ _ _ sa sb bsel => ty.isElem && scaleOk opn rm sa sb bsel
  | .tmmf _ ty _ _ _ _ => ty == .f16 || ty == .bf16
  | .tspm _ opn ty rm _ _ tb sa sb bsel => ty.isElem && scaleOk opn rm sa sb bsel && (ty != .i8 || tb.val != 15)
  | .tclose _ _ _ sa sb _ => sa.isLane && sb.isLane
  | .tdrain .. => true
  | .tqnt _ ty _ _ _ _ => ty.isElem
  | .tgemm _ ty _ _ _ _ sa sb _ sn => ty.isElem && sa.isLane && sb.isLane && sn.val ≤ 60
  | .ld ord sc ty sp d a b _ =>
      ordOk [.plain, .acq, .sc, .rmt] ord sc sp && ty.isMem && sp != .see && d.destOk ty && baseOk sp a && idxOk b
  | .st ord sc ty sp d a b _ =>
      ordOk [.plain, .rel, .sc] ord sc sp && ty.isMem && (sp == .g || sp == .s || sp == .fh) && d.fits ty &&
      baseOk sp a && idxOk b
  | .ldsee _ ord sc ty d _ b _ =>
      (ord == .plain && sc == .team || ord == .acq && sc == .device) && ty != .i4 && ty != .rt && d.destOk ty &&
      idxOk b
  | .ldp ty sp d a b _ =>
      ty.isMem && sp != .see && d.isLane && (if ty.bits == 64 then d.num % 4 == 0 else d.num % 2 == 0) &&
      baseOk sp a && idxOk b
  | .atom aop ord sc ty sp d a b _ =>
      ordOk [.plain, .acq, .rel, .ar, .sc, .rmt] ord sc sp && (sp == .g || sp == .s) && aopTy aop ty &&
      d.destOk ty && baseOk sp a && aopReg aop ty b
  | .red aop ord sc ty sp a b _ =>
      ordOk [.plain, .rel] ord sc sp && (sp == .g || sp == .s) && aop != .xchg && aop != .cas && aopTy aop ty &&
      baseOk sp a && aopReg aop ty b
  | .fence ord _ => ord == .acq || ord == .rel || ord == .ar || ord == .sc
  | .pref ty sp a b _ => ty.isMem && baseOk sp a && idxOk b
  | .bra _ | .brc _ | .call _ _ | .exit | .yield _ | .pnot | .ppop => true
  | .bsw _ a _ | .ret a => a.isLane
  | .bar net b _ | .barw net b _ | .bara net b => net || b.toNat < 16
  | .nbmem .. | .waitf .. | .grab | .relx | .cvset .. | .bkpt _ | .nop | .trap _ => true
  | .cpy dsp ssp ck d a b _ t => cpyBaseOk dsp d && cpyBaseOk ssp a && idxOk b && targetOk ck t
  | .tcpy _ ck _ _ t => targetOk ck t
  | .bexp net _ b => net || b.toNat < 16
  | .gstart d _ => d.isLane
  | .gcond .. | .launch .. | .ptnew .. | .ptfree _ | .drop _ | .hsend .. | .hrecv .. => true
  | .seeh _ _ r => !r.getLsbD 1
  | .wqpost .. | .triga .. | .cntadd .. => true
  | .sysc _ a => a.pairOk
  | .sret .. | .tstamp .. => true
  | .ktlbi kind a _ => (kind == 3) == a.isNone
  | .kget q _ _ _ n => 2 ≤ q.val || n == 0
  | .kset .. | .kresumeResume .. | .kresumeStep .. | .kresumeKill .. => true
  | .kresumeEngresume .. | .kresumeEngend .. => true
  | .tgemmPhase _ | .selection _ | .clauseStart | .longLatencyWriteDone .. | .writePerformed ..
  | .trapRecordPost .. | .registrationAccepted _ | .waitPoll .. | .copyLine _ | .barrierWave _ | .recordWrite ..
  | .ringHeaderRecheck .. | .gridRetire _ | .teamPlacement _ | .duskGraceExpiry _ _ | .watchdogExpiry _
  | .waitLimitExpiry .. | .switchTick _ | .saveShareComplete .. | .saveDeadlineExpiry _ | .qkick ..
  | .packetLaunch .. | .packetCopy .. | .packetBarrierAnd .. | .packetSignal .. | .barrierAndComplete ..
  | .foremanError | .journalValidated | .networkTriggeredLaunch .. | .graphNodeFinish .. | .handleArrival ..
  | .hsendOutcome .. | .hsendTimeout _ | .peerLost .. | .collectiveResult .. | .workRequestStart ..
  | .workRequestComplete .. | .powerEpoch .. | .canaryAlarm _ | .canaryStretchEnd _ | .halfIssueEnd _
  | .l1MarkClear _ | .l2WayEpoch _ | .migrationRecallDone .. | .scrub _ | .scrubFrameDone | .keyLoad _
  | .keyLoadDone | .queueEnable .. | .queueDisable .. | .queueErrClear .. | .qmapWrite .. | .partEnable ..
  | .partDisable .. | .vfEnable .. | .vfDisable .. | .vfL2Write .. | .vfBwWrite .. | .engOwnWrite ..
  | .pwrCtlWrite _ | .collApEnable .. | .wqRingEnable .. | .ntlCtlWrite .. | .decliaEnable .. | .registerWrite ..
  | .hostMemRead .. | .hostMemWrite .. | .getVersion _ | .getCapabilities _ | .lockInterface ..
  | .startInterface _ | .stopInterface _ | .getDeviceInterfaceReport _ | .getDeviceInterfaceState _
  | .sessionExpiry _ | .devReset _ | .functionLevelReset _ | .deviceStart | .startStageDone | .startStageTimeout
  | .lampImageReplace _ | .correctableError | .uncorrectableError _ | .operandParityError ..
  | .foremanTest _ | .peerReturn .. | .remoteAccessArrival .. | .rankAcknowledgement .. => true
  | .unassignedOpcode c w => !c.opcodes.contains (w.extractLsb' 56 8).toNat

/-- The rows of the table that are words of a program, with the class whose opcode map holds them (R321-R323);
every other row is an event. -/
def Instr.cls : Instr → Option Cls
  | .sadd .. | .ssub .. | .smul .. | .smulh .. | .sdiv .. | .srem .. | .smin .. | .smax .. | .sand .. | .sor ..
  | .sxor .. | .sshl .. | .sshr .. | .ssha .. | .sclz .. | .spopc .. | .scmp .. | .ssel .. | .smov .. | .smovMv ..
  | .smovi .. | .sld .. | .sst .. | .sprm .. | .sget .. | .sset .. => some .sc
  | .add .. | .sub .. | .mul .. | .mulh .. | .mad .. | .div .. | .rem .. | .min .. | .max .. | .abs .. | .neg ..
  | .and .. | .or .. | .xor .. | .not .. | .shl .. | .shr .. | .sha .. | .clz .. | .popc .. | .brev .. | .cmp ..
  | .sel .. | .mov .. | .movi .. | .bcst .. | .idx .. | .fadd .. | .fsub .. | .fmul .. | .fma .. | .fmin ..
  | .fmax .. | .fabs .. | .fneg .. | .fcmp .. | .fclass .. | .frcp .. | .frsq .. | .fsqrt .. | .fdiv .. | .fexp2 ..
  | .flog2 .. | .cvt .. | .rfwd .. | .radd .. | .rmul .. | .rmad .. | .rback .. | .qnt .. | .dqnt .. | .cmpr ..
  | .xpnd .. => some .vx
  | .tcfg .. | .tzero .. | .tld .. | .tst .. | .tlds .. | .tsts .. | .ttrn .. | .tmma .. | .tmmf .. | .tspm ..
  | .tclose .. | .tdrain .. | .tqnt .. | .tgemm .. => some .tx
  | .ld .. | .st .. | .ldsee .. | .ldp .. | .atom .. | .red .. | .fence .. | .pref .. => some .mx
  | .bra _ | .brc _ | .bsw .. | .call .. | .ret _ | .exit | .yield _ | .pnot | .ppop | .bar .. | .bara .. | .barw ..
  | .nbmem .. | .waitf .. | .grab | .relx | .cvset .. | .bkpt _ | .nop | .trap _ => some .cf
  | .cpy .. | .tcpy .. | .bexp .. | .gstart .. | .gcond .. | .launch .. | .ptnew .. | .ptfree _ | .seeh .. | .drop _
  | .hsend .. | .hrecv .. | .wqpost .. | .triga .. | .cntadd .. | .sysc .. | .sret .. | .tstamp .. | .ktlbi ..
  | .kget .. | .kset .. | .kresumeResume .. | .kresumeStep .. | .kresumeKill .. | .kresumeEngresume ..
  | .kresumeEngend .. => some .ex
  | .unassignedOpcode c _ => some c
  | .tgemmPhase _ | .selection _ | .clauseStart | .longLatencyWriteDone .. | .writePerformed ..
  | .trapRecordPost .. | .registrationAccepted _ | .waitPoll .. | .copyLine _ | .barrierWave _ | .recordWrite ..
  | .ringHeaderRecheck .. | .gridRetire _ | .teamPlacement _ | .duskGraceExpiry _ _ | .watchdogExpiry _
  | .waitLimitExpiry .. | .switchTick _ | .saveShareComplete .. | .saveDeadlineExpiry _ | .qkick ..
  | .packetLaunch .. | .packetCopy .. | .packetBarrierAnd .. | .packetSignal .. | .barrierAndComplete ..
  | .foremanError | .journalValidated | .networkTriggeredLaunch .. | .graphNodeFinish .. | .handleArrival ..
  | .hsendOutcome .. | .hsendTimeout _ | .peerLost .. | .collectiveResult .. | .workRequestStart ..
  | .workRequestComplete .. | .powerEpoch .. | .canaryAlarm _ | .canaryStretchEnd _ | .halfIssueEnd _
  | .l1MarkClear _ | .l2WayEpoch _ | .migrationRecallDone .. | .scrub _ | .scrubFrameDone | .keyLoad _
  | .keyLoadDone | .queueEnable .. | .queueDisable .. | .queueErrClear .. | .qmapWrite .. | .partEnable ..
  | .partDisable .. | .vfEnable .. | .vfDisable .. | .vfL2Write .. | .vfBwWrite .. | .engOwnWrite ..
  | .pwrCtlWrite _ | .collApEnable .. | .wqRingEnable .. | .ntlCtlWrite .. | .decliaEnable .. | .registerWrite ..
  | .hostMemRead .. | .hostMemWrite .. | .getVersion _ | .getCapabilities _ | .lockInterface ..
  | .startInterface _ | .stopInterface _ | .getDeviceInterfaceReport _ | .getDeviceInterfaceState _
  | .sessionExpiry _ | .devReset _ | .functionLevelReset _ | .deviceStart | .startStageDone | .startStageTimeout
  | .lampImageReplace _ | .correctableError | .uncorrectableError _ | .operandParityError ..
  | .foremanTest _ | .peerReturn .. | .remoteAccessArrival .. | .rankAcknowledgement .. => none

/-- R53: the terminators. -/
def Instr.isTerminator : Instr → Bool
  | .bra _ | .brc _ | .bsw .. | .call .. | .ret _ | .exit | .yield _ | .bar .. | .barw .. | .waitf .. => true
  | _ => false

end Sys2Proof
end

