-- ==== Sys2Proof/Machine/Num.lean ====
section
/-! DEFINITION. Integers, residue triples and scales (R62-R69): values of raw bits, and raw bits of values. A raw value
is a natural number below 2 to the width of its type. -/

namespace Sys2Proof.Machine

/-- The integer that the low bits of `x` stand for in type `ty` (R62, R64). -/
def intVal (ty : Ty) (x : Nat) : Int :=
  let u : Nat := x % 2 ^ ty.bits
  if ty.isI && decide (2 ^ (ty.bits - 1) ≤ u) then (u : Int) - 2 ^ ty.bits else u

/-- The low `n` bits of an integer (R64). -/
def lowBits (n : Nat) (v : Int) : Nat := (v % (2 ^ n : Int)).toNat

/-- Sign extension of an `n`-bit raw value to `m` bits. -/
def sext (n m x : Nat) : Nat :=
  if n = 0 then 0 else if 2 ^ (n - 1) ≤ x % 2 ^ n then x % 2 ^ n + (2 ^ m - 2 ^ n) else x % 2 ^ n

/-- A raw result of type `ty` as it is written to a register of `m` bits (R63): the signed types sign-extended, the
others zero-extended. -/
def widen (ty : Ty) (m x : Nat) : Nat := if ty.isI || ty == .i4 then sext ty.bits m x else x % 2 ^ ty.bits

/-- The range of an integer type. -/
def leastOf (t : Ty) : Int := if t.isI then -(2 ^ (t.bits - 1)) else 0
def mostOf (t : Ty) : Int := if t.isI then 2 ^ (t.bits - 1) - 1 else 2 ^ t.bits - 1

def clampInt (lo hi v : Int) : Int := if v < lo then lo else if hi < v then hi else v

/-- DIV (R65). -/
def divInt (ty : Ty) (a b : Int) : Int :=
  if b = 0 then (if ty.isI then (if a < 0 then 1 else -1) else 2 ^ ty.bits - 1) else Int.tdiv a b
/-- REM (R65). -/
def remInt (a b : Int) : Int := if b = 0 then a else Int.tmod a b

/-- The high half of the double-width product (R64). -/
def mulHigh (ty : Ty) (a b : Int) : Int := (a * b) / 2 ^ ty.bits

/-- Leading zeros of an `n`-bit raw value, `n` for zero. -/
def leadZeros (n x : Nat) : Nat := if x % 2 ^ n = 0 then n else n - 1 - Nat.log2 (x % 2 ^ n)

/-- Set bits among the low `n`. -/
def popCount : Nat → Nat → Nat
  | 0, _ => 0
  | n + 1, x => x % 2 + popCount n (x / 2)

/-- The low `n` bits in reverse order. -/
def revBits : Nat → Nat → Nat
  | 0, _ => 0
  | n + 1, x => x % 2 * 2 ^ n + revBits n (x / 2)

/-- A relation of integers (R317). -/
def relInt : Rel → Int → Int → Bool
  | .eq, a, b => a == b
  | .ne, a, b => a != b
  | .lt, a, b => decide (a < b)
  | .le, a, b => decide (a ≤ b)
  | .gt, a, b => decide (b < a)
  | .ge, a, b => decide (b ≤ a)

/-- A relation of numbers. -/
def relNat (r : Rel) (a b : Nat) : Bool := relInt r a b

-- residue triples (R67, R68)

def residue (x : Int) (m : Nat) : Nat := (x % (m : Int)).toNat
/-- The triple of three residues as it is written: least codes, bits 31:25 zero (R67). -/
def packRt (r256 r255 r257 : Nat) : Nat := r256 % 256 + 256 * (r255 % 255) + 65536 * (r257 % 257)
/-- ResidueOf (R68). -/
def residueOf (x : Int) : Nat := packRt (residue x 256) (residue x 255) (residue x 257)
def rt256 (x : Nat) : Nat := x % 256
/-- 0xFF is accepted as 0 (R67). -/
def rt255 (x : Nat) : Nat := x / 256 % 256 % 255
/-- Any 9-bit code, taken modulo 257 (R67). -/
def rt257 (x : Nat) : Nat := x / 65536 % 512 % 257
/-- CrtBack (R68). -/
def crtBack (x : Nat) : Int :=
  let u : Nat := (rt256 x * 255 * 65535 + rt255 x * 128 * 65792 + rt257 x * 129 * 65280) % 16776960
  if 8388480 ≤ u then (u : Int) - 16776960 else u
def rtAdd (x y : Nat) : Nat := packRt (rt256 x + rt256 y) (rt255 x + rt255 y) (rt257 x + rt257 y)
def rtMul (x y : Nat) : Nat := packRt (rt256 x * rt256 y) (rt255 x * rt255 y) (rt257 x * rt257 y)
/-- A triple with an integer added channel by channel (R108). -/
def rtAddInt (x : Nat) (v : Int) : Nat := rtAdd x (residueOf v)

-- symmetric elements and scales (R66, R69)

/-- The value of an I8 or I4 element code; a void code is 0 (R66). -/
def elemVal (ty : Ty) (x : Nat) : Int :=
  let n : Nat := if ty = .i4 then 4 else 8
  let u : Nat := x % 2 ^ n
  if u = 2 ^ (n - 1) then 0 else if 2 ^ (n - 1) < u then (u : Int) - 2 ^ n else u
/-- The largest magnitude of an element (R77). -/
def elemMax (ty : Ty) : Nat := if ty = .i4 then 7 else 127
/-- An SE8 scale as a mantissa; its value is that times 2 to `se8Exp` (R69). -/
def se8Man (c : Nat) : Nat := if c % 256 = 0 then 0 else 4 + c % 4
def se8Exp (c : Nat) : Int := ((c % 256 / 4 : Nat) : Int) - 34

end Sys2Proof.Machine
end

