-- ==== Sys2Proof/Machine/Float.lean ====
section
/-! DEFINITION. Floating point (R70-R76, R81, R355): unpacking, exact results, and the one rounding every instruction
that rounds shares. -/

namespace Sys2Proof.Machine

/-- A floating format (R70). -/
structure Fmt where
  ebits : Nat
  mbits : Nat
  bias : Nat
  deriving DecidableEq, Repr

def Fmt.f32 : Fmt := ⟨8, 23, 127⟩
def Fmt.f16 : Fmt := ⟨5, 10, 15⟩
def Fmt.bf16 : Fmt := ⟨8, 7, 127⟩
/-- The format a floating TY names. -/
def fmtOf : Ty → Fmt
  | .f16 => Fmt.f16
  | .bf16 => Fmt.bf16
  | _ => Fmt.f32

def Fmt.signBit (f : Fmt) : Nat := 2 ^ (f.ebits + f.mbits)
/-- Infinity without its sign. -/
def Fmt.infRaw (f : Fmt) : Nat := (2 ^ f.ebits - 1) * 2 ^ f.mbits
/-- The canonical NaN (R70). -/
def Fmt.nanRaw (f : Fmt) : Nat := f.infRaw + 2 ^ (f.mbits - 1)
/-- The largest finite value (R70). -/
def Fmt.maxRaw (f : Fmt) : Nat := f.infRaw - 1
def Fmt.signed (f : Fmt) (neg : Bool) (x : Nat) : Nat := if neg then f.signBit + x else x

/-- The exception flags, in FEXC's bit order (R72). -/
abbrev Flags := BitVec 5
def Flags.nv : Flags := 1
def Flags.dz : Flags := 2
def Flags.of : Flags := 4
def Flags.uf : Flags := 8
def Flags.nx : Flags := 16

/-- What bits of a format stand for. A finite value is m times 2 to e, negated when `neg`. -/
inductive FVal where
  | nan (signalling : Bool)
  | inf (neg : Bool)
  | fin (neg : Bool) (m : Nat) (e : Int)
  deriving DecidableEq, Repr

/-- Unpacking (R70, R71: subnormals are honoured). -/
def unpack (f : Fmt) (x : Nat) : FVal :=
  let neg := bit x (f.ebits + f.mbits)
  let ex := bits x f.mbits f.ebits
  let fr := bits x 0 f.mbits
  if ex = 2 ^ f.ebits - 1 then
    if fr = 0 then .inf neg else .nan (!bit fr (f.mbits - 1))
  else if ex = 0 then .fin neg fr (1 - (f.bias : Int) - f.mbits)
  else .fin neg (2 ^ f.mbits + fr) ((ex : Int) - f.bias - f.mbits)

def FVal.isNan : FVal → Bool
  | .nan _ => true
  | _ => false
def FVal.isSnan : FVal → Bool
  | .nan s => s
  | _ => false
def FVal.neg? : FVal → Bool
  | .inf n => n
  | .fin n _ _ => n
  | .nan _ => false
def FVal.isZero : FVal → Bool
  | .fin _ m _ => m == 0
  | _ => false
def FVal.flip : FVal → FVal
  | .nan s => .nan s
  | .inf n => .inf (!n)
  | .fin n m e => .fin (!n) m e

/-- One step up is taken from the truncated magnitude `n`: `low` is true when a half is passed or met as the mode
counts it, `inexact` when anything was cut off (R74). `away` breaks ties of .DEF away from zero. -/
def roundUp (rm : Rm) (away neg : Bool) (n twice den : Nat) (sticky : Bool) : Bool :=
  let inexact := decide (0 < twice) || sticky
  let aboveHalf := decide (den < twice) || (decide (twice = den) && sticky)
  let tie := decide (twice = den) && !sticky
  match rm with
  | .dflt => aboveHalf || (tie && (away || n % 2 == 1))
  | .rne => aboveHalf || (tie && n % 2 == 1)
  | .rtz => false
  | .rup => inexact && !neg
  | .rdn => inexact && neg
  | .rto => false

/-- num/den rounded to a whole number in magnitude, and whether it was inexact (R74). -/
def roundQuot (rm : Rm) (away neg : Bool) (num den : Nat) (sticky : Bool) : Nat × Bool :=
  let n := num / den
  let r := num % den
  let inexact := decide (0 < r) || sticky
  let n' := if roundUp rm away neg n (2 * r) den sticky then n + 1 else n
  let n'' := if rm = .rto && inexact && n' % 2 == 0 then n' + 1 else n'
  (n'', inexact)

/-- m times 2 to e as a quotient of numbers. -/
def quot (m : Nat) (e : Int) : Nat × Nat := if 0 ≤ e then (m * 2 ^ e.toNat, 1) else (m, 2 ^ (-e).toNat)

/-- m · 2^e, with `sticky` for a rest below one unit of m, rounded to a whole multiple of 2^q. -/
def roundAt (rm : Rm) (neg : Bool) (m : Nat) (e : Int) (sticky : Bool) (q : Int) : Nat × Bool :=
  let p := quot m (e - q)
  roundQuot rm false neg p.1 p.2 sticky

/-- An overflowed result (R75). -/
def overflowRaw (f : Fmt) (rm : Rm) (neg : Bool) : Nat :=
  match rm with
  | .dflt => f.signed neg f.infRaw
  | .rne => f.signed neg f.infRaw
  | .rtz => f.signed neg f.maxRaw
  | .rto => f.signed neg f.maxRaw
  | .rup => f.signed neg (if neg then f.maxRaw else f.infRaw)
  | .rdn => f.signed neg (if neg then f.infRaw else f.maxRaw)

/-- RoundTo a floating format (R4, R71, R74, R75): the raw result and its flags. A zero keeps the sign given. -/
def roundTo (f : Fmt) (rm : Rm) (neg : Bool) (m : Nat) (e : Int) (sticky : Bool) : Nat × Flags :=
  if m = 0 then
    if sticky then
      -- magnitude below any representable: rounded from zero with a rest
      let up := match rm with | .rup => !neg | .rdn => neg | .rto => true | _ => false
      (f.signed neg (if up then 1 else 0), Flags.uf ||| Flags.nx)
    else (f.signed neg 0, 0)
  else
    let top : Int := (Nat.log2 m : Int) + e
    let emin : Int := 1 - (f.bias : Int)
    let qn : Int := top - f.mbits
    let qlow : Int := emin - f.mbits
    let u := roundAt rm neg m e sticky qn
    -- tininess after rounding, as if the exponent range were unbounded
    let topU : Int := if 2 ^ (f.mbits + 1) ≤ u.1 then top + 1 else top
    let emax : Int := (2 ^ f.ebits : Int) - 2 - f.bias
    if emax < topU then (overflowRaw f rm neg, Flags.of ||| Flags.nx)
    else
      let q : Int := if qn < qlow then qlow else qn
      let r := roundAt rm neg m e sticky q
      let n := r.1
      let raw : Nat :=
        if q = qlow then n   -- subnormal, or the carry into the first normal binade
        else if 2 ^ (f.mbits + 1) ≤ n then ((q + f.mbits + 1 + f.bias).toNat) * 2 ^ f.mbits
        else ((q + f.mbits + f.bias).toNat) * 2 ^ f.mbits + (n - 2 ^ f.mbits)
      let fl : Flags := if r.2 then (if topU < emin then Flags.uf ||| Flags.nx else Flags.nx) else 0
      (f.signed neg raw, fl)

/-- An exact dyadic number: v times 2 to e. -/
structure Exact where
  v : Int
  e : Int
  deriving DecidableEq, Repr

def Exact.add (a b : Exact) : Exact :=
  if a.v = 0 then b else if b.v = 0 then a
  else if a.e ≤ b.e then ⟨a.v + b.v * 2 ^ (b.e - a.e).toNat, a.e⟩
  else ⟨a.v * 2 ^ (a.e - b.e).toNat + b.v, b.e⟩
def Exact.mul (a b : Exact) : Exact := ⟨a.v * b.v, a.e + b.e⟩
def exactOf (neg : Bool) (m : Nat) (e : Int) : Exact := ⟨if neg then -(m : Int) else m, e⟩

/-- RoundTo of an exact number; `zneg` is the sign of an exact zero. -/
def roundExact (f : Fmt) (rm : Rm) (x : Exact) (zneg : Bool) : Nat × Flags :=
  if x.v = 0 then (f.signed zneg 0, 0) else roundTo f rm (decide (x.v < 0)) x.v.natAbs x.e false

/-- A NaN result: canonical, with NV for a signalling operand or an invalid operation (R71). -/
def nanOut (f : Fmt) (invalid : Bool) : Nat × Flags := (f.nanRaw, if invalid then Flags.nv else 0)

/-- x + y of unpacked values (R355). -/
def addVal (f : Fmt) (rm : Rm) (x y : FVal) : Nat × Flags :=
  match x, y with
  | .nan s, .nan t => nanOut f (s || t)
  | .nan s, _ => nanOut f s
  | _, .nan t => nanOut f t
  | .inf a, .inf b => if a = b then (f.signed a f.infRaw, 0) else nanOut f true
  | .inf a, .fin _ _ _ => (f.signed a f.infRaw, 0)
  | .fin _ _ _, .inf b => (f.signed b f.infRaw, 0)
  | .fin a m e, .fin b n g =>
    let zneg := if m = 0 ∧ n = 0 ∧ a = b then a else rm == .rdn
    roundExact f rm (Exact.add (exactOf a m e) (exactOf b n g)) zneg

/-- The product of two unpacked values before any rounding; none for 0 times infinity. -/
def mulVal (x y : FVal) : Option FVal :=
  match x, y with
  | .nan s, .nan t => some (.nan (s || t))
  | .nan s, _ => some (.nan s)
  | _, .nan t => some (.nan t)
  | .inf a, .inf b => some (.inf (a != b))
  | .inf a, .fin b m _ => if m = 0 then none else some (.inf (a != b))
  | .fin a m _, .inf b => if m = 0 then none else some (.inf (a != b))
  | .fin a m e, .fin b n g => some (.fin (a != b) (m * n) (e + g))

/-- An unpacked value rounded to a format. -/
def roundVal (f : Fmt) (rm : Rm) : FVal → Nat × Flags
  | .nan s => nanOut f s
  | .inf a => (f.signed a f.infRaw, 0)
  | .fin a m e => roundTo f rm a m e false

def fAdd (f : Fmt) (rm : Rm) (x y : Nat) : Nat × Flags := addVal f rm (unpack f x) (unpack f y)
def fSub (f : Fmt) (rm : Rm) (x y : Nat) : Nat × Flags := addVal f rm (unpack f x) (unpack f y).flip
def fMul (f : Fmt) (rm : Rm) (x y : Nat) : Nat × Flags :=
  match mulVal (unpack f x) (unpack f y) with
  | none => nanOut f true
  | some v => roundVal f rm v
/-- x × y + z, rounded once (R355). 0 × ∞ is invalid whatever z is. -/
def fMad (f : Fmt) (rm : Rm) (x y z : Nat) : Nat × Flags :=
  match mulVal (unpack f x) (unpack f y) with
  | none => nanOut f true
  | some (.nan s) => nanOut f (s || (unpack f z).isSnan)
  | some v => addVal f rm v (unpack f z)

/-- num/den · 2^e rounded to a format. -/
def roundRatio (f : Fmt) (rm : Rm) (neg : Bool) (num den : Nat) (e : Int) : Nat × Flags :=
  let k := 96 + Nat.log2 den
  roundTo f rm neg (num * 2 ^ k / den) (e - k) (decide (num * 2 ^ k % den ≠ 0))

def fDiv (f : Fmt) (rm : Rm) (x y : Nat) : Nat × Flags :=
  match unpack f x, unpack f y with
  | .nan s, .nan t => nanOut f (s || t)
  | .nan s, _ => nanOut f s
  | _, .nan t => nanOut f t
  | .inf _, .inf _ => nanOut f true
  | .inf a, .fin b _ _ => (f.signed (a != b) f.infRaw, 0)
  | .fin a _ _, .inf b => (f.signed (a != b) 0, 0)
  | .fin a m e, .fin b n g =>
    if n = 0 then
      if m = 0 then nanOut f true else (f.signed (a != b) f.infRaw, Flags.dz)
    else if m = 0 then (f.signed (a != b) 0, 0)
    else roundRatio f rm (a != b) m n (e - g)

def fRcp (f : Fmt) (rm : Rm) (x : Nat) : Nat × Flags :=
  match unpack f x with
  | .nan s => nanOut f s
  | .inf a => (f.signed a 0, 0)
  | .fin a m e => if m = 0 then (f.signed a f.infRaw, Flags.dz) else roundRatio f rm a 1 m (-e)

/-- The whole square root of `n`, from bit `i` downward. -/
def isqrtFrom : Nat → Nat → Nat → Nat
  | 0, n, r => if (r + 1) * (r + 1) ≤ n then r + 1 else r
  | i + 1, n, r =>
    let r' := r + 2 ^ (i + 1)
    isqrtFrom i n (if r' * r' ≤ n then r' else r)
def isqrt (n : Nat) : Nat := isqrtFrom (Nat.log2 n / 2 + 1) n 0

def fSqrt (f : Fmt) (rm : Rm) (x : Nat) : Nat × Flags :=
  match unpack f x with
  | .nan s => nanOut f s
  | .inf a => if a then nanOut f true else (f.infRaw, 0)
  | .fin a m e =>
    if m = 0 then (f.signed a 0, 0) else if a then nanOut f true
    else
      let m' := if e % 2 = 0 then m else 2 * m
      let e' := if e % 2 = 0 then e else e - 1
      let n := m' * 2 ^ 128
      roundTo f rm false (isqrt n) (e' / 2 - 64) (decide (isqrt n * isqrt n ≠ n))

def fRsq (f : Fmt) (rm : Rm) (x : Nat) : Nat × Flags :=
  match unpack f x with
  | .nan s => nanOut f s
  | .inf a => if a then nanOut f true else (0, 0)
  | .fin a m e =>
    if m = 0 then (f.signed a f.infRaw, Flags.dz) else if a then nanOut f true
    else
      let m' := if e % 2 = 0 then m else 2 * m
      let e' := if e % 2 = 0 then e else e - 1
      let r := isqrt (2 ^ 256 / m')
      roundTo f rm false r (-(e' / 2) - 128) (decide (r * r * m' ≠ 2 ^ 256))

-- two to a power and its inverse, in fixed point of 320 bits

/-- Fraction bits of the fixed-point numbers of FEXP2 and FLOG2. -/
def fixBits : Nat := 320
def fixOne : Nat := 2 ^ fixBits
/-- Sum of z^(2k+1)/(2k+1) for `n` terms; `p` is the power reached, `z2` is z squared. -/
def atanhFrom : Nat → Nat → Nat → Nat → Nat
  | 0, _, _, _ => 0
  | n + 1, p, z2, k => p / (2 * k + 1) + atanhFrom n (p * z2 / fixOne) z2 (k + 1)
def atanhFix (z : Nat) : Nat := atanhFrom 110 z (z * z / fixOne) 0
/-- ln 2. -/
def ln2Fix : Nat := 2 * atanhFix (fixOne / 3)
/-- The exponential series from term `p` of index `k`. -/
def expFrom : Nat → Nat → Nat → Nat → Nat
  | 0, _, _, _ => 0
  | n + 1, p, y, k => p + expFrom n (p * y / fixOne / (k + 1)) y (k + 1)
/-- 2 to the power fr/2^320, for fr below 2^320. -/
def exp2Fix (fr : Nat) : Nat := expFrom 80 fixOne (fr * ln2Fix / fixOne) 0
/-- log2 of x/2^320, for x from 2^320 up to 2^321. -/
def log2Fix (x : Nat) : Nat := 2 * atanhFix ((x - fixOne) * fixOne / (x + fixOne)) * fixOne / ln2Fix

def fExp2 (f : Fmt) (rm : Rm) (x : Nat) : Nat × Flags :=
  match unpack f x with
  | .nan s => nanOut f s
  | .inf a => if a then (0, 0) else (f.infRaw, 0)
  | .fin a m e =>
    if m = 0 then roundTo f rm false 1 0 false
    -- past every finite result: the rounding decides
    else if (Nat.log2 m : Int) + e ≥ 12 then
      if a then roundTo f rm false 1 (-5000) false else roundTo f rm false 1 5000 false
    else
      -- the exponent as a fixed-point integer; its fraction bits are at most 149
      let v : Int := (if a then -1 else 1) * ((m : Int) * 2 ^ (e + fixBits).toNat)
      let n : Int := v / fixOne
      let fr : Nat := (v % fixOne).toNat
      if fr = 0 then roundTo f rm false 1 n false
      else roundTo f rm false (exp2Fix fr) (n - fixBits) true

def fLog2 (f : Fmt) (rm : Rm) (x : Nat) : Nat × Flags :=
  match unpack f x with
  | .nan s => nanOut f s
  | .inf a => if a then nanOut f true else (f.infRaw, 0)
  | .fin a m e =>
    if m = 0 then (f.signed true f.infRaw, Flags.dz) else if a then nanOut f true
    else
      let l := Nat.log2 m
      let ex : Int := (l : Int) + e
      let mant := m * 2 ^ (fixBits - l)
      if mant = fixOne then roundExact f rm ⟨ex, 0⟩ false
      else
        let v : Int := ex * fixOne + log2Fix mant
        -- a negative value's magnitude is cut towards zero, so its rest stays positive
        if v < 0 then roundTo f rm true ((-v).toNat - 1) (-fixBits) true
        else roundTo f rm false v.toNat (-fixBits) true

/-- Order of finite and infinite values: a number with the sign folded in, comparing as the values do. -/
def ltVal (x y : FVal) : Bool :=
  match x, y with
  | .nan _, _ => false
  | _, .nan _ => false
  | .inf a, .inf b => a && !b
  | .inf a, .fin _ _ _ => a
  | .fin _ _ _, .inf b => !b
  | .fin a m e, .fin b n g =>
    let d := Exact.add (exactOf a m e) (exactOf (!b) n g)
    decide (d.v < 0)
def eqVal (x y : FVal) : Bool :=
  match x, y with
  | .nan _, _ => false
  | _, .nan _ => false
  | .inf a, .inf b => a == b
  | .inf _, .fin _ _ _ => false
  | .fin _ _ _, .inf _ => false
  | .fin a m e, .fin b n g => decide ((Exact.add (exactOf a m e) (exactOf (!b) n g)).v = 0)

/-- FMIN and FMAX (R71): minimumNumber and maximumNumber, −0 below +0. -/
def fMinMax (f : Fmt) (isMax : Bool) (x y : Nat) : Nat × Flags :=
  let a := unpack f x
  let b := unpack f y
  let fl : Flags := if a.isSnan || b.isSnan then Flags.nv else 0
  let less := ltVal a b || (a.isZero && b.isZero && a.neg? && !b.neg?)
  let r := if a.isNan && b.isNan then f.nanRaw
    else if a.isNan then y else if b.isNan then x
    else if isMax then (if less then y else x) else (if less then x else y)
  (r, fl)

/-- FCMP (R71): the relation and its flag. -/
def fRel (f : Fmt) (rel : Rel) (x y : Nat) : Bool × Flags :=
  let a := unpack f x
  let b := unpack f y
  let unordered := a.isNan || b.isNan
  let ordered := match rel with | .eq => false | .ne => false | _ => true
  let fl : Flags := if (unordered && ordered) || a.isSnan || b.isSnan then Flags.nv else 0
  let r := match rel with
    | .eq => eqVal a b
    | .ne => unordered || !eqVal a b
    | .lt => ltVal a b
    | .le => ltVal a b || eqVal a b
    | .gt => ltVal b a
    | .ge => ltVal b a || eqVal a b
  (r, fl)

/-- A float to an integer in the range lo..hi (R76); `away` is the tie rule of .DEF. -/
def floatToInt (f : Fmt) (rm : Rm) (away : Bool) (lo hi : Int) (x : Nat) : Int × Flags :=
  match unpack f x with
  | .nan _ => (0, Flags.nv)
  | .inf a => (if a then lo else hi, Flags.nv)
  | .fin a m e =>
    let p := quot m e
    let r := roundQuot rm away a p.1 p.2 false
    let v : Int := if a then -(r.1 : Int) else r.1
    if v < lo then (lo, Flags.nv) else if hi < v then (hi, Flags.nv)
    else (v, if r.2 then Flags.nx else 0)

/-- An integer to a float (R76). -/
def intToFloat (f : Fmt) (rm : Rm) (v : Int) : Nat × Flags := roundExact f rm ⟨v, 0⟩ false

/-- A float to another float format (R76). -/
def floatToFloat (f g : Fmt) (rm : Rm) (x : Nat) : Nat × Flags := roundVal g rm (unpack f x)

/-- CVT (R76, R318): the raw result in the destination type. -/
def cvtRaw (dty sty : Ty) (sym : Bool) (rm : Rm) (x : Nat) : Nat × Flags :=
  if sty.isFloat then
    if dty.isFloat then floatToFloat (fmtOf sty) (fmtOf dty) rm x
    else
      let q : Int := elemMax dty
      let lo : Int := if dty = .i4 || sym then -q else (leastOf dty)
      let hi : Int := if dty = .i4 || sym then q else (mostOf dty)
      let r := floatToInt (fmtOf sty) rm (decide (dty.bits < 16)) lo hi x
      (lowBits dty.bits r.1, r.2)
  else if dty.isFloat then intToFloat (fmtOf dty) rm (intVal sty x)
  else if sty.bits < dty.bits then (lowBits dty.bits (intVal sty x), 0)
  else (lowBits dty.bits (clampInt (leastOf dty) (mostOf dty) (intVal sty x)), 0)

/-- FCLASS (R357): which of ten bits is set. -/
def fClass (f : Fmt) (x : Nat) : Nat :=
  let neg := bit x (f.ebits + f.mbits)
  match unpack f x with
  | .nan s => if s then 256 else 512
  | .inf a => if a then 1 else 128
  | .fin a m _ =>
    if m = 0 then (if a then 8 else 16)
    else if m < 2 ^ f.mbits then (if neg then 4 else 32)
    else (if neg then 2 else 64)

end Sys2Proof.Machine
end

