-- ==== Sys2Proof/Machine/Flags.lean ====
section
/-! DEFINITION. The results of the integer instructions, each once, for the scalar and the vector forms alike (R64, R65,
R332, R373, R377, R378). None of them sets a flag; the flags of the floating instructions are Float.lean's. A raw operand
is a natural number below 2 to its width, and so is a raw result. -/

namespace Sys2Proof.Machine

/-- A result computed on the integers the operands stand for, kept modulo 2^w (R64). -/
def arith (ty : Ty) (f : Int → Int → Int) (x y : Nat) : Nat := lowBits ty.bits (f (intVal ty x) (intVal ty y))

def addRaw (ty : Ty) (x y : Nat) : Nat := arith ty (· + ·) x y
def subRaw (ty : Ty) (x y : Nat) : Nat := arith ty (· - ·) x y
def mulRaw (ty : Ty) (x y : Nat) : Nat := arith ty (· * ·) x y
/-- The high half of the exact double-width product (R64). -/
def mulhRaw (ty : Ty) (x y : Nat) : Nat := arith ty (mulHigh ty) x y
def divRaw (ty : Ty) (x y : Nat) : Nat := arith ty (divInt ty) x y
def remRaw (ty : Ty) (x y : Nat) : Nat := arith ty remInt x y
def minRaw (ty : Ty) (x y : Nat) : Nat := arith ty (fun a b => if a ≤ b then a else b) x y
def maxRaw (ty : Ty) (x y : Nat) : Nat := arith ty (fun a b => if a ≤ b then b else a) x y
def madRaw (ty : Ty) (x y z : Nat) : Nat := lowBits ty.bits (intVal ty x * intVal ty y + intVal ty z)
/-- The absolute value; the most negative value returns itself (R64). -/
def absRaw (ty : Ty) (x : Nat) : Nat := lowBits ty.bits (intVal ty x).natAbs
def negRaw (ty : Ty) (x : Nat) : Nat := lowBits ty.bits (-(intVal ty x))
def andRaw (x y : Nat) : Nat := x &&& y
def orRaw (x y : Nat) : Nat := x ||| y
def xorRaw (x y : Nat) : Nat := x ^^^ y
def notRaw (ty : Ty) (x : Nat) : Nat := 2 ^ ty.bits - 1 - x % 2 ^ ty.bits
/-- SHL (R378): a count of the width or more gives 0. -/
def shlRaw (ty : Ty) (x n : Nat) : Nat := if ty.bits ≤ n then 0 else x * 2 ^ n % 2 ^ ty.bits
/-- SHR (R378). -/
def shrRaw (ty : Ty) (x n : Nat) : Nat := if ty.bits ≤ n then 0 else x % 2 ^ ty.bits / 2 ^ n
/-- SHA (R378): arithmetic whatever the signedness of the type; a count of the width or more gives copies of the top bit. -/
def shaRaw (ty : Ty) (x n : Nat) : Nat :=
  let w := ty.bits
  let v : Int := if 2 ^ (w - 1) ≤ x % 2 ^ w then ((x % 2 ^ w : Nat) : Int) - 2 ^ w else ((x % 2 ^ w : Nat) : Int)
  lowBits w (if w ≤ n then (if v < 0 then -1 else 0) else v / 2 ^ n)
def clzRaw (ty : Ty) (x : Nat) : Nat := leadZeros ty.bits x
def popcRaw (ty : Ty) (x : Nat) : Nat := popCount ty.bits x
def brevRaw (ty : Ty) (x : Nat) : Nat := revBits ty.bits (x % 2 ^ ty.bits)

end Sys2Proof.Machine
end

