-- ==== Sys2Proof/Config.lean ====
section
/-! DEFINITION. The FREE VALUES: what the spec leaves open, or draws from a random source. Every constant here is
opaque, so nothing can be proved of its value; each is named by an entry of the assumption log. -/

namespace Sys2Proof.Config

/-- R90: whether a read that a long-latency write has not yet reached returns the value BEFORE the write (log 4). -/
opaque early : Nat → Nat → Bool
/-- R34: the 64 opaque bits of a grid handle made at the `n`th draw (log 5). -/
opaque gridHandle : Nat → W64
/-- R34: the 64 opaque bits of a team handle made at the `n`th draw (log 5). -/
opaque teamHandle : Nat → W64
/-- R230: the low 16 bits of the AES-CMAC of bits 63:16 of a handle under a die's seal key (log 6). -/
opaque cmac : W64 → BitVec 48 → BitVec 16
/-- R230, R130: a draw of the random source: seal keys and memory keys (log 6). -/
opaque random : Nat → W64
/-- R130, R132: the byte a line written under another load of its key decrypts to: key id, the load it was written
under, the load it is read under, address, stored byte (log 7). -/
opaque garble : Nat → Nat → Nat → Nat → Byte → Byte
/-- R14, R269: what picks the set of a line among the 1024 of its bank (log 13). -/
opaque l2Row : Nat → Nat
/-- R269: which set of each 64 is the sampled one (log 13). -/
opaque l2Sample : Nat → Nat
/-- R134: which of an L1's lines it evicts for room, at its device's `n`th eviction (log 81). -/
opaque l1Victim : Nat → Nat
/-- R272: the contents of a TDISP response, which the spec does not give (log 20). -/
opaque tdisp : Nat → Nat → W64
/-- R306: whether three replays of an instruction fail, at a tick (log 24). -/
opaque replaysFail : Nat → Bool
/-- R278, R279: the watts a slice's estimators give for its demand at a tick (log 25). -/
opaque demand : Nat → Nat → Nat
/-- R279: the watts a slice's estimators give at a throttle level, at a tick (log 25). -/
opaque estimate : Nat → Nat → Nat → Nat
/-- R279: the measured power of the module over an epoch, and of the hub die and HBM refresh, by the epoch's number, where no
event gives them (log 25). -/
opaque modulePower : Nat → Nat
opaque fixedPower : Nat → Nat
/-- R296: the VALUE of the record of a request that completes SATURATED, by the request (log 26). -/
opaque satValue : Nat → W64
/-- R186: the code of a graph fault for which the spec names none, at a tick (log 55). -/
opaque graphCode : Nat → Nat
/-- R287, R306: a byte of a poisoned line as the host reads it, by tick and address (log 43). -/
opaque poisonByte : Nat → Nat → Byte
/-- R220, R221: the byte of a saved context's image, by the draw that names the image and the address, and where in its function's area
the device would lay it (log 106). -/
opaque imageByte : Nat → Nat → Byte
opaque imagePlace : Nat → Nat
/-- R305: a stage's check of the hardware itself, self-test and HBM training (log 17). -/
opaque hardwareGood : Nat → Bool

end Sys2Proof.Config
end

