-- ==== Sys2Proof/Machine/Mem.lean ====
section
/-! DEFINITION. Global memory (R125-R137, R140-R143): translation at the home, frame keys, the L1 and word ownership,
reads and writes at the registry, and the two host windows. Every change of the two memories goes through
`Mem.writeByte` here. -/

namespace Sys2Proof.Machine

/-- A physical place: host memory or HBM, and the address. -/
structure Phys where
  host : Bool
  pa : Nat
  deriving DecidableEq, Repr

/-- The registry's name of the word at a physical place (R134). -/
def Phys.word (p : Phys) : Nat := 2 * (p.pa / 4) + (if p.host then 1 else 0)
/-- The registry's name of its line. -/
def Phys.line (p : Phys) : Nat := 2 * (p.pa / 128) + (if p.host then 1 else 0)
/-- The physical place of a registry word. -/
def physOf (word : Nat) : Phys := ⟨decide (word % 2 = 1), word / 2 * 4⟩

/-- The load count of the key a frame is under (R132). -/
def Mem.load (m : Mem) (frame : Nat) : Nat := Store.get 0 m.keyLoads (Store.get 0 m.frameKey frame)
/-- The load a line was last written under. -/
def Mem.lineAge (m : Mem) (pa : Nat) : Nat :=
  (Store.get none m.lineLoad (pa / 128)).getD (Store.get 0 m.frameLoad (pa / 65536))

/-- An HBM address lies in an image, and has not been written since. -/
def Image.shows (x : Image) (pa : Nat) : Bool :=
  decide (x.lo ≤ pa ∧ pa < x.lo + x.size) && !x.redone.any (fun r => decide (r.1 ≤ pa ∧ pa < r.1 + r.2))
/-- Writes of a range meet the images that lie there (R220). -/
def Mem.overImages (m : Mem) (lo n : Nat) : Mem :=
  { m with images := m.images.map (fun x =>
      if overlap lo n x.lo x.size && (n != 1 || x.shows lo) then { x with redone := (lo, n) :: x.redone } else x) }

/-- The byte at a physical place as the memory controller returns it (R130, R132); that of a saved context's image is a free value. -/
def Mem.readByte (m : Mem) (p : Phys) : Byte :=
  if p.host then Store.get 0 m.host p.pa
  else match m.images.find? (·.shows p.pa) with
  | some x => Config.imageByte x.draw p.pa
  | none =>
    let raw := Store.get 0 m.hbm p.pa
    if m.lineAge p.pa = m.load (p.pa / 65536) then raw
    else Config.garble (Store.get 0 m.frameKey (p.pa / 65536)) (m.lineAge p.pa) (m.load (p.pa / 65536)) p.pa raw

/-- The bytes of a line as they decrypt now, stored back: what a partial write of a line leaves of the rest (R132). -/
def Mem.recrypt (m : Mem) (line : Nat) : Nat → Mem
  | 0 => m
  | n + 1 =>
    let b := m.readByte ⟨false, line * 128 + n⟩
    let m' := Mem.recrypt m line n
    { m' with hbm := Store.set 0 m'.hbm (line * 128 + n) b }

/-- The line of a byte brought under the present load of its key. -/
def Mem.freshen (m : Mem) (pa : Nat) : Mem :=
  if m.lineAge pa = m.load (pa / 65536) then m
  else
    let m' := Mem.recrypt m (pa / 128) 128
    { m' with lineLoad := Store.set none m'.lineLoad (pa / 128) (some (m.load (pa / 65536))) }

/-- A write of a whole line clears its poison (R306). -/
def Mem.cleanLine (m : Mem) (p : Phys) (n : Nat) : Mem :=
  if !p.host && p.pa % 128 == 0 && n == 128 then { m with poison := m.poison.filter (· != p.pa / 128) } else m

/-- One byte written at a physical place. -/
def Mem.writeByte (m : Mem) (p : Phys) (b : Byte) : Mem :=
  if p.host then { m with host := Store.set 0 m.host p.pa b }
  else
    let m' := (m.freshen p.pa).overImages p.pa 1
    { m' with hbm := Store.set 0 m'.hbm p.pa b }

def Mem.writeBytes (m : Mem) (p : Phys) : List Byte → Mem
  | [] => m
  | b :: bs => Mem.writeBytes (m.writeByte p b) ⟨p.host, p.pa + 1⟩ bs

/-- A word as the memory holds it. -/
def Mem.rawWord (m : Mem) (word : Nat) : W32 :=
  let p := physOf word
  BitVec.ofNat 32 (ofLE ((List.range 4).map (fun i => m.readByte ⟨p.host, p.pa + i⟩)))
def Mem.putWord (m : Mem) (word : Nat) (v : W32) : Mem := m.writeBytes (physOf word) (toLE 4 v.toNat)

/-- A word with the bytes of a mask taken from `v` and the others from `base`. -/
def mergeBytes (mask : Nat) (v base : W32) : W32 :=
  BitVec.ofNat 32 (ofLE ((List.range 4).map (fun i => BitVec.ofNat 8 ((if bit mask i then v else base).toNat / 256 ^ i))))

/-- A word read at its registry, or forwarded to the owner it records: the owner's value as its last accepted registration
had it (R134). -/
def Mem.word (m : Mem) (word : Nat) : W32 :=
  match Store.get none m.owner word with
  | none => m.rawWord word
  | some k =>
    match Store.get none m.l1 k with
    | some w => w.pub
    | none => m.rawWord word

/-- What an L1 keeps of a word it no longer owns: nothing, but for a store whose registration is still in flight. -/
def L1Word.kept (w : L1Word) : Option L1Word := if w.mask = 0 then none else some w

/-- The registry takes a word from its owner, writing the owner's value back (R135, R137). -/
def Mem.reclaim (m : Mem) (word : Nat) : Mem :=
  match Store.get none m.owner word with
  | none => m
  | some k =>
    let m' := match Store.get none m.l1 k with
      | some w => m.putWord word w.pub
      | none => m
    { m' with
      owner := Store.set none m'.owner word none
      l1 := Store.set none m'.l1 k (match Store.get none m.l1 k with | some w => w.kept | none => none) }

/-- The core that wrote the bytes of a word that a mask names (R145). -/
def Mem.setWriter (m : Mem) (word mask : Nat) (who : Option Nat) : Mem :=
  { m with writer := (List.range 4).foldl (fun (a : Store (Option Nat)) i => if bit mask i then Store.set none a (4 * word + i) who else a) m.writer }

/-- A word written at its registry by an atomic, an engine or the host (R135, R149, R287). -/
def Mem.regWrite (m : Mem) (word : Nat) (v : W32) : Mem :=
  { ((m.reclaim word).putWord word v).setWriter word 15 none with dirty := true }

/-- Bytes written at the registry, word by word. -/
def Mem.regBytes (m : Mem) (p : Phys) : List Byte → Mem
  | [] => m
  | b :: bs =>
    let m' := (m.reclaim p.word).writeByte p b
    Mem.regBytes { m'.setWriter p.word (2 ^ (p.pa % 4)) none with dirty := true } ⟨p.host, p.pa + 1⟩ bs
/-- Bytes read at the registry. -/
def Mem.regRead (m : Mem) (p : Phys) : Nat → List Byte
  | 0 => []
  | n + 1 => BitVec.ofNat 8 ((m.word p.word).toNat / 256 ^ (p.pa % 4)) :: Mem.regRead m ⟨p.host, p.pa + 1⟩ n

-- L1 (R134)

/-- The L1 tag of a word: core, function, virtual address. -/
def l1Key (core fn va : Nat) : Nat := (core * 512 + fn) * 2 ^ 55 + va / 4 % 2 ^ 55
def l1Core (key : Nat) : Nat := key / 2 ^ 64
def l1Fn (key : Nat) : Nat := key / 2 ^ 55 % 512
def l1Va (key : Nat) : Nat := key % 2 ^ 55 * 4

/-- A move's page holds a page of 64 KiB of a function (R137). -/
def Migration.covers (x : Migration) (fn page : Nat) : Bool :=
  x.fn == fn && (if x.big then x.page / 32 == page / 32 else x.page == page)
/-- The name of a blocked page, as a held access carries it. -/
def moveKey (fn page : Nat) (big : Bool) : Nat := (fn * 2 ^ 41 + page % 2 ^ 41) * 2 + (if big then 1 else 0)
def moveOf (key : Nat) : Migration := ⟨key / 2 ^ 42, key / 2 % 2 ^ 41, key % 2 == 1, false, []⟩

/-- The frame of a place is being scrubbed (R133): the frames of the range are handled one after another. -/
def Mem.scrubbing (m : Mem) (p : Phys) : Bool :=
  match m.scrub with
  | none => false
  | some (next, _, _) => !p.host && decide (p.pa / 65536 = next)

/-- A word's page is blocked by a move, or its frame is being scrubbed (R134). -/
def Mem.blockedWord (m : Mem) (key word : Nat) : Bool :=
  m.moves.any (fun x => x.covers (l1Fn key) (l1Va key / 65536)) || m.scrubbing (physOf word)

/-- A registry accepts one word's registration: the word goes to its new owner, the old owner drops its copy. Bytes that the
owner has not stored keep the value they have at the registry by then (R134, R143). -/
def Mem.acceptWord (m : Mem) (key : Nat) : Mem :=
  match Store.get none m.l1 key with
  | none => m
  | some w =>
    if w.owned then
      let v := mergeBytes w.mask w.val (m.word w.home)
      let m1 := match Store.get none m.owner w.home with
        | some o => if o = key then m else { m with l1 := Store.set none m.l1 o (match Store.get none m.l1 o with | some x => x.kept | none => none) }
        | none => m
      let m' := m1.setWriter w.home w.mask (some (l1Core key))
      { m' with
        owner := Store.set none m'.owner w.home (some key)
        l1 := Store.set none m'.l1 key (some { w with val := v, pub := v, mask := 0 })
        dirty := true }
    else m

/-- An owned word of a host frame written to host memory (R140, SYSTEM). -/
def Mem.pushWord (m : Mem) (key : Nat) : Mem :=
  match Store.get none m.l1 key with
  | some w => if w.owned && w.home % 2 == 1 && w.mask == 0 then m.putWord w.home w.val else m
  | none => m

/-- A registry accepts a registration (R134), both words of a 64-bit store at once (R143); the value of a SYSTEM store goes on
to host memory (R140). -/
def Mem.acceptFlight (m : Mem) (f : Flight) : Mem :=
  let m1 := m.acceptWord f.key
  let m2 := if f.wide then m1.acceptWord (f.key + 1) else m1
  let m3 := if f.sys then m2.pushWord f.key else m2
  if f.sys && f.wide then m3.pushWord (f.key + 1) else m3

/-- Registrations accepted in the order given. -/
def Mem.acceptAll (m : Mem) : List Flight → Mem
  | [] => m
  | f :: fs => Mem.acceptAll (m.acceptFlight f) fs

/-- The words of a flight are not blocked. -/
def Mem.flightFree (m : Mem) (f : Flight) : Bool :=
  match Store.get none m.l1 f.key with
  | none => true
  | some w => !m.blockedWord f.key w.home

/-- The registrations in flight that satisfy a test are accepted, in order, and no longer in flight. -/
def Mem.acceptIf (m : Mem) (p : Flight → Bool) : Mem :=
  { m.acceptAll (m.flights.filter p) with flights := m.flights.filter (fun f => !p f) }

/-- Every registration in flight from core `k` that is not blocked is accepted, in order (R142, R151). -/
def Mem.drain (m : Mem) (k : Nat) : Mem := m.acceptIf (fun f => f.core == k && m.flightFree f)
/-- Core `k` still has a registration in flight: what covers it waits (R134). -/
def Mem.owes (m : Mem) (k : Nat) : Bool := m.flights.any (fun f => f.core == k)
/-- None of core `k`'s registrations is blocked: what covers them need not wait. -/
def Mem.coreFree (m : Mem) (k : Nat) : Bool := m.flights.all (fun f => f.core != k || m.flightFree f)

/-- The oldest registration of core `k` that is not blocked is accepted (R134). -/
def Mem.acceptOldest (m : Mem) (k : Nat) : Mem :=
  match m.flights.find? (fun f => f.core == k && m.flightFree f) with
  | none => m
  | some f => { m.acceptFlight f with flights := m.flights.erase f }

/-- The registry word of a flight's first word; none where its L1 has given it up. -/
def Mem.homeOf (m : Mem) (f : Flight) : Option Nat := (Store.get none m.l1 f.key).map (·.home)

/-- Time has passed to `t`, from `now`: a registration is accepted within 2 µs of being sent, or of the end of what blocked
it (R134). -/
def Mem.age (m : Mem) (now t : Nat) : Mem :=
  let fs := m.flights.map (fun f => { f with due := some (f.due.getD (now + 2000000)) })
  let late (f : Flight) : Bool := match f.due with | some d => decide (d ≤ t) | none => false
  let m1 : Mem := { m with flights := fs }
  let m2 := m1.acceptIf (fun f => late f && m1.flightFree f)
  { m2 with flights := m2.flights.map (fun f => if late f then { f with due := some (t + 2000000) } else f) }

/-- The registered words of host frames are written to host memory (R140, SYSTEM), whichever core owns them by now: a later
value of a word stands for every earlier one. -/
def Mem.pushHost (m : Mem) : Store (Option Nat) → Mem
  | [] => m
  | (word, o) :: rest =>
    let m' := match o.bind (Store.get none m.l1) with
      | some x => if word % 2 = 1 then m.putWord word x.pub else m
      | none => m
    Mem.pushHost m' rest

/-- A release at PART or wider (R142); at SYSTEM the host frames' values reach host memory (R140). -/
def Mem.release (m : Mem) (k : Nat) (sc : Scope) : Mem :=
  match sc with
  | .team => m
  | .system => let m' := m.drain k; m'.pushHost m'.owner
  | _ => m.drain k

/-- The bytes of an owned word that its core has not stored are those at the registry again, unless it is the owner the
registry records (R135). -/
def Mem.refresh (m : Mem) (key : Nat) : Mem :=
  match Store.get none m.l1 key with
  | none => m
  | some w =>
    if w.owned && Store.get none m.owner w.home != some key
    then { m with l1 := Store.set none m.l1 key (some { w with val := mergeBytes w.mask w.val (m.word w.home) }) }
    else m
def Mem.refreshAll (m : Mem) : List Flight → Mem
  | [] => m
  | f :: fs => Mem.refreshAll (if f.wide then (m.refresh f.key).refresh (f.key + 1) else m.refresh f.key) fs

/-- An L1 gives up a word: what it owned stands at the registry (R134). -/
def Mem.evictWord (m : Mem) (key : Nat) : Mem :=
  match Store.get none m.l1 key with
  | none => m
  | some w =>
    let m' := if w.owned && w.mask == 0 then m.reclaim w.home else m
    { m' with l1 := Store.set none m'.l1 key w.kept }

/-- The words that core `k` holds owned and registered under another address than a registration in flight of the same word
(R136). -/
def Mem.aliased (m : Mem) (k : Nat) (f : Flight) : List Nat :=
  let homes := m.homeOf f :: (if f.wide then [m.homeOf { f with key := f.key + 1 }] else [])
  m.l1.filterMap (fun e => match e.2 with
    | some w => if l1Core e.1 == k && w.mask == 0 && w.owned && homes.contains (some w.home) then some e.1 else none
    | none => none)
/-- The stores of core `k` to words that it holds registered under another address reach the registry; where one is blocked,
the other copy goes (R136). -/
def Mem.joinAliases (m : Mem) (k : Nat) : Mem :=
  let m1 := m.acceptIf (fun f => f.core == k && m.flightFree f && !(m.aliased k f).isEmpty)
  (m1.flights.filter (fun f => f.core == k)).foldl (fun (a : Mem) f => (m1.aliased k f).foldl Mem.evictWord a) m1

/-- An acquire at PART or wider: every unowned word of the core's L1 goes (R135), and what it stored through one alias of a
word is what it reads through another (R136). -/
def Mem.acquire (m0 : Mem) (k : Nat) : Mem :=
  let m := m0.joinAliases k
  let m1 : Mem := { m with l1 := Store.keep m.l1 (fun key w =>
    !(l1Core key == k) || (match w with | some x => x.owned | none => false)) }
  m1.refreshAll (m.flights.filter (fun f => f.core == k))

-- translation (R125-R129, R421)

inductive Kind where
  | read | write | fetch
  /-- A write through a fill handle (R129 order 4). -/
  | fillWrite
  /-- PTNEW's check: as a write, without order 4 (R235). -/
  | probe
  deriving DecidableEq, Repr

def Kind.writes : Kind → Bool
  | .write => true
  | .fillWrite => true
  | .probe => true
  | _ => false

/-- Who accesses: the core whose L1 serves it, the function, and the partition it is judged by (R264). -/
structure Agent where
  core : Nat
  fn : Nat
  part : Nat
  /-- The grid it works for (R37). -/
  grid : Nat
  /-- The lines of its core's L1 that are marked, by their first word's key (R258). -/
  marks : List Nat
  deriving DecidableEq, Repr

/-- The stack of a device physical address belongs to the partition (R128, R262). -/
def Ctl.ownsStack (c : Ctl) (part pa : Nat) : Bool := decide (pa < 2 ^ 40) && c.owns part (pa / 2 ^ 36)

/-- A page table may lie here: HBM frames of the function's partition; of any enabled partition for the PF (R126, R264). -/
def Ctl.tableAt (c : Ctl) (fn part pa : Nat) : Bool :=
  if fn = 0 then decide (pa < 2 ^ 40) && (c.partOfSlice (pa / 2 ^ 36)).isSome else c.ownsStack part pa

/-- 64 bits read at the registry. -/
def Mem.quad (m : Mem) (pa : Nat) : Nat := ofLE (m.regRead ⟨false, pa⟩ 8)
/-- The line of a place is poisoned (R306). -/
def Mem.poisonedAt (m : Mem) (p : Phys) : Bool := !p.host && m.poison.contains (p.pa / 128)
/-- A table entry as a walk reads it; none on a poisoned line (R306). -/
def Mem.entry (m : Mem) (pa : Nat) : Except Code Nat := if m.poisonedAt ⟨false, pa⟩ then .error .uncorrectable else .ok (m.quad pa)

/-- A host frame is granted to the function by one of its windows (R421). -/
def Ctl.hostGranted (c : Ctl) (fn frame : Nat) : Bool :=
  (List.range 4).any (fun w =>
    let b := (c.hostBaseOf fn w).toNat
    let l := (c.hostLimOf fn w).toNat
    bit b 0 && decide (bits b 16 36 ≤ frame ∧ frame ≤ bits l 16 36))

/-- The walk from the root (R127): a leaf and whether it maps 2 MiB, or the fault. -/
def walk (c : Ctl) (m : Mem) (fn part home va : Nat) : Except Code (W64 × Bool) :=
  let root := (c.xltRootOf fn home).toNat
  if !bit root 0 then .error .pageFault
  else
    let o := va % 2 ^ 54
    let t0 := bits root 15 37 * 2 ^ 15
    let table (e align : Nat) : Except Code Nat :=
      if bit e 0 && bit e 1 && bits e 52 12 == 0 && bits e 2 6 == 0 && (bits e 8 44 * 256) % align == 0
      then .ok (bits e 8 44 * 256) else .error .pageFault
    let leafOk (e : Nat) : Bool := bit e 0 && !bit e 1 && bits e 7 9 == 0
    if !c.tableAt fn part t0 then .error .outOfPartition
    else do
      let e0 ← m.entry (t0 + 8 * bits o 42 12)
      let t1 ← table e0 32768
      if !c.tableAt fn part t1 then .error .outOfPartition
      else do
        let e1 ← m.entry (t1 + 8 * bits o 30 12)
        let t2 ← table e1 4096
        if !c.tableAt fn part t2 then .error .outOfPartition
        else do
          let e2 ← m.entry (t2 + 8 * bits o 21 9)
          if bit e2 0 && !bit e2 1 then
            if leafOk e2 && bits e2 16 5 == 0 then .ok (BitVec.ofNat 64 e2, true) else .error .pageFault
          else do
            let t3 ← table e2 256
            if !c.tableAt fn part t3 then .error .outOfPartition
            else do
              let e3 ← m.entry (t3 + 8 * bits o 16 5)
              if leafOk e3 then .ok (BitVec.ofNat 64 e3, false) else .error .pageFault

-- sampling the L2 (R269)

/-- The set of a line among the 16,384 of its slice: consecutive lines in consecutive banks of 1024 sets (R14, log 13). -/
def l2Set (line : Nat) : Nat := line % 16 * 1024 + Config.l2Row line % 1024
/-- One set in 64 is sampled (R269, log 13). -/
def l2Sampled (set : Nat) : Bool := set % 64 == Config.l2Sample (set / 64) % 64

/-- A lookup of a line by a function in a slice's L2: where its set is sampled, the shadow stack counts it. -/
def Mem.sample (c : Ctl) (m : Mem) (fn : Nat) (p : Phys) : Mem :=
  let line := p.pa / 128
  if p.host || !l2Sampled (l2Set line) then m
  else
    let at_ := p.pa / 2 ^ 36 * 1024 + fn
    let key := at_ * 16384 + l2Set line
    let stack := Store.get [] m.shadow key
    let cur := (Store.get 0 c.l2Cur at_).toNat
    let old := Store.get (0, 0) m.gains at_
    let new := match stack.findIdx? (· == line) with
      | some n => if n = cur then (old.1 + 1, old.2) else if n + 1 = cur then (old.1, old.2 + 1) else old
      | none => old
    { m with shadow := Store.set [] m.shadow key ((line :: stack.filter (· != line)).take 24)
             gains := Store.set (0, 0) m.gains at_ new }

/-- The table entries a walk reads, looked up as the PF (R268). -/
def Mem.sampleWalk (c : Ctl) (m : Mem) (fn home va : Nat) (big : Bool) : Mem :=
  let o := va % 2 ^ 54
  let next (at_ idx : Nat) : Nat := bits (m.quad at_) 8 44 * 256 + 8 * idx
  let a0 := bits (c.xltRootOf fn home).toNat 15 37 * 2 ^ 15 + 8 * bits o 42 12
  let a1 := next a0 (bits o 30 12)
  let a2 := next a1 (bits o 21 9)
  ([a0, a1, a2] ++ (if big then [] else [next a2 (bits o 16 5)])).foldl (fun (a : Mem) x => a.sample c 0 ⟨false, x⟩) m

def leafHost (l : W64) : Bool := bit l.toNat 52
def leafKey (l : W64) : Nat := bits l.toNat 53 11
def leafFrame (l : W64) : Nat := bits l.toNat 16 36
def leafMg (l : W64) : Bool := bit l.toNat 6
def leafPo (l : W64) : Bool := bit l.toNat 5
def leafX (l : W64) : Bool := bit l.toNat 4
def leafW (l : W64) : Bool := bit l.toNat 3
def leafR (l : W64) : Bool := bit l.toNat 2

/-- A host leaf names a frame that no window grants (R129 order 2, R421): judged as the walk ends. Each frame that the leaf
covers is granted by itself, by any of the function's windows (log 82). -/
def leafOutside (c : Ctl) (fn : Nat) (l : W64) (big : Bool) : Bool :=
  leafHost l && !(List.range (if big then 32 else 1)).all (fun i => c.hostGranted fn (leafFrame l + i))

/-- The checks of a leaf in the order of R129, from order 2 on for a frame of HBM and from order 3 on for a host frame; none
when it passes. -/
def leafFault (c : Ctl) (m : Mem) (fn part : Nat) (k : Kind) (l : W64) (big : Bool) : Option Code :=
  let frames := (List.range (if big then 32 else 1)).map (fun i => leafFrame l + i)
  if !leafHost l && !c.ownsStack part (leafFrame l * 65536) then some .outOfPartition
  else if (k == .read && !leafR l) || (k.writes && !leafW l) || (k == .fetch && !leafX l)
      || (fn != 0 && !leafHost l && leafKey l == 0) then some .access
  else if leafHost l && c.tdiOf fn == 3 then some .access
  else if leafPo l && k == .write then some .access
  else if !leafHost l && !frames.all (fun f => Store.get 0 m.frameKey f == leafKey l) then some .frameKeyConflict
  else none

/-- The home's cache of translations, by home, function and 64 KiB page. -/
def tlbKey (home fn page : Nat) : Nat := (home * 512 + fn) * 2 ^ 38 + page % 2 ^ 38

/-- The leaf that a page's accesses go by now, as the home has it cached or a walk finds it. -/
def leafAt (c : Ctl) (m : Mem) (fn part va : Nat) : Option W64 :=
  let home := bits va 54 3
  match Store.get none m.tlb (tlbKey home fn (va / 65536 % 2 ^ 38)) with
  | some e => some e.leaf
  | none => match walk c m fn part home va with
    | .ok (l, _) => some l
    | .error _ => none

inductive Trans where
  | ok (p : Phys) (m : Mem)
  | fault (c : Code)
  /-- Queued at the home agent (R137): the name of the blocked page. -/
  | blocked (i : Nat)
  deriving DecidableEq, Repr

/-- Translation of a global virtual address with home 0-4 (R125, R126, R129). The page is cached at the home and stays in use
until KTLBI, whatever a root or a window is changed to meanwhile (R126, R421, log 8), but for a root's EN: while it is 0, every
access with its home faults (R126). -/
def translate (c : Ctl) (m : Mem) (fn part va : Nat) (k : Kind) : Trans :=
  let home := bits va 54 3
  if 2 ^ 57 ≤ va then .fault .access
  else if 5 ≤ home then .fault .access
  else if decide (home < 4) && !c.onDie part home then .fault .outOfPartition
  else if !bit (c.xltRootOf fn home).toNat 0 then .fault .pageFault
  else
    let page := va / 65536
    match m.moves.find? (fun x => x.covers fn page) with
    | some x => .blocked (moveKey fn page x.big)
    | none =>
      let key := tlbKey home fn (page % 2 ^ 38)
      let got : Except Code (W64 × Bool × Mem) :=
        match Store.get none m.tlb key with
        | some e => .ok (e.leaf, e.big, m)
        | none =>
          match walk c m fn part home va with
          | .error e => .error e
          | .ok (l, big) =>
            if leafMg l then .ok (l, big, m)
            else if leafOutside c fn l big then .error .outOfPartition
            else .ok (l, big, { (m.sampleWalk c fn home va big) with tlb := Store.set none m.tlb key (some ⟨l, big⟩) })
      match got with
      | .error e => .fault e
      | .ok (l, big, m') =>
        -- the agent sees MG and blocks the page (R137)
        if leafMg l then .blocked (moveKey fn page big)
        else match leafFault c m fn part k l big with
        | some e => .fault e
        | none =>
          let pa := if big then leafFrame l * 65536 + va % 2 ^ 21 else leafFrame l * 65536 + va % 65536
          .ok ⟨leafHost l, pa⟩ m'

-- accesses

inductive Got (α : Type) where
  | ok (v : α) (m : Mem)
  | fault (c : Code)
  /-- Held at a claimed line or a frame being scrubbed. -/
  | held
  /-- Held at a blocked page (R137). -/
  | blocked (i : Nat)
  /-- The line is poisoned (R306). -/
  | poisoned
/-- The page that blocks an access. -/
def Got.page {α : Type} (g : Got α) : Option Nat :=
  match g with
  | .blocked k => some k
  | _ => none
/-- What holds an access back, if anything does: a claim or a scrub, or a blocked page with its name (R133, R137, R149). -/
def Got.stop {α : Type} (g : Got α) : Option (Option Nat) :=
  match g with
  | .held => some none
  | .blocked k => some (some k)
  | _ => none
/-- A translation's fault as an access's: a walk that reads a poisoned table line ends the reading team (R306). -/
def Got.failed {α : Type} (e : Code) : Got α := if e = .uncorrectable then .poisoned else .fault e

/-- The registry line a claimed line translates to now; none while its page is blocked or its translation faults. -/
def claimedLine (c : Ctl) (m : Mem) (fn part line : Nat) (fill : Bool) : Option Nat :=
  match translate c m fn part (line * 128) (if fill then .fillWrite else .write) with
  | .ok p _ => some p.line
  | _ => none
/-- An access of a function at a virtual address and the place it translates to meets a claim that satisfies a test (R149): of
the same line by its address, or of the line that lies there now. -/
def Mem.claimed (c : Ctl) (m : Mem) (who : Nat → Bool) (fn va : Nat) (p : Phys) : Bool :=
  m.claims.any (fun x => match x with
    | .line id f q l fill => who id && ((f == fn && l == va / 128) || claimedLine c m f q l fill == some p.line)
    | .scratch _ _ _ _ => false)

/-- A line is claimed by an engine (R149), or its frame is being scrubbed (R133). -/
def Mem.barred (c : Ctl) (m : Mem) (fn va : Nat) (p : Phys) : Bool := m.claimed c (fun _ => true) fn va p || m.scrubbing p
/-- The same for a copy, which its own claim and those of later copies do not hold (R149, R164). -/
def Mem.barredFor (c : Ctl) (m : Mem) (id fn va : Nat) (p : Phys) : Bool :=
  m.claimed c (fun k => decide (k < id)) fn va p || m.scrubbing p
/-- An L1 gives up the line of number `line`, by its first word's key: its registrations in flight are accepted first. -/
def Mem.evictLine (m : Mem) (line : Nat) : Mem :=
  (List.range 32).foldl (fun (a : Mem) i => a.evictWord (line * 32 + i)) (m.acceptIf (fun f => f.key / 32 == line && m.flightFree f))

/-- The lines an L1 holds, by their first word's key. -/
def Mem.l1Lines (m : Mem) (core : Nat) : List Nat :=
  m.l1.foldr (fun e ls => if l1Core e.1 = core && ls.head? != some (e.1 / 32) then e.1 / 32 :: ls else ls) []
/-- The registrations of the line are not blocked. -/
def Mem.lineFree (m : Mem) (line : Nat) : Bool := m.flights.all (fun f => f.key / 32 != line || m.flightFree f)

/-- The lines of a set that an eviction may choose among: a marked one only when every line is marked (R258). -/
def evictable (marks ls : List Nat) : List Nat :=
  let plain := ls.filter (fun l => !marks.contains (32 * l))
  if plain.isEmpty then ls else plain

/-- Room in an L1 of 2048 lines for a line it is to hold (R11, R134): where it is full, it evicts one whose registrations it
need not wait for, which one is open (log 81), but for the marks (R258). None where it must wait. -/
def Mem.makeRoom (m : Mem) (core : Nat) (marks : List Nat) (line : Nat) : Option Mem :=
  let ls := m.l1Lines core
  if ls.length < 2048 || ls.contains line then some m
  else
    let vs := (evictable marks ls).filter m.lineFree
    (vs[Config.l1Victim m.evicts % vs.length]?).map (fun v => { m.evictLine v with evicts := m.evicts + 1 })

/-- The core's stores to the line through another address are at the registry before the line is fetched, written or changed at
the registry (R136). None where one of them is blocked. -/
def Mem.pushAliases (m : Mem) (core line : Nat) (p : Phys) : Option Mem :=
  let other (f : Flight) : Bool := f.core == core && f.key / 32 != line &&
    (match m.homeOf f with | some h => (physOf h).line == p.line | none => false)
  if m.flights.any (fun f => other f && !m.flightFree f) then none else some (m.acceptIf other)

/-- A line fetched into an L1: its words valid and unowned, the words it owns kept (R134). -/
def Mem.fillLine (m : Mem) (core fn va : Nat) (p : Phys) : Nat → Mem
  | 0 => m
  | n + 1 =>
    let m' := Mem.fillLine m core fn va p n
    let key := l1Key core fn (va / 128 * 128 + 4 * n)
    let word := (Phys.mk p.host (p.pa / 128 * 128 + 4 * n)).word
    let new : L1Word := ⟨m.word word, false, word, m.word word, 0⟩
    match Store.get none m'.l1 key with
    | some w => if w.owned then m' else { m' with l1 := Store.set none m'.l1 key (some new) }
    | none => { m' with l1 := Store.set none m'.l1 key (some new) }

/-- The 32-bit word at a virtual address through the core's L1, which must hold its line by now. -/
def Mem.l1Word (m : Mem) (core fn va : Nat) (p : Phys) : W32 :=
  match Store.get none m.l1 (l1Key core fn va) with
  | some w => w.val
  | none => m.word p.word

/-- The `n` bytes at a virtual address inside one line, through the L1. -/
def Mem.l1Bytes (m : Mem) (core fn va : Nat) (p : Phys) : Nat → List Byte
  | 0 => []
  | n + 1 =>
    BitVec.ofNat 8 ((m.l1Word core fn va p).toNat / 256 ^ (va % 4)) ::
      Mem.l1Bytes m core fn (va + 1) ⟨p.host, p.pa + 1⟩ n

/-- The words of `n` bytes at `va` are all valid in the L1. -/
def Mem.l1Has (m : Mem) (core fn va n : Nat) : Bool :=
  (List.range ((va % 4 + n + 3) / 4)).all (fun i => (Store.get none m.l1 (l1Key core fn (va + 4 * i))).isSome)

/-- A load of `n` aligned bytes of global memory (R134). -/
def loadGlobal (c : Ctl) (m : Mem) (a : Agent) (va n : Nat) (k : Kind) : Got (List Byte) :=
  match translate c m a.fn a.part va k with
  | .fault e => .failed e
  | .blocked i => .blocked i
  | .ok p m' =>
    if m'.barred c a.fn va p then .held
    else if m'.l1Has a.core a.fn va n then .ok (m'.l1Bytes a.core a.fn va p n) m'
    else if m'.poisonedAt p then .poisoned
    else match (m'.pushAliases a.core (l1Key a.core a.fn va / 32) p).bind (·.makeRoom a.core a.marks (l1Key a.core a.fn va / 32)) with
      | none => .held
      | some m1 =>
        let m2 := (m1.sample c a.fn p).fillLine a.core a.fn va p 32
        .ok (m2.l1Bytes a.core a.fn va p n) m2

/-- A registration sent (R134). A word whose registration is in flight already has one that carries its newest value; a 64-bit
store's takes the place of those of its words. -/
def Mem.send (m : Mem) (core grid key : Nat) (wide sys : Bool) : Mem :=
  let same (f : Flight) : Bool := f.core == core && (f.key == key || (f.wide && f.key + 1 == key) || (wide && f.key == key + 1))
  match m.flights.find? same with
  | none => { m with flights := m.flights ++ [⟨core, key, wide, sys, none, [grid]⟩] }
  | some g =>
    if wide then { m with flights := m.flights.filter (fun f => !same f) ++
      [⟨core, key, true, sys || m.flights.any (fun f => same f && f.sys), g.due, grid :: (m.flights.filter same).flatMap (·.grids)⟩] }
    else { m with flights := m.flights.map (fun f => if same f then { f with sys := f.sys || sys, grids := grid :: f.grids.erase grid } else f) }
def Mem.sendWords (m : Mem) (core grid key : Nat) (sys : Bool) : Nat → Mem
  | 0 => m
  | n + 1 => (m.send core grid key false sys).sendWords core grid (key + 1) sys n

/-- What a partial store merges into: the L1's own value when it owns the word, else the registry's (R134). -/
def Mem.mergeBase (m : Mem) (core fn va : Nat) (p : Phys) : W32 :=
  match Store.get none m.l1 (l1Key core fn va) with
  | some w => if w.owned then w.val else m.word p.word
  | none => m.word p.word

/-- Byte `i` of a word replaced. -/
def setByte (w : W32) (i : Nat) (b : Byte) : W32 :=
  BitVec.ofNat 32 (w.toNat - w.toNat / 256 ^ i % 256 * 256 ^ i + b.toNat * 256 ^ i)

/-- One byte stored in the L1 at once: its word valid and owned (R134). -/
def Mem.l1Byte (m : Mem) (core fn va : Nat) (p : Phys) (b : Byte) : Mem :=
  let key := l1Key core fn va
  let v := setByte (m.mergeBase core fn va p) (p.pa % 4) b
  let old : L1Word := match Store.get none m.l1 key with
    | some w => if w.owned then w else { w with mask := 0 }
    | none => ⟨v, true, p.word, v, 0⟩
  { m with l1 := Store.set none m.l1 key (some ⟨v, true, p.word, old.pub, old.mask ||| 2 ^ (p.pa % 4)⟩) }

def Mem.l1Put (m : Mem) (core fn va : Nat) (p : Phys) : List Byte → Mem
  | [] => m
  | b :: bs => Mem.l1Put (m.l1Byte core fn va p b) core fn (va + 1) ⟨p.host, p.pa + 1⟩ bs

/-- Bytes stored through the L1, their registrations sent in the same cycle (R134); those of a 64-bit store are one (R143). -/
def Mem.l1Write (m : Mem) (a : Agent) (va : Nat) (p : Phys) (sys : Bool) (data : List Byte) : Mem :=
  let m1 := m.l1Put a.core a.fn va p data
  if data.length = 8 ∧ va % 8 = 0 then m1.send a.core a.grid (l1Key a.core a.fn va) true sys
  else m1.sendWords a.core a.grid (l1Key a.core a.fn va) sys ((va % 4 + data.length + 3) / 4)

/-- The L1 owns the word at a virtual address. -/
def Mem.l1Owns (m : Mem) (core fn va : Nat) : Bool :=
  match Store.get none m.l1 (l1Key core fn va) with
  | some w => w.owned
  | none => false

/-- A store of aligned bytes to global memory (R134); `sys`: at SYSTEM scope (R140). A byte or half-word that the L1 merges
into what the registry holds reads the line there (R134, R306). -/
def storeGlobal (c : Ctl) (m : Mem) (a : Agent) (va : Nat) (k : Kind) (sys : Bool) (data : List Byte) : Got Unit :=
  match translate c m a.fn a.part va k with
  | .fault e => .failed e
  | .blocked i => .blocked i
  | .ok p m' =>
    if m'.barred c a.fn va p then .held
    else if decide (data.length < 4) && !m'.l1Owns a.core a.fn va && m'.poisonedAt p then .poisoned
    else match (m'.pushAliases a.core (l1Key a.core a.fn va / 32) p).bind (·.makeRoom a.core a.marks (l1Key a.core a.fn va / 32)) with
      | none => .held
      | some m1 => .ok () (m1.l1Write a va p sys data)

/-- The issuing core's L1 drops its copy of a word (R135). -/
def Mem.l1Drop (m : Mem) (core fn va : Nat) : Mem := { m with l1 := Store.set none m.l1 (l1Key core fn va) none }

/-- A core's write at the registry, as its words' writer (R145). -/
def Mem.wrote (m : Mem) (p : Phys) (n core : Nat) : Mem :=
  { m with writer := (List.range n).foldl (fun (a : Store (Option Nat)) i =>
      Store.set none a (4 * (Phys.word ⟨p.host, p.pa + i⟩) + (p.pa + i) % 4) (some core)) m.writer }

/-- A read and write at the registry (R135, R147): the core's registrations go ahead of it, ownership is taken, the
core's own copy is dropped. `f` gives the bytes to write from the bytes read; none writes nothing. -/
def atomicGlobal (c : Ctl) (m : Mem) (a : Agent) (va n : Nat) (f : List Byte → Option (List Byte)) : Got (List Byte) :=
  match translate c m a.fn a.part va .write with
  | .fault e => .failed e
  | .blocked i => .blocked i
  | .ok p m' =>
    if m'.barred c a.fn va p then .held
    else if m'.poisonedAt p then .poisoned
    else match m'.pushAliases a.core (l1Key a.core a.fn va / 32) p with
    | none => .held
    | some m0 =>
      let m1 := (m0.sample c a.fn p).drain a.core
      let old := m1.regRead p n
      let m2 := m1.reclaim p.word
      let m3 := if 8 ≤ n then m2.reclaim (Phys.word ⟨p.host, p.pa + 4⟩) else m2
      let m4 := match f old with
        | some new => (m3.regBytes p new).wrote p n a.core
        | none => m3
      let m5 := m4.l1Drop a.core a.fn va
      .ok old (if 8 ≤ n then m5.l1Drop a.core a.fn (va + 4) else m5)

/-- A read at the registry or its owner, past every L1 copy (R149, R197). -/
def readRegistry (c : Ctl) (m : Mem) (fn part va n : Nat) (k : Kind) : Got (List Byte) :=
  match translate c m fn part va k with
  | .fault e => .failed e
  | .blocked i => .blocked i
  | .ok p m' =>
    if m'.barred c fn va p then .held else if m'.poisonedAt p then .poisoned else .ok (m'.regRead p n) (m'.sample c fn p)

/-- The core's unowned copies of a line go: a thread of it has read the line at the registry, and reads nothing older after
that (R143, R152). -/
def Mem.forget (m : Mem) (core : Nat) (p : Phys) : Mem :=
  { m with l1 := Store.keep m.l1 (fun key w => !(l1Core key == core) ||
    (match w with | some x => x.owned || (physOf x.home).line != p.line | none => false)) }

/-- A thread's read at the registry. -/
def readFresh (c : Ctl) (m : Mem) (core fn part va n : Nat) (k : Kind) : Got (List Byte) :=
  match translate c m fn part va k with
  | .fault e => .failed e
  | .blocked i => .blocked i
  | .ok p m' =>
    if m'.barred c fn va p then .held else if m'.poisonedAt p then .poisoned
    else match m'.pushAliases core (l1Key core fn va / 32) p with
    | none => .held
    | some m1 => .ok (m1.regRead p n) ((m1.sample c fn p).forget core p)

/-- A write at the registry by the device itself: records, ring headers (R44). -/
def writeRegistry (c : Ctl) (m : Mem) (fn part va : Nat) (k : Kind) (data : List Byte) : Got Unit :=
  match translate c m fn part va k with
  | .fault e => .failed e
  | .blocked i => .blocked i
  | .ok p m' => if m'.barred c fn va p then .held else .ok () ((m'.sample c fn p).regBytes p data)

/-- A thread's write at the registry: its core reads nothing older of the line afterwards (R143, R152). -/
def writeFresh (c : Ctl) (m : Mem) (core fn part va : Nat) (k : Kind) (data : List Byte) : Got Unit :=
  match translate c m fn part va k with
  | .fault e => .failed e
  | .blocked i => .blocked i
  | .ok p m' => if m'.barred c fn va p then .held else .ok () (((m'.sample c fn p).regBytes p data).forget core p)

/-- A whole read of `n` bytes at the registry in pieces that do not cross a line. -/
def readMany (c : Ctl) (fn part : Nat) (k : Kind) : Nat → Mem → Nat → Nat → Got (List Byte)
  | 0, m, _, _ => .ok [] m
  | fuel + 1, m, va, n =>
    if n = 0 then .ok [] m
    else
      let here := min n (128 - va % 128)
      match readRegistry c m fn part va here k with
      | .ok v m' =>
        match readMany c fn part k fuel m' (va + here) (n - here) with
        | .ok w m2 => .ok (v ++ w) m2
        | .fault e => .fault e
        | .held => .held
        | .blocked i => .blocked i
        | .poisoned => .poisoned
      | .fault e => .fault e
      | .held => .held
      | .blocked i => .blocked i
      | .poisoned => .poisoned

/-- A device read of `n` bytes; whatever holds it back counts as unreadable for a check that may not wait. -/
def deviceRead (c : Ctl) (m : Mem) (fn part va n : Nat) (k : Kind) : Got (List Byte) :=
  readMany c fn part k (n / 128 + 2) m va n

/-- The registrations in flight for words of a set are accepted, whatever blocks them: a word in flight counts as owned for a
recall (R134). -/
def Mem.acceptHomes (m : Mem) (here : Nat → Bool) : Mem :=
  m.acceptIf (fun f => match m.homeOf f with | some h => here h | none => true)

/-- Ownership of every word of a set recalled: the owned values written to the frame, or discarded (R133, R137). The
registrations in flight for them have been accepted before. -/
def Mem.recall (m : Mem) (discard : Bool) (here : Nat → Bool) : List (Nat × Option L1Word) → Mem
  | [] => m
  | (key, w) :: rest =>
    let m' := match w with
      | none => m
      | some x =>
        if here x.home && x.owned then
          let m1 := if discard then m else m.putWord x.home x.val
          { m1 with l1 := Store.set none m1.l1 key none, owner := Store.set none m1.owner x.home none }
        else m
    Mem.recall m' discard here rest

/-- The image of a team is written to its place, over what lay there (R220). -/
def Mem.saveImage (m : Mem) (team draw lo size : Nat) : Mem :=
  let here (word : Nat) : Bool := word % 2 == 0 && decide (lo ≤ word / 2 * 4 ∧ word / 2 * 4 < lo + size)
  let m0 := m.acceptHomes here
  let m1 := (m0.recall true here m0.l1).overImages lo size
  { m1 with
    images := ⟨team, draw, lo, size, []⟩ :: m1.images
    poison := m1.poison.filter (fun l => !decide (lo ≤ l * 128 ∧ l * 128 < lo + size))
    dirty := true }
/-- The newest image of a team has been written over: its integrity tag is wrong (R220). -/
def Mem.spoiled (m : Mem) (team : Nat) : Bool :=
  match m.images.find? (fun x => x.team == team) with
  | some x => !x.redone.isEmpty
  | none => false

/-- A copy's claim of one line given up. -/
def Mem.unclaim (m : Mem) (copy fn line : Nat) : Mem :=
  { m with claims := m.claims.filter (fun x => match x with
      | .line k f _ l _ => !(k == copy && f == fn && l == line)
      | .scratch _ _ _ _ => true) }
/-- Every claim of a copy given up. -/
def Mem.unclaimAll (m : Mem) (copy : Nat) : Mem :=
  { m with claims := m.claims.filter (fun x => match x with
      | .line k _ _ _ _ => k != copy
      | .scratch k _ _ _ => k != copy) }

end Sys2Proof.Machine
end

