-- ==== Sys2Proof/Decode.lean ====
section
/-! DEFINITION. The decoder: a 64-bit instruction word, read through the opcode map of its clause's class (R311,
R319-R324), gives an instruction or the name of the check it fails. After it the encoder, from the same tables. -/

namespace Sys2Proof

/-- Why a word is no instruction (R311). -/
inductive DecodeError where
  | reservedType | reservedRounding | reservedCode | nonzeroField | badRegister | illFormed
  deriving DecidableEq, Repr

namespace Decode

/-- The outcome of decoding. -/
abbrev Res (α : Type) := Except DecodeError α

/-- A check and the name it is refused by. -/
def need (b : Bool) (e : DecodeError) : Res Unit := if b then .ok () else .error e

/-- R312: the register of an 8-bit register field. -/
def reg (c : BitVec 8) : Reg :=
  if c.getLsbD 7 then .k ⟨(c.extractLsb' 0 7).toNat, (c.extractLsb' 0 7).isLt⟩
  else if c.getLsbD 6 then .s ⟨(c.extractLsb' 0 6).toNat, (c.extractLsb' 0 6).isLt⟩
  else .w ⟨(c.extractLsb' 0 6).toNat, (c.extractLsb' 0 6).isLt⟩

/-- A field that must name an S register (R313). -/
def sreg (c : BitVec 8) : Res SReg :=
  match reg c with
  | .s n => .ok n
  | _ => .error .badRegister

/-- A field that must name a K register. -/
def kreg (c : BitVec 8) : Res (Fin 128) :=
  match reg c with
  | .k n => .ok n
  | _ => .error .badRegister

/-- R84: an index field, 0x00 for none. -/
def optReg (c : BitVec 8) : Option Reg := if c == 0 then none else some (reg c)

/-- An index or operand field of an SC word, 0x00 for none. -/
def optSreg (c : BitVec 8) : Res (Option SReg) := if c == 0 then .ok none else (sreg c).map some

/-- R62: the type of a TY code; 7, E and F are reserved (R314). -/
def ty (c : BitVec 4) : Res Ty :=
  match c.toNat with
  | 0 => .ok .i8
  | 1 => .ok .i16
  | 2 => .ok .i32
  | 3 => .ok .i64
  | 4 => .ok .i4
  | 5 => .ok .n8
  | 6 => .ok .n16
  | 8 => .ok .n32
  | 9 => .ok .n64
  | 10 => .ok .f16
  | 11 => .ok .bf16
  | 12 => .ok .f32
  | 13 => .ok .rt
  | _ => .error .reservedType

/-- R74: the rounding of an RM code; 6 and 7 are reserved. -/
def rm (c : BitVec 3) : Res Rm :=
  match c.toNat with
  | 0 => .ok .dflt
  | 1 => .ok .rne
  | 2 => .ok .rtz
  | 3 => .ok .rup
  | 4 => .ok .rdn
  | 5 => .ok .rto
  | _ => .error .reservedRounding

/-- R317: the relation in imm16 bits 2:0; bits 15:3 are zero. -/
def rel (c : BitVec 16) : Res Rel :=
  match c.toNat with
  | 0 => .ok .eq
  | 1 => .ok .ne
  | 2 => .ok .lt
  | 3 => .ok .le
  | 4 => .ok .gt
  | 5 => .ok .ge
  | _ => .error .reservedCode

/-- R315: the atomic operation of an AOP code. -/
def aop (c : BitVec 4) : Res Aop :=
  match c.toNat with
  | 0 => .ok .add
  | 1 => .ok .min
  | 2 => .ok .max
  | 3 => .ok .and
  | 4 => .ok .or
  | 5 => .ok .xor
  | 6 => .ok .xchg
  | 7 => .ok .cas
  | 8 => .ok .fadd
  | _ => .error .reservedCode

/-- R315: the ordering of an ORD code. -/
def ord (c : BitVec 3) : Res Ord :=
  match c.toNat with
  | 0 => .ok .plain
  | 1 => .ok .acq
  | 2 => .ok .rel
  | 3 => .ok .ar
  | 4 => .ok .sc
  | 5 => .ok .rmt
  | _ => .error .reservedCode

/-- R139: the scope of a scope code. -/
def scope (c : BitVec 2) : Scope :=
  match c.toNat with
  | 0 => .team
  | 1 => .part
  | 2 => .device
  | _ => .system

/-- R315: the space of an SP code. -/
def space (c : BitVec 3) : Res Space :=
  match c.toNat with
  | 0 => .ok .g
  | 1 => .ok .s
  | 2 => .ok .p
  | 3 => .ok .see
  | 4 => .ok .fh
  | _ => .error .reservedCode

/-- R165: DSP and SSP; code 3 is reserved. -/
def cpySpace (c : BitVec 2) : Res CpySpace :=
  match c.toNat with
  | 0 => .ok .g
  | 1 => .ok .s
  | 2 => .ok .h
  | _ => .error .reservedCode

/-- R165: CK; code 3 is reserved. -/
def cpyKind (c : BitVec 2) : Res CpyKind :=
  match c.toNat with
  | 0 => .ok .flag
  | 1 => .ok .teamBar
  | 2 => .ok .netBar
  | _ => .error .reservedCode

/-- A bit as a flag. -/
def flag (c : BitVec 1) : Bool := c == 1

/-- A 4-bit tile or convergence register number. -/
def fin16 (c : BitVec 4) : Fin 16 := ⟨c.toNat, c.isLt⟩

/-- R103: a 4-bit field that must name A0-A7. -/
def acc (c : BitVec 4) : Res (Fin 8) :=
  if h : c.toNat < 8 then .ok ⟨c.toNat, h⟩ else .error .badRegister

/-- G format (R319). -/
structure G where
  op : BitVec 8
  ty : BitVec 4
  rm : BitVec 3
  ax : BitVec 1
  d : BitVec 8
  a : BitVec 8
  b : BitVec 8
  c : BitVec 8
  imm : BitVec 16
  deriving DecidableEq, Repr

/-- I format (R319). -/
structure I where
  op : BitVec 8
  ty : BitVec 4
  mod : BitVec 4
  d : BitVec 8
  a : BitVec 8
  imm : BitVec 32
  deriving DecidableEq, Repr

/-- M format (R319). -/
structure M where
  op : BitVec 8
  ty : BitVec 4
  sp : BitVec 3
  ord : BitVec 3
  sc : BitVec 2
  aop : BitVec 4
  d : BitVec 8
  a : BitVec 8
  b : BitVec 8
  off : BitVec 16
  deriving DecidableEq, Repr

/-- T format (R319). -/
structure T where
  op : BitVec 8
  ty : BitVec 4
  rm : BitVec 3
  opn : BitVec 1
  td : BitVec 4
  ta : BitVec 4
  tb : BitVec 4
  cv : BitVec 4
  sa : BitVec 8
  sb : BitVec 8
  bsel : BitVec 1
  kind : BitVec 1
  sx : BitVec 6
  imm : BitVec 8
  deriving DecidableEq, Repr

/-- C format (R319). -/
structure C where
  op : BitVec 8
  kind : BitVec 4
  mod : BitVec 4
  target : BitVec 24
  a : BitVec 8
  imm : BitVec 16
  deriving DecidableEq, Repr

/-- E format (R319). -/
structure E where
  op : BitVec 8
  mod : BitVec 8
  d : BitVec 8
  a : BitVec 8
  b : BitVec 8
  c : BitVec 8
  imm : BitVec 16
  deriving DecidableEq, Repr

/-- The fields of a word in G format. -/
def gOf (w : W64) : G :=
  { op := w.extractLsb' 56 8,
    ty := w.extractLsb' 52 4,
    rm := w.extractLsb' 49 3,
    ax := w.extractLsb' 48 1,
    d := w.extractLsb' 40 8,
    a := w.extractLsb' 32 8,
    b := w.extractLsb' 24 8,
    c := w.extractLsb' 16 8,
    imm := w.extractLsb' 0 16 }

/-- The fields of a word in I format. -/
def iOf (w : W64) : I :=
  { op := w.extractLsb' 56 8,
    ty := w.extractLsb' 52 4,
    mod := w.extractLsb' 48 4,
    d := w.extractLsb' 40 8,
    a := w.extractLsb' 32 8,
    imm := w.extractLsb' 0 32 }

/-- The fields of a word in M format. -/
def mOf (w : W64) : M :=
  { op := w.extractLsb' 56 8,
    ty := w.extractLsb' 52 4,
    sp := w.extractLsb' 49 3,
    ord := w.extractLsb' 46 3,
    sc := w.extractLsb' 44 2,
    aop := w.extractLsb' 40 4,
    d := w.extractLsb' 32 8,
    a := w.extractLsb' 24 8,
    b := w.extractLsb' 16 8,
    off := w.extractLsb' 0 16 }

/-- The fields of a word in T format. -/
def tOf (w : W64) : T :=
  { op := w.extractLsb' 56 8,
    ty := w.extractLsb' 52 4,
    rm := w.extractLsb' 49 3,
    opn := w.extractLsb' 48 1,
    td := w.extractLsb' 44 4,
    ta := w.extractLsb' 40 4,
    tb := w.extractLsb' 36 4,
    cv := w.extractLsb' 32 4,
    sa := w.extractLsb' 24 8,
    sb := w.extractLsb' 16 8,
    bsel := w.extractLsb' 15 1,
    kind := w.extractLsb' 14 1,
    sx := w.extractLsb' 8 6,
    imm := w.extractLsb' 0 8 }

/-- The fields of a word in C format. -/
def cOf (w : W64) : C :=
  { op := w.extractLsb' 56 8,
    kind := w.extractLsb' 52 4,
    mod := w.extractLsb' 48 4,
    target := w.extractLsb' 24 24,
    a := w.extractLsb' 16 8,
    imm := w.extractLsb' 0 16 }

/-- The fields of a word in E format. -/
def eOf (w : W64) : E :=
  { op := w.extractLsb' 56 8,
    mod := w.extractLsb' 48 8,
    d := w.extractLsb' 40 8,
    a := w.extractLsb' 32 8,
    b := w.extractLsb' 24 8,
    c := w.extractLsb' 16 8,
    imm := w.extractLsb' 0 16 }

/-- The fields a G word leaves unused, among RM, AX, b, c and imm16, are zero (R311). -/
def gZero (g : G) (b c imm : Bool) : Res Unit :=
  need (g.rm == 0 && g.ax == 0 && (b || g.b == 0) && (c || g.c == 0) && (imm || g.imm == 0)) .nonzeroField

/-- SC word with three registers. -/
def s3 (mk : Ty → SReg → SReg → SReg → Instr) (g : G) : Res Instr := do
  gZero g true false false
  return mk (← ty g.ty) (← sreg g.d) (← sreg g.a) (← sreg g.b)

/-- SC word with two registers. -/
def s2 (mk : Ty → SReg → SReg → Instr) (g : G) : Res Instr := do
  gZero g false false false
  return mk (← ty g.ty) (← sreg g.d) (← sreg g.a)

/-- VX word with three registers. -/
def v3 (mk : Ty → Reg → Reg → Reg → Instr) (g : G) : Res Instr := do
  gZero g true false false
  return mk (← ty g.ty) (reg g.d) (reg g.a) (reg g.b)

/-- VX word with four registers. -/
def v4 (mk : Ty → Reg → Reg → Reg → Reg → Instr) (g : G) : Res Instr := do
  gZero g true true false
  return mk (← ty g.ty) (reg g.d) (reg g.a) (reg g.b) (reg g.c)

/-- VX word with two registers. -/
def v2 (mk : Ty → Reg → Reg → Instr) (g : G) : Res Instr := do
  gZero g false false false
  return mk (← ty g.ty) (reg g.d) (reg g.a)

/-- VX word with two registers that rounds. -/
def f2 (mk : Ty → Rm → Reg → Reg → Instr) (g : G) : Res Instr := do
  need (g.ax == 0 && g.b == 0 && g.c == 0 && g.imm == 0) .nonzeroField
  return mk (← ty g.ty) (← rm g.rm) (reg g.d) (reg g.a)

/-- VX word with three registers that rounds. -/
def f3 (mk : Ty → Rm → Reg → Reg → Reg → Instr) (g : G) : Res Instr := do
  need (g.ax == 0 && g.c == 0 && g.imm == 0) .nonzeroField
  return mk (← ty g.ty) (← rm g.rm) (reg g.d) (reg g.a) (reg g.b)

/-- A residue word on two registers: TY is RT (R385). -/
def r2 (mk : Reg → Reg → Instr) (g : G) : Res Instr := do
  gZero g false false false
  need (g.ty == 0xD) .reservedType
  return mk (reg g.d) (reg g.a)

/-- A residue word on three registers: TY is RT (R385). -/
def r3 (mk : Reg → Reg → Reg → Instr) (g : G) : Res Instr := do
  gZero g true false false
  need (g.ty == 0xD) .reservedType
  return mk (reg g.d) (reg g.a) (reg g.b)

/-- Class 0, SC (R321). -/
def sc (w : W64) : Res Instr :=
  let g := gOf w
  let i := iOf w
  let m := mOf w
  match g.op.toNat with
  | 0x01 => s3 .sadd g
  | 0x02 => s3 .ssub g
  | 0x03 => s3 .smul g
  | 0x04 => s3 .smulh g
  | 0x05 => s3 .sdiv g
  | 0x06 => s3 .srem g
  | 0x07 => s3 .smin g
  | 0x08 => s3 .smax g
  | 0x10 => s3 .sand g
  | 0x11 => s3 .sor g
  | 0x12 => s3 .sxor g
  | 0x13 => s3 .sshl g
  | 0x14 => s3 .sshr g
  | 0x15 => s3 .ssha g
  | 0x16 => s2 .sclz g
  | 0x17 => s2 .spopc g
  | 0x20 => do
    gZero g true false true
    return .scmp (← rel g.imm) (← ty g.ty) (← sreg g.d) (← sreg g.a) (← sreg g.b)
  | 0x21 => do
    gZero g true true false
    return .ssel (← ty g.ty) (← sreg g.d) (← sreg g.a) (← sreg g.b) (← sreg g.c)
  | 0x22 => do
    need (g.rm == 0 && g.b == 0 && g.c == 0 && g.imm == 0) .nonzeroField
    if g.ax == 0 then
      return .smov (← ty g.ty) (← sreg g.d) (← sreg g.a)
    else do
      need (g.ty == 9) .reservedType
      return .smovMv (← sreg g.d) (← sreg g.a)
  | 0x23 => do
    need (i.mod == 0 && i.a == 0) .nonzeroField
    return .smovi (← ty i.ty) (← sreg i.d) i.imm
  | 0x30 => do
    need (m.aop == 0) .nonzeroField
    return .sld (← ord m.ord) (scope m.sc) (← ty m.ty) (← space m.sp) (← sreg m.d) (← sreg m.a) (← optSreg m.b) m.off
  | 0x31 => do
    need (m.aop == 0) .nonzeroField
    return .sst (← ord m.ord) (scope m.sc) (← ty m.ty) (← space m.sp) (← sreg m.d) (← sreg m.a) (← optSreg m.b) m.off
  | 0x32 => do
    need (i.mod == 0 && i.a == 0) .nonzeroField
    return .sprm (← ty i.ty) (← sreg i.d) i.imm
  | 0x38 => do
    gZero g true false true
    need (g.ty == 2) .reservedType
    return .sget g.imm (← sreg g.d) (← optSreg g.a) (← optSreg g.b)
  | 0x39 => do
    gZero g false false true
    need (g.ty == 2) .reservedType
    need (g.d == 0) .nonzeroField
    return .sset g.imm (← sreg g.a)
  | _ => .ok (.unassignedOpcode .sc w)

/-- Class 1, VX (R322). -/
def vx (w : W64) : Res Instr :=
  let g := gOf w
  let i := iOf w
  match g.op.toNat with
  | 0x01 => v3 .add g
  | 0x02 => v3 .sub g
  | 0x03 => v3 .mul g
  | 0x04 => v3 .mulh g
  | 0x05 => v4 .mad g
  | 0x06 => v3 .div g
  | 0x07 => v3 .rem g
  | 0x08 => v3 .min g
  | 0x09 => v3 .max g
  | 0x0A => v2 .abs g
  | 0x0B => v2 .neg g
  | 0x10 => v3 .and g
  | 0x11 => v3 .or g
  | 0x12 => v3 .xor g
  | 0x13 => v2 .not g
  | 0x14 => v3 .shl g
  | 0x15 => v3 .shr g
  | 0x16 => v3 .sha g
  | 0x17 => v2 .clz g
  | 0x18 => v2 .popc g
  | 0x19 => v2 .brev g
  | 0x20 => do
    need (g.rm == 0 && g.c == 0) .nonzeroField
    return .cmp (← rel g.imm) (← ty g.ty) (flag g.ax) (reg g.d) (reg g.a) (reg g.b)
  | 0x21 => v4 .sel g
  | 0x22 => v2 .mov g
  | 0x23 => do
    need (i.mod == 0 && i.a == 0) .nonzeroField
    return .movi (← ty i.ty) (reg i.d) i.imm
  | 0x24 => do
    gZero g false false false
    return .bcst (← ty g.ty) (reg g.d) (← sreg g.a)
  | 0x25 => do
    gZero g false false true
    need (g.a == 0) .nonzeroField
    need (g.ty == 2) .reservedType
    return .idx g.imm (reg g.d)
  | 0x40 => f3 .fadd g
  | 0x41 => f3 .fsub g
  | 0x42 => f3 .fmul g
  | 0x43 => do
    need (g.ax == 0 && g.imm == 0) .nonzeroField
    return .fma (← ty g.ty) (← rm g.rm) (reg g.d) (reg g.a) (reg g.b) (reg g.c)
  | 0x44 => v3 .fmin g
  | 0x45 => v3 .fmax g
  | 0x46 => v2 .fabs g
  | 0x47 => v2 .fneg g
  | 0x48 => do
    need (g.rm == 0 && g.c == 0) .nonzeroField
    return .fcmp (← rel g.imm) (← ty g.ty) (flag g.ax) (reg g.d) (reg g.a) (reg g.b)
  | 0x49 => v2 .fclass g
  | 0x50 => f2 .frcp g
  | 0x51 => f2 .frsq g
  | 0x52 => f2 .fsqrt g
  | 0x53 => f3 .fdiv g
  | 0x54 => f2 .fexp2 g
  | 0x55 => f2 .flog2 g
  | 0x58 => do
    need (g.ax == 0 && g.b == 0 && g.c == 0 && g.imm.extractLsb' 5 11 == 0) .nonzeroField
    return .cvt (← ty g.ty) (← ty (g.imm.extractLsb' 0 4)) (flag (g.imm.extractLsb' 4 1)) (← rm g.rm)
      (reg g.d) (reg g.a)
  | 0x60 => v2 .rfwd g
  | 0x61 => r3 .radd g
  | 0x62 => r3 .rmul g
  | 0x63 => do
    gZero g true true false
    need (g.ty == 0xD) .reservedType
    return .rmad (reg g.d) (reg g.a) (reg g.b) (reg g.c)
  | 0x64 => r2 .rback g
  | 0x70 => do
    need (g.ax == 0 && g.c == 0 && g.imm.extractLsb' 4 12 == 0) .nonzeroField
    return .qnt (← ty g.ty) (← ty (g.imm.extractLsb' 0 4)) (← rm g.rm) (reg g.d) (reg g.a) (reg g.b)
  | 0x71 => v3 .dqnt g
  | 0x72 => v2 .cmpr g
  | 0x73 => v2 .xpnd g
  | _ => .ok (.unassignedOpcode .vx w)

/-- Which T fields a TX word uses, in the columns of R103. -/
structure TUse where
  ty : Bool := false
  rm : Bool := false
  opn : Bool := false
  td : Bool := false
  ta : Bool := false
  tb : Bool := false
  sa : Bool := false
  sb : Bool := false
  bsel : Bool := false
  kind : Bool := false
  sx : Bool := false
  imm : Bool := false

/-- Every field a TX word does not use is zero (R103, R311). -/
def tZero (t : T) (u : TUse) : Res Unit :=
  need ((u.ty || t.ty == 0) && (u.rm || t.rm == 0) && (u.opn || t.opn == 0) && (u.td || t.td == 0) &&
    (u.ta || t.ta == 0) && (u.tb || t.tb == 0) && (u.sa || t.sa == 0) && (u.sb || t.sb == 0) &&
    (u.bsel || t.bsel == 0) && (u.kind || t.kind == 0) && (u.sx || t.sx == 0) && (u.imm || t.imm == 0)) .nonzeroField

/-- The 6-bit S index of T format (R320). -/
def sx (c : BitVec 6) : SReg := ⟨c.toNat, c.isLt⟩

/-- Class 2, TX (R103, R323). -/
def tx (w : W64) : Res Instr :=
  let t := tOf w
  let cv := fin16 t.cv
  match t.op.toNat with
  | 0x01 => do
    tZero t { td := true, sa := true }
    return .tcfg cv (fin16 t.td) (← sreg t.sa)
  | 0x02 => do
    tZero t { td := true, kind := true }
    return .tzero cv (flag t.kind) (fin16 t.td)
  | 0x03 => do
    tZero t { td := true, sa := true, sb := true, bsel := true, kind := true }
    return .tld cv (fin16 t.td) (← sreg t.sa) (← sreg t.sb) (flag t.bsel) (flag t.kind)
  | 0x04 => do
    tZero t { td := true, sa := true, sb := true, kind := true }
    return .tst cv (fin16 t.td) (← sreg t.sa) (← sreg t.sb) (flag t.kind)
  | 0x05 => do
    tZero t { td := true, sa := true, bsel := true, kind := true, sx := true, imm := true }
    return .tlds cv (fin16 t.td) (reg t.sa) (flag t.bsel) (flag t.kind) (sx t.sx) t.imm
  | 0x06 => do
    tZero t { td := true, sa := true, bsel := true, kind := true, sx := true, imm := true }
    return .tsts cv (fin16 t.td) (← kreg t.sa) (flag t.bsel) (flag t.kind) (sx t.sx) t.imm
  | 0x07 => do
    tZero t { td := true, ta := true }
    return .ttrn cv (fin16 t.td) (fin16 t.ta)
  | 0x10 => do
    tZero t { ty := true, rm := true, opn := true, td := true, ta := true, tb := true, sa := true, sb := true, bsel := true }
    return .tmma cv (flag t.opn) (← ty t.ty) (← rm t.rm) (← acc t.td) (fin16 t.ta) (fin16 t.tb)
      (reg t.sa) (reg t.sb) (flag t.bsel)
  | 0x11 => do
    tZero t { ty := true, rm := true, td := true, ta := true, tb := true }
    return .tmmf cv (← ty t.ty) (← rm t.rm) (← acc t.td) (fin16 t.ta) (fin16 t.tb)
  | 0x12 => do
    tZero t { ty := true, rm := true, opn := true, td := true, ta := true, tb := true, sa := true, sb := true, bsel := true }
    return .tspm cv (flag t.opn) (← ty t.ty) (← rm t.rm) (← acc t.td) (fin16 t.ta) (fin16 t.tb)
      (reg t.sa) (reg t.sb) (flag t.bsel)
  | 0x18 => do
    tZero t { rm := true, td := true, sa := true, sb := true, bsel := true }
    return .tclose cv (← rm t.rm) (← acc t.td) (reg t.sa) (reg t.sb) (flag t.bsel)
  | 0x19 => do
    tZero t { rm := true, td := true, ta := true, bsel := true }
    return .tdrain cv (← rm t.rm) (fin16 t.td) (← acc t.ta) (flag t.bsel)
  | 0x1A => do
    tZero t { ty := true, rm := true, td := true, ta := true, sa := true }
    return .tqnt cv (← ty t.ty) (← rm t.rm) (fin16 t.td) (← acc t.ta) (← kreg t.sa)
  | 0x20 => do
    tZero t { ty := true, rm := true, td := true, ta := true, tb := true, sa := true, sb := true, bsel := true, sx := true }
    return .tgemm cv (← ty t.ty) (← rm t.rm) (← acc t.td) (fin16 t.ta) (fin16 t.tb)
      (reg t.sa) (reg t.sb) (flag t.bsel) (sx t.sx)
  | _ => .ok (.unassignedOpcode .tx w)

/-- Class 3, MX (R323). -/
def mx (w : W64) : Res Instr :=
  let m := mOf w
  match m.op.toNat with
  | 0x01 => do
    need (m.aop == 0) .nonzeroField
    return .ld (← ord m.ord) (scope m.sc) (← ty m.ty) (← space m.sp) (reg m.d) (reg m.a) (optReg m.b) m.off
  | 0x02 => do
    need (m.aop == 0) .nonzeroField
    return .st (← ord m.ord) (scope m.sc) (← ty m.ty) (← space m.sp) (reg m.d) (reg m.a) (optReg m.b) m.off
  | 0x03 => do
    need (m.aop.extractLsb' 1 3 == 0) .nonzeroField
    need (m.sp == 3) .reservedCode
    return .ldsee (flag (m.aop.extractLsb' 0 1)) (← ord m.ord) (scope m.sc) (← ty m.ty) (reg m.d) (← sreg m.a)
      (optReg m.b) m.off
  | 0x04 => do
    need (m.aop == 0 && m.ord == 0 && m.sc == 0) .nonzeroField
    return .ldp (← ty m.ty) (← space m.sp) (reg m.d) (reg m.a) (optReg m.b) m.off
  | 0x08 => do
    return .atom (← aop m.aop) (← ord m.ord) (scope m.sc) (← ty m.ty) (← space m.sp) (reg m.d) (reg m.a) (reg m.b) m.off
  | 0x09 => do
    need (m.d == 0) .nonzeroField
    return .red (← aop m.aop) (← ord m.ord) (scope m.sc) (← ty m.ty) (← space m.sp) (reg m.a) (reg m.b) m.off
  | 0x10 => do
    need (m.ty == 0 && m.sp == 0 && m.aop == 0 && m.d == 0 && m.a == 0 && m.b == 0 && m.off == 0) .nonzeroField
    return .fence (← ord m.ord) (scope m.sc)
  | 0x11 => do
    need (m.ord == 0 && m.sc == 0 && m.aop == 0 && m.d == 0) .nonzeroField
    return .pref (← ty m.ty) (← space m.sp) (reg m.a) (optReg m.b) m.off
  | _ => .ok (.unassignedOpcode .mx w)

/-- The fields a C word leaves unused are zero; kind is zero in every one (R320). -/
def cZero (c : C) (mod target a imm : Bool) : Res Unit :=
  need (c.kind == 0 && (mod || c.mod == 0) && (target || c.target == 0) && (a || c.a == 0) && (imm || c.imm == 0))
    .nonzeroField

/-- R175: a barrier word with .N in bit 48 and the barrier number in imm16 bits 7:0. -/
def barrier (c : C) (target : Bool) (mk : Bool → BitVec 8 → Instr) : Res Instr := do
  cZero c true target false true
  need (c.mod.extractLsb' 1 3 == 0 && c.imm.extractLsb' 8 8 == 0) .nonzeroField
  return mk (flag (c.mod.extractLsb' 0 1)) (c.imm.extractLsb' 0 8)

/-- A C word that uses no field. -/
def bare (c : C) (i : Instr) : Res Instr := do
  cZero c false false false false
  return i

/-- Class 4, CF (R323). -/
def cf (w : W64) : Res Instr :=
  let c := cOf w
  match c.op.toNat with
  | 0x01 => do
    cZero c false true false false
    return .bra c.target
  | 0x02 => do
    cZero c false true false false
    return .brc c.target
  | 0x03 => do
    cZero c false true true true
    return .bsw c.target (reg c.a) c.imm
  | 0x04 => do
    cZero c false true true false
    return .call c.target (← kreg c.a)
  | 0x05 => do
    cZero c false false true false
    return .ret (reg c.a)
  | 0x06 => bare c .exit
  | 0x07 => do
    cZero c false true false false
    return .yield c.target
  | 0x10 => bare c .pnot
  | 0x11 => bare c .ppop
  | 0x20 => barrier c true (fun n b => .bar n b c.target)
  | 0x21 => barrier c false .bara
  | 0x22 => barrier c true (fun n b => .barw n b c.target)
  | 0x23 => do
    cZero c true false false true
    need (c.imm.extractLsb' 8 8 == 0) .nonzeroField
    need (c.mod.extractLsb' 1 3 == 0) .reservedCode
    return .nbmem (c.imm.extractLsb' 0 8) (flag (c.mod.extractLsb' 0 1))
  | 0x28 => do
    cZero c true true true false
    need (c.mod.extractLsb' 1 3 == 0) .nonzeroField
    return .waitf (flag (c.mod.extractLsb' 0 1)) (reg c.a) c.target
  | 0x30 => bare c .grab
  | 0x31 => bare c .relx
  | 0x38 => do
    cZero c true false false true
    return .cvset (fin16 c.mod) c.imm
  | 0x3D => do
    cZero c false false false true
    return .bkpt c.imm
  | 0x3E => bare c .nop
  | 0x3F => do
    cZero c false false false true
    return .trap c.imm
  | _ => .ok (.unassignedOpcode .cf w)

/-- The fields an E word leaves unused are zero (R311). -/
def eZero (e : E) (mod d a b c imm : Bool) : Res Unit :=
  need ((mod || e.mod == 0) && (d || e.d == 0) && (a || e.a == 0) && (b || e.b == 0) && (c || e.c == 0) &&
    (imm || e.imm == 0)) .nonzeroField

/-- A number below 64 in imm16 (R297). -/
def fin64 (c : BitVec 16) : Res (Fin 64) :=
  if h : c.toNat < 64 then .ok ⟨c.toNat, h⟩ else .error .nonzeroField

/-- Class 5, EX (R323). -/
def ex (w : W64) : Res Instr :=
  let e := eOf w
  match e.op.toNat with
  | 0x01 => do
    need (e.mod.extractLsb' 0 2 == 0) .nonzeroField
    return .cpy (← cpySpace (e.mod.extractLsb' 6 2)) (← cpySpace (e.mod.extractLsb' 4 2))
      (← cpyKind (e.mod.extractLsb' 2 2)) (reg e.d) (reg e.a) (optReg e.b) (reg e.c) e.imm
  | 0x02 => do
    eZero e true true true false false true
    need (e.mod.extractLsb' 0 2 == 0) .nonzeroField
    need (e.mod.extractLsb' 4 4 == 4 || e.mod.extractLsb' 4 4 == 1) .reservedCode
    return .tcpy (e.mod.extractLsb' 4 4 == 4) (← cpyKind (e.mod.extractLsb' 2 2)) (reg e.d) (← sreg e.a) e.imm
  | 0x03 => do
    eZero e true false true false false true
    need (e.mod.extractLsb' 1 7 == 0 && e.imm.extractLsb' 8 8 == 0) .nonzeroField
    return .bexp (flag (e.mod.extractLsb' 0 1)) (reg e.a) (e.imm.extractLsb' 0 8)
  | 0x08 => do
    eZero e false true true false false false
    return .gstart (reg e.d) (← sreg e.a)
  | 0x09 => do
    eZero e false false true true false true
    return .gcond (← sreg e.a) (reg e.b) e.imm
  | 0x0A => do
    eZero e false true true false false false
    return .launch (← sreg e.d) (← sreg e.a)
  | 0x10 => do
    eZero e true true true true false false
    need (e.mod.extractLsb' 1 7 == 0) .nonzeroField
    return .ptnew (flag (e.mod.extractLsb' 0 1)) (← sreg e.d) (← sreg e.a) (← sreg e.b)
  | 0x11 => do
    eZero e false false true false false false
    return .ptfree (← sreg e.a)
  | 0x12 => do
    eZero e false true true false false true
    need (e.imm.extractLsb' 3 13 == 0) .nonzeroField
    return .seeh (← sreg e.d) (← sreg e.a) (e.imm.extractLsb' 0 3)
  | 0x13 => do
    eZero e false false true false false false
    return .drop (← sreg e.a)
  | 0x14 => do
    eZero e false true true true false false
    return .hsend (← sreg e.d) (← sreg e.a) (← sreg e.b)
  | 0x15 => do
    eZero e false true true false false false
    return .hrecv (← sreg e.d) (← sreg e.a)
  | 0x18 => do
    eZero e false true true false false true
    return .wqpost (← sreg e.d) (← sreg e.a) (← fin64 e.imm)
  | 0x19 => do
    eZero e true true true false false false
    need (e.mod.extractLsb' 1 7 == 0) .nonzeroField
    return .triga (flag (e.mod.extractLsb' 0 1)) (← sreg e.d) (← sreg e.a)
  | 0x1A => do
    eZero e false false true false false true
    return .cntadd (← fin64 e.imm) (reg e.a)
  | 0x20 => do
    eZero e false true true false false false
    return .sysc (← sreg e.d) (reg e.a)
  | 0x21 => do
    eZero e true false true true false false
    need (e.mod == 0 || e.mod == 0x10) .reservedCode
    return .sret (← sreg e.a) (← sreg e.b) (e.mod == 0x10)
  | 0x22 => do
    eZero e true true false false false false
    need (e.mod.extractLsb' 1 7 == 0) .reservedCode
    return .tstamp (flag (e.mod.extractLsb' 0 1)) (← sreg e.d)
  | 0x30 => do
    eZero e true false true true false false
    match e.mod.toNat with
    | 0 => return .ktlbi 0 (some (← sreg e.a)) (reg e.b)
    | 1 => return .ktlbi 1 (some (← sreg e.a)) (reg e.b)
    | 2 => return .ktlbi 2 (some (← sreg e.a)) (reg e.b)
    | 3 => do
      need (e.a == 0) .nonzeroField
      return .ktlbi 3 none (reg e.b)
    | _ => .error .reservedCode
  | 0x31 => do
    eZero e true true true true false true
    match e.mod.toNat with
    | 0 => return .kget 0 (← sreg e.d) (← sreg e.a) (reg e.b) e.imm
    | 1 => return .kget 1 (← sreg e.d) (← sreg e.a) (reg e.b) e.imm
    | 2 => return .kget 2 (← sreg e.d) (← sreg e.a) (reg e.b) e.imm
    | 3 => return .kget 3 (← sreg e.d) (← sreg e.a) (reg e.b) e.imm
    | _ => .error .reservedCode
  | 0x32 => do
    eZero e true false true true true true
    match e.mod.toNat with
    | 2 => return .kset false (← sreg e.a) (reg e.b) (reg e.c) e.imm
    | 3 => return .kset true (← sreg e.a) (reg e.b) (reg e.c) e.imm
    | _ => .error .reservedCode
  | 0x33 => do
    eZero e true false true true false false
    match e.mod.toNat with
    | 0 => return .kresumeResume (← sreg e.a) (reg e.b)
    | 1 => return .kresumeStep (← sreg e.a) (reg e.b)
    | 2 => return .kresumeKill (← sreg e.a) (reg e.b)
    | 3 => return .kresumeEngresume (reg e.a) (reg e.b)
    | 4 => return .kresumeEngend (reg e.a) (reg e.b)
    | _ => .error .reservedCode
  | _ => .ok (.unassignedOpcode .ex w)

/-- The fields of a word through the map of its class. -/
def fields (c : Cls) (w : W64) : Res Instr :=
  match c with
  | .sc => sc w
  | .vx => vx w
  | .tx => tx w
  | .mx => mx w
  | .cf => cf w
  | .ex => ex w

end Decode

/-- R311, R324: the instruction of a word in a clause of class `c`, or the check it fails. An opcode that the class
does not assign is the row UNASSIGNED_OPCODE. -/
def decode (c : Cls) (w : W64) : Except DecodeError Instr :=
  match Decode.fields c w with
  | .ok i => if i.wellFormed then .ok i else .error .illFormed
  | .error e => .error e

/-- The clause header (R309). -/
structure Header where
  cls : BitVec 4
  cnt : BitVec 4
  wait : BitVec 12
  seta : BitVec 4
  setav : Bool
  setb : BitVec 4
  setbv : Bool
  bend : Bool
  low : BitVec 33
  deriving DecidableEq, Repr

/-- The fields of a header word (R309). -/
def Header.ofWord (w : W64) : Header :=
  { cls := w.extractLsb' 60 4, cnt := w.extractLsb' 56 4, wait := w.extractLsb' 44 12, seta := w.extractLsb' 40 4,
    setav := w.getLsbD 39, setb := w.extractLsb' 35 4, setbv := w.getLsbD 34, bend := w.getLsbD 33,
    low := w.extractLsb' 0 33 }

/-- The class a header's CLASS code names; 6-15 are reserved (R309). -/
def Header.clause (h : Header) : Option Cls :=
  match h.cls.toNat with
  | 0 => some .sc
  | 1 => some .vx
  | 2 => some .tx
  | 3 => some .mx
  | 4 => some .cf
  | 5 => some .ex
  | _ => none

/-- R310: the checks of a header that do not look at other words. -/
def Header.ok (h : Header) : Bool :=
  h.clause.isSome && h.low == 0 &&
  (h.setav || h.seta == 0) && (h.setbv || h.setb == 0) &&
  (!h.setav || h.seta.toNat < 12) && (!h.setbv || h.setb.toNat < 12) &&
  (!h.bend || h.cls == 4)

/-- The table's word: the first 64 bits are a clause header, the next 64 the instruction word of that one-word
clause, since a word means what its clause's class makes it (R311). -/
def decodeTableWord (_nbits w : Nat) : Option Instr :=
  match (Header.ofWord (BitVec.ofNat 64 w)).clause with
  | some c =>
    match decode c (BitVec.ofNat 64 (w / 2 ^ 64)) with
    | .ok i => some i
    | .error _ => none
  | none => none

namespace Encode

/-- R312. -/
def reg : Reg → BitVec 8
  | .w n => BitVec.ofNat 8 n.val
  | .s n => BitVec.ofNat 8 (0x40 + n.val)
  | .k n => BitVec.ofNat 8 (0x80 + n.val)

/-- R312, an S register. -/
def sreg (n : SReg) : BitVec 8 := BitVec.ofNat 8 (0x40 + n.val)

/-- R312, a K register. -/
def kreg (n : Fin 128) : BitVec 8 := BitVec.ofNat 8 (0x80 + n.val)

/-- R84. -/
def optReg : Option Reg → BitVec 8
  | none => 0
  | some r => reg r

/-- An optional S register. -/
def optSreg : Option SReg → BitVec 8
  | none => 0
  | some r => sreg r

/-- R62. -/
def ty : Ty → BitVec 4
  | .i8 => 0
  | .i16 => 1
  | .i32 => 2
  | .i64 => 3
  | .i4 => 4
  | .n8 => 5
  | .n16 => 6
  | .n32 => 8
  | .n64 => 9
  | .f16 => 0xA
  | .bf16 => 0xB
  | .f32 => 0xC
  | .rt => 0xD

/-- R74. -/
def rm : Rm → BitVec 3
  | .dflt => 0
  | .rne => 1
  | .rtz => 2
  | .rup => 3
  | .rdn => 4
  | .rto => 5

/-- R317. -/
def rel : Rel → BitVec 16
  | .eq => 0
  | .ne => 1
  | .lt => 2
  | .le => 3
  | .gt => 4
  | .ge => 5

/-- R315. -/
def aop : Aop → BitVec 4
  | .add => 0
  | .min => 1
  | .max => 2
  | .and => 3
  | .or => 4
  | .xor => 5
  | .xchg => 6
  | .cas => 7
  | .fadd => 8

/-- R315. -/
def ord : Ord → BitVec 3
  | .plain => 0
  | .acq => 1
  | .rel => 2
  | .ar => 3
  | .sc => 4
  | .rmt => 5

/-- R139. -/
def scope : Scope → BitVec 2
  | .team => 0
  | .part => 1
  | .device => 2
  | .system => 3

/-- R315. -/
def space : Space → BitVec 3
  | .g => 0
  | .s => 1
  | .p => 2
  | .see => 3
  | .fh => 4

/-- R165. -/
def cpySpace : CpySpace → BitVec 2
  | .g => 0
  | .s => 1
  | .h => 2

/-- R165. -/
def cpyKind : CpyKind → BitVec 2
  | .flag => 0
  | .teamBar => 1
  | .netBar => 2

/-- One bit. -/
def flag (b : Bool) : BitVec 1 := if b then 1 else 0

/-- A 4-bit number. -/
def fin16 (n : Fin 16) : BitVec 4 := BitVec.ofNat 4 n.val

/-- An accumulator number. -/
def acc (n : Fin 8) : BitVec 4 := BitVec.ofNat 4 n.val

/-- The word of the G format fields (R319). -/
def g (x : Decode.G) : W64 :=
  x.op ++ x.ty ++ x.rm ++ x.ax ++ x.d ++ x.a ++ x.b ++ x.c ++ x.imm

/-- The word of the I format fields (R319). -/
def i (x : Decode.I) : W64 :=
  x.op ++ x.ty ++ x.mod ++ x.d ++ x.a ++ x.imm

/-- The word of the M format fields (R319). -/
def m (x : Decode.M) : W64 :=
  x.op ++ x.ty ++ x.sp ++ x.ord ++ x.sc ++ x.aop ++ x.d ++ x.a ++ x.b ++ x.off

/-- The word of the T format fields (R319). -/
def t (x : Decode.T) : W64 :=
  x.op ++ x.ty ++ x.rm ++ x.opn ++ x.td ++ x.ta ++ x.tb ++ x.cv ++ x.sa ++ x.sb ++ x.bsel ++ x.kind ++ x.sx ++ x.imm

/-- The word of the C format fields (R319). -/
def c (x : Decode.C) : W64 :=
  x.op ++ x.kind ++ x.mod ++ x.target ++ x.a ++ x.imm

/-- The word of the E format fields (R319). -/
def e (x : Decode.E) : W64 :=
  x.op ++ x.mod ++ x.d ++ x.a ++ x.b ++ x.c ++ x.imm

/-- A G word from its fields, in the order of the format. -/
def gw (op : BitVec 8) (ty : BitVec 4) (rm : BitVec 3) (ax : BitVec 1) (d a b c : BitVec 8) (imm : BitVec 16) : W64 :=
  g { op, ty, rm, ax, d, a, b, c, imm }

/-- An SC word with three registers. -/
def s3 (op : BitVec 8) (t : Ty) (d a b : SReg) : W64 := gw op (ty t) 0 0 (sreg d) (sreg a) (sreg b) 0 0
/-- An SC word with two registers. -/
def s2 (op : BitVec 8) (t : Ty) (d a : SReg) : W64 := gw op (ty t) 0 0 (sreg d) (sreg a) 0 0 0
/-- A VX word with three registers. -/
def v3 (op : BitVec 8) (t : Ty) (d a b : Reg) : W64 := gw op (ty t) 0 0 (reg d) (reg a) (reg b) 0 0
/-- A VX word with two registers. -/
def v2 (op : BitVec 8) (t : Ty) (d a : Reg) : W64 := gw op (ty t) 0 0 (reg d) (reg a) 0 0 0
/-- A rounding VX word with three registers. -/
def f3 (op : BitVec 8) (t : Ty) (r : Rm) (d a b : Reg) : W64 := gw op (ty t) (rm r) 0 (reg d) (reg a) (reg b) 0 0
/-- A rounding VX word with two registers. -/
def f2 (op : BitVec 8) (t : Ty) (r : Rm) (d a : Reg) : W64 := gw op (ty t) (rm r) 0 (reg d) (reg a) 0 0 0
/-- An M word from its fields. -/
def mw (op : BitVec 8) (t : Ty) (sp : Space) (o : Ord) (s : Scope) (ap : BitVec 4) (d a b : BitVec 8)
    (off : BitVec 16) : W64 :=
  m { op, ty := ty t, sp := space sp, ord := ord o, sc := scope s, aop := ap, d, a, b, off }
/-- A T word from its fields. -/
def tw (op : BitVec 8) (ty : BitVec 4) (rm : BitVec 3) (opn : BitVec 1) (td ta tb cv : BitVec 4) (sa sb : BitVec 8)
    (bsel kind : BitVec 1) (sx : BitVec 6) (imm : BitVec 8) : W64 :=
  t { op, ty, rm, opn, td, ta, tb, cv, sa, sb, bsel, kind, sx, imm }
/-- A C word from its fields; kind is zero. -/
def cw (op : BitVec 8) (mod : BitVec 4) (target : BitVec 24) (a : BitVec 8) (imm : BitVec 16) : W64 :=
  c { op, kind := 0, mod, target, a, imm }
/-- An E word from its fields. -/
def ew (op mod d a b c : BitVec 8) (imm : BitVec 16) : W64 := e { op, mod, d, a, b, c, imm }
/-- A flag in the low bit of a 4-bit field. -/
def bit4 (x : Bool) : BitVec 4 := 0#3 ++ flag x
/-- A flag in the low bit of an 8-bit field. -/
def bit8 (x : Bool) : BitVec 8 := 0#7 ++ flag x
/-- A 6-bit S index (R320). -/
def sx (n : SReg) : BitVec 6 := BitVec.ofNat 6 n.val
/-- A number below 64 in 16 bits. -/
def num64 (n : Fin 64) : BitVec 16 := BitVec.ofNat 16 n.val

end Encode

open Encode in
/-- The word of an instruction with the class of its clause; events have none. -/
def encode : Instr → Option (Cls × W64)
  | .sadd t d a b => some (.sc, s3 0x01 t d a b)
  | .ssub t d a b => some (.sc, s3 0x02 t d a b)
  | .smul t d a b => some (.sc, s3 0x03 t d a b)
  | .smulh t d a b => some (.sc, s3 0x04 t d a b)
  | .sdiv t d a b => some (.sc, s3 0x05 t d a b)
  | .srem t d a b => some (.sc, s3 0x06 t d a b)
  | .smin t d a b => some (.sc, s3 0x07 t d a b)
  | .smax t d a b => some (.sc, s3 0x08 t d a b)
  | .sand t d a b => some (.sc, s3 0x10 t d a b)
  | .sor t d a b => some (.sc, s3 0x11 t d a b)
  | .sxor t d a b => some (.sc, s3 0x12 t d a b)
  | .sshl t d a b => some (.sc, s3 0x13 t d a b)
  | .sshr t d a b => some (.sc, s3 0x14 t d a b)
  | .ssha t d a b => some (.sc, s3 0x15 t d a b)
  | .sclz t d a => some (.sc, s2 0x16 t d a)
  | .spopc t d a => some (.sc, s2 0x17 t d a)
  | .scmp r t d a b => some (.sc, gw 0x20 (ty t) 0 0 (sreg d) (sreg a) (sreg b) 0 (rel r))
  | .ssel t d a b c => some (.sc, gw 0x21 (ty t) 0 0 (sreg d) (sreg a) (sreg b) (sreg c) 0)
  | .smov t d a => some (.sc, s2 0x22 t d a)
  | .smovMv d a => some (.sc, gw 0x22 9 0 1 (sreg d) (sreg a) 0 0 0)
  | .smovi t d imm => some (.sc, i { op := 0x23, ty := ty t, mod := 0, d := sreg d, a := 0, imm })
  | .sld o s t sp d a b off => some (.sc, mw 0x30 t sp o s 0 (sreg d) (sreg a) (optSreg b) off)
  | .sst o s t sp d a b off => some (.sc, mw 0x31 t sp o s 0 (sreg d) (sreg a) (optSreg b) off)
  | .sprm t d imm => some (.sc, i { op := 0x32, ty := ty t, mod := 0, d := sreg d, a := 0, imm })
  | .sget q d a b => some (.sc, gw 0x38 2 0 0 (sreg d) (optSreg a) (optSreg b) 0 q)
  | .sset q a => some (.sc, gw 0x39 2 0 0 0 (sreg a) 0 0 q)
  | .add t d a b => some (.vx, v3 0x01 t d a b)
  | .sub t d a b => some (.vx, v3 0x02 t d a b)
  | .mul t d a b => some (.vx, v3 0x03 t d a b)
  | .mulh t d a b => some (.vx, v3 0x04 t d a b)
  | .div t d a b => some (.vx, v3 0x06 t d a b)
  | .rem t d a b => some (.vx, v3 0x07 t d a b)
  | .min t d a b => some (.vx, v3 0x08 t d a b)
  | .max t d a b => some (.vx, v3 0x09 t d a b)
  | .and t d a b => some (.vx, v3 0x10 t d a b)
  | .or t d a b => some (.vx, v3 0x11 t d a b)
  | .xor t d a b => some (.vx, v3 0x12 t d a b)
  | .shl t d a b => some (.vx, v3 0x14 t d a b)
  | .shr t d a b => some (.vx, v3 0x15 t d a b)
  | .sha t d a b => some (.vx, v3 0x16 t d a b)
  | .fmin t d a b => some (.vx, v3 0x44 t d a b)
  | .fmax t d a b => some (.vx, v3 0x45 t d a b)
  | .dqnt t d a b => some (.vx, v3 0x71 t d a b)
  | .abs t d a => some (.vx, v2 0x0A t d a)
  | .neg t d a => some (.vx, v2 0x0B t d a)
  | .not t d a => some (.vx, v2 0x13 t d a)
  | .clz t d a => some (.vx, v2 0x17 t d a)
  | .popc t d a => some (.vx, v2 0x18 t d a)
  | .brev t d a => some (.vx, v2 0x19 t d a)
  | .mov t d a => some (.vx, v2 0x22 t d a)
  | .fabs t d a => some (.vx, v2 0x46 t d a)
  | .fneg t d a => some (.vx, v2 0x47 t d a)
  | .fclass t d a => some (.vx, v2 0x49 t d a)
  | .rfwd t d a => some (.vx, v2 0x60 t d a)
  | .cmpr t d a => some (.vx, v2 0x72 t d a)
  | .xpnd t d a => some (.vx, v2 0x73 t d a)
  | .mad t d a b c => some (.vx, gw 0x05 (ty t) 0 0 (reg d) (reg a) (reg b) (reg c) 0)
  | .sel t d a b c => some (.vx, gw 0x21 (ty t) 0 0 (reg d) (reg a) (reg b) (reg c) 0)
  | .fadd t r d a b => some (.vx, f3 0x40 t r d a b)
  | .fsub t r d a b => some (.vx, f3 0x41 t r d a b)
  | .fmul t r d a b => some (.vx, f3 0x42 t r d a b)
  | .fdiv t r d a b => some (.vx, f3 0x53 t r d a b)
  | .frcp t r d a => some (.vx, f2 0x50 t r d a)
  | .frsq t r d a => some (.vx, f2 0x51 t r d a)
  | .fsqrt t r d a => some (.vx, f2 0x52 t r d a)
  | .fexp2 t r d a => some (.vx, f2 0x54 t r d a)
  | .flog2 t r d a => some (.vx, f2 0x55 t r d a)
  | .cmp r t p d a b => some (.vx, gw 0x20 (ty t) 0 (flag p) (reg d) (reg a) (reg b) 0 (rel r))
  | .fcmp r t p d a b => some (.vx, gw 0x48 (ty t) 0 (flag p) (reg d) (reg a) (reg b) 0 (rel r))
  | .movi t d imm => some (.vx, i { op := 0x23, ty := ty t, mod := 0, d := reg d, a := 0, imm })
  | .bcst t d a => some (.vx, gw 0x24 (ty t) 0 0 (reg d) (sreg a) 0 0 0)
  | .idx q d => some (.vx, gw 0x25 2 0 0 (reg d) 0 0 0 q)
  | .fma t r d a b c => some (.vx, gw 0x43 (ty t) (rm r) 0 (reg d) (reg a) (reg b) (reg c) 0)
  | .cvt dt st sym r d a =>
      some (.vx, gw 0x58 (ty dt) (rm r) 0 (reg d) (reg a) 0 0 (0#11 ++ flag sym ++ ty st))
  | .radd d a b => some (.vx, v3 0x61 .rt d a b)
  | .rmul d a b => some (.vx, v3 0x62 .rt d a b)
  | .rmad d a b c => some (.vx, gw 0x63 0xD 0 0 (reg d) (reg a) (reg b) (reg c) 0)
  | .rback d a => some (.vx, v2 0x64 .rt d a)
  | .qnt dt st r d a b => some (.vx, gw 0x70 (ty dt) (rm r) 0 (reg d) (reg a) (reg b) 0 (0#12 ++ ty st))
  | .tcfg cv td sa => some (.tx, tw 1 0 0 0 (fin16 td) 0 0 (fin16 cv) (sreg sa) 0 0 0 0 0)
  | .tzero cv ac td => some (.tx, tw 2 0 0 0 (fin16 td) 0 0 (fin16 cv) 0 0 0 (flag ac) 0 0)
  | .tld cv td ba sr sp scr => some (.tx, tw 3 0 0 0 (fin16 td) 0 0 (fin16 cv) (sreg ba) (sreg sr) (flag sp) (flag scr) 0 0)
  | .tst cv td ba sr scr => some (.tx, tw 4 0 0 0 (fin16 td) 0 0 (fin16 cv) (sreg ba) (sreg sr) 0 (flag scr) 0 0)
  | .tlds cv td src half col ix imm =>
      some (.tx, tw 5 0 0 0 (fin16 td) 0 0 (fin16 cv) (reg src) 0 (flag half) (flag col) (sx ix) imm)
  | .tsts cv td kd half col ix imm =>
      some (.tx, tw 6 0 0 0 (fin16 td) 0 0 (fin16 cv) (kreg kd) 0 (flag half) (flag col) (sx ix) imm)
  | .ttrn cv td ta => some (.tx, tw 7 0 0 0 (fin16 td) (fin16 ta) 0 (fin16 cv) 0 0 0 0 0 0)
  | .tmma cv o t r ad ta tb sa sb bs =>
      some (.tx, tw 0x10 (ty t) (rm r) (flag o) (acc ad) (fin16 ta) (fin16 tb) (fin16 cv) (reg sa) (reg sb) (flag bs) 0 0 0)
  | .tmmf cv t r ad ta tb => some (.tx, tw 0x11 (ty t) (rm r) 0 (acc ad) (fin16 ta) (fin16 tb) (fin16 cv) 0 0 0 0 0 0)
  | .tspm cv o t r ad ta tb sa sb bs =>
      some (.tx, tw 0x12 (ty t) (rm r) (flag o) (acc ad) (fin16 ta) (fin16 tb) (fin16 cv) (reg sa) (reg sb) (flag bs) 0 0 0)
  | .tclose cv r ad sa sb bs => some (.tx, tw 0x18 0 (rm r) 0 (acc ad) 0 0 (fin16 cv) (reg sa) (reg sb) (flag bs) 0 0 0)
  | .tdrain cv r td aa half => some (.tx, tw 0x19 0 (rm r) 0 (fin16 td) (acc aa) 0 (fin16 cv) 0 0 (flag half) 0 0 0)
  | .tqnt cv t r td aa kd => some (.tx, tw 0x1A (ty t) (rm r) 0 (fin16 td) (acc aa) 0 (fin16 cv) (kreg kd) 0 0 0 0 0)
  | .tgemm cv t r ad ta tb sa sb bs sn =>
      some (.tx, tw 0x20 (ty t) (rm r) 0 (acc ad) (fin16 ta) (fin16 tb) (fin16 cv) (reg sa) (reg sb) (flag bs) 0 (sx sn) 0)
  | .ld o s t sp d a b off => some (.mx, mw 0x01 t sp o s 0 (reg d) (reg a) (optReg b) off)
  | .st o s t sp d a b off => some (.mx, mw 0x02 t sp o s 0 (reg d) (reg a) (optReg b) off)
  | .ldsee np o s t d a b off => some (.mx, mw 0x03 t .see o s (bit4 np) (reg d) (sreg a) (optReg b) off)
  | .ldp t sp d a b off => some (.mx, mw 0x04 t sp .plain .team 0 (reg d) (reg a) (optReg b) off)
  | .atom ap o s t sp d a b off => some (.mx, mw 0x08 t sp o s (aop ap) (reg d) (reg a) (reg b) off)
  | .red ap o s t sp a b off => some (.mx, mw 0x09 t sp o s (aop ap) 0 (reg a) (reg b) off)
  | .fence o s => some (.mx, mw 0x10 .i8 .g o s 0 0 0 0 0)
  | .pref t sp a b off => some (.mx, mw 0x11 t sp .plain .team 0 0 (reg a) (optReg b) off)
  | .bra t => some (.cf, cw 0x01 0 t 0 0)
  | .brc t => some (.cf, cw 0x02 0 t 0 0)
  | .bsw t a n => some (.cf, cw 0x03 0 t (reg a) n)
  | .call t a => some (.cf, cw 0x04 0 t (kreg a) 0)
  | .ret a => some (.cf, cw 0x05 0 0 (reg a) 0)
  | .exit => some (.cf, cw 0x06 0 0 0 0)
  | .yield t => some (.cf, cw 0x07 0 t 0 0)
  | .pnot => some (.cf, cw 0x10 0 0 0 0)
  | .ppop => some (.cf, cw 0x11 0 0 0 0)
  | .bar n b t => some (.cf, cw 0x20 (bit4 n) t 0 (0#8 ++ b))
  | .bara n b => some (.cf, cw 0x21 (bit4 n) 0 0 (0#8 ++ b))
  | .barw n b t => some (.cf, cw 0x22 (bit4 n) t 0 (0#8 ++ b))
  | .nbmem b j => some (.cf, cw 0x23 (bit4 j) 0 0 (0#8 ++ b))
  | .waitf np a t => some (.cf, cw 0x28 (bit4 np) t (reg a) 0)
  | .grab => some (.cf, cw 0x30 0 0 0 0)
  | .relx => some (.cf, cw 0x31 0 0 0 0)
  | .cvset cv n => some (.cf, cw 0x38 (fin16 cv) 0 0 n)
  | .bkpt tag => some (.cf, cw 0x3D 0 0 0 tag)
  | .nop => some (.cf, cw 0x3E 0 0 0 0)
  | .trap code => some (.cf, cw 0x3F 0 0 0 code)
  | .cpy ds ss ck d a b x t =>
      some (.ex, ew 0x01 (cpySpace ds ++ cpySpace ss ++ cpyKind ck ++ 0#2) (reg d) (reg a) (optReg b) (reg x) t)
  | .tcpy toPool ck d a t =>
      some (.ex, ew 0x02 ((if toPool then 4#4 else 1#4) ++ cpyKind ck ++ 0#2) (reg d) (sreg a) 0 0 t)
  | .bexp n a b => some (.ex, ew 0x03 (bit8 n) 0 (reg a) 0 0 (0#8 ++ b))
  | .gstart d a => some (.ex, ew 0x08 0 (reg d) (sreg a) 0 0 0)
  | .gcond a b off => some (.ex, ew 0x09 0 0 (sreg a) (reg b) 0 off)
  | .launch d a => some (.ex, ew 0x0A 0 (sreg d) (sreg a) 0 0 0)
  | .ptnew scr d a b => some (.ex, ew 0x10 (bit8 scr) (sreg d) (sreg a) (sreg b) 0 0)
  | .ptfree a => some (.ex, ew 0x11 0 0 (sreg a) 0 0 0)
  | .seeh d a r => some (.ex, ew 0x12 0 (sreg d) (sreg a) 0 0 (0#13 ++ r))
  | .drop a => some (.ex, ew 0x13 0 0 (sreg a) 0 0 0)
  | .hsend d a b => some (.ex, ew 0x14 0 (sreg d) (sreg a) (sreg b) 0 0)
  | .hrecv d a => some (.ex, ew 0x15 0 (sreg d) (sreg a) 0 0 0)
  | .wqpost d a r => some (.ex, ew 0x18 0 (sreg d) (sreg a) 0 0 (num64 r))
  | .triga o d a => some (.ex, ew 0x19 (bit8 o) (sreg d) (sreg a) 0 0 0)
  | .cntadd n a => some (.ex, ew 0x1A 0 0 (reg a) 0 0 (num64 n))
  | .sysc d a => some (.ex, ew 0x20 0 (sreg d) (reg a) 0 0 0)
  | .sret a b bad => some (.ex, ew 0x21 (if bad then 0x10 else 0) 0 (sreg a) (sreg b) 0 0)
  | .tstamp cyc d => some (.ex, ew 0x22 (bit8 cyc) (sreg d) 0 0 0 0)
  | .ktlbi kind a b => some (.ex, ew 0x30 (BitVec.ofNat 8 kind.val) 0 (optSreg a) (reg b) 0 0)
  | .kget q d a b n => some (.ex, ew 0x31 (BitVec.ofNat 8 q.val) (sreg d) (sreg a) (reg b) 0 n)
  | .kset isW a b x n => some (.ex, ew 0x32 (if isW then 3 else 2) 0 (sreg a) (reg b) (reg x) n)
  | .kresumeResume a b => some (.ex, ew 0x33 0 0 (sreg a) (reg b) 0 0)
  | .kresumeStep a b => some (.ex, ew 0x33 1 0 (sreg a) (reg b) 0 0)
  | .kresumeKill a b => some (.ex, ew 0x33 2 0 (sreg a) (reg b) 0 0)
  | .kresumeEngresume a b => some (.ex, ew 0x33 3 0 (reg a) (reg b) 0 0)
  | .kresumeEngend a b => some (.ex, ew 0x33 4 0 (reg a) (reg b) 0 0)
  | .unassignedOpcode c w => some (c, w)
  | .tgemmPhase .. | .selection .. | .clauseStart | .longLatencyWriteDone .. | .writePerformed ..
  | .trapRecordPost .. | .registrationAccepted .. | .waitPoll .. | .copyLine .. | .barrierWave .. | .recordWrite ..
  | .ringHeaderRecheck .. | .gridRetire .. | .teamPlacement .. | .duskGraceExpiry .. | .watchdogExpiry ..
  | .waitLimitExpiry .. | .switchTick .. | .saveShareComplete .. | .saveDeadlineExpiry .. | .qkick ..
  | .packetLaunch .. | .packetCopy .. | .packetBarrierAnd .. | .packetSignal .. | .barrierAndComplete ..
  | .foremanError | .journalValidated | .networkTriggeredLaunch .. | .graphNodeFinish .. | .handleArrival ..
  | .hsendOutcome .. | .hsendTimeout .. | .peerLost .. | .collectiveResult .. | .workRequestStart ..
  | .workRequestComplete .. | .powerEpoch .. | .canaryAlarm .. | .canaryStretchEnd .. | .halfIssueEnd ..
  | .l1MarkClear .. | .l2WayEpoch .. | .migrationRecallDone .. | .scrub .. | .scrubFrameDone | .keyLoad ..
  | .keyLoadDone | .queueEnable .. | .queueDisable .. | .queueErrClear .. | .qmapWrite .. | .partEnable ..
  | .partDisable .. | .vfEnable .. | .vfDisable .. | .vfL2Write .. | .vfBwWrite .. | .engOwnWrite ..
  | .pwrCtlWrite .. | .collApEnable .. | .wqRingEnable .. | .ntlCtlWrite .. | .decliaEnable .. | .registerWrite ..
  | .hostMemRead .. | .hostMemWrite .. | .getVersion .. | .getCapabilities .. | .lockInterface ..
  | .startInterface .. | .stopInterface .. | .getDeviceInterfaceReport .. | .getDeviceInterfaceState ..
  | .sessionExpiry .. | .devReset .. | .functionLevelReset .. | .deviceStart | .startStageDone | .startStageTimeout
  | .lampImageReplace .. | .correctableError | .uncorrectableError .. | .operandParityError .. | .foremanTest ..
  | .peerReturn .. | .remoteAccessArrival .. | .rankAcknowledgement .. => none

end Sys2Proof
end

