-- ==== Sys2Proof/Machine/Operands.lean ====
section
/-! DEFINITION. Operand forms (R63, R84, R90, R312, R313, R331): reading and writing registers in one thread, 64-bit
pairs, addresses, the operand log of a replayed instruction, and the values a read may find under a long-latency
write. -/

namespace Sys2Proof.Machine

/-- A reader of registers: a team, a thread, and the position of its free values. -/
structure Rd where
  t : Team
  i : Nat
  tick : Nat
  deriving Repr

/-- The value a read finds where long-latency writes have not reached the register: before or after each (R90, log 4). -/
def underOlds {α : Type} (tick : Nat) (isW : Bool) (n : Nat) : List (Old α) → α → α
  | [], v => v
  | o :: os, v =>
    if o.reg = n ∧ o.isW = isW then (if Config.early o.id tick then underOlds tick isW n os o.old else v)
    else underOlds tick isW n os v

/-- The operand log that a replayed instruction reads instead of the registers (R59). -/
def Rd.log (r : Rd) : Option OpLog :=
  match (r.t.thread r.i).frame with
  | some f => f.log
  | none => none

def Rd.kReg (r : Rd) (n : Nat) : W32 :=
  match r.log with
  | some l => Store.get 0 l.k n
  | none => underOlds r.tick false n (r.t.thread r.i).olds (Store.get 0 (r.t.thread r.i).k n)
def Rd.wReg (r : Rd) (n : Nat) : W32 :=
  match r.log with
  | some l => Store.get 0 l.w n
  | none => underOlds r.tick true n (r.t.thread r.i).olds (Store.get 0 (r.t.thread r.i).w n)
def Rd.sReg (r : Rd) (n : Nat) : W64 :=
  match r.log with
  | some l => Store.get 0 l.s n
  | none => underOlds r.tick false n r.t.sOlds (Store.get 0 r.t.s n)

/-- The low 32 bits of a register (R63). -/
def Rd.lo (r : Rd) : Reg → W32
  | .w n => r.wReg n.val
  | .k n => r.kReg n.val
  | .s n => (r.sReg n.val).setWidth 32
/-- Bits 63:0: an even W or K register and the next, or one S register (R63). -/
def Rd.quad (r : Rd) : Reg → W64
  | .w n => (r.wReg (n.val + 1) ++ r.wReg n.val)
  | .k n => (r.kReg (n.val + 1) ++ r.kReg n.val)
  | .s n => r.sReg n.val
/-- Value(x, t, ty) (R331): the low bits of the type's width. -/
def Rd.val (r : Rd) (ty : Ty) (x : Reg) : Nat :=
  if ty.bits = 64 then (r.quad x).toNat else (r.lo x).toNat % 2 ^ ty.bits
/-- The same, as the integer it stands for. -/
def Rd.int (r : Rd) (ty : Ty) (x : Reg) : Int := intVal ty (r.val ty x)

/-- One W or K register written in a thread; the old value stays visible under a long-latency write (R90). -/
def Thread.put (x : Thread) (isW : Bool) (n : Nat) (v : W32) : Thread :=
  if isW then { x with w := Store.set 0 x.w n v } else { x with k := Store.set 0 x.k n v }
def Thread.reg (x : Thread) (isW : Bool) (n : Nat) : W32 := if isW then Store.get 0 x.w n else Store.get 0 x.k n

/-- A raw result written to d as R63 gives (R331): extended to 32 bits, or to the register and the next. -/
def Thread.write (x : Thread) (d : Reg) (ty : Ty) (raw : Nat) : Thread :=
  match d with
  | .s _ => x
  | .w n =>
    if ty.bits = 64 then (x.put true n.val (BitVec.ofNat 32 raw)).put true (n.val + 1) (BitVec.ofNat 32 (raw / 2 ^ 32))
    else x.put true n.val (BitVec.ofNat 32 (widen ty 32 raw))
  | .k n =>
    if ty.bits = 64 then (x.put false n.val (BitVec.ofNat 32 raw)).put false (n.val + 1) (BitVec.ofNat 32 (raw / 2 ^ 32))
    else x.put false n.val (BitVec.ofNat 32 (widen ty 32 raw))

/-- The registers a write to d changes: W or K, and number. -/
def destRegs (d : Reg) (ty : Ty) : List (Bool × Nat) :=
  match d with
  | .s _ => []
  | .w n => if ty.bits = 64 then [(true, n.val), (true, n.val + 1)] else [(true, n.val)]
  | .k n => if ty.bits = 64 then [(false, n.val), (false, n.val + 1)] else [(false, n.val)]

/-- Old values noted for the registers of a long-latency write (R90). -/
def Thread.noteOlds (x : Thread) (tok id : Nat) : List (Bool × Nat) → Thread
  | [] => x
  | (isW, n) :: rest =>
    Thread.noteOlds { x with olds := ⟨n, isW, x.reg isW n, tok, id⟩ :: x.olds } tok id rest

/-- A K register that a position names lies in the thread's current block (R26, R313). `wide`: 64-bit operand. -/
def regInBlock (top : Nat) (wide : Bool) : Reg → Bool
  | .k n => decide (n.val + (if wide then 1 else 0) < top)
  | _ => true

/-- A write that is not long-latency ends what stood under the registers it writes: the next instruction reads it (R90). -/
def Thread.settle (x : Thread) (regs : List (Bool × Nat)) : Thread :=
  { x with olds := x.olds.filter (fun o => !regs.contains (o.isW, o.reg)) }

/-- S registers a list of positions names. -/
def sNames : List Reg → List Nat
  | [] => []
  | .s n :: rest => n.val :: sNames rest
  | _ :: rest => sNames rest

/-- Address(a, b, off) in global space (R84). -/
def Rd.globalAddr (r : Rd) (a : Reg) (b : Option Reg) (off : BitVec 16) : W64 :=
  r.quad a + (match b with | some x => (r.lo x).setWidth 64 | none => 0) + off.signExtend 64
/-- A byte offset in scratchpad or parameter space (R84): the low 32 bits of the base, the index, the signed offset.
Negative or large sums are out of range and stay so. -/
def Rd.offset (r : Rd) (a : Reg) (b : Option Reg) (off : BitVec 16) : Int :=
  ((r.lo a).toNat : Int) + (match b with | some x => ((r.lo x).toNat : Int) | none => 0) + off.toInt
/-- The offset from a tile's first byte: index and off16 (R237, R238). -/
def Rd.tileOffset (r : Rd) (b : Option Reg) (off : BitVec 16) : Int :=
  (match b with | some x => ((r.lo x).toNat : Int) | none => 0) + off.toInt

/-- An S register read by an SC or EX instruction. -/
def Rd.s (r : Rd) (n : SReg) : W64 := r.sReg n.val

/-- A raw result written to an S register: extended to 64 bits (R63). -/
def sWiden (ty : Ty) (raw : Nat) : W64 := BitVec.ofNat 64 (widen ty 64 raw)

/-- An S register written; the old value stays visible under a long-latency write. -/
def Team.putS (t : Team) (n : Nat) (v : W64) : Team := { t with s := Store.set 0 t.s n v }
/-- An S register written at once: nothing stands under it any more (R90). -/
def Team.putSNow (t : Team) (n : Nat) (v : W64) : Team :=
  { t.putS n v with sOlds := t.sOlds.filter (fun o => o.isW || o.reg != n) }
def Team.noteOldS (t : Team) (tok id n : Nat) : Team :=
  { t with sOlds := ⟨n, false, Store.get 0 t.s n, tok, id⟩ :: t.sOlds }
/-- The linear tag (R232). -/
def Team.tagged (t : Team) (n : Nat) : Bool := t.tags.contains n
def Team.tag (t : Team) (n : Nat) : Team := { t with tags := if t.tags.contains n then t.tags else n :: t.tags }
def Team.untag (t : Team) (n : Nat) : Team := { t with tags := t.tags.filter (· != n) }

end Sys2Proof.Machine
end

