-- ==== Sys2Proof/Machine/Uses.lean ====
section
/-! DEFINITION. Which W registers an instruction reads and writes: what a resume frame must record (R59). -/

namespace Sys2Proof.Machine

/-- The W numbers `n` registers from `r` on stand in. -/
def wFrom (r : Reg) (n : Nat) : List Nat :=
  match r with
  | .w i => (List.range n).map (fun j => i.val + j)
  | _ => []
/-- The W numbers of an operand of a type. -/
def wOf (ty : Ty) (r : Reg) : List Nat := wFrom r (if ty.bits = 64 then 2 else 1)
/-- The W numbers of an address base (R84). -/
def wBase (sp : Space) (r : Reg) : List Nat := wFrom r (if sp = .g then 2 else 1)
def wOpt : Option Reg → List Nat
  | some r => wFrom r 1
  | none => []
/-- Registers of a group of four elements, kept or whole (R343, R419). -/
def groupRegs (ty : Ty) : Nat := if ty = .i8 then 1 else 2
def wAll (ty : Ty) (rs : List Reg) : List Nat := rs.flatMap (wOf ty)

/-- W registers read, then W registers written. -/
def wUse : Instr → List Nat × List Nat
  | .add ty d a b => (wAll ty [a, b], wOf ty d)
  | .sub ty d a b => (wAll ty [a, b], wOf ty d)
  | .mul ty d a b => (wAll ty [a, b], wOf ty d)
  | .mulh ty d a b => (wAll ty [a, b], wOf ty d)
  | .mad ty d a b c => (wAll ty [a, b, c], wOf ty d)
  | .div ty d a b => (wAll ty [a, b], wOf ty d)
  | .rem ty d a b => (wAll ty [a, b], wOf ty d)
  | .min ty d a b => (wAll ty [a, b], wOf ty d)
  | .max ty d a b => (wAll ty [a, b], wOf ty d)
  | .abs ty d a => (wOf ty a, wOf ty d)
  | .neg ty d a => (wOf ty a, wOf ty d)
  | .and ty d a b => (wAll ty [a, b], wOf ty d)
  | .or ty d a b => (wAll ty [a, b], wOf ty d)
  | .xor ty d a b => (wAll ty [a, b], wOf ty d)
  | .not ty d a => (wOf ty a, wOf ty d)
  | .shl ty d a b => (wOf ty a ++ wFrom b 1, wOf ty d)
  | .shr ty d a b => (wOf ty a ++ wFrom b 1, wOf ty d)
  | .sha ty d a b => (wOf ty a ++ wFrom b 1, wOf ty d)
  | .clz ty d a => (wOf ty a, wFrom d 1)
  | .popc ty d a => (wOf ty a, wFrom d 1)
  | .brev ty d a => (wOf ty a, wOf ty d)
  | .cmp _ ty _ d a b => (wAll ty [a, b], wFrom d 1)
  | .sel ty d a b c => (wAll ty [a, b] ++ wFrom c 1, wOf ty d)
  | .mov ty d a => (wOf ty a, wOf ty d)
  | .movi ty d _ => ([], wOf ty d)
  | .bcst ty d _ => ([], wOf ty d)
  | .idx _ d => ([], wFrom d 1)
  | .fadd _ _ d a b => (wFrom a 1 ++ wFrom b 1, wFrom d 1)
  | .fsub _ _ d a b => (wFrom a 1 ++ wFrom b 1, wFrom d 1)
  | .fmul _ _ d a b => (wFrom a 1 ++ wFrom b 1, wFrom d 1)
  | .fma _ _ d a b c => (wFrom a 1 ++ wFrom b 1 ++ wFrom c 1, wFrom d 1)
  | .fmin _ d a b => (wFrom a 1 ++ wFrom b 1, wFrom d 1)
  | .fmax _ d a b => (wFrom a 1 ++ wFrom b 1, wFrom d 1)
  | .fabs _ d a => (wFrom a 1, wFrom d 1)
  | .fneg _ d a => (wFrom a 1, wFrom d 1)
  | .fcmp _ _ _ d a b => (wFrom a 1 ++ wFrom b 1, wFrom d 1)
  | .fclass _ d a => (wFrom a 1, wFrom d 1)
  | .frcp _ _ d a => (wFrom a 1, wFrom d 1)
  | .frsq _ _ d a => (wFrom a 1, wFrom d 1)
  | .fsqrt _ _ d a => (wFrom a 1, wFrom d 1)
  | .fdiv _ _ d a b => (wFrom a 1 ++ wFrom b 1, wFrom d 1)
  | .fexp2 _ _ d a => (wFrom a 1, wFrom d 1)
  | .flog2 _ _ d a => (wFrom a 1, wFrom d 1)
  | .cvt dty sty _ _ d a => (wOf sty a, wOf dty d)
  | .rfwd ty d a => (wOf ty a, wFrom d 1)
  | .radd d a b => (wFrom a 1 ++ wFrom b 1, wFrom d 1)
  | .rmul d a b => (wFrom a 1 ++ wFrom b 1, wFrom d 1)
  | .rmad d a b c => (wFrom a 1 ++ wFrom b 1 ++ wFrom c 1, wFrom d 1)
  | .rback d a => (wFrom a 1, wFrom d 1)
  | .qnt dty sty _ d a b => (wFrom a (qntSources sty), wFrom d (qntCodes dty) ++ wFrom b 1)
  | .dqnt _ d a b => (wFrom a 1 ++ wFrom b 1, wFrom d 1)
  | .cmpr ty d a => (wFrom a (groupRegs ty), wFrom d (groupRegs ty))
  | .xpnd ty d a => (wFrom a (groupRegs ty), wFrom d (groupRegs ty))
  | .ld _ _ ty sp d a b _ => (wBase sp a ++ wOpt b, wOf ty d)
  | .st _ _ ty sp d a b _ => (wBase sp a ++ wOpt b ++ wOf ty d, [])
  | .ldsee _ _ _ ty d _ b _ => (wOpt b, wOf ty d)
  | .ldp ty sp d a b _ => (wBase sp a ++ wOpt b, wOf ty d ++ (match d with
      | .w i => wOf ty (.w (i + (if ty.bits = 64 then 2 else 1)))
      | _ => []))
  | .atom aop _ _ ty sp d a b _ => (wBase sp a ++ wFrom b ((if aop = .cas then 2 else 1) * (if ty.bits = 64 then 2 else 1)), wOf ty d)
  | .red _ _ _ ty sp a b _ => (wBase sp a ++ wOf ty b, [])
  | .pref _ sp a b _ => (wBase sp a ++ wOpt b, [])
  | .tlds _ _ src _ _ _ _ => (wFrom src 1, [])
  | .tmma _ _ _ _ _ _ _ sa sb _ => (wFrom sa 1 ++ wFrom sb 1, [])
  | .tspm _ _ _ _ _ _ _ sa sb _ => (wFrom sa 1 ++ wFrom sb 1, [])
  | .tclose _ _ _ sa sb _ => (wFrom sa 1 ++ wFrom sb 1, [])
  | .tgemm _ _ _ _ _ _ sa sb _ _ => (wFrom sa 1 ++ wFrom sb 1, [])
  | .bsw _ a _ => (wFrom a 1, [])
  | .ret a => (wFrom a 1, [])
  | .waitf _ a _ => (wFrom a 1, [])
  | .cpy _ _ _ d a b x _ => (wFrom d 2 ++ wFrom a 2 ++ wOpt b ++ wFrom x 1, [])
  | .tcpy _ _ d _ _ => (wFrom d 1, [])
  | .bexp _ a _ => (wFrom a 1, [])
  | .gstart d _ => ([], wFrom d 1)
  | .gcond _ b _ => (wFrom b 1, [])
  | .cntadd _ a => (wFrom a 1, [])
  | .sysc _ a => (wFrom a 2, [])
  | .ktlbi _ _ b => (wFrom b 2, [])
  | .kget _ _ _ b _ => (wFrom b 1, [])
  | .kset _ _ b c _ => (wFrom b 1 ++ wFrom c 1, [])
  | .kresumeResume _ b => (wFrom b 1, [])
  | .kresumeStep _ b => (wFrom b 1, [])
  | .kresumeKill _ b => (wFrom b 1, [])
  | .kresumeEngresume a _ => (wFrom a 1, [])
  | .kresumeEngend a _ => (wFrom a 1, [])
  | _ => ([], [])

/-- What is known of a thread's predicate stack after an instruction (R56): each entry true, false, or not known. -/
def predsAfter (ps : List (Option Bool)) : Instr → List (Option Bool)
  | .cmp _ _ push _ _ _ => if push then (if ps.headD (some true) = some false then some false else none) :: ps else ps
  | .fcmp _ _ push _ _ _ => if push then (if ps.headD (some true) = some false then some false else none) :: ps else ps
  | .pnot => match ps with
    | [] => []
    | p :: rest =>
      (match p, rest.headD (some true) with
        | some true, _ => some false
        | _, some false => some false
        | some false, some true => some true
        | _, _ => none) :: rest
  | .ppop => ps.tail
  | _ => ps

/-- The predicate decides whether a thread takes part in an instruction of the class (R52). -/
def predicated : Cls → Bool
  | .vx => true
  | .mx => true
  | .ex => true
  | _ => false

/-- The W registers that some instruction of the list can read before one has surely written them, for a thread with that
predicate stack; those of `rest` where the list does not reach the end of the block. -/
def liveW (rest : List Nat) : List (Option Bool) → List (Cls × Instr) → List Nat
  | _, [] => rest
  | ps, (c, i) :: is =>
    let top := if predicated c then ps.headD (some true) else some true
    let u := wUse i
    (if top = some false then [] else u.1) ++
      (liveW rest (predsAfter ps i) is).filter (fun n => top != some true || !u.2.contains n)

/-- The instructions that the words of a clause stand for; a word that fails to decode stands for none. -/
def wordsOf (c : Cls) (ws : List W64) : List (Cls × Instr) :=
  ws.filterMap (fun w => match decode c w with | .ok i => some (c, i) | .error _ => none)

end Sys2Proof.Machine
end

