-- ==== Sys2Proof/Machine/Ops.lean ====
section
/-! DEFINITION. The operations every meaning shares: where the issuing batch stands, taking an exception and returning
from one, parking and resuming, clause flags and tokens, moving the batch on, and ending it. -/

namespace Sys2Proof.Machine

/-- Where a batch stands (R25). -/
def Batch.pos (b : Batch) : Pos := ⟨b.block, b.clause, b.instr⟩

/-- Number of words of a clause. -/
def Clause.count (c : Clause) : Nat := c.words.length
/-- Address of the clause after the one a batch stands at (R309). -/
def Batch.after (b : Batch) : W64 :=
  match b.buf with
  | some c => b.addr + BitVec.ofNat 64 (8 * (c.count + 1))
  | none => b.addr
/-- Address of the clause of a position in a batch's block. -/
def Batch.addrOf (b : Batch) (p : Pos) : W64 := if p.clause = b.clause then b.addr else b.after

/-- The agent a team's accesses are made as (R264). -/
def State.agent (s : State) (t : Team) : Agent := ⟨t.core, (s.gridOf t).fn, (s.gridOf t).part, t.grid, (s.core t.core).marks⟩

/-- A reader of thread `i`'s registers. -/
def State.rd (s : State) (t : Team) (i : Nat) : Rd := ⟨t, i, s.sched.tick⟩

/-- An acquire at PART or wider on a core: its unowned L1 words and its clause cache go (R135, R326). -/
def State.acquire (s : State) (core : Nat) : State :=
  let k := s.core core
  (s.setMem (s.mem.acquire core)).setCore core { k with clauses := [] }

-- clause flags and tokens (R89, R90)

def Batch.flag (b : Batch) (f : Nat) : Nat := Store.get 0 b.flags f
def Team.flag (t : Team) (f : Nat) : Nat := Store.get 0 t.flags f
/-- The outstanding count of a flag as batch `b` sees it (R89): F0-F7 the batch's, F8-F11 the team's. -/
def Team.flagOf (t : Team) (b : Batch) (f : Nat) : Nat := if f < 8 then b.flag f else t.flag f

/-- A flag's count raised by `n`. -/
def Team.raiseFlag (t : Team) (bid f n : Nat) : Team :=
  if f < 8 then
    match t.batch? bid with
    | some b => t.setBatch { b with flags := Store.set 0 b.flags f (b.flag f + n) }
    | none => t
  else { t with flags := Store.set 0 t.flags f (t.flag f + n) }
/-- A flag's count lowered by one: in the batch it is of, and in those its saved threads resume in (R171). -/
def Team.lowerFlag (t : Team) (bid f : Nat) : Team :=
  if f < 8 then
    { t with batches := t.batches.map (fun b =>
        if b.id = bid ∨ b.heirs.contains bid then { b with flags := Store.set 0 b.flags f (b.flag f - 1) } else b) }
  else { t with flags := Store.set 0 t.flags f (t.flag f - 1) }

def Team.tok? (t : Team) (k : Nat) : Option Tok := t.toks.find? (fun x => x.id == k)
def Team.setTok (t : Team) (x : Tok) : Team := { t with toks := t.toks.map (fun y => if y.id = x.id then x else y) }

/-- Long-latency writes of a token have reached their registers: their old values are gone, and so are older ones of
the same registers, writes to one register taking effect in order (R90). `only`: which kind settles. -/
def settleOlds {α : Type} (k : Nat) (only : Old α → Bool) : List (Bool × Nat) → List (Old α) → List (Old α)
  | _, [] => []
  | cl, o :: os =>
    if cl.contains (o.isW, o.reg) then settleOlds k only cl os
    else if o.tok = k && only o then settleOlds k only ((o.isW, o.reg) :: cl) os
    else o :: settleOlds k only cl os

/-- What a clause's SETA team flag promises to an SGET that waits on it (R73, R98): its exception flags stand in FEXC,
its changes of TCTL and ACST are seen. -/
def Team.promise (t : Team) (k : Nat) : Team :=
  { t with
    fexc := (t.fexcLate.filter (fun n => n.tok == k)).foldl (fun f n => f ||| n.flags) t.fexc
    fexcLate := t.fexcLate.filter (fun n => n.tok != k)
    sOlds := settleOlds k (fun o => o.isW) [] t.sOlds }

/-- A token whose clause has issued lowers SETA once its register writes are complete and SETB once its memory writes
are performed (R89). A token whose clause has issued and that has nothing left goes. -/
def Team.settleTok (t : Team) (k : Nat) : Team :=
  match t.tok? k with
  | none => t
  | some x =>
    let a := x.issued && x.regs == 0 && !x.aDone
    let b := x.issued && x.mems == 0 && x.posts == 0 && !x.bDone
    let t1 := if a then (match x.seta with
        | some f => (if 8 ≤ f then t.promise k else t).lowerFlag x.batch f
        | none => t) else t
    let t2 := if b then (match x.setb with | some f => t1.lowerFlag x.batch f | none => t1) else t1
    let y := { x with aDone := x.aDone || a, bDone := x.bDone || b }
    if x.issued && x.regs == 0 && x.mems == 0 && x.posts == 0 && y.aDone && y.bDone then { t2 with toks := t2.toks.filter (fun z => z.id != k) } else t2.setTok y

/-- Long-latency register writes and memory writes issued under a token. -/
def Team.addPending (t : Team) (k regs mems : Nat) : Team :=
  match t.tok? k with
  | none => t
  | some x => t.setTok { x with regs := x.regs + regs, mems := x.mems + mems }

/-- One long-latency register write of a token completes: old values under it are gone (R90). -/
def Team.regDone (t : Team) (k : Nat) : Team :=
  match t.tok? k with
  | none => t
  | some x =>
    let y := { x with regs := x.regs - 1 }
    let t1 := t.setTok y
    let t2 := if y.regs = 0 then
        { t1 with
          threads := t1.threads.map (fun th => { th with olds := settleOlds k (fun _ => true) [] th.olds })
          sOlds := settleOlds k (fun o => !o.isW) [] t1.sOlds }
      else t1
    t2.settleTok k
/-- A clause posts a copy, whose writes its SETB waits for (R89). -/
def Team.addPost (t : Team) (k : Nat) : Team :=
  match t.tok? k with
  | none => t
  | some x => t.setTok { x with posts := x.posts + 1 }
/-- A copy that a clause posted has completed (R89). -/
def Team.postDone (t : Team) (k : Nat) : Team :=
  match t.tok? k with
  | none => t
  | some x => (t.setTok { x with posts := x.posts - 1 }).settleTok k
/-- One memory write of a token is performed at its scope (R89). -/
def Team.memDone (t : Team) (k : Nat) : Team :=
  match t.tok? k with
  | none => t
  | some x => (t.setTok { x with mems := x.mems - 1 }).settleTok k

/-- Another batch's tile operation has issued on scratchpad and is not performed yet: the batch's accesses come after it
(R52, R101). -/
def Team.scrAhead (t : Team) (b : Nat) : Bool :=
  t.batches.any (fun y => y.id != b && (match y.sig with | some g => g.scr | none => false))

-- frames (R59, R60, R92)

/-- The clauses from the one at `va` on, read past the caches, and whether they reach the end of the block. -/
def peekClauses (c : Ctl) (m : Mem) (fn part : Nat) : Nat → Nat → List (Cls × Instr) × Bool
  | 0, _ => ([], false)
  | fuel + 1, va =>
    match readRegistry c m fn part va 8 .fetch with
    | .ok hb _ =>
      let h := Header.ofWord (BitVec.ofNat 64 (ofLE hb))
      match h.clause with
      | none => ([], false)
      | some cl =>
        let n := h.cnt.toNat + 1
        match deviceRead c m fn part (va + 8) (8 * n) .fetch with
        | .ok bs _ =>
          let here := wordsOf cl ((List.range n).map (fun i => BitVec.ofNat 64 (ofLE ((bs.drop (8 * i)).take 8))))
          if h.bend then (here, true)
          else
            let r := peekClauses c m fn part fuel (va + 8 * (n + 1))
            (here ++ r.1, r.2)
        | _ => ([], false)
    | _ => ([], false)

/-- Address of the clause a batch stands at: before its block's first clause, the block table's entry gives it (R87). -/
def State.clauseAddr (s : State) (g : Grid) (b : Batch) : Nat :=
  if b.buf.isNone && !b.passed && b.clause == 0 then
    match readRegistry s.ctl s.mem g.fn g.part (g.image.toNat + 64 + 4 * b.block) 4 .fetch with
    | .ok bs _ => g.image.toNat + ofLE bs
    | _ => b.addr.toNat
  else b.addr.toNat

/-- The code of a batch's block from instruction `k` of its clause on, and whether it reaches the end of the block. A batch
before its clause's start has the whole clause before it, or what is left of it where it resumes inside it. -/
def State.codeFrom (s : State) (t : Team) (b : Batch) (k : Nat) : List (Cls × Instr) × Bool :=
  let g := s.gridOf t
  match b.buf with
  | none =>
    let r := peekClauses s.ctl s.mem g.fn g.part 65536 (s.clauseAddr g b)
    (if b.passed then r.1.drop b.instr else r.1, r.2)
  | some c =>
    let h := Header.ofWord c.header
    match h.clause with
    | none => ([], false)
    | some cl =>
      let here := wordsOf cl (c.words.drop k)
      if h.bend then (here, true)
      else
        let r := peekClauses s.ctl s.mem g.fn g.part 65536 b.after.toNat
        (here ++ r.1, r.2)

/-- The W numbers that a resume frame records for code from instruction `k` of its batch's clause on, met with a predicate stack
(R59). Where the rest of the block cannot be read, all that it may need: every W register. -/
def State.frameFrom (s : State) (t : Team) (b : Batch) (k : Nat) (ps : List (Option Bool)) : List Nat :=
  let r := s.codeFrom t b k
  sortNat (liveW (if r.2 then [] else List.range 64) ps r.1)
/-- Those of thread `i` when it goes on at instruction `k`, with its stack as it stands. -/
def State.frameW (s : State) (t : Team) (b : Batch) (k i : Nat) : List Nat := s.frameFrom t b k ((t.thread i).preds.map some)
/-- The instruction a batch stands at; none before a clause start, or where its word decodes to none. -/
def Batch.here (b : Batch) : Option Instr :=
  match b.buf with
  | none => none
  | some c =>
    match (Header.ofWord c.header).clause, c.words[b.instr]? with
    | some x, some w => (decode x w).toOption
    | _, _ => none
/-- Those of a thread stopped at the present instruction, which it is to replay: what the later ones read, with the stack that the
present one leaves. -/
def State.frameHere (s : State) (t : Team) (b : Batch) (i : Nat) : List Nat :=
  let ps := (t.thread i).preds.map some
  s.frameFrom t b (b.instr + 1) (match b.here with | some x => predsAfter ps x | none => ps)

/-- The log of the instruction a thread stands at: the one it is already replaying, or its registers now (R59). -/
def Team.logOf (t : Team) (i : Nat) : OpLog :=
  match (t.thread i).frame with
  | some f => f.log.getD ⟨(t.thread i).k, (t.thread i).w, t.s⟩
  | none => ⟨(t.thread i).k, (t.thread i).w, t.s⟩

/-- Thread `i` leaves its batch in a state, with a frame at a position. Its own operations have completed (R92). -/
def Team.leave (t : Team) (b : Batch) (i : Nat) (st : TState) (pos : Pos) (fr : Option Frame) : Team :=
  let t1 := t.onThread i (fun x => { x with st := st, pos := pos, at_ := b.addrOf pos, frame := fr, olds := [] })
  match t1.batch? b.id with
  | some y => t1.setBatch { y with threads := y.threads.filter (· != i), done := y.done.filter (· != i) }
  | none => t1

/-- The clauses a thread has run that have operations outstanding: what its frame waits for (R92). -/
def Team.unfinished (t : Team) (i : Nat) : List Nat :=
  (t.toks.filter (fun k => k.threads.contains i && (k.regs != 0 || k.mems != 0))).map (·.id)

/-- The frame of a thread stopped where a block begins: nothing to replay (R61, R92). -/
def Team.standFrame (t : Team) (i : Nat) : Frame := ⟨none, [], false, none, [], t.unfinished i⟩

/-- The frame of a thread stopped at the batch's present instruction, to be replayed with its log. -/
def Team.frameAt (t : Team) (i : Nat) (ws : List Nat) (passed : Bool) (log : Bool) : Frame :=
  { log := if log then some (t.logOf i) else none
    w := ws.map (fun n => (n, Store.get 0 (t.thread i).w n))
    passed := passed
    grant := match (t.thread i).frame with | some f => f.grant | none => none
    old := []
    toks := t.unfinished i }

/-- TAKING AN EXCEPTION (R59, R207, R209, R211): thread `i` of a batch stops with a fault. It parks trapped at its
resume point with a resume frame; its trap state holds the code, the fault point, the detail and the fault address;
its trap record is still to be posted. The rest of its batch goes on. -/
def State.trapThread (s : State) (u bid i : Nat) (code : Code) (detail : Nat) (addr : W64) (at_ resume : Pos) : State :=
  match s.team? u with
  | none => s
  | some t =>
    match t.batch? bid with
    | none => s
    | some b =>
      let same := decide (resume = b.pos)
      let ws := if same then s.frameHere t b i else s.frameW t b (b.instr + 1) i
      let fr := t.frameAt i ws (decide (resume.clause = b.clause) && (b.buf.isSome || b.passed)) same
      let t1 := t.leave b i .trapped resume (some fr)
      let t2 := t1.onThread i (fun x =>
        { x with trap := ⟨code.num, at_.block, at_.clause, at_.instr, detail, addr, false, 0⟩ })
      s.setTeam t2

/-- A fault of the issuing batch's present instruction in thread `i` (R59). -/
def State.raise (s : State) (c : Ctx) (i : Nat) (code : Code) (addr : W64) : State :=
  s.trapThread c.team.uid c.batch.id i code 0 addr c.batch.pos c.batch.pos

/-- A fault taken by each of a list of threads, in the order given. -/
def State.raiseAll (s : State) (c : Ctx) (code : Code) (addr : W64) : List Nat → State
  | [] => s
  | i :: is => State.raiseAll (s.raise c i code addr) c code addr is

/-- RETURNING FROM AN EXCEPTION (R215): a trapped or held thread becomes resuming at its resume point, with the frame
as service has left it; its trap state returns to STATE 0. -/
def Thread.resume (x : Thread) : Thread :=
  match x.st with
  | .trapped => { x with st := .resuming, trap := { x.trap with cause := 0, posted := true } }
  | .held => { x with st := .resuming, trap := { x.trap with cause := 0, posted := true } }
  | _ => x

/-- Parking inside a block or at a terminator (R60): the thread keeps a frame and replays its instruction. -/
def State.parkThread (s : State) (u bid i : Nat) (p : Park) : State :=
  match s.team? u with
  | none => s
  | some t =>
    match t.batch? bid with
    | none => s
    | some b =>
      let fr := t.frameAt i (s.frameW t b (b.instr + 1) i) true true
      (s.setTeam ((t.leave b i (.parked p) b.pos (some fr)).onThread i
        (fun x => { x with parkedFor := 0, parkedAt := s.fresh, holdNext := b.stepped }))).bump 1
def State.park (s : State) (c : Ctx) (i : Nat) (p : Park) : State := s.parkThread c.team.uid c.batch.id i p
def State.parkAll (s : State) (c : Ctx) (p : Park) : List Nat → State
  | [] => s
  | i :: is => State.parkAll (s.park c i p) c p is

/-- ALL_STOP is in force on the team and holds it (R61). -/
def Team.holding (t : Team) : Bool := t.stopped

/-- A parked thread's condition holds: it becomes resuming, or enters debug-hold under ALL_STOP or after a step (R60, R61). -/
def Team.unpark (t : Team) (i : Nat) (grant : Option W64) : Team :=
  t.onThread i (fun x =>
    let fr := match x.frame with
      | some f => some { f with grant := match grant with | some h => some h | none => f.grant }
      | none => none
    if t.holding || x.holdNext then { x with st := .held, frame := fr, holdNext := false } else { x with st := .resuming, frame := fr })

/-- A parked thread goes on to a block: waiting there, or held there under ALL_STOP. -/
def Team.unparkTo (t : Team) (i block : Nat) : Team :=
  t.onThread i (fun x =>
    let pos : Pos := ⟨block, 0, 0⟩
    if t.holding || x.holdNext then { x with st := .held, pos := pos, frame := some (t.standFrame i), holdNext := false }
    else { x with st := .waiting, pos := pos, frame := none })

/-- TGEMM has issued, and the batch still stands at it (R118, log 23). -/
def Team.gemmIssued (t : Team) (b : Batch) : Bool :=
  match t.gemm with
  | some g => !g.stopped && g.batch == b.id && decide (g.pos = b.pos)
  | none => false
/-- The instruction the batch stands at is behind thread `i`, whose next instruction boundary is after it: the thread has performed
it while others are held, or it is a TGEMM that has issued. -/
def Team.past (t : Team) (b : Batch) (i : Nat) : Bool := t.gemmIssued b || b.done.contains i
/-- A TLD or TST that the batch has issued is still being performed (R99, R102). -/
def Batch.moving (b : Batch) : Bool := match b.sig with | some g => !g.ops.isEmpty | none => false

-- moving on

/-- The last instruction of the clause a batch stands in has issued (R89). -/
def Team.closeTok (t : Team) (b : Batch) : Team :=
  match t.tok? b.tok with
  | some k => (t.setTok { k with issued := true }).settleTok k.id
  | none => t

/-- A convergence register at placement (R58). -/
def Cv.start (n : Nat) : Cv := ⟨n, 0, none, List.replicate 32 0, List.replicate 32 0⟩
def Team.cvOf (t : Team) (n : Nat) : Cv := t.cv.getD n (Cv.start 0)
def Team.putCv (t : Team) (n : Nat) (x : Cv) : Team := { t with cv := listPut t.cv n x }
/-- The set that a signing of register `cv` at a position joins: one whose completing signature was withdrawn there (R99), or
the register's own. -/
def Team.setFor (t : Team) (cv : Nat) (p : Pos) : Cv :=
  match t.owed.find? (fun e => e.1 == cv && e.2.pos == some p) with
  | some e => e.2
  | none => t.cvOf cv
def Team.putSet (t : Team) (cv : Nat) (p : Pos) (y : Cv) : Team :=
  if t.owed.any (fun e => e.1 == cv && e.2.pos == some p) then
    { t with owed := (t.owed.map (fun e => if e.1 == cv && e.2.pos == some p then (cv, y) else e)).filter (fun e => e.2.count != 0) }
  else t.putCv cv y
/-- A completing batch's signature is withdrawn (R99): the set's count returns to its value before that batch signed. Where the
register has begun a set at another position meanwhile, the set stands beside it (log 83). -/
def Team.withdraw (t : Team) (g : Sig) : Team :=
  let x := t.cvOf g.cv
  let n := g.n - g.act.length
  if x.count = 0 then t.putCv g.cv { x with count := n, pos := some g.pos, depA := g.depA, depB := g.depB }
  else if x.pos = some g.pos then t.putCv g.cv { x with count := x.count + g.n - g.act.length }
  else { t with owed := (g.cv, ⟨g.n, n, some g.pos, g.depA, g.depB⟩) :: t.owed }

/-- The watchdog's count is reset (R226): it counts from the next cycle on, under WDOG_CTL as it then stands (R225). -/
def Team.wdogReset (t : Team) : Team := { t with wdog := 0, wdogNew := true }

/-- A batch ends: its selection goes on without it, and its clause issues nothing more (R48). -/
def Team.endBatch (t : Team) (b : Batch) : Team :=
  let t1 := t.closeTok b
  let sel := match t1.sel with
    | none => none
    | some x =>
      let bs := x.batches.filter (· != b.id)
      if bs.isEmpty then none else some { x with batches := bs }
  { t1.dropBatch b.id with sel := sel }

/-- The batch's resumed threads have replayed: their logs and grants are used up, and their W values stand in the
registers (R59). -/
def Team.clearFrames (t : Team) (b : Batch) : Team :=
  { t with threads := t.threads.mapIdx (fun i x => if b.threads.contains i then { x with frame := none } else x) }

/-- ALL_STOP reaches a batch at a clause boundary: its threads enter debug-hold there with their frames (R61). `ws` gives the W
registers a frame records. -/
def Team.holdBatch (t : Team) (b : Batch) (ws : Batch → Nat → Nat → List Nat) : Team :=
  let t1 := b.threads.foldl (fun (a : Team) i =>
    a.leave b i .held b.pos (some ⟨none, (ws b 0 i).map (fun n => (n, Store.get 0 (a.thread i).w n)), false, none, [], t.unfinished i⟩)) t
  match t1.batch? b.id with
  | some y => t1.endBatch y
  | none => t1

/-- The batch stands at the last instruction of its clause. -/
def Batch.last (b : Batch) : Bool := match b.buf with | some c => decide (c.count ≤ b.instr + 1) | none => true

/-- KRESUME STEP (R61): after one instruction the batch's threads enter debug-hold at the next. -/
def Team.stepOut (t : Team) (b : Batch) (ws : Batch → Nat → Nat → List Nat) : Team :=
  let next : Pos := if b.last then ⟨b.block, b.clause + 1, 0⟩ else ⟨b.block, b.clause, b.instr + 1⟩
  let t1 := b.threads.foldl (fun (a : Team) i =>
    a.leave b i .held next (some ⟨none, (ws b (b.instr + 1) i).map (fun n => (n, Store.get 0 (a.thread i).w n)), !b.last, none, [], t.unfinished i⟩)) t
  match t1.batch? b.id with
  | some y => t1.endBatch y
  | none => t1

/-- The batch leaves its clause and stands before the next one (R87); ALL_STOP holds it there (R61). -/
def Team.nextClause (t : Team) (b : Batch) (ws : Batch → Nat → Nat → List Nat) : Team :=
  let t1 := t.closeTok b
  let b2 := { (t1.batch? b.id).getD b with
    clause := b.clause + 1, instr := 0, addr := b.after, buf := none, passed := false, held := false, done := [], vslice := none, full := false, charged := false }
  let t2 := (t1.setBatch b2).wdogReset
  if t2.holding then t2.holdBatch b2 ws else t2

/-- The instruction the batch stands at has been performed by every thread that is not held: the batch moves past it,
past the clause at its end, or ends when no thread is left (R52). Threads held at a claimed line, a blocked page or a
full queue keep it where it is. -/
def Team.moveOn (t : Team) (bid : Nat) (heldBack : List Nat) (ws : Batch → Nat → Nat → List Nat) : Team :=
  match t.batch? bid with
  | none => t
  | some b =>
    if b.threads.isEmpty then t.endBatch b
    else if !heldBack.isEmpty then
      t.setBatch { b with held := true, done := b.threads.filter (fun i => !heldBack.contains i) }
    else if b.stepped then (t.clearFrames b).stepOut b ws
    else if b.last then (t.clearFrames b).nextClause b ws
    else (t.clearFrames b).setBatch { b with instr := b.instr + 1, held := false, done := [], full := false, charged := false }

/-- The instruction ended its clause, which it completes unless every thread has trapped at it (R226). -/
def Team.clauseOver (t : Team) (b : Batch) (heldBack : List Nat) : Bool :=
  b.last && heldBack.isEmpty && b.threads.any (fun i => (t.thread i).st != .trapped)
/-- A team whose issuing batch has performed its instruction. -/
def State.moved (s : State) (t : Team) (c : Ctx) (heldBack : List Nat) : Team :=
  (if t.clauseOver c.batch heldBack then t.wdogReset else t).moveOn c.batch.id heldBack (s.frameW t)
/-- The state after the issuing batch has performed its instruction. -/
def State.moveOn (s : State) (c : Ctx) (heldBack : List Nat) : State := s.onTeam c.team.uid (fun t => s.moved t c heldBack)

/-- A change to the issuing team as it stands now. -/
def State.onCur (s : State) (c : Ctx) (f : Team → Team) : State := s.onTeam c.team.uid f
/-- The issuing batch is held at a full queue or ring, or no longer (R226). -/
def State.markFull (s : State) (c : Ctx) (full : Bool) : State :=
  s.onCur c (fun t => match t.batch? c.batch.id with
    | some b => t.setBatch { b with full := full }
    | none => t)

/-- The issuing team as it stands now. -/
def State.curTeam (s : State) (c : Ctx) : Team := (s.team? c.team.uid).getD c.team
def State.curBatch (s : State) (c : Ctx) : Batch := ((s.curTeam c).batch? c.batch.id).getD c.batch

/-- Every program instruction needs an issuing batch. -/
def withCtx (s : State) (f : Ctx → State) : Host.Outcome State Fault Refusal :=
  match s.ctx? with
  | none => .fault .noBatch
  | some c => .next (f c)

/-- An instruction that acts once per batch, for its lowest active thread (R234, R285): nothing without one. -/
def oncePerBatch (s : State) (f : Ctx → Nat → State) : Host.Outcome State Fault Refusal :=
  withCtx s (fun c =>
    match sortNat (c.team.active c.batch) with
    | [] => s.moveOn c []
    | i :: _ => f c i)

/-- Such an instruction's fault: every active thread takes it (R331). -/
def State.raiseActive (s : State) (c : Ctx) (code : Code) (addr : W64) : State :=
  (s.raiseAll c code addr (sortNat (c.team.active c.batch))).moveOn c []

/-- Exception flags set by an instruction of a clause (R73). A setting of flags that stand in FEXC changes nothing, whenever it is
made (log 92). -/
def Team.orFexc (t : Team) (tok id : Nat) (f : Flags) : Team :=
  if t.fexc ||| f = t.fexc then t else { t with fexcLate := ⟨f, tok, id⟩ :: t.fexcLate }
/-- FEXC as an SGET or an SSET meets it: each setting not promised yet may have been made or not (R73, log 4). -/
def Team.fexcSeen (t : Team) (tick : Nat) : BitVec 5 :=
  t.fexcLate.foldl (fun f n => if Config.early n.id tick then f else f ||| n.flags) t.fexc
/-- FEXC read by an SGET (R72): what it has seen made stays made. -/
def Team.seeFexc (t : Team) (tick : Nat) : Team :=
  { t with fexc := t.fexcSeen tick, fexcLate := t.fexcLate.filter (fun n => Config.early n.id tick) }
/-- SSET clears flags of FEXC (R73, R400): those it meets; a setting not yet made is made after it. -/
def Team.clearFexc (t : Team) (tick : Nat) (m : BitVec 5) : Team :=
  { t with
    fexc := t.fexcSeen tick &&& ~~~m
    fexcLate := t.fexcLate.filter (fun n => Config.early n.id tick) }
/-- Every setting made (R220). -/
def Team.allFexc (t : Team) : Team :=
  { t with fexc := t.fexcLate.foldl (fun f n => f ||| n.flags) t.fexc, fexcLate := [] }

/-- Every long-latency register write of the batch's block has completed, every copy naming one of its flags too, so
its terminator may execute (R90, R169). -/
def State.mayEnd (s : State) (c : Ctx) : Bool :=
  c.team.toks.all (fun k => k.batch != c.batch.id || k.regs == 0) &&
  !((s.eng.queues.flatMap (·.2) ++ s.eng.saved).any (fun x =>
      match x.signal with
      | .flag u b f => u == c.team.uid && (b == c.batch.id || c.batch.heirs.contains b) && f < 8
      | _ => false))

/-- The batch waits at its terminator. -/
def State.waitHere (s : State) (c : Ctx) : State :=
  s.onCur c (fun t => match t.batch? c.batch.id with
    | some b => t.setBatch { b with held := true }
    | none => t)

/-- A thread moves its bit to a block at a terminator (R53): waiting or yielded there, or held there under ALL_STOP and
after a step (R61). -/
def State.goTo (s : State) (c : Ctx) (i : Nat) (st : TState) (target : Nat) : State :=
  s.onCur c (fun t => match t.batch? c.batch.id with
    | some b =>
      if b.stepped || t.stopped then t.leave b i .held ⟨target, 0, 0⟩ (some (t.standFrame i))
      else t.leave b i st ⟨target, 0, 0⟩ none
    | none => t)

/-- The position after the instruction a batch stands at (R61, R210). -/
def Batch.next (b : Batch) : Pos :=
  match b.buf with
  | some c => if c.count ≤ b.instr + 1 then ⟨b.block, b.clause + 1, 0⟩ else ⟨b.block, b.clause, b.instr + 1⟩
  | none => b.pos

/-- ALL_STOP (R61): no further selection; every thread outside a batch and every batch at a clause boundary enters
debug-hold. A batch that resumes inside a clause finishes that clause first. -/
def Team.stopAll (t : Team) (ws : Batch → Nat → Nat → List Nat) : Team :=
  let t1 : Team := { t with
    stopped := true
    threads := t.threads.mapIdx (fun i (x : Thread) => match x.st with
      | .waiting => { x with st := .held, frame := some (t.standFrame i) }
      | .yielded => { x with st := .held, frame := some (t.standFrame i) }
      -- a thread that is to step still does, and holds after that
      | .resuming => if x.stepping then x else { x with st := .held }
      | _ => x) }
  (t1.batches.filter (fun (b : Batch) => b.buf.isNone && !b.passed)).foldl (fun (a : Team) b => a.holdBatch b ws) t1

end Sys2Proof.Machine
end

