-- ==== Sys2Proof/Machine/Trigger.lean ====
section
/-! DEFINITION. Trigger counters and armed slots (R297, R298). -/

namespace Sys2Proof.Machine

/-- Trigger counter of a function (R297). -/
def State.counter (s : State) (fn n : Nat) : W32 := Store.get 0 s.net.tc (fn * 64 + n)

/-- The armed slots of a function. -/
def State.armed (s : State) (fn : Nat) : List Trigger := Store.get [] s.net.triggers fn

/-- A slot's predicate holds: the AND, or the OR, of its terms (R298). -/
def State.holds (s : State) (fn : Nat) (x : Trigger) : Bool :=
  let ok (e : Nat × Nat) : Bool := decide (e.2 ≤ (s.counter fn e.1).toNat)
  if x.or then x.terms.any ok else x.terms.all ok

/-- Every armed slot of a function evaluated: one whose predicate holds fires once, its request joining the trigger
queue, and is free (R298). -/
def State.evalSlots (s : State) (fn : Nat) : State :=
  let hit := (s.armed fn).filter (s.holds fn)
  if hit.isEmpty then s
  else
    let rest := (s.armed fn).filter (fun x => !s.holds fn x)
    s.setNet { s.net with triggers := Store.set [] s.net.triggers fn rest
                          fired := s.net.fired ++ hit.map (fun x => (fn, x.bytes, x.part)) }

/-- A counter change (R298). -/
def State.setCounter (s : State) (fn n : Nat) (v : W32) : State :=
  (s.setNet { s.net with tc := Store.set 0 s.net.tc (fn * 64 + n) v }).evalSlots fn

/-- CNTADD's addition, saturating at 2³² − 1 (R297). -/
def State.addCounter (s : State) (fn n v : Nat) : State :=
  s.setCounter fn n (BitVec.ofNat 32 (Nat.min ((s.counter fn n).toNat + v) (2 ^ 32 - 1)))

end Sys2Proof.Machine
end

