-- ==== Sys2Proof/Machine/Rings.lean ====
section
/-! DEFINITION. Completion rings and service rings (R41-R44, R216, R217): usable rings, records queued in order, and the
writing of one record. -/

namespace Sys2Proof.Machine

/-- Record kinds and statuses (R42). -/
def kindGridDone : Nat := 1
def kindLaunchReject : Nat := 2
def kindCopyDone : Nat := 3
def kindSignal : Nat := 4
def kindServiceReply : Nat := 5
def kindCollective : Nat := 6
def kindGridFault : Nat := 7
def stOk : Nat := 0
def stBadDescriptor : Nat := 1
def stBadClass : Nat := 2
def stNestDepth : Nat := 3
def stClassExceeds : Nat := 4
def stBadPool : Nat := 5
def stNoResidency : Nat := 6
def stFaulted : Nat := 0x10
def stSaturated : Nat := 0x11
def stContextLost : Nat := 0x12

/-- A ring header as read (R43). -/
structure RingHead where
  head : Nat
  tail : Nat
  log : Nat
  deriving DecidableEq, Repr

/-- The ring is full (R44): HEAD is ahead of TAIL by all its records, or by more where software has shrunk it. A TAIL ahead of
HEAD leaves it empty. -/
def RingHead.full (h : RingHead) : Bool :=
  let d := (h.head + 2 ^ 64 - h.tail) % 2 ^ 64
  decide (2 ^ h.log ≤ d) && decide (d < 2 ^ 63)

/-- 64 bytes that meet R43. -/
def ringHeadOf (bs : List Byte) : Option RingHead :=
  let l := ofLE ((bs.drop 16).take 1)
  if 4 ≤ l ∧ l ≤ 16 ∧ (bs.drop 17).all (· == 0) then
    some ⟨ofLE (bs.take 8), ofLE ((bs.drop 8).take 8), l⟩
  else none

/-- A ring's header, when it can be read and meets R43. -/
def State.ringHead (s : State) (fn part : Nat) (ring : W64) : Option RingHead :=
  match deviceRead s.ctl s.mem fn part ring.toNat 64 .read with
  | .ok bs _ => ringHeadOf bs
  | _ => none

/-- The ring is usable (R32). -/
def State.ringUsable (s : State) (fn part : Nat) (ring : W64) : Bool :=
  ring.toNat % 64 == 0 && (s.ringHead fn part ring).isSome

/-- The 32 bytes of a completion record (R41). -/
def recBytes (r : Rec) (seq : Nat) (time : Nat) : List Byte :=
  toLE 1 r.kind ++ toLE 1 r.status ++ toLE 2 seq ++ toLE 4 r.tag.toNat ++ toLE 8 r.value.toNat ++
    toLE 8 r.handle.toNat ++ toLE 8 time

/-- A service record with SEQ and TIME filled in (R217). -/
def svcBytes (body : List Byte) (seq time : Nat) : List Byte :=
  body.take 8 ++ toLE 8 seq ++ (body.drop 16).take 32 ++ toLE 8 time ++ body.drop 56

/-- Completion records are held while a takeover awaits validation (R255); service records are not. The model's choice (log 102): they
are written while DOWN is set and HOLD is not. -/
def State.recsHeld (s : State) : Bool := bit s.ctl.schedStat.toNat 30

/-- MSI-X vectors of a function (R286). -/
def vectorsOf (fn : Nat) : Nat := if fn = 0 then 256 else 64

/-- A graph node's work is over (R184). -/
def State.nodeOver (s : State) (u n : Nat) : State :=
  s.onTeam u (fun t => { t with walker := t.walker.map (fun (g : Graph) =>
    { g with nodes := g.nodes.mapIdx (fun i x => if i = n then { x with finished := x.running } else x) }) })

/-- The address of a record's place, behind those of its ring that are held before it (R44). -/
def State.recAt (s : State) (r : Rec) (h : RingHead) : Nat :=
  let size := match r.service with | some _ => 128 | none => 32
  r.ring.toNat + 64 + size * ((h.head + (s.queues.held.filter (fun x => x.fn == r.fn && x.ring == r.ring)).length) % 2 ^ h.log)
/-- What holds back the accesses that write a record: its ring's header, and its place. -/
def State.recStop (s : State) (r : Rec) : Option (Option Nat) :=
  (deviceRead s.ctl s.mem r.fn r.part r.ring.toNat 64 .read).stop <|>
  (match s.ringHead r.fn r.part r.ring with
    | some h => (writeRegistry s.ctl s.mem r.fn r.part (s.recAt r h) .write (toLE 32 0)).stop
    | none => none)

/-- A VF's accesses to the host and its MSI-X are refused: it is disabled, or its TDI is in ERROR (R273). -/
def State.hostShut (s : State) (fn : Nat) : Bool := fn != 0 && (s.ctl.tdiOf fn == 3 || !s.ctl.fnOn fn)
/-- A ring stands in host memory: its address translates to a host frame (R125, R126). An address that no page maps is that of no
ring. -/
def State.hostRing (s : State) (fn part : Nat) (ring : W64) : Bool :=
  match leafAt s.ctl s.mem fn part ring.toNat with
  | some l => leafHost l
  | none => false

/-- What follows a record's write: a grid is reported, a node's work is over, a trigger counter rises (R37, R184, R295). -/
def State.recorded (s : State) (r : Rec) : State :=
  let s1 := match r.grid with
    | some g => s.onGrid g (fun x => { x with reported := true })
    | none => s
  let s2 := match r.node with
    | some (u, n) => s1.nodeOver u n
    | none => s1
  match r.trig with
  | some n => s2.addCounter r.fn n 1
  | none => s2

/-- One record written (R44): at index HEAD, then HEAD + 1 as a release. None while the ring is full or its header
cannot be read or fails R43. -/
def State.writeRec (s : State) (r : Rec) : Option State :=
  match s.ringHead r.fn r.part r.ring with
  | none => none
  | some h =>
    let n := 2 ^ h.log
    if h.full then none
    else
      let size := match r.service with | some _ => 128 | none => 32
      let at_ := r.ring.toNat + 64 + size * (h.head % n)
      let body := match r.service with
        | some b => svcBytes b h.head s.refTime
        | none => recBytes r (h.head % 65536) s.refTime
      match writeRegistry s.ctl s.mem r.fn r.part at_ .write body with
      | .ok _ m1 =>
        match writeRegistry s.ctl m1 r.fn r.part r.ring.toNat .write (toLE 8 ((h.head + 1) % 2 ^ 64)) with
        | .ok _ m2 =>
          let s4 := (s.setMem m2).recorded r
          let s5 := match r.answer with
            | some (fn, part, a, v) => (match writeRegistry s4.ctl s4.mem fn part a .write [v] with
              | .ok _ m3 => s4.setMem m3
              | _ => s4)
            | none => s4
          some (match r.msix with
            | some v => if v < vectorsOf r.fn && !s.hostShut r.fn then s5.emit (.msix r.fn v) else s5
            | none => s5)
        | _ => none
      | _ => none

/-- The next record of a ring is written, if it can be (R44). -/
def State.flushRing (s : State) (fn : Nat) (ring : W64) : State :=
  match s.queues.held.find? (fun r => r.fn == fn && r.ring == ring) with
  | none => s
  | some r =>
    if s.recsHeld && r.service.isNone then s
    else
      match s.writeRec r with
      | none => s
      | some s' => s'.setQueues { s'.queues with held := s'.queues.held.erase r }

/-- Held records of a ring written, at most `n` of them. -/
def State.flushAll (s : State) (fn : Nat) (ring : W64) : Nat → State
  | 0 => s
  | n + 1 => (s.flushRing fn ring).flushAll fn ring n
/-- A record joins the records of its ring, in order, and is written at once where it can be (R44); else it is held. One for a host
ring of a VF that host memory is closed to is discarded (R273). -/
def State.pushRec (s : State) (r : Rec) : State :=
  if s.hostShut r.fn && s.hostRing r.fn r.part r.ring then s.recorded r
  else
  let s1 := s.setQueues { s.queues with held := s.queues.held ++ [r] }
  s1.flushAll r.fn r.ring (s1.queues.held.filter (fun x => x.fn == r.fn && x.ring == r.ring)).length

/-- The rings that hold records read their headers again, and write what they can (R44). -/
def State.retryRings (s : State) : State := s.queues.held.foldl (fun (a : State) r => a.flushRing r.fn r.ring) s

/-- A plain completion record. -/
def mkRec (fn part : Nat) (ring : W64) (kind status : Nat) (tag : W32) (value handle : W64) : Rec :=
  { fn := fn, part := part, ring := ring, kind := kind, status := status, tag := tag, value := value, handle := handle
    msix := none, service := none, grid := none, node := none, trig := none, answer := none }

/-- A packet's record, where its RING is not 0 (R251). -/
def State.report (s : State) (r : Rec) : State := if r.ring = 0 then s else s.pushRec r
/-- The record of an operation, or of a team's graph, by its name: discarded where its function was stopped meanwhile and the ring
stands in host memory (R273). -/
def State.sendRec (s : State) (id : Nat) (r : Rec) : State :=
  if s.eng.cut.contains id && s.hostRing r.fn r.part r.ring then s.recorded r else s.pushRec r
/-- The same for a packet's. -/
def State.reportOf (s : State) (id : Nat) (r : Rec) : State := if r.ring = 0 then s else s.sendRec id r

/-- A service record's body, SEQ and TIME still zero (R217). -/
def svcBody (source code cls fn : Nat) (team : W64) (thread engine : Nat) (addr pos : W64) (req : List Byte) : List Byte :=
  toLE 1 source ++ toLE 1 code ++ toLE 1 0 ++ toLE 1 cls ++ toLE 2 fn ++ toLE 2 0 ++ toLE 8 0 ++
    toLE 8 team.toNat ++ toLE 4 thread ++ toLE 4 engine ++ toLE 8 addr.toNat ++ toLE 8 pos.toNat ++ toLE 8 0 ++
    toLE 8 0 ++ (if req.isEmpty then toLE 64 0 else req)

/-- SVC_RING of a partition: its BASE and EN (R216). -/
def State.svcBase (s : State) (part : Nat) : W64 := BitVec.ofNat 64 (bits (s.ctl.svcRingOf part).toNat 6 51 * 64)
def State.svcOn (s : State) (part : Nat) : Bool := bit (s.ctl.svcRingOf part).toNat 0

/-- A service record queued for a partition's service ring; the ring is translated under the PF (R216). -/
def State.pushSvc (s : State) (part : Nat) (body : List Byte) : State :=
  s.pushRec { mkRec 0 part (s.svcBase part) 0 0 0 0 0 with service := some body }

/-- The grid handle or team handle already given out, or a fresh one (R34). -/
def State.handleFor (s : State) (x : Target) : W64 × State :=
  match s.work.handles.find? (fun e => e.2 == x) with
  | some e => (e.1, s)
  | none =>
    let h := match x with
      | .grid _ => Config.gridHandle s.fresh
      | .team _ _ => Config.teamHandle s.fresh
    (h, (s.setWork { s.work with handles := s.work.handles ++ [(h, x)] }).bump 1)

/-- What a handle names: its seal verifies exactly when the device made it (R34). The null handle names nothing. -/
def State.target? (s : State) (h : W64) : Option Target :=
  if h = 0 then none else (s.work.handles.find? (fun e => e.1 == h)).map (·.2)

/-- The partition of the grid a handle names. -/
def State.targetPart (s : State) (x : Target) : Option Nat :=
  match x with
  | .grid g => (s.grid? g).map (·.part)
  | .team g _ => (s.grid? g).map (·.part)

/-- A handle of this partition, sealed; none faults ACCESS (R34). -/
def State.targetIn (s : State) (part : Nat) (h : W64) : Option Target :=
  match s.target? h with
  | none => none
  | some x => if s.targetPart x = some part then some x else none

/-- The team of a grid with a linear index, if it has an object of its own. -/
def State.teamOf (s : State) (g lin : Nat) : Option Team := s.teams.find? (fun t => t.grid == g && t.lin == lin)

/-- The team has ended: an object that has ended, or no object and an index already started (R35). -/
def State.teamEnded (s : State) (g lin : Nat) : Bool :=
  match s.teamOf g lin with
  | some t => t.phase == .retiring || t.phase == .ended
  | none => match s.grid? g with
    | some x => x.retired || decide (lin < x.nextLin)
    | none => true

/-- The grid has retired (R37). -/
def State.gridRetired (s : State) (g : Nat) : Bool :=
  match s.grid? g with
  | some x => x.retired
  | none => true

/-- An ENDED wait on the target is complete (R35). -/
def State.targetEnded (s : State) : Target → Bool
  | .grid g => s.gridRetired g
  | .team g lin => s.teamEnded g lin

end Sys2Proof.Machine
end

