-- ==== Sys2Proof/Machine/Pair.lean ====
section
/-! DEFINITION. The pair tables (R228-R231, R240-R242): handles, their checks, and the changes of a slot's state. -/

namespace Sys2Proof.Machine

def hFill (h : W64) : Bool := bit h.toNat 63
def hDevice (h : W64) : Nat := bits h.toNat 52 11
def hDie (h : W64) : Nat := bits h.toNat 49 3
def hSlot (h : W64) : Nat := bits h.toNat 35 14
def hGen (h : W64) : Nat := bits h.toNat 19 16
def hRights (h : W64) : Nat := bits h.toNat 16 3
def hSeal (h : W64) : BitVec 16 := h.extractLsb' 0 16
/-- Bits 63:16, which the seal covers. -/
def hBody (h : W64) : BitVec 48 := h.extractLsb' 16 48

def State.slot (s : State) (die n : Nat) : Slot := Store.get Slot.zero s.pairs.slots (die * 16384 + n)
def State.setSlot (s : State) (die n : Nat) (x : Slot) : State :=
  s.setPairs { s.pairs with slots := Store.set Slot.zero s.pairs.slots (die * 16384 + n) x }
def State.sealKey (s : State) (die : Nat) : W64 := Store.get 0 s.pairs.seals die

/-- A handle of a slot, sealed (R230). -/
def State.mkHandle (s : State) (fill : Bool) (device die slot gen rights : Nat) : W64 :=
  let body : BitVec 48 := BitVec.ofNat 48
    ((if fill then 2 ^ 47 else 0) + device % 2048 * 2 ^ 36 + die % 8 * 2 ^ 33 + slot % 16384 * 2 ^ 19 +
      gen % 65536 * 8 + rights % 8)
  body ++ Config.cmac (s.sealKey die) body

/-- What a use needs (R231 orders 6 and 7). -/
inductive Need where
  | fill
  | seeRead
  | seeFree
  | either
  deriving DecidableEq, Repr

inductive HCheck where
  | ok (die slot : Nat)
  | bad (c : Code)
  /-- A slot of another device of the domain: checked there (R247). -/
  | remote (dev : Nat)
  deriving DecidableEq, Repr

/-- The peer table of a partition (R290). -/
def State.peersOf (s : State) (part : Nat) : List Nat := Store.get [] s.net.peers part

/-- The checks of a handle, in the order of R231. -/
def State.checkHandle (s : State) (part : Nat) (h : W64) (tagged : Bool) (need : Need) : HCheck :=
  if h = 0 then .bad .access
  else if hDevice h ≠ s.ctl.devnum part then
    if (s.peersOf part).contains (hDevice h) then .remote (hDevice h) else .bad .access
  else
    let x := s.slot (hDie h) (hSlot h)
    if 4 ≤ hDie h then .bad .access
    else if x.part ≠ part then .bad .access
    else if hSeal h ≠ Config.cmac (s.sealKey (hDie h)) (hBody h) then .bad .access
    else if x.gen ≠ hGen h || x.withdrawn then .bad .staleHandle
    else
      let kindOk := match need with
        | .fill => hFill h && tagged
        | .seeRead => !hFill h
        | .seeFree => !hFill h
        | .either => !hFill h || tagged
      let rightOk := match need with
        | .seeRead => bit (hRights h) 0
        | .seeFree => bit (hRights h) 2
        | _ => true
      if !kindOk then .bad .access
      else if !rightOk then .bad .access
      else .ok (hDie h) (hSlot h)

/-- Every see-load parked on the slot unparks, its core having acquired at DEVICE when the slot sealed (R240, R241). -/
def State.unparkSee (s : State) (die n : Nat) (sealed : Bool) : State :=
  s.teams.foldl (fun (a : State) t =>
    let hit := (List.range t.threads.length).filter (fun i =>
      match (t.thread i).st with
      | .parked (.see d k _ _) => d == die && k == n
      | _ => false)
    if hit.isEmpty then a
    else
      let a1 := if sealed then a.acquire t.core else a
      a1.onTeam t.uid (fun u => hit.foldl (fun v i => v.unpark i none) u)) s

/-- FILLING to SEALED (R228, R240). -/
def State.sealSlot (s : State) (die n : Nat) : State :=
  let x := s.slot die n
  if x.st = .filling then (s.setSlot die n { x with st := .sealed, holder := .none }).unparkSee die n true else s

/-- FILLING to ABANDONED (R241). -/
def State.abandonSlot (s : State) (die n : Nat) : State :=
  let x := s.slot die n
  if x.st = .filling then (s.setSlot die n { x with st := .abandoned, holder := .none }).unparkSee die n false else s

/-- SEALED or ABANDONED to FREE, the generation rising; a generation that is used up withdraws the slot (R242). -/
def State.freeSlot (s : State) (die n : Nat) : State :=
  let x := s.slot die n
  if x.gen = 65535 then s.setSlot die n { x with st := .free, holder := .none, withdrawn := true }
  else s.setSlot die n { x with st := .free, holder := .none, gen := x.gen + 1 }

/-- Slots, by key, that satisfy a test. -/
def State.slotsWhere (s : State) (p : Slot → Bool) : List Nat := (s.pairs.slots.filter (fun e => p e.2)).map (·.1)

/-- The home device of a fill handle is told where the handle stands, or that it exists no more (R241, R245); nothing where the
handle is of this device. -/
def State.tellHome (s : State) (part : Nat) (h : W64) (acc : RemoteAccess) : State :=
  if !hFill h || hDevice h = s.ctl.devnum part then s
  else (s.bump 1).emit (.remote part (hDevice h) s.fresh acc)

/-- A fill handle ceases to exist without a drop (R241): its slot, here or at its home device, is abandoned. -/
def State.loseFill (s : State) (part : Nat) (h : W64) : State :=
  if hDevice h = s.ctl.devnum part then
    (if (s.slot (hDie h) (hSlot h)).gen = hGen h then s.abandonSlot (hDie h) (hSlot h) else s)
  else s.tellHome part h (.abandon h)

/-- Slots whose fill handle a holder has are abandoned (R241). -/
def State.abandonAll (s : State) (h : Holder) : State :=
  (s.slotsWhere (fun x => x.holder == h && x.st == .filling)).foldl
    (fun (a : State) k => a.abandonSlot (k / 16384) (k % 16384)) s

/-- The scratchpad tiles of a team are freed with its scratchpad, a FILLING one abandoned first (R242). -/
def State.freeScratchTiles (s : State) (u : Nat) : State :=
  (s.slotsWhere (fun x => x.scratch && x.team == u && x.st != .free)).foldl
    (fun (a : State) k => (a.abandonSlot (k / 16384) (k % 16384)).freeSlot (k / 16384) (k % 16384)) s

/-- Slots of a die that a partition holds in a state other than FREE (R229). -/
def State.slotsHeld (s : State) (part die : Nat) : Nat :=
  (s.pairs.slots.filter (fun e => e.1 / 16384 == die && e.2.part == part && e.2.st != .free)).length

/-- The lowest-numbered FREE slot of a die that is not withdrawn. -/
def State.freeSlotOf (s : State) (die : Nat) : Option Nat :=
  (List.range 16384).find? (fun n => (s.slot die n).st == .free && !(s.slot die n).withdrawn)


/-- A new tile's range meets the tile of a non-FREE slot, as R235 judges it. -/
def State.tileOverlap (s : State) (die : Nat) (scratch : Bool) (team base size : Nat) : Bool :=
  s.pairs.slots.any (fun e => e.1 / 16384 == die && e.2.st != .free && e.2.scratch == scratch &&
    (!scratch || e.2.team == team) && overlap base size e.2.base.toNat e.2.size)

/-- The tile of a slot as an access of its creator's (R237, R238): in global space the function is the creating one. `core`: of
the thread that reads, none for another device's. -/
def State.tileRead (s : State) (core : Option Nat) (x : Slot) (off n : Nat) : Got (List Byte) :=
  if x.scratch then
    match s.team? x.team with
    | some t => .ok (t.scratch.bytes (x.base.toNat + off) n) s.mem
    | none => .ok (toLE n 0) s.mem
  else match core with
    | some k => readFresh s.ctl s.mem k x.fn x.part (x.base.toNat + off) n .read
    | none => readRegistry s.ctl s.mem x.fn x.part (x.base.toNat + off) n .read

/-- The answer to a peer's access that faults: the code and the fault address (R247). -/
def State.answerFault (s : State) (part : Nat) (c : Code) (addr : W64) : State :=
  s.emit (.answer part c.num (toLE 8 addr.toNat))

/-- A peer's see-load that can be answered now is (R238, R247): the slot is no longer filling. -/
def State.answerSee (s : State) (w : RemoteSee) : State :=
  let drop (a : State) : State := a.setNet { a.net with sees := a.net.sees.filter (· != w) }
  let x := s.slot (hDie w.h) (hSlot w.h)
  let at_ : W64 := x.base + BitVec.ofNat 64 w.off
  if x.gen ≠ hGen w.h || x.withdrawn || x.st = .free then (drop s).answerFault w.part .staleHandle w.h
  else match x.st with
    | .filling => s
    | .abandoned => (drop s).answerFault w.part .abandonedFill 0
    | _ => if !w.data then (drop s).emit (.answer w.part 0 []) else match s.tileRead none x w.off w.n with
      | .ok bs m => (drop (s.setMem m)).emit (.answer w.part 0 bs)
      | .fault c => (drop s).answerFault w.part c at_
      | .poisoned => (drop s).answerFault w.part .uncorrectable at_
      | _ => s

def State.answerSees (s : State) : State := s.net.sees.foldl (fun (a : State) w => a.answerSee w) s

end Sys2Proof.Machine
end

