-- ==== Sys2Proof/Machine/Cycles.lean ====
section
/-! DEFINITION. Core cycles (R22, R226, R257, R275-R284): which of them are issue cycles, what power and the Canary do to
them, and the counts of the teams that they drive. -/

namespace Sys2Proof.Machine

/-- The issue slices: 0 scalar, 1-4 vector, 5 matrix; CLK_RATIO's fields stand in that order (R275). -/
def sliceScalar : Nat := 0
def sliceMatrix : Nat := 5

/-- The cap that a throttle level sets on a slice (R279). -/
def capOf (level slice : Nat) : Nat :=
  if slice = 5 then (if level ≤ 3 then 8 else if level ≤ 5 then 4 else 2)
  else if slice = 0 then (if level ≤ 5 then 8 else 4)
  else if level ≤ 1 then 8 else if level = 2 then 6 else if level ≤ 4 then 4 else 2

/-- The effective ratio of a slice of a core (R276). -/
def Core.eff (c : Core) (slice : Nat) : Nat := Nat.min (bits c.ratio.toNat (4 * slice) 4) (capOf c.level slice)
/-- Core cycle `j` is an issue cycle at ratio `r` (R276). -/
def issueCycle (r j : Nat) : Bool := decide (j % 8 * r / 8 < (j % 8 + 1) * r / 8)
def Core.issues (c : Core) (slice : Nat) : Bool := issueCycle (c.eff slice) c.cyc
/-- Half issue is in force (R283). -/
def Core.halved (c : Core) : Bool := decide (1 < c.half)
/-- The core's present cycle is stretched (R283). -/
def Core.stretched (c : Core) : Bool := decide (1 < c.stretch)
/-- Half-array throttle (R120, R279). -/
def Core.halfArray (c : Core) : Bool := decide (1 ≤ c.level)

/-- A cap holds some issue slice of the core below the ratio that software gave it (R280). -/
def Core.capped (c : Core) : Bool := (List.range 6).any (fun x => decide (capOf c.level x < bits c.ratio.toNat (4 * x) 4))
/-- A team of the core is power-throttled in its present cycle (R280). -/
def State.throttled (s : State) (k : Nat) : Bool :=
  let c := s.core k
  decide (0 < s.ctl.level (k / 24)) || c.capped || c.stretched || c.halved
/-- Of the core's next `n` cycles, those that the caps do not leave without an issue cycle: one that has none at the ratios that
software gave counts all the same (R280). -/
def Core.issuesIn (c : Core) (n : Nat) : Nat :=
  let some (r : Nat → Nat) (j : Nat) : Bool := (List.range 6).any (fun x => issueCycle (r x) (c.cyc + j))
  let has (j : Nat) : Bool := some c.eff j || !some (fun x => bits c.ratio.toNat (4 * x) 4) j
  n / 8 * ((List.range 8).filter has).length + ((List.range (n % 8)).filter has).length

/-- A thread's state lets the watchdog count (R226). -/
def Thread.counts (x : Thread) : Bool := x.st == .waiting || x.st == .resuming || x.st == .inBatch

/-- A thread makes its block eligible (R47). -/
def Thread.ready (x : Thread) : Bool := x.st == .waiting || x.st == .resuming
/-- A team has an eligible block (R47). -/
def Team.hasEligible (t : Team) : Bool := t.threads.any Thread.ready

/-- A batch of the team is held at an access queued at a home agent (R137, R226). -/
def State.queuedAtHome (s : State) (u : Nat) : Bool :=
  s.mem.moves.any (fun m => m.queue.any (fun e => match e.1 with | .batch v _ => v == u | _ => false))

/-- The word the issuing batch stands at, with its class: none before a clause start. -/
def Batch.word (b : Batch) : Option (Cls × W64) :=
  match b.buf with
  | none => none
  | some cl =>
    match (Header.ofWord cl.header).clause, cl.words[b.instr]? with
    | some x, some w => some (x, w)
    | _, _ => none

/-- The counts that `n` core cycles in one and the same condition drive, from the cycle the core stands at: watchdogs (R226), and
the wait for an issue (R189, R280), which takes FAIR_WINDOW as it stands when it begins (R190). -/
def State.countCycles (s : State) (k n : Nat) : State :=
  let slow := s.throttled k
  let waits := if slow then (s.core k).issuesIn n else n
  let fair := bits (s.ctl.progressOf (k / 24)).toNat 0 16
  s.teams.foldl (fun (a : State) t =>
    if t.placed && t.core == k && t.phase == .live then
      let up := (t.threads.any Thread.counts && !slow && !t.batches.any (·.full)) || s.queuedAtHome t.uid
      a.onTeam t.uid (fun x =>
        { x with
          wdog := if up then x.wdog + n else x.wdog
          starve := if x.hasEligible then x.starve + waits else 0
          fair := if x.starve = 0 then fair else x.fair })
    else a) s

/-- Counts reset in this step take WDOG_CTL as it now stands (R225). -/
def State.latchWdog (s : State) : State :=
  s.teams.foldl (fun (a : State) t =>
    if t.wdogNew then a.onTeam t.uid (fun x => { x with wdogNew := false, wdogCtl := a.ctl.wdogOf (x.core / 24) }) else a) s

/-- An alarm acts (R283): six stretched cycles, 64 under half issue, one more alarm counted. -/
def State.alarmNow (s : State) (k : Nat) : State :=
  let c := s.core k
  if c.alarm then
    let s1 := s.setCore k { c with alarm := false, stretch := 7, half := 65 }
    let v := s1.ctl.canaryOf k
    let n := bits v.toNat 16 16
    s1.setCtl { s1.ctl with canary := Store.set 0xC0 s1.ctl.canary k (put32 v 16 16 (if n = 65535 then n else n + 1)) }
  else s

/-- The lanes that the core's instruction processes in its present cycle (R276, R283): in an issue cycle of its slice 32, on a vector
slice under half issue 16. -/
def Core.lanesNow (c : Core) : Nat :=
  if c.issues c.job.slice then Nat.min c.job.lanes (if c.halved && c.job.slice != sliceScalar then 16 else 32) else 0

/-- One core cycle of core `k` (R275, R282, R283): the instruction that occupies a slice does its work. A clause that it completes has
reset the watchdog at its end (R226). -/
def State.tickCore (s0 : State) (k : Nat) : State :=
  let s1 := (s0.alarmNow k).countCycles k 1
  let j := (s1.core k).job
  let n := (s1.core k).lanesNow
  let s := if j.team != 0 && n != 0 && n == j.lanes then s1.onTeam (j.team - 1) (fun t => { t with wdog := 0 }) else s1
  let c := s.core k
  let mx := decide (0 < c.matrix) && c.issues sliceMatrix
  let e := j.weight * n + (if mx then (if c.halfArray then 256 else 512) else 0)
  let thr := bits (s.ctl.canaryOf k).toNat 0 10
  let old := c.hist.getD 3 0
  let alarm := decide (thr ≠ 0) && decide (old + thr < e)
  let cyc := c.cyc + 1
  s.setCore k
    { c with
      cyc := cyc, hist := (e :: c.hist).take 4, alarm := alarm
      stretch := if c.stretch ≤ 1 then c.stretch else c.stretch - 1
      half := if c.half ≤ 1 then c.half else c.half - 1
      matrix := if mx then c.matrix - 1 else c.matrix
      at_ := c.at_ + (if c.stretched then 500 else 250)
      ratio := if cyc % 8 = 0 then s.ctl.clkRatioOf k else c.ratio
      level := if cyc % 8 = 0 then s.ctl.level (k / 24) else c.level
      marks := if cyc % 65536 = 0 then [] else c.marks
      job := { j with lanes := j.lanes - n } }

/-- Idle cycles of the core are all alike: no instruction, tile operation, slope, stretch, half issue or new ratio is to come. -/
def State.quiet (s : State) (k : Nat) : Bool :=
  let c := s.core k
  c.matrix == 0 && c.job.lanes == 0 && !c.alarm && !c.stretched && !c.halved && c.hist.all (· == 0) &&
    c.ratio == s.ctl.clkRatioOf k && c.level == s.ctl.level (k / 24)

/-- The cycles of a quiet core up to a time, all at once. -/
def State.coast (s0 : State) (k t : Nat) : State :=
  let c := s0.core k
  let n := (t - c.at_ + 249) / 250
  if n = 0 then s0
  else
    (s0.countCycles k n).setCore k
      { c with
        cyc := c.cyc + n, at_ := c.at_ + 250 * n
        marks := if c.cyc / 65536 < (c.cyc + n) / 65536 then [] else c.marks }

/-- A core's idle cycles up to a time: one by one until it is quiet, at most `n` of them. -/
def State.idleTo (k t : Nat) : Nat → State → State
  | 0, s => s.coast k t
  | n + 1, s => if t ≤ (s.core k).at_ || s.quiet k then s.coast k t else State.idleTo k t n (s.tickCore k)

/-- A ratio or level that comes before a cycle of a multiple of 8 has begun is in force from it on (R275, R279). -/
def State.relatch (s : State) (k : Nat) : State :=
  let c := s.core k
  if c.cyc % 8 = 0 ∧ s.sched.now < c.at_ then s.setCore k { c with ratio := s.ctl.clkRatioOf k, level := s.ctl.level (k / 24) } else s

/-- The core's cycles pass up to the present time (R22); they count from the last start (R285). No more than eight cycles pass for
each issue cycle its slices are still occupied for, and 64 under half issue. -/
def State.catchUp (s0 : State) (k : Nat) : State :=
  let c := s0.core k
  let s := if c.at_ < s0.sched.startAt then s0.setCore k { c with at_ := s0.sched.startAt } else s0
  (if s.sched.now ≤ (s.core k).at_ then s else s.idleTo k s.sched.now (8 * c.matrix + 8 * c.job.lanes + 160)).relatch k

end Sys2Proof.Machine
end

