-- ==== Sys2Proof/Machine/Barrier.lean ====
section
/-! DEFINITION. Barriers (R57, R175-R180, R281): members, arrivals, pending bytes, openings and the release waves. -/

namespace Sys2Proof.Machine

def Team.bar (t : Team) (b : Nat) : Bar := t.bars.getD b Bar.zero
def Team.setBar (t : Team) (b : Nat) (x : Bar) : Team := { t with bars := listPut t.bars b x }

def State.netBar (s : State) (part b : Nat) : Bar := Store.get Bar.zero s.net.bars (part * 256 + b)
def State.setNetBar (s : State) (part b : Nat) (x : Bar) : State :=
  s.setNet { s.net with bars := Store.set Bar.zero s.net.bars (part * 256 + b) x }

/-- Live teams that are members of a network barrier, by core then place (R175, R180). -/
def State.netTeams (s : State) (part b : Nat) : List Team :=
  (List.range 288).flatMap (fun k => (List.range 4).flatMap (fun p =>
    s.teams.filter (fun t => t.core == k && t.place == p && t.phase == .live && t.netMask.contains b &&
      (s.gridOf t).part == part)))

/-- Member crews of a network barrier (R175), in the order of R180. -/
def State.netMembers (s : State) (part b : Nat) : List (Nat × Nat) :=
  (s.netTeams part b).flatMap (fun t => t.liveCrews.map (fun c => (t.uid, c)))

/-- The waves in which crews leave an opening: crew k leaves with wave k div WAVE_SIZE (R281). -/
def wavesOf (ctl : W32) (cyc b gen : Nat) (net : Bool) (crews : List (Nat × Nat)) : List Wave :=
  let size := bits ctl.toNat 0 6
  let slope := bits ctl.toNat 8 8
  crews.mapIdx (fun k e => ⟨cyc + k / (if size = 0 then 1 else size) * slope, e.1, e.2, net, b, gen⟩)

/-- Threads of a crew that an opening releases: parked at the barrier at a generation before the new one. -/
def Team.parkedAt (t : Team) (net : Bool) (b crew gen : Nat) : List Nat :=
  (List.range 32).filterMap (fun j =>
    let i := 32 * crew + j
    match (t.threads.getD i { Thread.blank with st := .ended }).st with
    | .parked (.bar x g _) => if !net && x == b && g < gen then some i else none
    | .parked (.netBar x g _) => if net && x == b && g < gen then some i else none
    | _ => none)

def Park.target : Park → Nat
  | .bar _ _ t => t
  | .netBar _ _ t => t
  | .waitf _ _ t => t
  | _ => 0

/-- A crew leaves: its released threads become waiting at their targets (R180). -/
def Team.releaseCrew (t : Team) (w : Wave) : Team :=
  (t.parkedAt w.net w.b w.crew w.gen).foldl (fun (a : Team) i =>
    match (a.thread i).st with
    | .parked p => a.unparkTo i p.target
    | _ => a) t

/-- The crews whose wave is due on a core leave it: those of the earliest cycle. -/
def State.releaseWave (s : State) (core : Nat) : State :=
  let k := s.core core
  match k.waves.map (·.due) with
  | [] => s
  | d :: ds =>
    let least := ds.foldl Nat.min d
    let s1 := s.setCore core { k with waves := k.waves.filter (fun w => w.due != least) }
    (k.waves.filter (fun w => w.due == least)).foldl (fun (a : State) w => a.onTeam w.team (·.releaseCrew w)) s1

/-- The cycle a core is in at the present time, a stretched one counting as one (R281): where it has been brought up to now, the
cycle it stands at begins now or is the next. -/
def State.cycNow (s : State) (k : Nat) : Nat :=
  let c := s.core k
  if c.at_ ≤ s.sched.now then c.cyc + (s.sched.now - c.at_) / (if c.stretched then 500 else 250) else c.cyc - 1

/-- Waves of an opening given to a core, whose cycles have passed up to it; those of the opening cycle leave at once. -/
def State.openOn (s : State) (core : Nat) (acquire : Bool) (ws : List Wave) : State :=
  if ws.isEmpty then s
  else
    let s1 := if acquire then s.acquire core else s
    let k := s1.core core
    let s2 := s1.setCore core { k with waves := k.waves ++ ws.filter (fun w => w.due != s.cycNow core) }
    (ws.filter (fun w => w.due == s.cycNow core)).foldl (fun (a : State) w => a.onTeam w.team (·.releaseCrew w)) s2

/-- Something has reached a barrier in the present cycle: it is tested when the cycle ends (R178). -/
def State.reachBar (s : State) (net : Bool) (u b : Nat) : State :=
  if s.work.tests.contains (net, u, b) then s else s.setWork { s.work with tests := s.work.tests ++ [(net, u, b)] }

/-- Lines that have landed in the cycle lower the pending count (R169, R177): after the cycle's BEXP additions (R178). -/
def Bar.land (x : Bar) : Bar :=
  if x.lowered = 0 then x
  else if x.lowered ≤ x.pending then { x with pending := x.pending - x.lowered, counted := true, lowered := 0 }
  else { x with pending := 0, under := true, counted := true, lowered := 0 }

/-- The cycle's landed lines of a team barrier. -/
def Team.landBar (t : Team) (b : Nat) : Team := if (t.bar b).lowered = 0 then t else t.setBar b (t.bar b).land

/-- A team barrier opens when every member crew has arrived and no byte is pending (R178). A team that has been saved leaves
no waves: its crews are released at once, to become waiting at restore (R281). -/
def State.tryOpen (s00 : State) (u b : Nat) : State :=
  match s00.team? u with
  | none => s00
  | some t0 =>
    let s0 := s00.catchUp t0.core
    let t := ((s0.team? u).getD t0).landBar b
    let s := s0.setTeam t
    let x := t.bar b
    let members := t.liveCrews
    if members.isEmpty || x.pending != 0 || !members.all (fun c => x.arrived.contains (0, c)) then s
    else
      let gen := x.gen + 1
      let s1 := s.setTeam (t.setBar b { x with gen := gen, arrived := [], counted := false })
      let crews := members.filter (fun c => !(t.parkedAt false b c gen).isEmpty)
      let ws := wavesOf (s.ctl.waveOf t.core) (s.cycNow t.core) b gen false (crews.map (fun c => (u, c)))
      if t.placed then s1.openOn t.core x.counted ws
      else ws.foldl (fun (a : State) w => a.onTeam u (·.releaseCrew w)) s1

/-- Membership changes that waited for an opening take effect (R176). -/
def State.applyNet (s : State) (b : Nat) : List (Nat × Bool × Nat) → State
  | [] => s
  | (u, join, _) :: rest =>
    State.applyNet (s.onTeam u (fun t => { t with
      netMask := if join then (if t.phase != .live || t.netMask.contains b then t.netMask else b :: t.netMask)
        else t.netMask.filter (· != b) })) b rest

/-- A network barrier opens on every member core (R175, R178, R180): its arrivals and its releases synchronise at PART (R148),
so every member core acquires. Changes made in the opening's cycle come after it (R376): they wait for the next opening, unless no
member crew is left. A member team that is saved leaves no waves: its crews are released at once (R281). -/
def State.tryOpenNet (s00 : State) (part b : Nat) : State :=
  let s0 := s00.setNetBar part b (s00.netBar part b).land
  let s := (((s0.netTeams part b).filter (·.placed)).map (·.core)).foldl State.catchUp s0
  let x := s.netBar part b
  let members := s.netMembers part b
  if members.isEmpty || x.pending != 0 || !members.all (fun c => x.arrived.contains c) then s
  else
    let gen := x.gen + 1
    let cyc := s.sched.now / 250
    let s1 := s.setNetBar part b { x with gen := gen, arrived := [], counted := false, changes := x.changes.filter (fun e => e.2.2 == cyc) }
    let s2 := s1.applyNet b (x.changes.filter (fun e => e.2.2 != cyc))
    let s3 := if (s2.netMembers part b).isEmpty then
        (s2.setNetBar part b { s2.netBar part b with changes := [] }).applyNet b (s2.netBar part b).changes
      else s2
    let crewsWhere (p : Team → Bool) : List (Nat × Nat) := members.filter (fun e => match s.team? e.1 with
      | some t => p t && !(t.parkedAt true b e.2 gen).isEmpty
      | none => false)
    let s4 := (wavesOf 0 0 b gen true (crewsWhere (fun t => !t.placed))).foldl (fun (a : State) w => a.onTeam w.team (·.releaseCrew w)) s3
    let cores := ((s.netTeams part b).filter (·.placed)).map (·.core)
    (List.range 288).foldl (fun (a : State) k =>
      if cores.contains k then
        a.openOn k true (wavesOf (s.ctl.waveOf k) (s.cycNow k) b gen true (crewsWhere (fun t => t.placed && t.core == k)))
      else a) s4

/-- The cycle's end (R178): every barrier that something has reached is tested once. -/
def State.openTests (s : State) : State :=
  s.work.tests.foldl (fun (a : State) e => if e.1 then a.tryOpenNet e.2.1 e.2.2 else a.tryOpen e.2.1 e.2.2)
    (s.setWork { s.work with tests := [] })

/-- A crew arrives at the current generation (R57). -/
def Bar.arrive (x : Bar) (who : Nat × Nat) : Bar :=
  { x with
    arrived := if x.arrived.contains who then x.arrived else who :: x.arrived
    last := (who, x.gen) :: x.last.filter (fun e => e.1 != who) }

/-- Arrived crews that are no longer member crews count no more (R179). -/
def Bar.only (x : Bar) (p : Nat × Nat → Bool) : Bar := { x with arrived := x.arrived.filter p }
/-- A team's crews that have ended leave its barriers and its network barriers. -/
def State.leaveBars (s : State) (u : Nat) : State :=
  match s.team? u with
  | none => s
  | some t =>
    let s1 := s.setTeam { t with bars := t.bars.map (fun x => x.only (fun e => t.crewLive e.2)) }
    t.netMask.foldl (fun (a : State) b =>
      let part := (a.gridOf t).part
      a.setNetBar part b ((a.netBar part b).only (fun e => e.1 != u || t.crewLive e.2))) s1

/-- BEXP's addition; none when it would exceed 2³² − 1 (R177). -/
def Bar.expect (x : Bar) (n : Nat) : Option Bar :=
  if 2 ^ 32 ≤ x.pending + n then none
  else some { x with pending := x.pending + n, counted := x.counted || decide (0 < n) }

/-- A line lands (R169, R177): its bytes are taken off the pending count when the cycle ends (R178). -/
def Bar.lower (x : Bar) (n : Nat) : Bar := { x with lowered := x.lowered + n }

/-- BST (R179). -/
def Bar.state (x : Bar) : W64 :=
  BitVec.ofNat 64 (x.gen % 65536 * 2 ^ 48 + x.arrived.length % 2 ^ 15 * 2 ^ 33 + (if x.under then 2 ^ 32 else 0) + x.pending)

/-- Crews have ended: every barrier of the team, and the network barriers it is a member of, where some crew has arrived, are
tested (R178). -/
def State.reachAll (s : State) (u : Nat) : State :=
  match s.team? u with
  | none => s
  | some t =>
    let s1 := (List.range 16).foldl (fun (a : State) b => if (t.bar b).arrived.isEmpty then a else a.reachBar false u b) s
    t.netMask.foldl (fun (a : State) b => a.reachBar true (s.gridOf t).part b) s1

end Sys2Proof.Machine
end

