-- ==== Sys2Proof/Machine/Ending.lean ====
section
/-! DEFINITION. How teams and grids end (R35-R38, R172, R241): a team's last EXIT or its end by a fault, the retiring
state, the retirement of a grid and its record, and the fault of a poisoned read. -/

namespace Sys2Proof.Machine

/-- A copy reads or writes a team's scratchpad (R172). -/
def Copy.touches (x : Copy) (u : Nat) : Bool :=
  (match x.src with | .scratch t _ => t == u | _ => false) || (match x.dst with | .scratch t _ => t == u | _ => false)

/-- Every copy there is, with its engine. -/
def State.copies (s : State) : List (Nat × Copy) := s.eng.queues.flatMap (fun q => q.2.map (fun x => (q.1, x)))

def State.queueOf (s : State) (e : Nat) : List Copy := Store.get [] s.eng.queues e
def State.setQueue (s : State) (e : Nat) (q : List Copy) : State :=
  s.setEng { s.eng with queues := Store.set [] s.eng.queues e q }

/-- Where a copy of a partition can be posted (R164). -/
inductive EnginePick where
  | unowned
  | full
  | engine (e : Nat)
  deriving DecidableEq, Repr

/-- An engine's ENG_OWN as it stood at the start of the present cycle, where a write has changed it in that cycle: a copy posted to
it in the same cycle comes first, and the write is refused (R274). -/
def State.justTaken (s : State) (e : Nat) : Option W32 :=
  (s.eng.taken.find? (fun x => x.1 == e && x.2.1 == s.sched.now / 250)).map (·.2.2)
/-- The engines that a partition's copies can be posted to. -/
def State.enginesOf (s : State) (part : Nat) : List Nat :=
  (List.range 48).filter (fun e => s.ctl.ownsEngine part e || ((s.queueOf e).isEmpty && (match s.justTaken e with
    | some v => bit v.toNat 0 && bits v.toNat 8 4 == part
    | none => false)))

/-- The owned engine with the fewest queued copies, the lowest number on a tie; each queues at most 256 (R164). -/
def State.engineFor (s : State) (part : Nat) : EnginePick :=
  let es := s.enginesOf part
  if es.isEmpty then .unowned
  else match es.filter (fun e => decide ((s.queueOf e).length < 256)) with
    | [] => .full
    | e :: rest => .engine (rest.foldl (fun b x => if (s.queueOf x).length < (s.queueOf b).length then x else b) e)

/-- A copy joins an engine's queue. One of a partition that the engine has just been taken from comes first, and the write of
ENG_OWN is refused (R274). -/
def State.postAt (s : State) (e : Nat) (x : Copy) : State :=
  let s1 := match s.justTaken e with
    | some v =>
      if s.ctl.ownsEngine x.part e then s
      else (s.setCtl { s.ctl with engOwn := Store.set 1 s.ctl.engOwn e (put32 v 31 1 1) }).setEng { s.eng with taken := s.eng.taken.filter (fun y => y.1 != e) }
    | none => s
  s1.setQueue e (s1.queueOf e ++ [x])

/-- The team a copy was posted by or for. -/
def Copy.owner (x : Copy) : Option Nat :=
  match x.issuer with
  | .thread u _ _ => some u
  | .node u _ => some u
  | .packet _ _ _ => none

/-- Something keeps an ended team in the retiring state: a live child grid, a running graph, a copy on its scratchpad
(R37, R172, R185). -/
def State.kept (s : State) (t : Team) : Bool :=
  s.grids.any (fun g => g.parent == some t.uid && !g.retired) || t.walker.isSome ||
    s.copies.any (fun e => e.2.touches t.uid) || s.eng.saved.any (fun x => x.touches t.uid)

/-- A team leaves the retiring state: its scratchpad, its tiles and its place are free (R37, R172, R242). -/
def State.leaveTeam (s : State) (u : Nat) : State :=
  match s.team? u with
  | none => s
  | some t =>
    if t.phase = .retiring && !s.kept t then
      let s1 := s.freeScratchTiles u
      let s2 := s1.onTeam u (fun x => { x with phase := .ended, placed := false, scratch := [] })
      s2.onGrid t.grid (fun g => { g with gone := g.gone + 1 })
    else s

/-- A thread's state when its team has ended. -/
def Thread.finish (x : Thread) : Thread :=
  { x with st := .ended, k := [], w := [], preds := [], frame := none, olds := [], holdNext := false, stepping := false, bitten := false }

/-- The fault a grid's record reports (R42): the first that ended a team, of several in one cycle that of the lowest index. -/
def Grid.noteFault (g : Grid) (code lin now : Nat) : Grid :=
  match g.fault with
  | none => { g with fault := some (code, lin), faultAt := now }
  | some f => if now / 250 = g.faultAt / 250 ∧ lin < f.2 then { g with fault := some (code, lin) } else g

/-- A team ends (R37 step 1, R38): its registers, tiles, accumulators, flags and barriers are free, it leaves every
network barrier, fill handles it held are abandoned, and it enters the retiring state, which it leaves at once where
nothing keeps it. `code` is the fault that ended it, none for EXIT. -/
def State.endTeam (s : State) (u : Nat) (code : Option Nat) : State :=
  match s.team? u with
  | none => s
  | some t =>
    if t.phase != .live && t.phase != .unstarted then s
    else
      let part := (s.gridOf t).part
      -- fill handles in its registers cease to exist (R241)
      let s1 := (t.tags.map (fun n => Store.get 0 t.s n)).foldl (fun (a : State) h => a.tellHome part h (.abandon h)) (s.abandonAll (.team u))
      let s2 := s1.onTeam u (fun x =>
        { x with phase := .retiring, endedBy := code, threads := x.threads.map Thread.finish, s := [], tags := []
                 sOlds := [], sel := none, batches := [], flags := [], toks := [], tile := [], tctl := [], acc := []
                 acst := [], cv := [], bars := [], netMask := [], holders := [], gemm := none, owed := [], stopped := false })
      let s3 := match code with
        | none => s2
        | some n => s2.onGrid t.grid (·.noteFault n t.lin s.sched.now)
      let s4 := t.netMask.foldl (fun (a : State) b =>
        (a.setNetBar part b ((a.netBar part b).only (fun e => e.1 != u))).reachBar true part b) s3
      s4.leaveTeam u

/-- Threads of a crew parked at GRAB. -/
def Team.grabbing (t : Team) (crew : Nat) : List Nat :=
  (List.range 32).filterMap (fun j =>
    let i := 32 * crew + j
    if i < t.threads.length && (t.thread i).st == .parked .grab then some i else none)

/-- The extended registers of a crew read 0 (R26). -/
def Team.clearExt (t : Team) (crew : Nat) : Team :=
  { t with threads := t.threads.mapIdx (fun i x =>
      if crewOf i = crew then
        { x with k := Store.keep x.k (fun n _ => decide (n < 32)), olds := x.olds.filter (fun o => o.isW || decide (o.reg < 32)) }
      else x) }

/-- A crew is granted an extended block (R26, R360): its registers read 0, its threads parked at GRAB go on. -/
def Team.grant (t : Team) (crew : Nat) : Team :=
  let t1 := { t.clearExt crew with holders := crew :: t.holders }
  (t.grabbing crew).foldl (fun (a : Team) i => a.unpark i none) t1

/-- The crew whose first thread has been parked at GRAB longest; the lower crew on a tie (R360). -/
def Team.nextGrab (t : Team) : Option Nat :=
  let age (k : Nat) : Nat := ((t.grabbing k).map (fun i => (t.thread i).parkedFor)).foldl Nat.max 0
  ((List.range (t.threads.length / 32)).filter (fun k => !(t.grabbing k).isEmpty)).foldl (fun (best : Option Nat) k =>
    match best with
    | none => some k
    | some j => if age j < age k then some k else best) none

/-- Free extended blocks go to the waiting crews, at most `n` of the team's `e` (R360). -/
def Team.grantUpTo (e : Nat) : Nat → Team → Team
  | 0, t => t
  | n + 1, t =>
    if e ≤ t.holders.length then t
    else match t.nextGrab with
      | none => t
      | some k => Team.grantUpTo e n (t.grant k)
def Team.grantBlocks (t : Team) (e : Nat) : Team := Team.grantUpTo e e t

/-- Threads of the issuing team end (EXIT): crews that end return their block and leave their barriers, and the last
one ends the team (R26, R37, R178). -/
def State.afterExit (s : State) (u : Nat) : State :=
  match s.team? u with
  | none => s
  | some t =>
    if t.threads.all (fun x => !x.live) then s.endTeam u none
    else
      let t1 := { t with holders := t.holders.filter t.crewLive }
      let t2 := t1.grantBlocks (s.gridOf t).ext
      ((s.setTeam t2).leaveBars u).reachAll u

/-- The writes of a grid's teams performed at SYSTEM (R37 step 4), as far as their registrations are not blocked. -/
def Mem.settleGrid (m : Mem) (g : Nat) : Mem :=
  let m' := m.acceptIf (fun f => f.grids.contains g && m.flightFree f)
  m'.pushHost m'.owner
/-- A write of a grid's teams is still in flight. -/
def Mem.gridOwes (m : Mem) (g : Nat) : Bool := m.flights.any (fun f => f.grids.contains g)
/-- None of them is blocked: the grid need not wait for them. -/
def Mem.gridFree (m : Mem) (g : Nat) : Bool := m.flights.all (fun f => !f.grids.contains g || m.flightFree f)

/-- A grid retires (R37): its writes are performed at SYSTEM scope, which is waited for, and waits on its handle complete. -/
def State.retireGrid (s : State) (g : Nat) : State :=
  match s.grid? g with
  | none => s
  | some x =>
    if x.retired || x.gone < x.count then s
    else
      let s1 := s.setMem (s.mem.settleGrid g)
      if s1.mem.gridOwes g then s1
      else
        let s2 := s1.onGrid g (fun y => { y with retired := true })
        match x.parent with
        | some p => s2.leaveTeam p
        | none => s2

/-- The GRID_DONE record of a retired grid, with the GRID_FAULT record before it where the index needs it (R42). -/
def State.gridRecs (s : State) (x : Grid) : List Rec × State :=
  let hs := s.handleFor (.grid x.uid)
  let base := mkRec x.fn x.part x.ring kindGridDone stOk x.tag 0 hs.1
  let done := { base with grid := some x.uid }
  match x.fault with
  | none => ([done], hs.2)
  | some (code, lin) =>
    let big := decide (2 ^ 56 ≤ lin)
    let v := BitVec.ofNat 64 ((if big then (2 ^ 56 - 1) * 256 else lin * 256) + code % 256)
    let d := { done with status := stFaulted, value := v }
    (if big then [{ base with kind := kindGridFault, status := stFaulted, value := BitVec.ofNat 64 lin }, d] else [d], hs.2)

/-- Every child grid's GRID_DONE is written (R37). -/
def State.childrenReported (s : State) (g : Nat) : Bool :=
  s.grids.all (fun x =>
    match x.parent with
    | some p => (match s.team? p with
        | some t => t.grid != g || x.reported
        | none => true)
    | none => true)

/-- Retired grids whose children are reported put their records to their rings (R37, R44). -/
def State.reportGrids (s : State) : State :=
  s.grids.foldl (fun (a : State) x =>
    if x.retired && !x.queued && a.childrenReported x.uid then
      let r := a.gridRecs x
      let b := r.1.foldl (fun (c : State) y => match x.parent with | some p => c.sendRec p y | none => c.pushRec y) r.2
      b.onGrid x.uid (fun y => { y with queued := true })
    else a) s

-- one instruction over the active threads

/-- How one thread's part of an instruction went. -/
inductive Did where
  | done (s : State)
  | fault (s : State) (c : Code) (addr : W64)
  | park (s : State) (p : Park)
  /-- Held at a claimed line, a frame being scrubbed or a full queue. -/
  | held (s : State)
  /-- Held at a page that a home agent has blocked: its name (R137). -/
  | blocked (s : State) (i : Nat)
  /-- A poisoned line was read: the team ends (R306). -/
  | poisoned (s : State)

/-- The home of a move's page. -/
def Migration.home (x : Migration) : Nat := x.page / 2 ^ 38
/-- An access queued at a home agent, once, by what makes it and its thread; the agent's queue holds 4096 accesses, and one
that it refuses is sent again (R137). A page whose leaf the agent has just seen with MG set is blocked from now on. -/
def State.queueAct (s : State) (key : Nat) (a : Act) (i : Nat) : State :=
  let y := moveOf key
  let ms := if s.mem.moves.any (fun x => x.covers y.fn y.page) then s.mem.moves else s.mem.moves ++ [y]
  let waiting := ((ms.filter (fun x => x.home == y.home)).map (·.queue.length)).foldl (· + ·) 0
  s.setMem { s.mem with moves := ms.map (fun x =>
    if x.covers y.fn y.page && !x.queue.contains (a, i) && decide (waiting < 4096) then { x with queue := x.queue ++ [(a, i)] } else x) }
/-- A thread's access, which its batch makes again at the replay. -/
def State.queueAt (s : State) (key : Nat) (c : Ctx) (i : Nat) : State := s.queueAct key (.batch c.team.uid c.batch.id) i

/-- An event that a claimed line, a scrub or a full agent holds back is met again, after what else is to happen (log 43). -/
def State.again (s : State) (i : Instr) : State :=
  s.setSched { s.sched with agenda := s.sched.agenda ++ [⟨0, .own⟩, ⟨1000, .event i⟩] }
/-- An event's access arrives at a blocked page (R137): it is queued at the home agent, to be replayed. -/
def State.queueEvent (s : State) (key : Nat) (i : Instr) : State :=
  let t := s.queueAct key (.event i) s.fresh
  if t.mem.moves = s.mem.moves then s.again i else t.bump 1
/-- An event that is held back, by a blocked page of that name or by something else. -/
def State.holdFor (s : State) (page : Option Nat) (i : Instr) : State :=
  match page with
  | some k => s.queueEvent k i
  | none => s.again i
/-- What holds an event's access back: the agent's queue, or another attempt. -/
def Got.hold {α : Type} (g : Got α) (s : State) (i : Instr) : State := s.holdFor g.page i

/-- A thread's part that is held back. -/
def Did.stopped (s : State) (page : Option Nat) : Did :=
  match page with
  | some k => .blocked s k
  | none => .held s

/-- Each thread of a list performs its part in turn; faults, parks and holds concern that thread only (R59). The
answer carries the threads held back. -/
def eachThread (c : Ctx) (f : State → Nat → Did) : List Nat → State → State × List Nat × Bool
  | [], s => (s, [], false)
  | i :: is, s =>
    match f s i with
    | .done s1 => eachThread c f is s1
    | .fault s1 code addr => eachThread c f is (s1.raise c i code addr)
    | .park s1 p => eachThread c f is (s1.park c i p)
    | .held s1 => let r := eachThread c f is s1; (r.1, i :: r.2.1, r.2.2)
    | .blocked s1 k => let r := eachThread c f is (s1.queueAt k c i); (r.1, i :: r.2.1, r.2.2)
    | .poisoned s1 => (s1, [], true)

/-- An instruction performed by each of its threads in turn, then the batch moves on (R52). -/
def perThread (s : State) (who : Ctx → List Nat) (f : Ctx → State → Nat → Did) : Host.Outcome State Fault Refusal :=
  withCtx s (fun c =>
    let todo := (who c).filter (fun i => !c.batch.done.contains i)
    match eachThread c (f c) todo s with
    | (s1, _, true) => s1.endTeam c.team.uid (some Code.uncorrectable.num)
    | (s1, back, false) => s1.moveOn c back)

/-- The active threads, in ascending index (R331, log 22). -/
def activeOf (c : Ctx) : List Nat := sortNat (c.team.active c.batch)
/-- Every thread of the batch, in ascending index. -/
def everyOf (c : Ctx) : List Nat := sortNat c.batch.threads

/-- The same for an instruction that acts once, for the lowest active thread: a fault, a park or a hold concerns every
active thread (R234, R331). -/
def onceEffect (s : State) (f : Ctx → Nat → Did) : Host.Outcome State Fault Refusal :=
  oncePerBatch s (fun c i =>
    let act := sortNat (c.team.active c.batch)
    match f c i with
    | .done s1 => s1.moveOn c []
    | .fault s1 code addr => (s1.raiseAll c code addr act).moveOn c []
    | .park s1 p => (s1.parkAll c p act).moveOn c []
    | .held s1 => s1.moveOn c act
    | .blocked s1 k => (s1.queueAt k c i).moveOn c act
    | .poisoned s1 => s1.endTeam c.team.uid (some Code.uncorrectable.num))

/-- An SC instruction: once per batch, for every thread of it whatever its predicate (R52). -/
def scalarEffect (s : State) (f : Ctx → Did) : Host.Outcome State Fault Refusal :=
  withCtx s (fun c =>
    match f c with
    | .done s1 => s1.moveOn c []
    | .fault s1 code addr => (s1.raiseAll c code addr (sortNat c.batch.threads)).moveOn c []
    | .park s1 p => (s1.parkAll c p (sortNat c.batch.threads)).moveOn c []
    | .held s1 => s1.moveOn c c.batch.threads
    | .blocked s1 k => (s1.queueAt k c 0).moveOn c c.batch.threads
    | .poisoned s1 => s1.endTeam c.team.uid (some Code.uncorrectable.num))

/-- A memory outcome as a thread's part; `ok` goes on with the value. -/
def Got.did {α : Type} (g : Got α) (s : State) (addr : W64) (ok : α → Mem → Did) : Did :=
  match g with
  | .ok v m => ok v m
  | .fault c => .fault s c addr
  | .held => .held s
  | .blocked i => .blocked s i
  | .poisoned => .poisoned s

-- ordering (R142, R145, R146)

/-- A release by core `k` at a scope, then `f` (R142): it waits while one of the core's registrations is blocked (R134). -/
def State.released (s : State) (k : Nat) (sc : Scope) (f : State → Did) : Did :=
  let m := s.mem.release k sc
  if sc != .team && m.owes k then .held s else f (s.setMem m)

/-- The cores but `k` whose threads wrote the present values of `n` bytes (R145). -/
def Mem.farWriters (m : Mem) (k : Nat) (p : Phys) (n : Nat) : List Nat :=
  (List.range n).filterMap (fun i =>
    (Store.get none m.writer (4 * (Phys.word ⟨p.host, p.pa + i⟩) + (p.pa + i) % 4)).bind (fun o => if o = k then none else some o))
/-- An .ACQ.RMT read of `n` bytes (R145): the cores whose writes it returns perform their releases first. -/
def State.promoted (s : State) (k : Nat) (a : Agent) (va n : Nat) (f : State → Did) : Did :=
  match translate s.ctl s.mem a.fn a.part va .read with
  | .ok p m =>
    let ws := m.farWriters k p n
    let m1 := ws.foldl Mem.drain m
    if ws.any m1.owes then .held s else f (s.setMem m1)
  | _ => f s

/-- An acquire at a scope: TEAM invalidates nothing (R135). -/
def State.acquireAt (s : State) (k : Nat) (sc : Scope) : State := if sc = .team then s else s.acquire k

/-- What the ordering of an access or a fence makes it wait for and do first (R142, R145, R146); FENCE.SC and the implicit
fence of an Sc access release, then acquire. `at_`: the global place a read is made at. -/
def State.inOrder (s : State) (k : Nat) (ord : Ord) (sc : Scope) (at_ : Option (Agent × Nat × Nat)) (f : State → Did) : Did :=
  match ord with
  | .plain => f s
  | .acq => f (s.acquireAt k sc)
  | .rel => s.released k sc f
  | .ar => s.released k sc (fun t => f (t.acquireAt k sc))
  | .sc => s.released k sc (fun t => f (t.acquireAt k sc))
  | .rmt => match at_ with
    | some (a, va, n) => s.promoted k a va n (fun t => f (t.acquire k))
    | none => f (s.acquire k)

end Sys2Proof.Machine
end

