-- ==== Sys2Proof/Machine/Launch.lean ====
section
/-! DEFINITION. Admission, placement, saving and eviction (R29-R32, R87, R121-R123, R189-R192, R206, R220, R221). -/

namespace Sys2Proof.Machine

-- residency

/-- What a resident team takes of its core (R27, R123). -/
structure Res where
  core : Nat
  uid : Nat
  threads : Nat
  gran : Nat
  sp : Nat
  deriving DecidableEq, Repr

/-- A team's share of a core; a retiring team counts with its SP granules and its place only (R27, R123). -/
def State.resOf (s : State) (t : Team) : Res :=
  let g := s.gridOf t
  if t.phase = .retiring then ⟨t.core, t.uid, 0, g.sp, g.sp⟩
  else ⟨t.core, t.uid, g.threads, g.rf + g.sp + g.accGr, g.sp⟩

/-- Shares of the placements decided and not carried out. -/
def State.planned (s : State) (p : Team → Bool) : List Res :=
  s.work.plans.filterMap (fun e => match s.team? e.1 with
    | some t => if p t then some { s.resOf t with core := e.2 } else none
    | none => none)
/-- What stands on the cores now, and every placement decided: where a team can be placed at once. -/
def State.occupied (s : State) : List Res := (s.teams.filter (·.placed)).map s.resOf ++ s.planned (fun _ => true)
/-- What will stand there once the evictions and placements decided are carried out: what a further decision is made
against (R200, R201). -/
def State.residents (s : State) : List Res :=
  (s.teams.filter (fun t => t.placed && !t.leaving)).map s.resOf ++ s.planned (fun t => !t.placed || t.leaving)

/-- One team of the grid fits core `k` beside the residents (R27, R123). -/
def fitsOn (rs : List Res) (g : Grid) (k : Nat) : Bool :=
  let here := rs.filter (fun r => r.core == k)
  decide (here.length < 4) &&
    decide ((here.map (·.threads)).foldl (· + ·) g.threads ≤ 2048) &&
    decide ((here.map (·.gran)).foldl (· + ·) (g.rf + g.sp + g.accGr) ≤ 64) &&
    decide ((here.map (·.sp)).foldl (· + ·) g.sp ≤ 48)

/-- The lowest-numbered core of the function where the team fits. -/
def State.coreFor (s : State) (rs : List Res) (g : Grid) : Option Nat :=
  (s.ctl.coresOf g.fn g.part).find? (fitsOn rs g)

/-- `n` more teams of the grid all fit at once. -/
def State.allFit (s : State) (g : Grid) : Nat → List Res → Bool
  | 0, _ => true
  | n + 1, rs =>
    match s.coreFor rs g with
    | none => false
    | some k => State.allFit s g n (⟨k, 0, g.threads, g.rf + g.sp + g.accGr, g.sp⟩ :: rs)

/-- The current class of a team by grid and index, with or without an object of its own (R188). -/
def State.clsOf (s : State) (g lin : Nat) : Nat :=
  match s.teamOf g lin with
  | some t => t.cls
  | none => match s.grid? g with | some x => x.cls | none => 0

-- descriptors and images

/-- A launch descriptor as read (R29). -/
structure Desc where
  image : W64
  entry : Nat
  threads : Nat
  cls : Nat
  prio : Nat
  ext : Nat
  gx : Nat
  gy : Nat
  gz : Nat
  pool : W32
  psize : Nat
  param : W64
  ring : W64
  tag : W32
  reservedOk : Bool
  deriving DecidableEq, Repr

def field (bs : List Byte) (o n : Nat) : Nat := ofLE ((bs.drop o).take n)

def descOf (bs : List Byte) : Desc :=
  { image := BitVec.ofNat 64 (field bs 0 8), entry := field bs 8 3, threads := field bs 12 2
    cls := bits (field bs 14 1) 0 2, prio := bits (field bs 14 1) 4 3, ext := field bs 15 1
    gx := field bs 16 4, gy := field bs 20 2, gz := field bs 22 2, pool := BitVec.ofNat 32 (field bs 24 4)
    psize := bits (field bs 28 4) 0 13, param := BitVec.ofNat 64 (field bs 32 8)
    ring := BitVec.ofNat 64 (field bs 40 8), tag := BitVec.ofNat 32 (field bs 48 4)
    reservedOk := field bs 11 1 == 0 && bits (field bs 14 1) 2 2 == 0 && bits (field bs 14 1) 7 1 == 0 &&
      bits (field bs 28 4) 13 19 == 0 && field bs 52 4 == 0 }

/-- An image header's BLOCKS, DOFF and DSIZE, when it passes the checks of R87. The model's choice (log 96): a BLOCKS above 2^24, which
the field's range excludes, fails them too. -/
def imageOf (bs : List Byte) : Option (Nat × Nat × Nat) :=
  let blocks := field bs 4 4
  let doff := field bs 8 4
  let dsize := field bs 12 4
  if field bs 0 4 = 0x4D495A59 ∧ blocks ≠ 0 ∧ blocks ≤ 2 ^ 24 ∧ field bs 19 1 = 0 ∧ (bs.drop 28).all (· == 0) ∧
      field bs 18 1 / 4 = 0 ∧ doff % 64 = 0 ∧ dsize % 64 = 0 ∧ 64 + 4 * blocks ≤ doff
  then some (blocks, doff, dsize) else none

/-- A team's register-file need in bytes (R122). -/
def rfNeed (threads ext : Nat) : Nat := 128 * threads + 12288 * ext + 131072

/-- The pool word is within its limits for the descriptor and the image (R122). -/
def poolOk (d : Desc) (dsize : Nat) : Bool :=
  let p := d.pool.toNat
  let rf := bits p 0 7
  let sp := bits p 8 6
  let acc := bits p 16 6
  bits p 22 10 == 0 && bits p 14 2 == 0 && bits p 7 1 == 0 && decide (rf + sp + acc ≤ 64) && decide (sp ≤ 48) &&
    (acc == 0 || acc == 4) && decide (rfNeed d.threads d.ext ≤ rf * 32768) && decide (dsize ≤ sp * 32768)

/-- Who asks for a launch: the road, the function and partition, whether the child runs in K-mode, and the issuing
team for a LAUNCH or a graph node. -/
structure Asker where
  road : Road
  fn : Nat
  part : Nat
  kmode : Bool
  team : Option Team
  depth : Nat
  deriving Repr

/-- What holds back a read of the device's own: a claim, a scrub, or a blocked page with its name (R133, R137, R149). -/
def State.readStop (s : State) (fn part va n : Nat) : Option (Option Nat) := (deviceRead s.ctl s.mem fn part va n .read).stop
def State.readHeld (s : State) (fn part va n : Nat) : Bool := (s.readStop fn part va n).isSome

/-- What holds back the read of a ring's header. -/
def State.ringStop (s : State) (fn part ring : Nat) : Option (Option Nat) :=
  if ring % 64 = 0 then s.readStop fn part ring 64 else none
def State.ringHeld (s : State) (fn part ring : Nat) : Bool := (s.ringStop fn part ring).isSome

/-- What holds back the reads that a launch is checked by, or that of the ring `own` that reports its rejection where its
descriptor's cannot (R32): the launch waits. -/
def State.launchStop (s : State) (fn part : Nat) (d : Desc) (own : Option W64) : Option (Option Nat) :=
  (own.bind (fun r => s.ringStop fn part r.toNat)) <|>
  (s.ringStop fn part d.image.toNat) <|>
  (if d.psize ≠ 0 ∧ d.psize ≤ 4096 then s.readStop fn part d.param.toNat d.psize else none) <|>
  (s.ringStop fn part d.ring.toNat)
def State.launchHeld (s : State) (fn part : Nat) (d : Desc) (own : Option W64) : Bool := (s.launchStop fn part d own).isSome

/-- The checks of R30 in order; the status of the first that fails, or the image's numbers. `net` adds R261's. -/
def State.checkLaunch (s : State) (a : Asker) (d : Desc) (net : Bool) : Except Nat (Nat × Nat × Nat × List Byte) :=
  let img := if d.image.toNat % 64 = 0 then
      match deviceRead s.ctl s.mem a.fn a.part d.image.toNat 64 .read with
      | .ok bs _ => imageOf bs
      | _ => none
    else none
  let prm := if d.psize = 0 then some [] else
      match deviceRead s.ctl s.mem a.fn a.part d.param.toNat d.psize .read with
      | .ok bs _ => some bs
      | _ => none
  let ranges := d.reservedOk && decide (32 ≤ d.threads) && decide (d.threads ≤ 1024) && d.threads % 32 == 0 &&
    decide (d.ext ≤ d.threads / 32) && decide (1 ≤ d.gx) && decide (d.gx ≤ 2 ^ 31 - 1) && decide (1 ≤ d.gy) &&
    decide (1 ≤ d.gz) && decide (d.psize ≤ 4096) && d.psize % 4 == 0 && (d.psize == 0 || d.param.toNat % 64 == 0) &&
    (!net || decide (8 ≤ d.psize))
  match img, prm with
  | some (blocks, doff, dsize), some bytes =>
    if !ranges || decide (blocks ≤ d.entry) || !s.ringUsable a.fn a.part d.ring then .error stBadDescriptor
    else if d.cls = 3 then .error stBadClass
    else if a.team.isSome && decide (9 < a.depth) then .error stNestDepth
    else if (match a.team with | some t => decide (t.cls < d.cls) | none => false) then .error stClassExceeds
    else if !poolOk d dsize then .error stBadPool
    else
      let g := { Grid.blank with fn := a.fn, part := a.part, threads := d.threads, pool := d.pool }
      let strong := s.residents.filter (fun r => match s.team? r.uid with
        | some t => (s.gridOf t).part == a.part && decide (0 < t.cls)
        | none => false)
      let fits := if d.cls = 2 then
          decide (d.gx * d.gy * d.gz ≤ 1152) && s.allFit g (d.gx * d.gy * d.gz) strong
        else (s.coreFor [] g).isSome
      if fits then .ok (blocks, doff, dsize, bytes) else .error stNoResidency
  | _, _ => .error stBadDescriptor

-- teams

/-- The threads of a team at its placement: all waiting at the entry block (R47). -/
def startThreads (n entry : Nat) : List Thread := List.replicate n { Thread.blank with pos := ⟨entry, 0, 0⟩ }

/-- A team that has not started, with everything as it is at placement (R58, R72, R95, R97, R177); it has waited since its grid's
admission (R190). -/
def mkTeam (uid : Nat) (g : Grid) (lin cls : Nat) : Team :=
  { uid := uid, grid := g.uid, lin := lin, phase := .unstarted, core := 0, placed := false, place := 0, placedAt := 0
    started := false, saved := false, leaving := false, cls := cls, prio := g.prio, endedBy := none
    threads := startThreads g.threads g.entry, s := [], tags := [], sOlds := [], skip := [], sel := none, batches := []
    stopped := false, flags := [], toks := [], fexc := 0, fexcLate := [], tile := [], tctl := [], acc := []
    acst := List.replicate 8 ⟨0, 0⟩, cv := List.replicate 16 (Cv.start g.threads), bars := List.replicate 16 Bar.zero
    netMask := [], scratch := [], holders := [], walker := none, gemm := none, owed := [], wdog := 0, wdogCtl := 0, wdogNew := true, starve := 0
    fair := 0, waited := g.waited
    ticked := false, doomed := none }

/-- A team of a grid given an object of its own. -/
def State.materialise (s : State) (g lin : Nat) : State × Nat :=
  match s.teamOf g lin with
  | some t => (s, t.uid)
  | none =>
    match s.grid? g with
    | none => (s, 0)
    | some x =>
      let u := s.fresh
      ((s.setTeam (mkTeam u x lin x.cls)).bump 1, u)

/-- The lowest free place of a core. -/
def State.freePlace (s : State) (k : Nat) : Nat :=
  ((List.range 4).find? (fun p => !s.teams.any (fun t => t.placed && t.core == k && t.place == p))).getD 0

/-- The copy of the data section into scratchpad (R87): the bytes, or the fault that ends the team. -/
def State.dataSection (s : State) (g : Grid) : Except Code (List Byte) :=
  if g.dsize = 0 then .ok []
  else
    match deviceRead s.ctl s.mem g.fn g.part (g.image.toNat + g.doff) g.dsize .read with
    | .ok bs _ => .ok bs
    | .fault c => .error c
    | .poisoned => .error .uncorrectable
    | _ => .ok []

/-- A claim or a blocked page holds the data section back, so that no team of the grid starts yet (R137, R149). -/
def State.dataHeld (s : State) (g : Grid) : Bool :=
  g.dsize != 0 && s.readHeld g.fn g.part (g.image.toNat + g.doff) g.dsize

/-- A team takes a place on a core: for the first time, with its data section copied, or restored from its saved
context with an acquire at PART and a fresh clause cache, its waits to be read again at once (R37, R87, R151, R206, R326). -/
def State.placeTeam (s : State) (u core : Nat) : State :=
  match s.team? u with
  | none => s
  | some t =>
    let g := s.gridOf t
    let t1 := { t with core := core, placed := true, place := s.freePlace core, placedAt := s.sched.now / 1000, started := true
                       saved := false, ticked := false, wdog := 0, wdogCtl := s.ctl.wdogOf (core / 24), phase := if t.phase = .unstarted then .live else t.phase }
    let s1 := s.setWork { s.work with plans := s.work.plans.filter (fun e => e.1 != u) }
    if t.phase = .unstarted then
      match s.dataSection g with
      | .ok bs => s1.setTeam { t1 with scratch := Store.writeBytes [] 0 bs }
      | .error c => (s1.setTeam t1).endTeam u (some c.num)
    else
      let s2 := s1.setMem { s1.mem.acquire core with dirty := true }
      let k := s2.core core
      let s3 := (s2.setCore core { k with clauses := [] }).setTeam t1
      match t.doomed with
      | some n => s3.endTeam u (some n)
      -- its image has been written over: the integrity tag is wrong (R220)
      | none => if s.mem.spoiled u then s3.endTeam u (some Code.contextSaveTimeout.num) else s3

-- saving

/-- Bytes a saved team's image takes of its function's area (R221). -/
def State.imageBytes (s : State) (t : Team) : Nat :=
  let g := s.gridOf t
  if t.phase = .retiring then 32768 * g.sp + 512 * g.threads + 65536
  else 32768 * (g.rf + g.sp + g.accGr) + 512 * g.threads + 65536

/-- The area has room for the saved teams of the function and these more (R221). -/
def State.areaFits (s : State) (fn : Nat) (more : List Team) : Bool :=
  let a := (s.ctl.ctxAreaOf fn).toNat
  let saved := s.teams.filter (fun t => t.saved && (s.gridOf t).fn == fn)
  bit a 0 && decide (((saved ++ more).map s.imageBytes).foldl (· + ·) 262144 ≤ bits a 1 20 * 2 ^ 21)

/-- Where a team's image goes (R221): the layout of an area is the device's own (log 106). None where what is free is in pieces too
small for it. -/
def State.imagePlace (s : State) (t : Team) : Option Nat :=
  let a := (s.ctl.ctxAreaOf (s.gridOf t).fn).toNat
  let base := bits a 21 31 * 2 ^ 21
  let n := s.imageBytes t
  let free (lo : Nat) : Bool := decide (base + 262144 ≤ lo ∧ lo + n ≤ base + bits a 1 20 * 2 ^ 21) &&
    s.mem.images.all (fun x => !overlap lo n x.lo x.size || !s.teams.any (fun y => y.saved && y.uid == x.team))
  ((Config.imagePlace s.fresh :: (base + 262144) :: s.mem.images.map (fun x => x.lo + x.size)).find? free)
/-- The team's image written to its function's area (R220). -/
def State.writeImage (s : State) (t : Team) : State :=
  match s.imagePlace t with
  | some lo => (s.setMem (s.mem.saveImage t.uid s.fresh lo (s.imageBytes t))).bump 1
  | none => s

/-- Copies a save of the team waits for: its own that are not parked (R171). A save waits for its core's registrations too
(R134). -/
def State.ownCopies (s : State) (u : Nat) : List Copy :=
  (s.copies.map (·.2)).filter (fun x => match x.issuer with
    | .thread t _ _ => t == u
    | .node t _ => t == u
    | .packet _ _ _ => false)
def State.saveReady (s : State) (u : Nat) : Bool :=
  (s.ownCopies u).all (fun x => x.parked.isSome) && !s.pairs.transfers.any (fun x => x.team == u) &&
    (match s.team? u with
     | some t => s.mem.coreFree t.core &&
         -- a TLD or TST that has issued completes first (R102)
         !t.batches.any (·.moving)
     | none => true)

/-- Every batch's threads leave it at the instruction boundary they stand at, to return as resume entries (R220): a thread that
has performed the instruction its batch is held at returns at the next one. `ws` gives the W registers a frame records. -/
def Team.disband (t : Team) (ws : Batch → Nat → Nat → List Nat) : Team :=
  t.batches.foldl (fun (a : Team) b =>
    let a0 := match b.sig with | some g => a.withdraw g | none => a
    let a1 := b.threads.foldl (fun (x : Team) i =>
      let past := t.past b i
      let fr := if past then none else (x.thread i).frame
      let pos := if past then b.next else b.pos
      let inside := decide (pos.clause = b.clause) && (b.buf.isSome || b.passed)
      -- a step is over with its instruction, and ALL_STOP holds what stands at a clause boundary (R61)
      let stay := if b.stepped then past else t.stopped && !inside
      (x.leave b i (if stay then .held else .resuming) pos (some
        { log := match fr with | some f => f.log | none => none
          w := (ws b (if past then b.instr + 1 else b.instr) i).map (fun n => (n, Store.get 0 (x.thread i).w n))
          passed := inside
          grant := match fr with | some f => f.grant | none => none
          old := b.id :: b.heirs, toks := [] })).onThread i (fun y => { y with stepping := b.stepped && !past })) a0
    { a1 with batches := a1.batches.filter (fun y => y.id != b.id) }) t

/-- A clause's outstanding operations as a save leaves them (R89, R171): a running TGEMM's, and the copies it has posted, which are
parked. -/
def Team.savedTok (t : Team) (k : Tok) : Tok :=
  let g := match t.gemm with | some x => k.id == x.tok && !x.stopped | none => false
  { k with regs := if g then 1 else 0, mems := 0, issued := true, aDone := !g || k.seta.isNone, bDone := k.posts == 0 || k.setb.isNone }
/-- The flags that a clause's outstanding operations hold (R89). -/
def Tok.holds (k : Tok) : List Nat := (if k.aDone then [] else k.seta.toList) ++ (if k.bDone then [] else k.setb.toList)

/-- Every register write of the team's issued instructions completes (R220). What a running TGEMM and parked copies
still hold stays counted in the team's flags (R171). -/
def Team.complete (t : Team) (kept : List Nat) : Team :=
  let ks := (t.toks.map t.savedTok).filter (fun k => k.regs != 0 || k.posts != 0)
  let fs := (ks.flatMap Tok.holds ++ kept).filter (fun f => decide (8 ≤ f))
  { t.allFexc with
    threads := t.threads.map (fun x => { x with olds := [] })
    sOlds := []
    toks := ks
    flags := fs.foldl (fun (m : Store Nat) f => Store.set 0 m f (Store.get 0 m f + 1)) [] }

/-- Crews of a team that an opening has released and that have not left: a save records them as released (R281). -/
def State.flushWaves (s : State) (u : Nat) (core : Nat) : State :=
  let k := s.core core
  let ws := k.waves.filter (fun w => w.team == u)
  if ws.isEmpty then s
  else ws.foldl (fun (a : State) w => a.onTeam u (·.releaseCrew w)) (s.setCore core { k with waves := k.waves.filter (fun w => w.team != u) })

/-- A team's context is saved and its place freed (R220, R151): its writes are performed at PART scope, its batches
disbanded, its selection left in progress, its parked copies kept with it. -/
def State.saveTeam (s00 : State) (u : Nat) : State :=
  match s00.team? u with
  | none => s00
  | some t0 =>
    let s := s00.flushWaves u t0.core
    let t := (s.team? u).getD t0
    let s1 := (s.setMem (s.mem.release t.core .part)).writeImage t
    let mine (x : Copy) : Bool := match x.issuer with
      | .thread a _ _ => a == u
      | .node a _ => a == u
      | .packet _ _ _ => false
    let keep := (s.copies.map (·.2)).filter mine
    let qs := s1.eng.queues.map (fun q => (q.1, q.2.filter (fun x => !mine x)))
    let s2 := s1.setEng { s1.eng with queues := qs.filter (fun q => !q.2.isEmpty), saved := s1.eng.saved ++ keep }
    let held := (keep ++ s.eng.saved.filter mine).filterMap (fun x => match x.signal with
      | .flag a _ f => if a = u then some f else none
      | _ => none)
    let t1 := (t.disband (s.frameW t)).complete held
    s2.setTeam { t1 with placed := false, saved := true, leaving := false }

/-- A NIGHT team can be evicted: it is placed, not already leaving, and its context can be saved (R192, R221). -/
def State.evictable (s : State) (t : Team) : Bool :=
  t.placed && !t.leaving && t.cls == 0 && s.areaFits (s.gridOf t).fn [t]

/-- The eviction order (R192): lowest PRIO, then the latest placement, then the highest index, then the highest core. -/
def State.evictBefore (s : State) (a b : Team) : Bool :=
  let pa := (s.gridOf a).prio
  let pb := (s.gridOf b).prio
  if pa ≠ pb then decide (pa < pb)
  else if a.placedAt ≠ b.placedAt then decide (b.placedAt < a.placedAt)
  else if a.lin ≠ b.lin then decide (b.lin < a.lin)
  else decide (b.core < a.core)

/-- Insertion into a list kept in an order. -/
def insertBy {α : Type} (before : α → α → Bool) (x : α) : List α → List α
  | [] => [x]
  | y :: ys => if before x y then x :: y :: ys else y :: insertBy before x ys
def sortBy {α : Type} (before : α → α → Bool) : List α → List α
  | [] => []
  | x :: xs => insertBy before x (sortBy before xs)

/-- Teams that can be evicted one after another, as the areas have room for all of them and for those on their way out
(R221): one whose image does not fit is passed over for another. -/
def State.fitting (s : State) (taken : List Nat) (es : List Team) : List Team :=
  (es.foldl (fun (acc : List Team × List Team) (t : Team) =>
    let fn := (s.gridOf t).fn
    if s.areaFits fn ((t :: acc.1).filter (fun x => (s.gridOf x).fn == fn)) then (t :: acc.1, acc.2 ++ [t]) else acc)
    (s.teams.filter (fun (x : Team) => x.placed && (x.leaving || taken.contains x.uid)), [])).2

/-- The fewest teams of `es` on core `k`, taken in eviction order, whose removal lets a team of the grid fit. -/
def State.victimsOn (s : State) (rs : List Res) (taken : List Nat) (es : List Team) (g : Grid) (k : Nat) : Option (List Team) :=
  let here := s.fitting taken (sortBy s.evictBefore (es.filter (fun t => t.core == k)))
  ((List.range (here.length + 1)).find? (fun n =>
    fitsOn (rs.filter (fun r => !(here.take n).any (fun t => t.uid == r.uid))) g k)).map (fun n => here.take n)

/-- The core where the fewest evictions suffice, the lowest number on a tie, and its victims. -/
def State.bestCore (s : State) (rs : List Res) (taken : List Nat) (es : List Team) (g : Grid) : Option (Nat × List Team) :=
  (s.ctl.coresOf g.fn g.part).foldl (fun (best : Option (Nat × List Team)) k =>
    match s.victimsOn rs taken es g k with
    | none => best
    | some vs => match best with
      | none => some (k, vs)
      | some (_, ws) => if vs.length < ws.length then some (k, vs) else best) none

/-- A plan: placements and evictions decided together, and the residents as they will be. -/
structure Plan where
  place : List (Nat × Nat)
  evict : List Nat
  rs : List Res
  left : List Team
  deriving Repr

/-- A team of the grid added to a plan (R200); none where no core can take it. -/
def State.planOne (s : State) (p : Plan) (u : Nat) (g : Grid) : Option Plan :=
  let add (k : Nat) (rs : List Res) (q : Plan) : Plan :=
    { q with place := q.place ++ [(u, k)], rs := ⟨k, u, g.threads, g.rf + g.sp + g.accGr, g.sp⟩ :: rs }
  match s.coreFor p.rs g with
  | some k => some (add k p.rs p)
  | none =>
    match s.bestCore p.rs p.evict p.left g with
    | none => none
    | some (k, vs) =>
      let gone (x : Nat) : Bool := vs.any (fun t => t.uid == x)
      some (add k (p.rs.filter (fun r => !gone r.uid))
        { p with evict := p.evict ++ vs.map (·.uid), left := p.left.filter (fun t => !gone t.uid) })

/-- A plan carried out as far as it goes at once: evictions are decided, placements wait for their places (R200). -/
def State.adopt (s : State) (p : Plan) : State :=
  let s1 := p.evict.foldl (fun (a : State) u => a.onTeam u (fun t => { t with leaving := true })) s
  s1.setWork { s1.work with plans := s1.work.plans ++ p.place }

/-- A grid admitted (R30, R40): its parameter block is copied, and a NOON grid's teams are planned at once. -/
def State.admitGrid (s : State) (a : Asker) (d : Desc) (blocks doff dsize : Nat) (param : List Byte) : State × Nat :=
  let u := s.fresh
  let g : Grid :=
    { Grid.blank with
      uid := u, fn := a.fn, part := a.part, kmode := a.kmode, image := d.image, entry := d.entry, threads := d.threads
      cls := d.cls, prio := d.prio, ext := d.ext, gx := d.gx, gy := d.gy, gz := d.gz, pool := d.pool, psize := d.psize
      param := Store.writeBytes [] 0 param, ring := d.ring, tag := d.tag, blocks := blocks, doff := doff, dsize := dsize
      depth := a.depth, parent := a.team.map (·.uid), road := a.road, admitted := u, admittedAt := s.sched.now }
  let s1 := (s.setGrid g).bump 1
  if d.cls = 2 then
    -- every team is placed at once, evicting NIGHT teams (R189, R192)
    let n := d.gx * d.gy * d.gz
    let s2 := (List.range n).foldl (fun (b : State) i => (b.materialise u i).1) s1
    let s3 := s2.onGrid u (fun x => { x with nextLin := n })
    let es := s3.teams.filter (fun t => s3.evictable t && (s3.gridOf t).part == a.part)
    let p0 : Plan := ⟨[], [], s3.residents, es⟩
    let p := (List.range n).foldl (fun (q : Plan) i =>
      match s3.teamOf u i with
      | some t => (s3.planOne q t.uid g).getD q
      | none => q) p0
    (s3.adopt p, u)
  else (s1, u)

/-- A launch by any road: the new grid, or the status it is rejected with. -/
def State.launch (s : State) (a : Asker) (d : Desc) (net : Bool) : Except Nat (State × Nat) :=
  match s.checkLaunch a d net with
  | .error st => .error st
  | .ok (blocks, doff, dsize, bytes) => .ok (s.admitGrid a d blocks doff dsize bytes)

-- dispatch

/-- A function may run teams now: the PF, a core-subset VF, or a time-shared VF that has its turn (R266). -/
def State.hasTurn (s : State) (fn part : Nat) : Bool :=
  fn == 0 || (s.ctl.vfSubset fn && s.ctl.fnOn fn) ||
    (match Store.get none s.work.turns part with | some f => f == fn | none => false)

/-- A candidate for placement: its grid, its index, its class, its object. -/
structure Cand where
  g : Grid
  lin : Nat
  cls : Nat
  prio : Nat
  evicted : Bool
  uid : Option Nat
  waited : Nat
  deriving Repr

/-- The lowest index of a grid that has no object and has not been started. -/
def State.nextOf (s : State) (g : Grid) : Option Nat :=
  let mine := (s.teams.filter (fun t => t.grid == g.uid)).map (·.lin)
  (((List.range (mine.length + 1)).map (g.nextLin + ·)).find? (fun n => !mine.contains n)).bind
    (fun n => if n < g.count then some n else none)

/-- Candidates of a partition (R191): evicted teams, teams with an object that have not started, and each grid's next. -/
def State.candidates (s : State) (part : Nat) (prioOf : Nat → Nat → Nat) : List Cand :=
  let objs := s.teams.filterMap (fun t =>
    let g := s.gridOf t
    if g.part == part && !t.placed && (t.phase == .unstarted || (t.saved && t.phase == .live) || (t.saved && t.phase == .retiring)) && s.hasTurn g.fn part
        && !s.work.plans.any (fun e => e.1 == t.uid) && !(t.phase == .unstarted && s.dataHeld g)
    then some ⟨g, t.lin, t.cls, prioOf g.uid t.lin, t.started, some t.uid, t.waited⟩ else none)
  let nexts := s.grids.filterMap (fun g =>
    match s.nextOf g with
    | some n =>
      if g.part == part && s.hasTurn g.fn part && !s.dataHeld g
      then some ⟨g, n, g.cls, prioOf g.uid n, false, none, g.waited⟩ else none
    | none => none)
  objs ++ nexts

/-- The order of dispatch (R191). -/
def candBefore (a b : Cand) : Bool :=
  if a.cls ≠ b.cls then decide (b.cls < a.cls)
  else if a.prio ≠ b.prio then decide (b.prio < a.prio)
  else if a.evicted ≠ b.evicted then a.evicted
  else if a.g.admitted ≠ b.g.admitted then decide (a.g.admitted < b.g.admitted)
  else decide (a.lin < b.lin)

/-- DUSK_GRACE of a partition, in picoseconds (R190). The model's choice (log 98): that of its first slice. -/
def State.grace (s : State) (part : Nat) : Nat := bits (s.ctl.progressOf part).toNat 16 16 * 1000000
/-- A DUSK candidate past its grace. -/
def State.pastGrace (s : State) (part : Nat) (c : Cand) : Bool := c.cls == 1 && decide (s.grace part ≤ c.waited)
/-- Some unplaced DUSK team of the partition is past its grace: no NIGHT team is placed (R191). -/
def State.duskLate (s : State) (part : Nat) : Bool :=
  s.teams.any (fun t => (s.gridOf t).part == part && !t.placed && t.cls == 1 && (t.phase == .unstarted || (t.saved && t.phase != .ended)) &&
      decide (s.grace part ≤ t.waited)) ||
    s.grids.any (fun g => g.part == part && g.cls == 1 && (s.nextOf g).isSome && decide (s.grace part ≤ g.waited))

/-- A candidate placed on a core: given an object where it had none. -/
def State.placeCand (s : State) (c : Cand) (k : Nat) : State :=
  match c.uid with
  | some u => s.placeTeam u k
  | none =>
    let r := s.materialise c.g.uid c.lin
    (r.1.onGrid c.g.uid (fun g => { g with nextLin := c.lin + 1 })).placeTeam r.2 k

/-- One placement of the dispatcher (R191): evictions that are ready are carried out, then a placement decided, then
the first candidate that fits; a NIGHT team is not placed while a DUSK team is past its grace. -/
def State.dispatch (s : State) (part : Nat) (prioOf : Nat → Nat → Nat) : State :=
  match s.teams.find? (fun t => t.leaving && !t.ticked && (s.gridOf t).part == part && s.saveReady t.uid) with
  | some t => s.saveTeam t.uid
  | none =>
    let others (u : Nat) : List Res := (s.teams.filter (fun t => t.placed)).map s.resOf |>.filter (fun r => r.uid != u)
    match s.work.plans.find? (fun e => match s.team? e.1 with
        | some t => (s.gridOf t).part == part && !t.placed && s.hasTurn (s.gridOf t).fn part && fitsOn (others t.uid) (s.gridOf t) e.2 &&
            !(t.phase == .unstarted && s.dataHeld (s.gridOf t))
        | none => false) with
    | some e => s.placeTeam e.1 e.2
    | none =>
      let cs := sortBy candBefore (s.candidates part prioOf)
      let late := s.duskLate part
      match cs.find? (fun c => !(late && c.cls == 0) && (s.coreFor s.occupied c.g).isSome) with
      | some c => match s.coreFor s.occupied c.g with
        | some k => s.placeCand c k
        | none => s
      | none => s

/-- A DUSK team past its grace, or a team of an admitted NOON grid, is placed by evicting NIGHT teams (R189, R192). -/
def State.graceEvict (s : State) (u : Nat) : State :=
  match s.team? u with
  | none => s
  | some t =>
    let g := s.gridOf t
    if t.placed || t.cls == 0 || s.work.plans.any (fun e => e.1 == u) then s
    else
      let es := s.teams.filter (fun x => s.evictable x && (s.gridOf x).part == g.part)
      match s.planOne ⟨[], [], s.residents, es⟩ u g with
      | some p => s.adopt p
      | none => s

end Sys2Proof.Machine
end

