-- ==== Sys2Proof/Machine/Wait.lean ====
section
/-! DEFINITION. Waits (R193-R206, R227, R246): target sets, the class check and promotion, priority donation, the reading
of pending waits, and register deadlock. -/

namespace Sys2Proof.Machine

/-- A team named by its grid and its linear index, with or without an object of its own. -/
abbrev TeamRef := Nat × Nat

/-- What a pending wait depends on (R198, R239). -/
inductive WaitOn where
  | team (g lin : Nat)
  /-- Every team of a grid; of its descendants too when `deep` (ENDED). -/
  | grid (g : Nat) (deep : Bool)
  | none
  deriving DecidableEq, Repr

/-- Teams of a grid that have not ended: objects that live, and the indices not started yet. At most 1153 of the
latter are listed, one more than can be resident (R198). -/
def State.teamsOf (s : State) (g : Nat) : List TeamRef :=
  match s.grid? g with
  | Option.none => []
  | some x =>
    if x.retired then []
    else
      let objs := (s.teams.filter (fun t => t.grid == g && (t.phase == .unstarted || t.phase == .live))).map (fun t => (g, t.lin))
      let rest := (List.range (min (x.count - x.nextLin) 1153)).map (fun i => (g, x.nextLin + i))
      objs ++ rest.filter (fun r => (s.teamOf r.1 r.2).isNone)

/-- The grid and its descendants, to a depth of `n` generations (R36: at most ten levels). -/
def State.descend (s : State) : Nat → Nat → List Nat
  | 0, g => [g]
  | n + 1, g =>
    g :: (s.grids.filter (fun x => match x.parent with
      | some p => (match s.team? p with | some t => t.grid == g | Option.none => false)
      | Option.none => false)).flatMap (fun x => State.descend s n x.uid)

/-- The target set (R198). A team that has ended leaves it. -/
def State.targetSet (s : State) : WaitOn → List TeamRef
  | .none => []
  | .team g lin => if s.teamEnded g lin then [] else [(g, lin)]
  | .grid g deep => (if deep then s.descend 10 g else [g]).flatMap s.teamsOf

/-- The grids that are ancestors of a team: its own grid, its parent team's, and so on (R35). -/
def State.ancestors (s : State) : Nat → Nat → List Nat
  | 0, g => [g]
  | n + 1, g =>
    g :: (match s.grid? g with
      | some x => (match x.parent with
        | some p => (match s.team? p with
          | some t => State.ancestors s n t.grid
          | Option.none => [])
        | Option.none => [])
      | Option.none => [])

/-- What a wait record's target stands for (R198). -/
def onOf (rel : Nat) : Target → WaitOn
  | .grid g => .grid g (rel == 4)
  | .team g lin => .team g lin

/-- What a parked thread's wait depends on (R193). -/
def State.parkOn (s : State) (t : Team) : Park → WaitOn
  | .waitf r _ _ => match s.target? r.target with
    | some x => onOf r.rel x
    | Option.none => .none
  | .see die n _ _ => match (s.slot die n).holder with
    | .team u => match s.team? u with
      | some h => .team h.grid h.lin
      | Option.none => .none
    | _ => .none
  | .grab => .team t.grid t.lin
  | _ => .none

/-- A pending wait: the waiter's team and thread, what it depends on, its .NP bit. -/
structure Pending where
  team : Team
  thread : Nat
  on : WaitOn
  np : Bool
  deriving Repr

def Park.np : Park → Bool
  | .waitf _ np _ => np
  | .see _ _ _ np => np
  | _ => false

/-- The waits that are pending (R193). -/
def State.pendings (s : State) : List Pending :=
  s.teams.flatMap (fun t => (t.threads.mapIdx (fun i x => match x.st with
    | .parked p => (match s.parkOn t p with
      | .none => Option.none
      | w => some ⟨t, i, w, p.np⟩)
    | _ => Option.none)).filterMap id)

/-- A team's own PRIO: as SSET has left it, or its grid's (R400). -/
def State.prioBase (s : State) (r : TeamRef) : Nat :=
  match s.teamOf r.1 r.2 with
  | some t => t.prio
  | Option.none => match s.grid? r.1 with
    | some g => g.prio
    | Option.none => 0

/-- Effective priority (R204): the team's PRIO, or the largest it receives along chains of at most `n` of the waits `ps`. -/
def State.effPrio (s : State) (ps : List Pending) : Nat → TeamRef → Nat
  | 0, r => s.prioBase r
  | n + 1, r =>
    ps.foldl (fun best p =>
      if (s.targetSet p.on).contains r && (p.team.grid, p.team.lin) != r
      then Nat.max best (State.effPrio s ps n (p.team.grid, p.team.lin)) else best)
      (s.prioBase r)

/-- The effective priority of a team as the waits of some teams give it, along every chain: none needs a wait twice. -/
def State.prioFrom (s : State) (donor : Team → Bool) (g lin : Nat) : Nat :=
  let ps := s.pendings.filter (fun p => donor p.team)
  s.effPrio ps ps.length (g, lin)
/-- The effective priority of a team: the waits of placed teams donate (R204). -/
def State.prioOf (s : State) (g lin : Nat) : Nat := s.prioFrom (·.placed) g lin

/-- A team of a target set as the class check sees it. -/
def State.refCls (s : State) (r : TeamRef) : Nat := s.clsOf r.1 r.2

/-- Teams given objects and their class raised (R200). -/
def State.raiseCls (s : State) (c : Nat) : List TeamRef → State
  | [] => s
  | r :: rs =>
    let m := s.materialise r.1 r.2
    State.raiseCls (m.1.onTeam m.2 (fun t => { t with cls := c })) c rs

/-- Promote (R200): every team of P raised to class c and its unplaced teams placed, or nothing and none. -/
def State.promote (s : State) (part : Nat) (ps : List TeamRef) (c : Nat) : Option State :=
  if 1152 < ps.length then Option.none
  else
    let s1 := ps.foldl (fun (a : State) r => (a.materialise r.1 r.2).1) s
    let waits := s.pendings.flatMap (fun p => s.targetSet p.on)
    let es := s1.teams.filter (fun t => s1.evictable t && (s1.gridOf t).part == part &&
      !ps.contains (t.grid, t.lin) && !waits.contains (t.grid, t.lin))
    let order (a b : Team) : Bool :=
      if (s1.gridOf a).admitted ≠ (s1.gridOf b).admitted then decide ((s1.gridOf a).admitted < (s1.gridOf b).admitted)
      else decide (a.lin < b.lin)
    let ns := sortBy order (s1.teams.filter (fun t => ps.contains (t.grid, t.lin) && (!t.placed || t.leaving)
      && !s1.work.plans.any (fun e => e.1 == t.uid)))
    let p := ns.foldl (fun (q : Option Plan) t => match q with
      | Option.none => Option.none
      | some x => s1.planOne x t.uid (s1.gridOf t)) (some ⟨[], [], s1.residents, es⟩)
    match p with
    | Option.none => Option.none
    | some x => some ((s1.raiseCls c ps).adopt x)

/-- A pending wait ends with a fault at its park point (R202). -/
def Team.failPark (t : Team) (i : Nat) (code : Code) (detail : Nat) (addr : W64) : Team :=
  t.onThread i (fun x =>
    { x with st := .trapped, trap := ⟨code.num, x.pos.block, x.pos.clause, x.pos.instr, detail, addr, false, 0⟩ })

/-- Waits of the teams just raised are checked again, and so on along the chain (R202). -/
def State.recheck : Nat → State → List TeamRef → State
  | 0, s, _ => s
  | n + 1, s, raised =>
    s.pendings.foldl (fun (a : State) p =>
      if raised.contains (p.team.grid, p.team.lin) then
        let c := a.clsOf p.team.grid p.team.lin
        let weak := (a.targetSet p.on).filter (fun r => a.refCls r < c)
        if weak.isEmpty then a
        else if p.np then a.onTeam p.team.uid (fun t => t.failPark p.thread .progressClass 0 0)
        else match a.promote (a.gridOf p.team).part weak c with
          | Option.none => a.onTeam p.team.uid (fun t => t.failPark p.thread .promotionBlocked 0 0)
          | some b => State.recheck n b weak
      else a) s

/-- Along every chain: each link raises the class of a team, which rises at most twice. -/
def State.recheckAll (s : State) (raised : List TeamRef) : State := State.recheck (2 * s.pendings.length + 2) s raised
/-- A team named by a wait gets an object of its own, so that it is placed by the priority it receives (R191, R204). -/
def State.named (s : State) : WaitOn → State
  | .team g lin => if s.teamEnded g lin then s else (s.materialise g lin).1
  | _ => s

/-- ClassCheck (R199): the state with its promotions made, or the fault, nothing changed. -/
def State.classCheck (s : State) (t : Team) (w : WaitOn) (np : Bool) : Except Code State :=
  let weak := (s.targetSet w).filter (fun r => s.refCls r < t.cls)
  if weak.isEmpty then .ok (s.named w)
  else if np then .error .progressClass
  else match s.promote (s.gridOf t).part weak t.cls with
    | Option.none => .error .promotionBlocked
    | some s1 => .ok (s1.recheckAll weak)

/-- A grid launched while an ENDED wait on an ancestor is pending joins its target set, and the wait is checked again
(R202). -/
def State.joinCheck (s : State) (g : Nat) : State :=
  s.pendings.foldl (fun (a : State) p =>
    match p.on with
    | .grid _ true =>
      if (a.targetSet p.on).any (fun r => r.1 == g) then
        let c := a.clsOf p.team.grid p.team.lin
        let weak := (a.targetSet p.on).filter (fun r => a.refCls r < c)
        if weak.isEmpty then a
        else if p.np then a.onTeam p.team.uid (fun t => t.failPark p.thread .progressClass 0 0)
        else match a.promote (a.gridOf p.team).part weak c with
          | Option.none => a.onTeam p.team.uid (fun t => t.failPark p.thread .promotionBlocked 0 0)
          | some b => b.recheckAll weak
      else a
    | _ => a) s

-- the conditions of waits (R197)

/-- The relation of a wait record. -/
def relHolds (rel : Nat) (x v : Nat) : Bool :=
  match rel with
  | 0 => x == v
  | 1 => x != v
  | 2 => decide (v ≤ x)
  | _ => decide (x < v)

/-- What a read of the watched word finds. -/
inductive Watch where
  | holds (m : Mem)
  | not (m : Mem)
  | fault (c : Code) (addr : W64)
  | held
  /-- Its page is blocked (R137). -/
  | blocked (i : Nat)

/-- The watched word read (R196, R197): scratchpad, or global memory at the registry. -/
def State.watch (s : State) (t : Team) (r : WaitRec) : Watch :=
  let n := if r.n64 then 8 else 4
  let v := if r.n64 then r.value.toNat else r.value.toNat % 2 ^ 32
  let a := r.waddr.toNat
  if a % n ≠ 0 then .fault .alignment r.waddr
  else if r.scratch then
    if (s.gridOf t).spBytes < a + n then .fault .access r.waddr
    else if relHolds r.rel (t.scratch.readLE a n) v then .holds s.mem else .not s.mem
  else
    match readRegistry s.ctl s.mem (s.gridOf t).fn (s.gridOf t).part a n .read with
    | .ok bs m => if relHolds r.rel (ofLE bs) v then .holds m else .not m
    | .fault c => .fault c r.waddr
    | .held => .held
    | .blocked i => .blocked i
    | .poisoned => .fault .uncorrectable r.waddr

/-- The registration of the team's own earlier stores is seen first by its own waits: they are performed in program
order (R143). -/
def State.flushFor (s : State) (t : Team) : State := s.setMem (s.mem.drain t.core)

/-- A wait on a target's end is satisfied (R197): the end of a team is seen once the writes of its core are performed. -/
def State.endSeen (s : State) (x : Target) : Option State :=
  if !s.targetEnded x then Option.none
  else match x with
    | .grid _ => some s
    | .team g lin => match s.teamOf g lin with
      | Option.none => some s
      | some t =>
        let m := s.mem.drain t.core
        if m.owes t.core then Option.none else some (s.setMem m)

/-- One pending WAITF read again (R197): it completes with an acquire at DEVICE for a global word or an ENDED target,
faults when its read faults, or stays; a read that meets a blocked page is queued at the home agent (R137). -/
def State.pollWait (s : State) (u i : Nat) : State :=
  match s.team? u with
  | Option.none => s
  | some t =>
    match (t.thread i).st with
    | .parked (.waitf r _ target) =>
      if r.rel = 4 then
        match s.target? r.target with
        | some x =>
          match s.endSeen x with
          | some s1 => (s1.acquire t.core).onTeam u (fun y => y.unparkTo i target)
          | Option.none => s
        | Option.none => s
      else
        match s.watch t r with
        | .holds m =>
          let s1 := s.setMem m
          (if r.scratch then s1 else s1.acquire t.core).onTeam u (fun y => y.unparkTo i target)
        | .not m => s.setMem m
        | .fault c a =>
          if c = .uncorrectable then s.endTeam u (some c.num) else s.onTeam u (fun y => y.failPark i c 0 a)
        | .held => s
        | .blocked k => s.queueAct k (.event (.waitPoll u i)) 0
    | _ => s

/-- Threads of a team parked at a WAITF that satisfies a test. -/
def Team.waiters (t : Team) (p : WaitRec → Bool) : List Nat :=
  (List.range t.threads.length).filter (fun i => match (t.thread i).st with
    | .parked (.waitf r _ _) => p r
    | _ => false)

/-- Waits on words of the team's scratchpad that a write meets are read again, after that write and before any other
(R197). -/
def State.pollScratch (s : State) (u a n : Nat) : State :=
  match s.team? u with
  | Option.none => s
  | some t =>
    (t.waiters (fun r => r.scratch && r.rel != 4 && overlap r.waddr.toNat (if r.n64 then 8 else 4) a n)).foldl
      (fun (b : State) i => b.pollWait u i) s

/-- A range of a team's scratchpad is claimed by an engine (R149). -/
def Mem.scratchBarred (m : Mem) (u off n : Nat) : Bool :=
  m.claims.any (fun x => match x with
    | .scratch _ t lo hi => t == u && overlap off n lo (hi - lo)
    | .line _ _ _ _ _ => false)
def State.scratchRead (s : State) (u off n : Nat) : List Byte :=
  match s.team? u with
  | some t => t.scratch.bytes off n
  | none => toLE n 0
/-- Bytes written to a team's scratchpad; waits on them are read again (R197). -/
def State.scratchWrite (s : State) (u off : Nat) (bs : List Byte) : State :=
  (s.onTeam u (fun t => { t with scratch := t.scratch.writeBytes off bs })).pollScratch u off bs.length

/-- Waits on global words are read again when the registry has changed, and in every microsecond, with the headers of rings that
hold records (R44); ENDED waits at every change (R197). -/
def State.pollAll (s : State) : State :=
  let due := s.mem.dirty || decide (s.work.polled + 1000000 ≤ s.sched.now)
  let s1 := { s with mem := { s.mem with dirty := false }, work := { s.work with polled := if due then s.sched.now else s.work.polled } }
  let s2 := if due then s1.retryRings else s1
  s.teams.foldl (fun (a : State) t =>
    if t.placed then
      (t.waiters (fun r => r.rel == 4 || (!r.scratch && due))).foldl (fun (b : State) i => b.pollWait t.uid i) a
    else a) s2

-- register deadlock (R26, R227)

/-- A thread's state counts toward a register deadlock (R227). -/
def State.stuck (s : State) (t : Team) (x : Thread) : Bool :=
  match x.st with
  | .ended => true
  | .parked .grab => true
  | .parked (.bar _ _ _) => true
  | .parked (.waitf r _ _) =>
    let w := match s.target? r.target with | some y => onOf r.rel y | Option.none => WaitOn.none
    (s.targetSet w).all (fun e => e == (t.grid, t.lin))
  | _ => false

/-- Every extended block is held by a crew that cannot go on: each thread parked at GRAB faults, in ascending index. -/
def State.deadlock (s : State) (u : Nat) : State :=
  match s.team? u with
  | Option.none => s
  | some t =>
    let e := (s.gridOf t).ext
    let at_ := (List.range t.threads.length).filter (fun i => (t.thread i).st == .parked .grab)
    if at_.isEmpty || t.holders.length < e then s
    else if t.holders.all (fun c => (List.range 32).all (fun j => s.stuck t (t.thread (32 * c + j)))) then
      at_.foldl (fun (a : State) i => a.onTeam u (fun x => x.failPark i .regDeadlock 0 0)) s
    else s

def State.deadlocks (s : State) : State := s.teams.foldl (fun (a : State) t => if t.phase = .live then a.deadlock t.uid else a) s

end Sys2Proof.Machine
end

