-- ==== Sys2Proof/Machine/Copy.lean ====
section
/-! DEFINITION. What a posted copy does (R149, R164-R174, R215, R251): its claims, its lines, the tensor copies, its end,
and the faults it parks at. -/

namespace Sys2Proof.Machine

-- claims (R149)

/-- A core's L1 gives up its copies of a line, under whatever address: what it owned stands at the registry. -/
def Mem.dropLine (m : Mem) (core : Nat) (p : Phys) : Mem :=
  let m1 := m.acceptIf (fun f => f.core == core && m.flightFree f && (match m.homeOf f with | some h => (physOf h).line == p.line | none => true))
  (m1.l1.filter (fun e => l1Core e.1 == core && (match e.2 with | some w => (physOf w.home).line == p.line | none => false))).foldl
    (fun (a : Mem) e => a.evictWord e.1) m1

/-- A copy claims the lines at addresses whose translation does not fault now, and the issuing core's L1 drops its copies of
them (R149, R168). A line on a page that a home agent has blocked is claimed by its address. -/
def Mem.claimLines (c : Ctl) (m : Mem) (id core fn part : Nat) (fill : Bool) (vas : List Nat) : Mem :=
  let add (a : Mem) (va : Nat) : Mem :=
    let x : Claim := .line id fn part (va / 128) fill
    { a with claims := if a.claims.contains x then a.claims else a.claims ++ [x] }
  vas.foldl (fun (a : Mem) va =>
    match translate c a fn part va (if fill then .fillWrite else .write) with
    | .ok p a1 => add (a1.dropLine core p) va
    | .blocked _ => add a va
    | .fault _ => a) m

/-- The 128-byte lines a range meets, by their first addresses. -/
def lineVas (va n : Nat) : List Nat := (List.range ((va % 128 + n + 127) / 128)).map (fun i => va / 128 * 128 + 128 * i)

/-- A range of scratchpad is claimed by an earlier copy. -/
def Mem.scratchBarredFor (m : Mem) (id u off n : Nat) : Bool :=
  m.claims.any (fun x => match x with
    | .scratch k t lo hi => t == u && decide (k < id) && overlap off n lo (hi - lo)
    | .line _ _ _ _ _ => false)
/-- A claim given up for the part of a scratchpad range that has been written. -/
def Mem.unclaimScratch (m : Mem) (id upto : Nat) : Mem :=
  { m with claims := m.claims.map (fun x => match x with
      | .scratch k t lo hi => if k = id then .scratch k t (Nat.max lo (Nat.min upto hi)) hi else x
      | .line _ _ _ _ _ => x) }

-- reads and writes of an engine

/-- What an engine's access comes to. -/
inductive Eng (α : Type) where
  | ok (v : α) (s : State)
  /-- It cannot be made yet. -/
  | stay
  /-- It is queued at the home agent of a blocked page (R137): the page's name. -/
  | blocked (i : Nat)
  /-- An engine fault: code and address (R170). -/
  | fault (c : Code) (va : W64)

/-- What follows an engine's access. -/
def Eng.bind {α β : Type} (x : Eng α) (f : α → State → Eng β) : Eng β :=
  match x with
  | .ok v s => f v s
  | .stay => .stay
  | .blocked i => .blocked i
  | .fault c va => .fault c va

/-- Global bytes read at the registry, line by line (R149). -/
def State.engRead (s : State) (id fn part : Nat) : Nat → Nat → Nat → Eng (List Byte)
  | 0, _, _ => .ok [] s
  | fuel + 1, va, n =>
    if n = 0 then .ok [] s
    else
      let here := Nat.min n (128 - va % 128)
      match translate s.ctl s.mem fn part va .read with
      | .fault c => .fault c (BitVec.ofNat 64 va)
      | .blocked i => .blocked i
      | .ok p m =>
        if m.barredFor s.ctl id fn va p then .stay
        else if p.host && s.eng.cut.contains id then .fault .access (BitVec.ofNat 64 va)
        else if m.poisonedAt p then .fault .uncorrectable (BitVec.ofNat 64 va)
        else ((s.setMem (m.sample s.ctl fn p)).engRead id fn part fuel (va + here) (n - here)).bind
          (fun bs s1 => .ok (m.regRead p here ++ bs) s1)

/-- Global bytes of one line written at the registry; the line's claim ends (R149). Stores to the line that the issuing core
made before the claim are performed first. -/
def State.engWrite (s : State) (id core fn part : Nat) (fill : Bool) (va : Nat) (bs : List Byte) (keep : Bool) : Eng Unit :=
  match translate s.ctl s.mem fn part va (if fill then .fillWrite else .write) with
  | .fault c => .fault c (BitVec.ofNat 64 va)
  | .blocked i => .blocked i
  | .ok p m =>
    if m.barredFor s.ctl id fn va p then .stay
    -- a write that would still leave on a link is dropped, and completes (R273)
    else if p.host && s.eng.cut.contains id then .ok () (s.setMem (if keep then m else m.unclaim id fn (va / 128)))
    else
      let m1 := ((((m.sample s.ctl fn p).dropLine core p).regBytes p bs)).cleanLine p bs.length
      .ok () (s.setMem (if keep then m1 else m1.unclaim id fn (va / 128)))

/-- What comes of an engine's access: none where it cannot be made; its copy parks at a fault; at a blocked page it is queued
there once (R137). -/
def Eng.next {α : Type} (x : Eng α) (s : State) (e : Nat) (ok : α → State → Option State) (bad : Code → W64 → State) : Option State :=
  match x with
  | .ok v t => ok v t
  | .stay => none
  | .blocked i =>
    let t := s.queueAct i (.event (.copyLine e)) 0
    if t.mem.moves = s.mem.moves then none else some t
  | .fault c va => some (bad c va)

/-- The place `n` bytes further on. -/
def Place.plus (p : Place) (n : Nat) : Place :=
  match p with
  | .global fn part va => .global fn part (va + n)
  | .scratch u off => .scratch u (off + n)
  | .remote d h off => .remote d h (off + n)
/-- The address that decides where its lines end (R168). -/
def Place.addr (p : Place) : Nat :=
  match p with
  | .global _ _ va => va
  | .scratch _ off => off
  | .remote _ _ off => off

-- the head of an engine's queue

/-- The copy an engine serves replaced. -/
def State.putHead (s : State) (e : Nat) (x : Copy) : State :=
  match s.queueOf e with
  | [] => s
  | _ :: rest => s.setQueue e (x :: rest)
/-- A copy leaves its engine, its claims given up. -/
def State.dropCopy (s : State) (e : Nat) (x : Copy) : State :=
  (s.setQueue e ((s.queueOf e).filter (fun y => y.id != x.id))).setMem (s.mem.unclaimAll x.id)

/-- A barrier's pending bytes fall as a line lands; a team that has ended has no barrier any more (R169, R177). -/
def State.lowerBar (s : State) (sig : Signal) (n : Nat) : State :=
  match sig with
  | .bar u b =>
    match s.team? u with
    | some t => if t.phase = .live then (s.setTeam (t.setBar b ((t.bar b).lower n))).reachBar false u b else s
    | none => s
  | .netBar part b => (s.setNetBar part b ((s.netBar part b).lower n)).reachBar true part b
  | _ => s

/-- A flag falls as its copy completes; clauses that wait on it are to acquire (R149, R169). -/
def State.lowerFlagOf (s : State) (sig : Signal) : State :=
  match sig with
  | .flag u b f =>
    s.onTeam u (fun t =>
      let t1 := t.lowerFlag b f
      { t1 with batches := t1.batches.map (fun y =>
          if (y.id == b || y.heirs.contains b || decide (8 ≤ f)) && !y.acq.contains f then { y with acq := f :: y.acq } else y) })
  | _ => s

/-- A packet that a copy or a grid was for is complete (R251). -/
def State.packetOver (s : State) (fn q idx : Nat) : State :=
  s.setQueues { s.queues with packets := s.queues.packets.filter (fun p => !(p.fn == fn && p.q == q && p.idx == idx)) }

/-- The COPY_DONE record of a copy (R42, R251). -/
def Copy.record (x : Copy) (status n : Nat) : Rec :=
  mkRec x.fn x.part x.ring kindCopyDone status x.tag (BitVec.ofNat 64 n) 0

/-- A copy completes (R167, R169, R182, R251): its fill handle is dropped before it signals. -/
def State.finishCopy (s : State) (e : Nat) (x : Copy) : State :=
  let s1 := s.dropCopy e x
  let s2 := match x.fill with
    | some h => if hDevice h = s.ctl.devnum x.part then (s1.setMem (s1.mem.drain x.core)).sealSlot (hDie h) (hSlot h) else s1
    | none => s1
  let s3 := s2.lowerFlagOf x.signal
  match x.issuer with
  | .thread u _ _ => s3.onTeam u (fun t => t.postDone x.tok)
  | .node u n => (s3.sendRec u (x.record stOk x.count)).nodeOver u n
  | .packet fn q idx => (s3.reportOf x.id (x.record stOk x.count)).packetOver fn q idx

/-- A graph stops with a fault (R186): no further node starts, and the record says why. -/
def State.graphFault (s : State) (u n : Nat) (c : Code) : State :=
  match s.team? u with
  | none => s
  | some t =>
    match t.walker with
    | none => s
    | some g =>
      if g.faulted then s
      else
        let gr := s.gridOf t
        (s.setTeam { t with walker := some { g with faulted := true } }).sendRec u
          (mkRec gr.fn gr.part g.ring kindSignal stFaulted g.tag (BitVec.ofNat 64 (c.num + n * 256)) 0)

/-- A copy is ended instead of resumed (R170, R215, R241): its fill handle's slot is abandoned, the team it was issued by
is ended with its code, its graph stops, its packet completes as FAULTED. -/
def State.killCopy (s : State) (e : Nat) (x : Copy) (c : Code) : State :=
  let s1 := s.dropCopy e x
  let s2 := match x.fill with
    | some h => s1.loseFill x.part h
    | none => s1
  match x.issuer with
  | .thread u _ _ => s2.endTeam u (some c.num)
  | .node u n => ((s2.graphFault u n c).nodeOver u n).endTeam u (some c.num)
  | .packet fn q idx => (s2.reportOf x.id (x.record stFaulted x.moved)).packetOver fn q idx

/-- A copy meets a fault (R170): it parks, and an engine fault goes to the service team; fatal while the ring is off. A poisoned
line ends the team that reads it, which no service resumes (R207, R306). -/
def State.parkCopy (s : State) (e : Nat) (x : Copy) (c : Code) (va : W64) : State :=
  if s.svcOn x.part && c != .uncorrectable then
    let s1 := s.putHead e { x with parked := some (c.num, va), told := true }
    let owner := match x.owner with | some u => s1.team? u | none => none
    let hs : W64 × State := match owner with
      | some t => s1.handleFor (.team t.grid t.lin)
      | none => (0, s1)
    hs.2.pushSvc x.part (svcBody 3 c.num (match owner with | some t => t.cls | none => 0) x.fn hs.1 0 e va 0 [])
  else s.killCopy e x c

/-- The handle that a copy's present access to another device goes through (R291). -/
def Copy.farHandle (x : Copy) : Option W64 :=
  let toDst := decide (x.count ≤ x.moved) || !x.gathered.isEmpty
  match x.shape, toDst, x.dst, x.src with
  | some _, _, _, _ => none
  | none, true, .remote _ h _, _ => some h
  | none, false, _, .remote _ h _ => some h
  | _, _, _, _ => none

/-- An access goes out to another device for a copy; its answer carries the copy's name. -/
def State.askFor (s : State) (e : Nat) (x : Copy) (dev : Nat) (acc : RemoteAccess) : Option State :=
  if x.asked then none
  -- a peer that has been lost is asked no more (R291)
  else if !(s.peersOf x.part).contains dev then some (s.parkCopy e x .access (x.farHandle.getD (match x.shape with | some p => p.base | none => 0)))
  else some ((s.putHead e { x with asked := true }).emit (.remote x.part dev x.id acc))

-- plain copies (R168)

/-- Bytes of a plain copy's next destination line (R168). -/
def Copy.chunk (x : Copy) : Nat := Nat.min (x.count - x.moved) (128 - (x.dst.plus x.moved).addr % 128)

/-- Bytes of its last line. -/
def Copy.lastChunk (x : Copy) : Nat := Nat.min x.count (((x.dst.addr + x.count - 1) % 128) + 1)

/-- A line of a plain copy has been performed. -/
def State.lineDone (s : State) (e : Nat) (x : Copy) (n : Nat) : State :=
  let y := { x with moved := x.moved + n, gathered := [], asked := false }
  let far := match x.dst with | .remote _ _ _ => true | _ => false
  -- the last line of a copy through a fill handle signals after the drop (R240)
  if y.count ≤ y.moved && (far || y.fill.isSome) then s.putHead e y
  else
    let s1 := (s.putHead e y).lowerBar x.signal n
    if y.moved < y.count then s1 else s1.finishCopy e y

/-- A line's bytes go to its place. -/
def State.putLine (s : State) (e : Nat) (x : Copy) (bs : List Byte) : Option State :=
  let n := bs.length
  match x.dst.plus x.moved with
  | .scratch u off =>
    if s.mem.scratchBarredFor x.id u off n then none
    else
      let s1 := s.setMem (s.mem.unclaimScratch x.id (off + n))
      some ((s1.scratchWrite u off bs).lineDone e x n)
  | .global fn part va =>
    (s.engWrite x.id x.core fn part x.viaFill va bs false).next s e (fun _ s1 => some (s1.lineDone e x n)) (s.parkCopy e x)
  | .remote dev h off => (s.putHead e { x with gathered := [bs] }).askFor e { x with gathered := [bs] } dev (.stFh h true off 4 bs)

/-- One line of a plain copy: read from the source, then written. None where it cannot go on now. -/
def State.plainLine (s : State) (e : Nat) (x : Copy) : Option State :=
  if x.count ≤ x.moved then
    match x.fill with
    | none => some (s.finishCopy e x)
    | some h =>
      -- its drop is a release at DEVICE scope of what its issuer did before (R240)
      let m := s.mem.release x.core .device
      if m.owes x.core then none
      else match x.dst with
        | .remote dev _ _ => (s.setMem m).askFor e x dev (.drop h true)
        | _ => some (((s.setMem m).lowerBar x.signal x.lastChunk).finishCopy e x)
  else
    let n := x.chunk
    match x.gathered with
    | bs :: _ => if x.asked then none else s.putLine e x bs
    | [] =>
      match x.src.plus x.moved with
      | .scratch u off => if s.mem.scratchBarredFor x.id u off n then none else s.putLine e x (s.scratchRead u off n)
      | .global fn part va =>
        (s.engRead x.id fn part (n / 128 + 2) va n).next s e (fun bs s1 => s1.putLine e x bs) (s.parkCopy e x)
      | .remote dev h off => s.askFor e x dev (.ldsee h off n 4)

-- tensor copies (R173, R174)

/-- Bytes of an element. -/
def Shape.size (p : Shape) : Nat := p.ety.bits / 8
/-- Elements of the tile. -/
def Shape.elems (p : Shape) : Nat := p.tile.foldl (· * ·) 1
/-- Bytes of the tile, packed. -/
def Shape.bytes (p : Shape) : Nat := p.elems * p.size
/-- Element number `n` of the tile by its four coordinates, dimension 0 fastest. -/
def Shape.coord (p : Shape) (n : Nat) : List Nat :=
  let t (k : Nat) : Nat := p.tile.getD k 1
  [n % t 0, n / t 0 % t 1, n / (t 0 * t 1) % t 2, n / (t 0 * t 1 * t 2) % t 3]
/-- Its tensor address, where it lies inside the extents. -/
def Shape.place (p : Shape) (n : Nat) : Option Nat :=
  let c := p.coord n
  let at_ (k : Nat) : Nat := p.pos.getD k 0 + c.getD k 0
  if (List.range p.ext.length).all (fun k => decide (at_ k < p.ext.getD k 0)) then
    let o : Int := (at_ 0 * p.size : Nat) + (at_ 1 : Int) * p.strides.getD 0 0 + (at_ 2 : Int) * p.strides.getD 1 0 +
      (at_ 3 : Int) * p.strides.getD 2 0
    some (((p.base.toNat : Int) + o) % (2 ^ 64 : Nat)).toNat
  else none

/-- Devices of the ranks, in ascending bit order (R174). -/
def Shape.devs (p : Shape) : List Nat :=
  ((List.range 32).filter (fun i => bit p.repl i)).map (fun i => p.devbase + (p.x + i) % p.gridw + p.gridw * p.y)
/-- The ranks a copy reads or writes. -/
def Shape.ranks (p : Shape) (toScratch : Bool) : List Nat :=
  if toScratch && p.redop == 0 then p.devs.take 1 else p.devs

/-- Elements of a scratchpad line: the `n`th line of the packed tile that starts at offset `off`. -/
def Shape.scratchLine (p : Shape) (off n : Nat) : List Nat :=
  (List.range p.elems).filter (fun i => (off + i * p.size) / 128 == off / 128 + n)
def Shape.scratchLines (p : Shape) (off : Nat) : Nat := (off % 128 + p.bytes + 127) / 128
/-- Elements inside the extents, by element number and address. -/
def Shape.inside (p : Shape) : List (Nat × Nat) :=
  (List.range p.elems).filterMap (fun i => (p.place i).map (fun a => (i, a)))
/-- The bytes of an element that lie in one line: the element, the first byte, the address and the count (R168, R174). -/
structure Piece where
  elem : Nat
  first : Nat
  va : Nat
  n : Nat
  deriving DecidableEq, Repr
/-- The pieces of the elements inside the extents: an element that straddles a line has two. -/
def Shape.pieces (p : Shape) : List Piece :=
  p.inside.flatMap (fun e =>
    let here := Nat.min p.size (128 - e.2 % 128)
    if here < p.size then [⟨e.1, 0, e.2, here⟩, ⟨e.1, here, e.2 + here, p.size - here⟩] else [⟨e.1, 0, e.2, p.size⟩])
/-- The tensor's lines that they meet, ascending. -/
def Shape.lines (p : Shape) : List Nat := sortNat (p.pieces.map (fun e => e.va / 128))
/-- The pieces in one of them. -/
def Shape.linePieces (p : Shape) (l : Nat) : List Piece := p.pieces.filter (fun e => e.va / 128 == l)
/-- The bytes written in one of them. -/
def Shape.lineBytes (p : Shape) (l : Nat) : Nat := ((p.linePieces l).map (·.n)).foldl (· + ·) 0

/-- A reduction of two raw elements (R174). -/
def reduce (op : Nat) (ty : Ty) (x y : Nat) : Nat :=
  match ty with
  | .i32 => if op = 1 then addRaw ty x y else if op = 2 then minRaw ty x y else maxRaw ty x y
  | .n32 => if op = 1 then addRaw ty x y else if op = 2 then minRaw ty x y else maxRaw ty x y
  | _ => if op = 1 then (fAdd (fmtOf ty) .rne x y).1 else (fMinMax (fmtOf ty) (op == 3) x y).1

/-- The data of the ranks reduced element by element, in ascending rank order. -/
def reduceAll (op : Nat) (ty : Ty) (n : Nat) : List (List Byte) → List Byte
  | [] => []
  | first :: rest =>
    (List.range n).flatMap (fun i =>
      let el (bs : List Byte) : Nat := ofLE ((bs.drop (i * (ty.bits / 8))).take (ty.bits / 8))
      toLE (ty.bits / 8) (rest.foldl (fun r bs => reduce op ty r (el bs)) (el first)))

/-- Elements read at this device; outside the extents they are zero. -/
def State.readElems (s : State) (x : Copy) (p : Shape) : List Nat → Eng (List Byte)
  | [] => .ok [] s
  | i :: is =>
    let here : Eng (List Byte) := match p.place i with
      | none => .ok (toLE p.size 0) s
      | some va => s.engRead x.id x.fn x.part 3 va p.size
    here.bind (fun b s1 => (s1.readElems x p is).bind (fun bs s2 => .ok (b ++ bs) s2))

/-- A line of a tile written to scratchpad from the ranks' data. -/
def State.tileLine (s : State) (e : Nat) (x : Copy) (p : Shape) (u off : Nat) : Option State :=
  let es := p.scratchLine off x.moved
  let bs := reduceAll p.redop p.ety es.length x.gathered
  let at_ := off + (es.headD 0) * p.size
  if s.mem.scratchBarredFor x.id u at_ bs.length then none
  else
    let y := { x with moved := x.moved + 1, gathered := [], ranks := p.ranks true }
    let s1 := (((s.setMem (s.mem.unclaimScratch x.id (at_ + bs.length))).scratchWrite u at_ bs).putHead e y)
    if y.moved < p.scratchLines off then some s1
    else some ((s1.lowerBar x.signal p.bytes).finishCopy e y)

/-- One rank's part of a line of a tensor-to-scratchpad copy. -/
def State.gatherStep (s : State) (e : Nat) (x : Copy) (p : Shape) (u off : Nat) : Option State :=
  match x.ranks with
  | [] => s.tileLine e x p u off
  | dev :: rest =>
    let es := p.scratchLine off x.moved
    if dev = s.ctl.devnum x.part then
      (s.readElems x p es).next s e (fun bs s1 => some (s1.putHead e { x with ranks := rest, gathered := x.gathered ++ [bs] })) (s.parkCopy e x)
    else if !(s.peersOf x.part).contains dev then some (s.parkCopy e x .access (BitVec.ofNat 64 ((es.filterMap p.place).headD p.base.toNat)))
    else s.askFor e x dev (.get x.fn ((es.filterMap p.place).map (fun a => (BitVec.ofNat 64 a, p.size))))

/-- The bytes of a piece as the tile holds them. -/
def State.pieceBytes (s : State) (p : Shape) (u off : Nat) (x : Piece) : List Byte :=
  s.scratchRead u (off + x.elem * p.size + x.first) x.n
/-- The pieces of one tensor line written at this device. -/
def State.writePieces (s : State) (x : Copy) (p : Shape) (u off : Nat) : List Piece → Eng Unit
  | [] => .ok () s
  | y :: rest =>
    (s.engWrite x.id x.core x.fn x.part false y.va (s.pieceBytes p u off y) (!rest.isEmpty)).bind (fun _ s1 => s1.writePieces x p u off rest)

/-- A line of a scratchpad-to-tensor copy has been performed at its rank. -/
def State.rankLine (s : State) (e : Nat) (x : Copy) (n : Nat) : State :=
  (s.putHead e { x with moved := x.moved + 1, asked := false }).lowerBar x.signal n

/-- One line of a scratchpad-to-tensor copy at the present rank. -/
def State.scatterStep (s : State) (e : Nat) (x : Copy) (p : Shape) (u off : Nat) : Option State :=
  match x.ranks with
  | [] => some (s.finishCopy e x)
  | dev :: rest =>
    let near := dev == s.ctl.devnum x.part
    -- a rank out of reach faults before any line goes to it (R174)
    if !near && !(s.peersOf x.part).contains dev && (x.moved == 0 || (p.lines[x.moved]?).isSome) then
      some (s.parkCopy e x .access (match (p.lines[x.moved]?).bind (fun l => (p.linePieces l).head?) with
        | some y => BitVec.ofNat 64 y.va
        | none => p.base))
    else match p.lines[x.moved]? with
    | none =>
      let y := { x with moved := 0, ranks := rest }
      some (if rest.isEmpty then (s.putHead e y).finishCopy e y else s.putHead e y)
    | some l =>
      let es := p.linePieces l
      if s.mem.scratchBarredFor x.id u off p.bytes then none
      else if near then
        (s.writePieces x p u off es).next s e (fun _ s1 => some (s1.rankLine e x (p.lineBytes l))) (s.parkCopy e x)
      else s.askFor e x dev (.put x.fn (es.map (fun i => (BitVec.ofNat 64 i.va, s.pieceBytes p u off i))))

/-- What an engine does next; none where it has nothing to do, or waits (R164, R168, R215). -/
def State.engineStep (s : State) (e : Nat) : Option State :=
  match s.queueOf e with
  | [] => none
  | x :: _ =>
    if x.parked.isSome then none
    else match x.shape, x.src, x.dst with
      | some p, _, .scratch u off => s.gatherStep e x p u off
      | some p, .scratch u off, _ => s.scatterStep e x p u off
      | some _, _, _ => none
      | none, _, _ => s.plainLine e x

/-- An answer from another device reaches the copy that asked (R174, R247). -/
def State.answerCopy (s : State) (e : Nat) (x : Copy) (code : Nat) (data : List Byte) : State :=
  if !x.asked then s
  else if code ≠ 0 then
    -- the answer carries the fault address
    let va : W64 := BitVec.ofNat 64 (ofLE (data.take 8))
    s.parkCopy e { x with asked := false } ((Code.ofNum code).getD .access) va
  else match x.shape, x.dst with
    | some p, .scratch _ off =>
      let es := p.scratchLine off x.moved
      let full := (es.foldl (fun (a : List Byte × List Byte) i => match p.place i with
        | some _ => (a.1 ++ a.2.take p.size, a.2.drop p.size)
        | none => (a.1 ++ toLE p.size 0, a.2)) ([], data)).1
      s.putHead e { x with asked := false, ranks := x.ranks.tail, gathered := x.gathered ++ [full] }
    | some p, _ => s.rankLine e x (match p.lines[x.moved]? with | some l => p.lineBytes l | none => 0)
    | none, _ =>
      if x.count ≤ x.moved then (s.lowerBar x.signal x.lastChunk).finishCopy e x
      else match x.gathered with
        | [] => s.putHead e { x with asked := false, gathered := [data] }
        | bs :: _ => s.lineDone e x bs.length

/-- Addresses of the destination lines that a copy has still to write at this device. -/
def Copy.restLines (dev : Nat) (x : Copy) : List Nat :=
  match x.shape, x.dst with
  | none, .global _ _ va => if x.count ≤ x.moved then [] else lineVas (va + x.moved) (x.count - x.moved)
  | some p, .global _ _ _ =>
    if x.ranks.head? = some dev then (p.lines.drop x.moved).map (128 * ·)
    else if x.ranks.contains dev then p.lines.map (128 * ·) else []
  | _, _ => []
/-- A copy that resumes claims the lines it could not claim at issue (R168). -/
def State.claimRest (s : State) (x : Copy) : State :=
  match x.dst with
  | .global fn part _ => s.setMem (s.mem.claimLines s.ctl x.id x.core fn part x.viaFill (x.restLines (s.ctl.devnum x.part)))
  | _ => s

/-- Saved copies of placed teams, and copies that found every queue full, are posted as queues have room (R171); the core whose
L1 their claims concern is the team's. -/
def State.repost (s : State) : State :=
  s.eng.saved.foldl (fun (a : State) x =>
    let owner := match x.owner with | some u => a.team? u | none => none
    let here := match owner with | some t => t.placed || t.phase == .ended | none => true
    if !here then a
    else match a.engineFor x.part with
      | .engine e =>
        let y := { x with parked := none, told := false, asked := false, core := (match owner with | some t => t.core | none => x.core) }
        (((a.setEng { a.eng with saved := a.eng.saved.filter (fun z => z.id != x.id) }).postAt e y)).claimRest y
      | _ => a) s

/-- Traps taken in this step keep the cycle they were taken in (R209). -/
def State.stampTraps (s : State) : State :=
  let fresh (x : Thread) : Bool := x.st == .trapped && !x.trap.posted && x.trap.cycle == 0
  s.teams.foldl (fun (a : State) t =>
    if t.threads.any fresh then
      a.onTeam t.uid (fun y => { y with threads := y.threads.map (fun x =>
        if fresh x then { x with trap := { x.trap with cycle := s.sched.now / 250 + 1 } } else x) })
    else a) s

/-- A thread outside a batch traps where it stands; `f` is the frame of one that has none. -/
def Thread.trapHere (x : Thread) (f : Frame) (c : Code) (detail : Nat) : Thread :=
  { x with st := .trapped, bitten := false, frame := some (x.frame.getD f)
           trap := ⟨c.num, x.pos.block, x.pos.clause, x.pos.instr, detail, 0, false, 0⟩ }

/-- WATCHDOG in one thread (R226): where it stands, or at its next instruction boundary. That is behind an instruction that it has
performed, and one whose TLD or TST is being performed comes to it later. -/
def State.bite (s : State) (u i : Nat) : State :=
  match s.team? u with
  | none => s
  | some t =>
    match (t.thread i).st with
    | .inBatch => match t.batches.find? (fun b => b.threads.contains i) with
      | some b =>
        if b.moving then s.onTeam u (fun x => x.onThread i (fun y => { y with bitten := true }))
        else
          let p := if t.past b i then b.next else b.pos
          (s.trapThread u b.id i .watchdog 0 0 p p).onTeam u (fun x => x.onThread i (fun y => { y with bitten := false }))
      | none => s
    | .waiting => s.onTeam u (fun x => x.onThread i (fun y => y.trapHere (t.standFrame i) .watchdog 0))
    | .resuming => s.onTeam u (fun x => x.onThread i (fun y => y.trapHere (t.standFrame i) .watchdog 0))
    | _ => s.onTeam u (fun x => x.onThread i (fun y => { y with bitten := false }))

/-- Batches left without threads end; a TGEMM that one has issued goes on and still counts under its clause (R118). -/
def Team.sweep (t : Team) : Team :=
  (t.batches.filter (fun b => b.threads.isEmpty)).foldl (fun (a : Team) b =>
    let a1 := match b.sig with | some g => a.withdraw g | none => a
    (if a.gemmIssued b then a1.addPending b.tok 1 0 else a1).endBatch b) t

/-- The watchdog bites (R226): every thread of the team that it counts, in ascending index. -/
def State.biteTeam (s : State) (u : Nat) (t : Team) : State :=
  ((t.indices Thread.counts).foldl (fun (a : State) i => a.bite u i) s).onTeam u Team.sweep

/-- Threads that the watchdog has bitten in the midst of an instruction trap once they have performed it (R226). -/
def State.biteLate (s : State) : State :=
  s.teams.foldl (fun (a : State) t =>
    if t.threads.any (·.bitten) then
      ((t.indices (·.bitten)).foldl (fun (b : State) i => b.bite t.uid i) a).onTeam t.uid Team.sweep
    else a) s

/-- A thread that has taken the fault which another device's answer was has no use for the answer any more (R291). -/
def State.dropAnswers (s : State) : State :=
  if s.net.waits.isEmpty then s
  else s.setNet { s.net with waits := s.net.waits.filter (fun w =>
    !((match w.answer with | some a => a.1 != 0 | none => false) &&
      (match s.team? w.team with | some t => (t.thread w.thread).st == .trapped || (t.thread w.thread).st == .ended | none => true))) }

/-- What the device does by itself after every instruction and event: waits are read again, register deadlocks found,
retired grids reported, teams that nothing keeps leave (R37, R197, R227). -/
def State.settle (s : State) : State :=
  let s1 := s.pollAll
  let s2 := s1.deadlocks
  let s3 := s2.teams.foldl (fun (a : State) t => if t.phase = .retiring then a.leaveTeam t.uid else a) s2
  s3.repost.reportGrids.answerSees.latchWdog.biteLate.stampTraps.dropAnswers

/-- The engine and the copy of a name, where the engine serves it. -/
def State.copyNamed (s : State) (id : Nat) : Option (Nat × Copy) :=
  s.eng.queues.findSome? (fun q => match q.2 with | x :: _ => if x.id = id then some (q.1, x) else none | [] => none)

end Sys2Proof.Machine
end

