-- ==== Sys2Proof/Machine/Hoist.lean ====
section
/-! DEFINITION. The Hoist (R47-R52, R87-R92, R149, R257, R258, R310, R326): selections, batches and clause starts. -/

namespace Sys2Proof.Machine

def Team.skipOf (t : Team) (b : Nat) : Nat := Store.get 0 t.skip b

/-- Blocks in which some thread's bit stands and satisfies a test, ascending. -/
def Team.blocksWhere (t : Team) (p : Thread → Bool) : List Nat :=
  sortNat ((t.threads.filter p).map (·.pos.block))

/-- The eligible blocks (R47). -/
def Team.eligible (t : Team) : List Nat := t.blocksWhere Thread.ready

/-- Every yielded thread made waiting (R49). -/
def Team.wakeYielded (t : Team) (p : Nat → Bool) : Team :=
  { t with threads := t.threads.map (fun x => if x.st = .yielded && p x.pos.block then { x with st := .waiting } else x) }

/-- The block of a list with the largest skip count, the lowest id on a tie (R49). -/
def Team.mostSkipped (t : Team) : List Nat → Option Nat
  | [] => none
  | b :: bs =>
    match Team.mostSkipped t bs with
    | none => some b
    | some c => if t.skipOf c ≤ t.skipOf b then some b else some c

/-- The chosen block of a selection (R49). -/
def Team.choose (t : Team) (skipMax : Nat) (e : List Nat) : Option Nat :=
  match e.filter (fun b => decide (skipMax ≤ t.skipOf b)) with
  | [] => e.head?
  | d => t.mostSkipped d

/-- Skip counts after block c has been chosen among the eligible blocks e (R49). -/
def Team.pass (t : Team) (e : List Nat) (c : Nat) : Team :=
  { t with skip := e.foldl (fun (m : Store Nat) b =>
      if b = c then m else Store.set 0 m b (Nat.min (t.skipOf b + 1) 1023)) [] }

/-- A thread's bit stands in a block's wait mask: it is live (R47). -/
def Team.masked (t : Team) : List Nat := t.blocksWhere Thread.live

/-- The laggard crew (R258): most threads whose bits stand in the two lowest blocks with a non-empty mask. -/
def Team.laggard (t : Team) : Nat :=
  let low := (t.masked).take 2
  let score (c : Nat) : Nat := ((List.range 32).filter (fun j =>
    let x := t.threads.getD (32 * c + j) { Thread.blank with st := .ended }
    x.live && low.contains x.pos.block)).length
  (List.range (t.threads.length / 32)).foldl (fun best c => if score best < score c then c else best) 0

/-- A list cut into pieces of at most 32, in order. -/
def chunks : Nat → List Nat → List (List Nat)
  | 0, _ => []
  | n + 1, l => if l.isEmpty then [] else l.take 32 :: chunks n (l.drop 32)

def posLt (a b : Pos) : Bool := decide (a.clause < b.clause) || (a.clause == b.clause && decide (a.instr < b.instr))

/-- The thread stands behind its clause's header (R92). -/
def Thread.passed (x : Thread) : Bool := match x.frame with | some f => f.passed | none => false

/-- Resume points of a block, in ascending order (R51): a position, and whether it lies behind the clause's header (R92); the
header comes first. -/
def Team.resumePoints (t : Team) (block : Nat) : List (Pos × Bool) :=
  let ps := ((t.threads.filter (fun x => x.st == .resuming && x.pos.block == block && !x.stepping)).map (fun x => (x.pos, x.passed)))
  (sortBy (fun a b => posLt a.1 b.1 || (a.1 == b.1 && !a.2)) ps).foldl
    (fun (acc : List (Pos × Bool)) p => if acc.contains p then acc else acc ++ [p]) []

/-- The batches of a selection, in the order formed (R51): ready resume entries by resume point, then the laggard
crew's waiting threads, then the others. Each is a position and its threads. -/
def Team.formBatches (t : Team) (block lag : Nat) : List (Pos × List Nat) :=
  let res := (t.resumePoints block).flatMap (fun p =>
    (chunks 32 (t.indices (fun x => x.st == .resuming && x.pos == p.1 && x.passed == p.2 && !x.stepping))).map (fun l => (p.1, l)))
  let wait := (List.range t.threads.length).filter (fun i => (t.thread i).st == .waiting && (t.thread i).pos.block == block)
  let order := wait.filter (fun i => crewOf i == lag) ++ wait.filter (fun i => crewOf i != lag)
  res ++ (chunks 33 order).map (fun l => ((⟨block, 0, 0⟩ : Pos), l))

/-- W registers at the entry to a batch (R55): zero, or as the resume frame records. -/
def Thread.enter (x : Thread) : Thread :=
  { x with st := .inBatch
           w := match x.frame with
             | some f => f.w.foldl (fun (m : Store W32) e => Store.set 0 m e.1 e.2) []
             | none => [] }

/-- A batch formed (R51, R89): its flag counts are 0, but for the copies still owed to the batches its threads were
saved out of (R171): `owed` lists batches and flags. Its threads are of one resume point, so all of them have passed the clause's
header or none has (R51, R92, log 89). -/
def mkBatch (t : Team) (owed : List (Nat × Nat)) (id : Nat) (p : Pos) (ths : List Nat) (stepped : Bool) : Batch :=
  let heirs := (ths.flatMap (fun i => match (t.thread i).frame with | some f => f.old | none => [])).eraseDups
  let passed := match ths with | i :: _ => (t.thread i).passed | [] => false
  { id := id, threads := ths, block := p.block, clause := p.clause, instr := p.instr
    addr := (match ths with | i :: _ => (t.thread i).at_ | [] => 0)
    buf := none, passed := passed, tok := 0, acq := [], done := [], held := false, vslice := none
    flags := (owed.filter (fun e => heirs.contains e.1)).foldl (fun (m : Store Nat) e => Store.set 0 m e.2 (Store.get 0 m e.2 + 1)) []
    stepped := stepped, heirs := heirs, sig := none, full := false, charged := false }

/-- The chosen block's threads stream into batches named from `id` on (R48, R51). -/
def Team.stream (t : Team) (owed : List (Nat × Nat)) (block lag : Nat) (ctl : W32) (id : Nat) (bs : List (Pos × List Nat)) : Team :=
  let made := bs.mapIdx (fun k e => mkBatch t owed (id + k) e.1 e.2 false)
  let members := bs.flatMap (·.2)
  { t with
    sel := some ⟨block, made.map (·.id), lag, ctl⟩
    batches := t.batches ++ made
    threads := t.threads.mapIdx (fun i x => if members.contains i then x.enter else x) }

/-- Batch flags of a team that copies and clauses still hold: the batch each is of, and the flag (R89, R169). -/
def State.owed (s : State) (u : Nat) : List (Nat × Nat) :=
  (s.copies.map (·.2) ++ s.eng.saved).filterMap (fun x => match x.signal with
    | .flag v b f => if v = u ∧ f < 8 then some (b, f) else none
    | _ => none) ++
  (match s.team? u with
    | some t => t.toks.flatMap (fun k => (k.holds.filter (fun f => decide (f < 8))).map (fun f => (k.batch, f)))
    | none => [])

/-- A thread's resume frame is not complete yet: a clause it stood in has operations outstanding, a copy of its own names a batch
flag, or a TGEMM it has issued still runs (R92, R118). -/
def State.frameBusy (s : State) (t : Team) (i : Nat) : Bool :=
  (match (t.thread i).frame with
    | some f => f.toks.any (fun k => match t.tok? k with | some x => x.regs != 0 || x.mems != 0 | none => false)
    | none => false) ||
  (match t.gemm with | some g => !g.stopped && g.active.contains i | none => false) ||
    (s.copies.map (·.2) ++ s.eng.saved).any (fun x => match x.issuer, x.signal with
      | .thread u j _, .flag v b f => u == t.uid && v == t.uid && j == i && decide (f < 8) &&
          !(match (t.thread i).frame with | some fr => fr.old.contains b | none => false)
      | _, _ => false)

/-- The team with such threads out of the Hoist's sight, and back in it. -/
def State.veil (s : State) (t : Team) : Team :=
  { t with threads := t.threads.mapIdx (fun i x => if x.st = .resuming && s.frameBusy t i then { x with st := .trapped } else x) }
def State.unveil (s : State) (old t : Team) : Team :=
  { t with threads := t.threads.mapIdx (fun i x =>
      if (old.thread i).st = .resuming && s.frameBusy old i then old.thread i else x) }

/-- A selection that a save left in progress (R220): none of its batches stands. -/
def Team.torn (t : Team) : Bool := match t.sel with | some x => x.batches.all (fun b => (t.batch? b).isNone) | none => false
/-- The batches of such a selection formed again from the threads the save took out of them, by their resume points. -/
def Team.rejoin (t : Team) (x : Sel) : List (Pos × List Nat) :=
  let mine (y : Thread) : Bool := !y.stepping && (match y.frame with | some f => f.old.any x.batches.contains | none => false)
  (t.resumePoints x.block).flatMap (fun p =>
    (chunks 32 (t.indices (fun y => y.st == .resuming && y.pos == p.1 && y.passed == p.2 && mine y))).map (fun l => (p.1, l)))

/-- One selection for a team (R48, R49), or a step of one thread (R61). A selection in progress at a save goes on after the
restore (R220). -/
def State.select (s : State) (u : Nat) : State :=
  match s.team? u with
  | none => s
  | some old =>
    let t := s.veil old
    let ctl := s.ctl.hoistOf t.core
    if !t.placed || t.phase != .live || (t.sel.isSome && !t.torn) || t.leaving then s
    else
      match t.sel with
      | some x =>
        let bs := t.rejoin x
        if bs.isEmpty then s.setTeam { old with sel := none }
        else (s.setTeam (s.unveil old (t.stream (s.owed u) x.block x.laggard x.ctl s.fresh bs))).bump bs.length
      | none =>
        match t.indices (fun x => x.stepping && x.st == .resuming) with
        | i :: _ =>
          -- KRESUME STEP: the thread runs alone as a batch of one (R61)
          let b := mkBatch t (s.owed u) s.fresh (t.thread i).pos [i] true
          let t1 := { t with sel := some ⟨(t.thread i).pos.block, [b.id], 0, ctl⟩, batches := t.batches ++ [b] }
          (s.setTeam (s.unveil old (t1.onThread i (fun x => { x.enter with stepping := false })))).bump 1
        | [] =>
          if t.stopped then s
          else
            let t0 := if t.eligible.isEmpty then t.wakeYielded (fun _ => true) else t
            let e := t0.eligible
            match t0.choose (s.ctl.skipMax t.core) e with
            | none => s
            | some c =>
              let t1 := (t0.pass e c).wakeYielded (fun b => b != c)
              let lag := t1.laggard
              let bs := t1.formBatches c lag
              (s.setTeam (s.unveil old (t1.stream (s.owed u) c lag ctl s.fresh bs))).bump bs.length

-- fetching clauses (R87, R88, R309, R310, R326)

/-- One read through the core's L1 as a clause fetch. -/
def fetchBytes (c : Ctl) (a : Agent) : Nat → Mem → Nat → Got (List Byte)
  | 0, m, _ => .ok [] m
  | n + 1, m, va =>
    match loadGlobal c m a va 8 .fetch with
    | .ok bs m1 =>
      match fetchBytes c a n m1 (va + 8) with
      | .ok rest m2 => .ok (bs ++ rest) m2
      | .fault e => .fault e
      | .held => .held
      | .blocked i => .blocked i
      | .poisoned => .poisoned
    | .fault e => .fault e
    | .held => .held
    | .blocked i => .blocked i
    | .poisoned => .poisoned

/-- The 64-bit words of a list of bytes. -/
def quads : Nat → List Byte → List W64
  | 0, _ => []
  | n + 1, bs => BitVec.ofNat 64 (ofLE (bs.take 8)) :: quads n (bs.drop 8)

/-- Where the code region of an image starts (R87): the first multiple of 64 after the block table. -/
def Grid.codeAt (g : Grid) : Nat := (64 + 4 * g.blocks + 63) / 64 * 64

/-- A block's table entry, read as a clause fetch (R87). -/
def blockEntry (c : Ctl) (m : Mem) (a : Agent) (g : Grid) (b : Nat) : Got Nat :=
  let va := g.image.toNat + 64 + 4 * b
  match loadGlobal c m a va 4 .fetch with
  | .ok bs m1 => .ok (ofLE bs) m1
  | .fault e => .fault e
  | .held => .held
  | .blocked i => .blocked i
  | .poisoned => .poisoned

/-- The offset is the block table's entry of some block (R88). -/
def namesBlock (c : Ctl) (m : Mem) (g : Grid) (off : Nat) : Bool :=
  (List.range g.blocks).any (fun b =>
    match readRegistry c m g.fn g.part (g.image.toNat + 64 + 4 * b) 4 .fetch with
    | .ok bs _ => ofLE bs == off
    | _ => false)

/-- The opcodes of the terminators in the CF map (R53, R323). -/
def terminatorOp (w : W64) : Bool :=
  [0x01, 0x02, 0x03, 0x04, 0x05, 0x06, 0x07, 0x20, 0x22, 0x28].contains (w.extractLsb' 56 8).toNat

/-- The structural checks of a clause (R88): its terminator stands at the end of a BEND clause and nowhere else. -/
def shapeOk (h : Header) (ws : List W64) : Bool :=
  if h.cls == 4 then
    let front := ws.dropLast
    let last := match ws.getLast? with | some w => terminatorOp w | none => false
    front.all (fun w => !terminatorOp w) && (last == h.bend)
  else !h.bend

/-- A clause as a batch finds it: served from the core's clause cache, or fetched (R326); none where its header fails `ok`,
which is found before its words are read (R208, R310). -/
def fetchClause (s : State) (a : Agent) (va : Nat) (ok : Header → Bool) : Got (Option Clause) :=
  match (s.core a.core).clauses.find? (fun e => e.1 == (a.fn, BitVec.ofNat 64 va)) with
  | some e => .ok (if ok (Header.ofWord e.2.header) then some e.2 else none) s.mem
  | none =>
    match fetchBytes s.ctl a 1 s.mem va with
    | .ok hb m1 =>
      let hw := BitVec.ofNat 64 (ofLE hb)
      if !ok (Header.ofWord hw) then .ok none m1
      else
        let n := (Header.ofWord hw).cnt.toNat + 1
        match fetchBytes s.ctl a n m1 (va + 8) with
        | .ok bs m2 => .ok (some ⟨hw, quads n bs⟩) m2
        | .fault e => .fault e
        | .held => .held
        | .blocked i => .blocked i
        | .poisoned => .poisoned
    | .fault e => .fault e
    | .held => .held
    | .blocked i => .blocked i
    | .poisoned => .poisoned

/-- A clause kept in the core's clause cache. -/
def State.cacheClause (s : State) (a : Agent) (va : Nat) (c : Clause) : State :=
  let k := s.core a.core
  if k.clauses.any (fun e => e.1 == (a.fn, BitVec.ofNat 64 va)) then s
  else s.setCore a.core { k with clauses := ((a.fn, BitVec.ofNat 64 va), c) :: k.clauses }

/-- The flags a header's WAIT names. -/
def waitFlags (h : Header) : List Nat := (List.range 12).filter (fun n => h.wait.getLsbD n)
def setaOf (h : Header) : Option Nat := if h.setav then some h.seta.toNat else none
def setbOf (h : Header) : Option Nat := if h.setbv then some h.setb.toNat else none

/-- Every flag the clause waits on reads 1 (R89). -/
def Team.flagsReady (t : Team) (b : Batch) (h : Header) : Bool := (waitFlags h).all (fun f => t.flagOf b f == 0)

/-- The clause starts (R89, R92, R149): SETA and SETB rise by one each, and the batch acquires at PART when an engine
copy has completed on a flag it waits on. -/
def State.beginClause (s : State) (c : Ctx) (cl : Clause) : State :=
  let h := Header.ofWord cl.header
  let b := s.curBatch c
  let s1 := if (waitFlags h).any b.acq.contains then s.acquire c.team.core else s
  let id := s1.fresh
  s1.onCur c (fun t =>
    let k : Tok := ⟨id, b.id, b.threads, setaOf h, setbOf h, 0, 0, 0, false, (setaOf h).isNone, (setbOf h).isNone⟩
    let t1 := { t with toks := t.toks ++ [k] }
    let t2 := match setaOf h with | some f => t1.raiseFlag b.id f 1 | none => t1
    let t3 := match setbOf h with | some f => t2.raiseFlag b.id f 1 | none => t2
    match t3.batch? b.id with
    | some y => { t3.setBatch { y with buf := some cl, tok := id, acq := [], held := false, instr := if y.passed then y.instr else 0 } with starve := 0 }
    | none => t3) |>.bump 1

/-- A fault at the clause's header or its block's entry: every thread of the batch, at instruction 0 (R87, R310). After
ILLEGAL_CLAUSE the clause is replayed from its header; a thread whose clause could not be fetched again goes on where it stood. -/
def State.clauseFault (s : State) (c : Ctx) (code : Code) (addr : W64) : State :=
  let p : Pos := ⟨c.batch.block, c.batch.clause, 0⟩
  let afresh := decide (code = .illegalClause) || !c.batch.passed
  let s1 := (sortNat c.batch.threads).foldl (fun (a : State) i =>
    let old := (c.team.thread i).frame
    let b := a.trapThread c.team.uid c.batch.id i code 0 addr p (if afresh then p else c.batch.pos)
    b.onTeam c.team.uid (fun t => t.onThread i (fun x =>
      { x with frame := match x.frame with
          | some f => some { f with
              log := if afresh then none else old.bind (·.log)
              passed := !afresh
              grant := if afresh then none else f.grant }
          | none => none }))) s
  s1.moveOn c []

/-- The issuing batch waits before its clause: a flag, a claimed line or a blocked page holds it. -/
def State.holdClause (s : State) (c : Ctx) : State := s.waitHere c

/-- A batch starts its next clause (R87-R92, R310, R326). -/
def State.startClause (s : State) (c : Ctx) : State :=
  let t := c.team
  let b := c.batch
  let g := s.gridOf t
  let a := s.agent t
  -- the block's table entry, at its first clause
  let entry : Got W64 :=
    if b.clause = 0 then
      if g.blocks ≤ b.block then .fault .illegalClause
      else match blockEntry s.ctl s.mem a g b.block with
        | .ok off m =>
          if off % 8 ≠ 0 ∨ off < g.codeAt ∨ g.doff < off + 16 then .fault .illegalClause
          else .ok (g.image + BitVec.ofNat 64 off) m
        | .fault e => .fault e
        | .held => .held
        | .blocked i => .blocked i
        | .poisoned => .poisoned
    else .ok b.addr s.mem
  match entry with
  | .fault e => s.clauseFault c e (if e = .illegalClause then 0 else g.image + BitVec.ofNat 64 (64 + 4 * b.block))
  | .held => s.holdClause c
  | .blocked i => (s.queueAt i c 0).holdClause c
  | .poisoned => s.endTeam t.uid (some Code.uncorrectable.num)
  | .ok va m =>
    let s1 := (s.setMem m).onCur c (fun x => match x.batch? b.id with
      | some y => x.setBatch { y with addr := va }
      | none => x)
    let off := va.toNat - g.image.toNat
    if g.doff < off + 16 then s1.clauseFault c .illegalClause 0
    else
      let sound (h : Header) : Bool :=
        h.ok && decide (off + 8 * (h.cnt.toNat + 2) ≤ g.doff) && !(b.clause != 0 && namesBlock s1.ctl s1.mem g off)
      match fetchClause s1 a va.toNat sound with
      | .fault e => s1.clauseFault c e va
      | .held => s1.holdClause c
      | .blocked i => (s1.queueAt i c 0).holdClause c
      | .poisoned => s1.endTeam t.uid (some Code.uncorrectable.num)
      | .ok none m2 => (s1.setMem m2).clauseFault c .illegalClause 0
      | .ok (some cl) m2 =>
        let s2 := (s1.setMem m2).cacheClause a va.toNat cl
        let h := Header.ofWord cl.header
        if !shapeOk h cl.words then s2.clauseFault c .illegalClause 0
        else if !b.passed && !((s2.curTeam c).flagsReady (s2.curBatch c) h) then s2.holdClause c
        else s2.beginClause c cl

end Sys2Proof.Machine
end

