-- ==== Sys2Proof/Machine/Clock.lean ====
section
/-! DEFINITION. Time (R22, R134, R190, R222, R276, R277, R303): what passes for the whole device as its time goes on, and the
cycles an instruction waits for and occupies on its core. `Sched.now` is the time of the latest act. A core lags behind it until it is
next looked at (log 10). -/

namespace Sys2Proof.Machine

/-- Time passes to `t` picoseconds: the cycle's barriers open (R178), registrations are accepted (R134), parked threads and
unplaced teams wait (R190, R226), turns run down (R222), a start goes on (R303). -/
def State.elapseTo (s : State) (t : Nat) : State :=
  if t ≤ s.sched.now then s
  else
    let dt := t - s.sched.now
    -- the device's cycle ends with the barriers that its acts have reached
    let s0 := if s.sched.now / 250 = t / 250 then s else s.openTests
    let s1 := (s0.setSched { s0.sched with now := t }).setMem (s0.mem.age s.sched.now t)
    let s2 := s1.setBoot { s1.boot with began := s1.boot.began + dt, stageAt := s1.boot.stageAt + dt }
    let s3 := s2.setWork { s2.work with turnLeft := s2.work.turnLeft.map (fun e => (e.1, e.2 - dt)) }
    let s4 := s3.grids.foldl (fun (a : State) g =>
      if !g.retired && a.hasTurn g.fn g.part then a.onGrid g.uid (fun y => { y with waited := y.waited + dt }) else a) s3
    s4.teams.foldl (fun (a : State) x =>
      if x.placed && x.threads.any (fun th => match th.st with | .parked _ => true | _ => false) then
        a.onTeam x.uid (fun y => { y with threads := y.threads.map (fun th => match th.st with
          | .parked _ => { th with parkedFor := th.parkedFor + dt }
          | _ => th) })
      else if !x.placed && x.phase != .ended && a.hasTurn (a.gridOf x).fn (a.gridOf x).part then
        a.onTeam x.uid (fun y => { y with waited := y.waited + dt })
      else a) s4

/-- Cycles pass until the slice has an issue cycle; at most seven. -/
def State.toIssue (k slice : Nat) : Nat → State → State
  | 0, s => s
  | n + 1, s => if (s.core k).issues slice then s else State.toIssue k slice n (s.tickCore k)

/-- The first issue cycle of a slice, in cycles from now; 8 where it has none. -/
def Core.nextIssue (c : Core) (slice : Nat) : Nat :=
  ((List.range 8).find? (fun j => issueCycle (c.eff slice) (c.cyc + j))).getD 8

/-- The free vector slice whose next issue cycle comes first, the lowest-numbered on a tie (R277). -/
def State.pickSlice (s : State) (k : Nat) : Nat :=
  let busy := s.teams.flatMap (fun t => if t.placed && t.core == k then t.batches.filterMap (·.vslice) else [])
  let free := [1, 2, 3, 4].filter (fun x => !busy.contains x)
  let c := s.core k
  (free.foldl (fun (best : Nat × Nat) x => if c.nextIssue x < best.1 then (c.nextIssue x, x) else best) (9, 1)).2

/-- The weight of a VX instruction, per lane (R282). -/
def vxWeight : Instr → Nat
  | .fadd .. => 3 | .fsub .. => 3 | .fmul .. => 3 | .fma .. => 3 | .fmin .. => 3 | .fmax .. => 3 | .fabs .. => 3
  | .fneg .. => 3 | .fcmp .. => 3 | .fclass .. => 3 | .frcp .. => 3 | .frsq .. => 3 | .fsqrt .. => 3 | .fdiv .. => 3
  | .fexp2 .. => 3 | .flog2 .. => 3 | .cvt .. => 3 | .qnt .. => 3 | .dqnt .. => 3
  | _ => 1

/-- The weight of another instruction by its class (R282). -/
def clsWeight : Cls → Nat
  | .mx => 16
  | .ex => 16
  | _ => 8

/-- The cycles pass that the core's instruction still occupies its slice for (R276, R277). -/
def State.finishJob (k : Nat) : Nat → State → State
  | 0, s => s
  | n + 1, s => if (s.core k).job.lanes = 0 then s else State.finishJob k n (s.tickCore k)
/-- The core as its next issue finds it: its cycles have passed up to now, and the previous instruction has left its slice. -/
def State.standBy (s : State) (k : Nat) : State := State.finishJob k 512 (s.catchUp k)

/-- The batch keeps a vector slice until its clause ends (R277). -/
def State.takeSlice (s : State) (c : Ctx) (x : Nat) : State :=
  s.onCur c (fun t => match t.batch? c.batch.id with
    | some b => t.setBatch { b with vslice := some x }
    | none => t)

/-- The device's time comes to the cycle that the core stands at. -/
def State.atCore (s : State) (k : Nat) : State := s.elapseTo (s.core k).at_

/-- Before an instruction of the issuing batch: its core stands at the next issue cycle of the instruction's slice (R276, R277),
and that is the present. -/
def State.beforeIssue (s : State) (c : Ctx) (cls : Cls) : State :=
  let k := c.team.core
  let s1 := (s.standBy k).markFull c false
  let x := match cls with | .vx => c.batch.vslice.getD (s1.pickSlice k) | _ => sliceScalar
  ((if cls = .vx then s1.takeSlice c x else s1).toIssue k x 8).atCore k

/-- When a batch could next issue: where it stands before a clause start, at once, and else at its slice's next issue cycle. -/
def State.issueTime (s : State) (u b : Nat) : Nat :=
  match s.team? u with
  | none => s.sched.now
  | some t =>
    let s1 := s.standBy t.core
    let c := s1.core t.core
    let n := match (t.batch? b).bind (fun y => y.word.map (fun w => (w.1, y.vslice))) with
      | some (.vx, v) => c.nextIssue (v.getD (s1.pickSlice t.core))
      | some _ => c.nextIssue sliceScalar
      | none => 0
    c.at_ + 250 * n + 250 * Nat.min n (c.stretch - 1)

/-- The slice an instruction occupies, its weight there and its lanes (R277, R282). -/
def jobOf (b : Batch) (cls : Cls) (i : Option Instr) (team : Nat) : Job :=
  match cls, i with
  | .vx, some j => ⟨b.vslice.getD 1, vxWeight j, b.threads.length, team⟩
  | .vx, none => ⟨b.vslice.getD 1, 1, b.threads.length, team⟩
  | x, _ => ⟨sliceScalar, clsWeight x, 1, team⟩

/-- After it: it occupies its slice from the present cycle on (R276, R277). An instruction that is held takes its cycles once, and
one of class CF that waits, a terminator (R90), only when it is executed. -/
def State.afterIssue (s : State) (c : Ctx) (cls : Cls) (i : Option Instr) : State :=
  let t := s.curTeam c
  let held := match t.batch? c.batch.id with | some b => b.held && decide (b.pos = c.batch.pos) | none => false
  if c.batch.charged || (held && cls == .cf) then s
  else
    let j := jobOf c.batch cls i (if t.wdogNew then c.team.uid + 1 else 0)
    let s1 := s.setCore c.team.core { s.core c.team.core with job := j }
    if held then s1.onCur c (fun x => match x.batch? c.batch.id with
      | some b => x.setBatch { b with charged := true }
      | none => x) else s1

/-- The issue cycles a tile operation occupies its matrix slice for (R119). -/
def State.occupyMatrix (s : State) (k n : Nat) : State :=
  let c := s.core k
  s.setCore k { c with matrix := c.matrix + n }

end Sys2Proof.Machine
end

