-- ==== Sys2Proof/Machine/Queue.lean ====
section
/-! DEFINITION. The device queues as the command processors see them (R248-R255): mappings, slots, and which packet can
start. -/

namespace Sys2Proof.Machine

def firstSome {α : Type} : List (Option α) → Option α
  | [] => none
  | some x :: _ => some x
  | none :: xs => firstSome xs

/-- A function queue's registers. -/
def State.devq (s : State) (fn q : Nat) : Queue := Store.get Queue.zero s.queues.q (fn * 64 + q)
def State.setDevq (s : State) (fn q : Nat) (x : Queue) : State :=
  s.setQueues { s.queues with q := Store.set Queue.zero s.queues.q (fn * 64 + q) x }

/-- The function queue is mapped to a device queue (R250). -/
def Ctl.qMapped (c : Ctl) (fn q : Nat) : Bool := bit (c.qmapOf fn q).toNat 31
/-- The device queue it is mapped to. -/
def Ctl.dqOf (c : Ctl) (fn q : Nat) : Nat := bits (c.qmapOf fn q).toNat 0 12
/-- The partition it serves (R250). -/
def Ctl.qPart (c : Ctl) (fn q : Nat) : Nat := if fn = 0 then bits (c.qmapOf fn q).toNat 24 4 else c.vfPart fn
/-- Its command processor (R253). -/
def Ctl.cpOf (c : Ctl) (fn q : Nat) : Nat :=
  let part := c.qPart fn q
  let k := c.partSize part
  if k = 0 then part else part + c.dqOf fn q % k

def Queue.en (x : Queue) : Bool := bit x.ctl.toNat 0
def Queue.err (x : Queue) : Bool := bit x.ctl.toNat 31
def Queue.prio (x : Queue) : Nat := bits x.ctl.toNat 4 3
/-- Packets its ring holds (R248). -/
def Queue.size (x : Queue) : Nat := 2 ^ (bits x.ctl.toNat 8 4 + 4)
/-- A queue is ready (R253). -/
def Queue.ready (x : Queue) : Bool := x.en && !x.err && x.k != x.rd

/-- A BARRIER_AND of the queue waits (R251). -/
def State.anding (s : State) (fn q : Nat) : Bool := s.queues.packets.any (fun p => p.fn == fn && p.q == q && p.kind == 3)
/-- Some packet of the queue has started and not completed. -/
def State.packetsOut (s : State) (fn q : Nat) : Bool := s.queues.packets.any (fun p => p.fn == fn && p.q == q)

/-- No scheduler core is at work: a takeover awaits validation, or none is left (R255). -/
def State.schedIdle (s : State) : Bool := s.recsHeld || bit s.ctl.schedStat.toNat 31

-- the order of R254

/-- Among queues that compete, the one with the highest PRIO; among equals the first at or after the pointer of that
PRIO, wrapping. -/
def State.pick (s : State) (ptrs : Store Nat) (cp : Nat) (ks : List Nat) : Option Nat :=
  let prio (k : Nat) : Nat := (s.devq (k / 64) (k % 64)).prio
  let dq (k : Nat) : Nat := s.ctl.dqOf (k / 64) (k % 64)
  let top := (ks.map prio).foldl Nat.max 0
  let ptr := Store.get 0 ptrs (cp * 8 + top)
  let turn (k : Nat) : Nat := (dq k + 4096 - ptr) % 4096
  (ks.filter (fun k => prio k == top)).foldl (fun (best : Option Nat) k =>
    match best with
    | none => some k
    | some b => if turn k < turn b then some k else best) none

/-- The pointer after a win (R254). -/
def State.movePtr (s : State) (ptrs : Store Nat) (cp k : Nat) : Store Nat :=
  Store.set 0 ptrs (cp * 8 + (s.devq (k / 64) (k % 64)).prio) ((s.ctl.dqOf (k / 64) (k % 64) + 1) % 4096)

/-- A journal entry, with a snapshot of the pending-kick bitmap (R255). -/
def State.journalise (s : State) (k : Nat) : State :=
  let x := s.devq (k / 64) (k % 64)
  s.setQueues { s.queues with
    journal := Store.set (0, 0, false) s.queues.journal k (x.rd, x.k, s.queues.slots.any (fun e => e.2 == k))
    snapshot := (s.queues.q.filter (fun e => e.2.pend)).map (·.1) }

/-- A queue leaves its slot (R253); with packets unstarted, its bit of the bitmap is set again. -/
def State.unmapSlot (s : State) (k : Nat) : State :=
  let x := s.devq (k / 64) (k % 64)
  let s1 := s.setQueues { s.queues with slots := s.queues.slots.filter (fun e => e.2 != k) }
  (s1.setDevq (k / 64) (k % 64) { x with pend := x.pend || x.k != x.rd }).journalise k
/-- A queue takes a slot: its command processor reads k (R249, R253). -/
def State.mapSlot (s : State) (cp k : Nat) : State :=
  let x := s.devq (k / 64) (k % 64)
  let s1 := s.setQueues { s.queues with slots := s.queues.slots ++ [(cp, k)], slotPtr := s.movePtr s.queues.slotPtr cp k }
  (s1.setDevq (k / 64) (k % 64) { x with pend := false }).journalise k

/-- Ready queues of a command processor that have no slot. -/
def State.slotless (s : State) (cp : Nat) : List Nat :=
  (s.queues.q.filter (fun e => e.2.ready && s.ctl.qMapped (e.1 / 64) (e.1 % 64) && s.ctl.cpOf (e.1 / 64) (e.1 % 64) == cp &&
    !s.queues.slots.any (fun x => x.2 == e.1))).map (·.1)

-- which packet can start (R251)

/-- The packet at a queue's RD, as the ring holds it. -/
def State.packetAt (s : State) (fn q : Nat) : Got (List Byte) :=
  let x := s.devq fn q
  deviceRead s.ctl s.mem fn (s.ctl.qPart fn q) (bits x.base.toNat 6 51 * 64 + 64 * (x.rd.toNat % x.size)) 64 .read

/-- A function's packets may start now: it has its turn (R223, R266). -/
def State.mayRun (s : State) (fn q : Nat) : Bool := s.hasTurn fn (s.ctl.qPart fn q)

/-- A queue's next packet, where it can start; a packet that stops the queue shows as a LAUNCH. -/
def State.packetAct (s : State) (fn q : Nat) : Option Act :=
  let x := s.devq fn q
  if !x.ready || s.schedIdle || !s.mayRun fn q || !s.queues.slots.any (fun e => e.2 == fn * 64 + q) || s.anding fn q then none
  else
    match s.packetAt fn q with
    | .held => none
    | .blocked _ => none
    | .ok bs _ =>
      let ty := ofLE ((bs.drop 56).take 1)
      let ring := field bs (match ty with | 2 => 16 | 3 => 40 | _ => 0) 8
      if (bit (ofLE ((bs.drop 57).take 1)) 0 || ty == 3) && s.packetsOut fn q then none
      else if decide (2 ≤ ty ∧ ty ≤ 4) && ring != 0 && s.ringHeld fn (s.ctl.qPart fn q) ring then none
      else match ty with
        | 2 => if s.engineFor (s.ctl.qPart fn q) = .full then none else some (.event (.packetCopy fn q))
        | 1 => if s.launchHeld fn (s.ctl.qPart fn q) (descOf bs) none then none else some (.event (.packetLaunch fn q))
        | 3 => some (.event (.packetBarrierAnd fn q))
        | 4 => some (.event (.packetSignal fn q))
        | _ => some (.event (.packetLaunch fn q))
    | _ => some (.event (.packetLaunch fn q))

/-- A packet of the queue stands between its read and its start: it has waited for an earlier packet, for an engine or for
memory, or it waits now. -/
def State.reading (s : State) (fn q : Nat) : Bool :=
  (s.devq fn q).read || ((s.devq fn q).ready && !s.schedIdle && s.mayRun fn q && (s.packetAct fn q).isNone &&
    (match s.packetAt fn q with | .ok _ _ => true | _ => false))
/-- What the command processors have read stays read until it starts (R253). -/
def State.markRead (s : State) : State :=
  s.queues.slots.foldl (fun (a : State) e =>
    if !(a.devq (e.2 / 64) (e.2 % 64)).read && a.reading (e.2 / 64) (e.2 % 64) then
      a.setDevq (e.2 / 64) (e.2 % 64) { a.devq (e.2 / 64) (e.2 % 64) with read := true } else a) s

-- slots (R253, R254)

/-- The mapped queue of the lowest PRIO below a bound that has no packet between read and start, the earliest mapped on a tie
(R253). -/
def State.weakest (s : State) (cp bound : Nat) : Option Nat :=
  let prio (k : Nat) : Nat := (s.devq (k / 64) (k % 64)).prio
  ((s.queues.slots.filter (fun e => e.1 == cp)).map (·.2)).foldl (fun (best : Option Nat) k =>
    if bound ≤ prio k || s.reading (k / 64) (k % 64) then best
    else match best with
      | none => some k
      | some b => if prio k < prio b then some k else best) none

/-- One slot of a command processor taken by a queue that waits for it (R253, R254); none where none can be. -/
def State.slotStep (s : State) (cp : Nat) : Option State :=
  match s.pick s.queues.slotPtr cp (s.slotless cp) with
  | none => none
  | some k =>
    if (s.queues.slots.filter (fun e => e.1 == cp)).length < 32 then some (s.mapSlot cp k)
    else match s.weakest cp (s.devq (k / 64) (k % 64)).prio with
      | some w => some ((s.unmapSlot w).mapSlot cp k)
      | none => none

def State.slotSteps (cp : Nat) : Nat → State → State
  | 0, s => s
  | n + 1, s => match s.slotStep cp with
    | some t => State.slotSteps cp n t
    | none => s

/-- The command processors read k of their mapped queues (R249): the bit of the bitmap is cleared, and the journal has k (R255). -/
def State.readKicks (s : State) : State :=
  s.queues.slots.foldl (fun (a : State) e =>
    let x := a.devq (e.2 / 64) (e.2 % 64)
    if x.pend then (a.setDevq (e.2 / 64) (e.2 % 64) { x with pend := false }).journalise e.2 else a) s
/-- The slots as they settle (R253): queues with no unstarted packet leave, ready queues enter. -/
def State.settleSlots (s : State) : State :=
  if s.schedIdle then s
  else
    let s0 := s.readKicks
    let gone := (s0.queues.slots.filter (fun e =>
      let x := s0.devq (e.2 / 64) (e.2 % 64)
      x.k == x.rd && !s0.anding (e.2 / 64) (e.2 % 64))).map (·.2)
    let s1 := gone.foldl (fun (a : State) k => a.unmapSlot k) s0
    (List.range 12).foldl (fun (a : State) cp => State.slotSteps cp (a.slotless cp).length a) s1

/-- The queue wins the next packet start of its command processor (R254). -/
def State.startWins (s : State) (fn q : Nat) : Bool :=
  let cp := s.ctl.cpOf fn q
  let ks := ((s.queues.slots.filter (fun e => e.1 == cp)).map (·.2)).filter (fun k => (s.packetAct (k / 64) (k % 64)).isSome)
  s.pick s.queues.startPtr cp ks == some (fn * 64 + q)

/-- A waiting BARRIER_AND's handles are all done (R35, R251). -/
def State.andDone (s : State) (p : Packet) : Bool :=
  (p.words.take 5).all (fun h => h == 0 || (match s.target? h with | some x => (s.endSeen x).isSome | none => true))

end Sys2Proof.Machine
end

