-- ==== Sys2Proof/Machine/Issue.lean ====
section
/-! DEFINITION. What a batch does next, a word that does not decode (R311, R324), and what can move where the agenda
names nothing (log 2). -/

namespace Sys2Proof.Machine

/-- A word that raises ILLEGAL_INSTRUCTION (R311): in a word of class SC or CF every thread of the batch faults, in one
of class VX, MX, EX or TX every active thread, and with none the word has no effect. -/
def State.badWord (s : State) (c : Ctx) (cls : Cls) : State :=
  let who := match cls with
    | .sc => c.batch.threads
    | .cf => c.batch.threads
    | _ => c.team.active c.batch
  (s.raiseAll c .illegalInstruction 0 (sortNat who)).moveOn c []

/-- Every batch held at its instruction tries again: something has changed. -/
def State.rouse (s : State) : State :=
  s.teams.foldl (fun (a : State) t =>
    if t.batches.any (·.held) then
      a.onTeam t.uid (fun x => { x with batches := x.batches.map (fun b => { b with held := false }) })
    else a) s

/-- No batch issues any more. -/
def State.clearCur (s : State) : State := s.setSched { s.sched with cur := none, tick := s.sched.tick + 1 }
/-- A batch issues. -/
def State.setCur (s : State) (u b : Nat) : State := s.setSched { s.sched with cur := some (u, b) }

-- the order of R257

/-- The batch of a team that issues next: one in a clause first, then one before a clause start; none that is held. Of a team on
its way out, one whose tile operation has issued (R102). -/
def Team.nextBatch (t : Team) : Option Nat :=
  let bs := if t.leaving then t.batches.filter (·.moving) else t.batches
  match bs.find? (fun b => !b.held && b.buf.isSome) with
  | some b => some b.id
  | none => (bs.find? (fun b => !b.held && b.buf.isNone)).map (·.id)

/-- The teams placed on a core, from the place the round stands at (R257). -/
def State.round (s : State) (k : Nat) : List Team :=
  let here := s.teams.filter (fun t => t.placed && t.core == k && t.phase == .live && (!t.leaving || t.batches.any (·.moving)))
  let c := s.core k
  let from_ := if c.left = 0 then c.turn + 1 else c.turn
  (List.range 4).flatMap (fun j => here.filter (fun t => t.place == (from_ + j) % 4))

/-- A batch of the team is ready to issue: to start a clause (R257). -/
def Team.startable (t : Team) : Bool := !t.leaving && t.batches.any (fun b => !b.held && b.buf.isNone)

/-- A NOON team that has gone without an issue for FAIR_WINDOW − 32 cycles (R257). -/
def Team.starved (t : Team) : Bool := t.cls == 2 && decide (0 < t.starve) && decide (t.fair - 32 ≤ t.starve)

/-- Such teams of a core with a batch ready to issue, the one that has waited longest first. -/
def State.starving (s : State) (k : Nat) : List Team :=
  sortBy (fun (a b : Team) => decide (b.starve < a.starve)) ((s.round k).filter (fun t => t.startable && t.starved))

/-- The team of a core that the next batch issue is granted to, and whether it comes ahead of the round (R257). -/
def State.issueTeam (s : State) (k : Nat) : Option (Nat × Bool) :=
  let ready := (s.round k).filter Team.startable
  match s.starving k with
  | t :: _ => some (t.uid, (ready.head?.map (·.uid)) != some t.uid)
  | [] => ready.head?.map (fun t => (t.uid, false))

/-- The batch's issue, and whether it comes ahead of the round; none where another team's is due first. A batch that was held is
looked at again. -/
def State.mayStart (s : State) (c : Ctx) : Option Bool :=
  let s1 := s.onCur c (fun t => match t.batch? c.batch.id with
    | some b => t.setBatch { b with held := false }
    | none => t)
  match s1.issueTeam c.team.core with
  | some (u, ahead) => if u = c.team.uid then some ahead else none
  | none => none

/-- What a core does next: a starved team's batch; or, in the order of the round, a batch that goes on in its clause or starts
one (R257). -/
def State.nextIssueOf (s : State) (k : Nat) : Option (Nat × Nat) :=
  match s.starving k ++ (s.round k).filter (fun t => t.nextBatch.isSome) with
  | [] => none
  | t :: _ => t.nextBatch.map (fun b => (t.uid, b))

/-- A clause start uses up an issue of its team's share of the round; one ahead of the round does not move it (R257). -/
def State.spendIssue (s : State) (c : Ctx) (ahead : Bool) : State :=
  let k := s.core c.team.core
  let w := s.prioOf c.team.grid c.team.lin + 1
  if ahead then s
  else if k.turn = c.team.place ∧ 0 < k.left then s.setCore c.team.core { k with left := k.left - 1 }
  else s.setCore c.team.core { k with turn := c.team.place, left := w - 1 }

-- what moves where the agenda is empty

/-- Cores that hold a placed team. -/
def State.busyCores (s : State) : List Nat := sortNat ((s.teams.filter (·.placed)).map (·.core))

/-- A team can make a selection (R48). -/
def State.selectable (s : State) (old : Team) : Bool :=
  let t := s.veil old
  t.placed && t.phase == .live && (t.sel.isNone || t.torn) && !t.leaving &&
    (t.torn || t.threads.any (fun x => x.stepping && x.st == .resuming) ||
      (!t.stopped && t.threads.any (fun x => x.st == .waiting || x.st == .resuming || x.st == .yielded)))

/-- Something the dispatcher of a partition can do (R191). -/
def State.canDispatch (s : State) (part : Nat) : Bool :=
  s.teams.any (fun t => t.leaving && !t.ticked && (s.gridOf t).part == part && s.saveReady t.uid) ||
  s.work.plans.any (fun e => match s.team? e.1 with
    | some t => (s.gridOf t).part == part && !t.placed && s.hasTurn (s.gridOf t).fn part &&
        fitsOn ((s.teams.filter (fun x => x.placed && x.uid != t.uid)).map s.resOf) (s.gridOf t) e.2 &&
        !(t.phase == .unstarted && s.dataHeld (s.gridOf t))
    | none => false) ||
  (let late := s.duskLate part
   (s.candidates part (fun g l => s.prioBase (g, l))).any (fun c => !(late && c.cls == 0) && (s.coreFor s.occupied c.g).isSome))

/-- Register writes of a token that only a later event completes: HSENDs in transfer (R245), a restored TGEMM (R118). -/
def State.reserved (s : State) (t : Team) (k : Tok) : Nat :=
  (s.pairs.transfers.filter (fun x => x.team == t.uid && x.tok == k.id)).length +
    (match t.gemm with | some g => if g.tok == k.id && !g.stopped && (t.batch? g.batch).isNone then 1 else 0 | none => 0)

/-- The condition word of a COND or WHILE node (R182). -/
def Node.cond (x : Node) : Nat := ofLE (x.payload.take 8)
/-- It can be read now, or its read faults. -/
def State.condReady (s : State) (t : Team) (x : Node) : Bool :=
  match readRegistry s.ctl s.mem (s.gridOf t).fn (s.gridOf t).part x.cond 4 .read with
  | .held => false
  | .blocked _ => false
  | _ => true

/-- A LAUNCH node can act: its core's writes can be performed, and its descriptor can be read (R182). -/
def State.descReady (s : State) (t : Team) (x : Node) : Bool :=
  let g := s.gridOf t
  if !s.mem.coreFree t.core then false
  else if ofLE (x.payload.take 8) % 64 ≠ 0 then true
  else match deviceRead s.ctl s.mem g.fn g.part (ofLE (x.payload.take 8)) 64 .read with
  | .ok bs m => !(s.setMem m).launchHeld g.fn g.part (descOf bs) (t.walker.map (·.ring))
  | .held => false
  | .blocked _ => false
  | _ => true

/-- A node of a team's graph whose finish is to be dealt with (R184): its work is over, or it has a condition to read. -/
def State.walkerNext (s : State) (t : Team) : Option Nat :=
  match t.walker with
  | none => none
  | some g =>
    if !(t.placed || t.phase == .retiring) || t.saved then none
    else (List.range g.nodes.length).find? (fun i => match g.nodes[i]? with
      | some x => x.running && (x.finished || (x.type == 2 && x.work.isNone && s.descReady t x) || ((x.type == 3 || x.type == 4) && s.condReady t x) ||
          (match x.work with | some w => s.gridRetired w | none => false))
      | none => false)

/-- The MODE 0 VFs of a partition that have a core, ascending: those that take turns (R266). -/
def State.sharedVfs (s : State) (part : Nat) : List Nat :=
  sortNat (s.ctl.vfs.filter (fun f => !s.ctl.vfSubset f && s.ctl.vfPart f == part && !(s.ctl.coresOf f part).isEmpty))
/-- A tenant's slice is over and another waits for its turn (R222, R266). -/
def State.tickDue (s : State) (part : Nat) : Bool :=
  decide (2 ≤ (s.sharedVfs part).length) && (Store.get none s.work.turns part).isSome && decide (Store.get 0 s.work.turnLeft part = 0) &&
    !s.work.saves.any (fun x => x.part == part)
/-- Teams of a save's share (R223): the outgoing tenant's, on a die; the hub die's share has none. -/
def State.shareTeams (s : State) (x : Save) (die : Nat) : List Team :=
  s.teams.filter (fun t => t.placed && (s.gridOf t).fn == x.fn && (s.gridOf t).part == x.part && t.core / 72 == die && decide (die < 4))
/-- The share can be saved now (R171, R221). -/
def State.shareReady (s : State) (x : Save) (die : Nat) : Bool :=
  (s.shareTeams x die).all (fun t => s.saveReady t.uid) && s.areaFits x.fn (s.shareTeams x die)

end Sys2Proof.Machine
end

