-- ==== Sys2Proof/Machine/Scalar.lean ====
section
/-! DEFINITION. The scalar group without memory (R93, R389-R394, R396-R398, R400): once per batch, whatever the predicates. -/

namespace Sys2Proof.Machine

/-- A reader for a batch's scalar operands: S registers only, through the log of the batch's first thread (R59). -/
def State.sRd (s : State) (c : Ctx) : Rd := s.rd c.team (c.batch.threads.headD 0)

/-- The handle in the first register of a list that carries the linear tag: the fault address of LINEAR_COPY (R211, R232). -/
def Team.linear? (t : Team) (ns : List Nat) : Option W64 := (ns.find? t.tagged).map (fun n => Store.get 0 t.s n)

/-- S[d] written at its place in program order. -/
def State.putS (s : State) (c : Ctx) (d : SReg) (v : W64) : State := s.onCur c (fun t => t.putSNow d.val v)

/-- S[d] written as a long-latency register write under the clause's token (R90). -/
def State.putSLate (s : State) (c : Ctx) (d : SReg) (v : W64) : State :=
  (s.onCur c (fun t => ((t.noteOldS c.batch.tok s.fresh d.val).putS d.val v).addPending c.batch.tok 1 0)).bump 1

/-- R390: a result of width w in 64 bits. A 32-bit result keeps the upper half of S[a]. -/
def sPlace (ty : Ty) (a : W64) (raw : Nat) : W64 :=
  if ty.bits = 32 then BitVec.ofNat 64 (raw % 2 ^ 32 + a.toNat / 2 ^ 32 * 2 ^ 32) else sWiden ty raw

/-- A scalar instruction that writes one result from sources none of which may be tagged (R232, R389). -/
def scalarOp (d : SReg) (srcs : List SReg) (late : Bool) (f : Rd → W64) (s : State) : Host.Outcome State Fault Refusal :=
  scalarEffect s (fun c =>
    match c.team.linear? (d.val :: srcs.map (·.val)) with
    | some h => .fault s .linearCopy h
    | none =>
      if late then .done (s.putSLate c d (f (s.sRd c)))
      else .done (s.putS c d (f (s.sRd c))))

/-- A two-source scalar word (R389, R390). -/
def scalarBin (ty : Ty) (d a b : SReg) (late : Bool) (f : Nat → Nat → Nat) (s : State) : Host.Outcome State Fault Refusal :=
  scalarOp d [a, b] late (fun r => sPlace ty (r.s a) (f ((r.s a).toNat % 2 ^ ty.bits) ((r.s b).toNat % 2 ^ ty.bits))) s

/-- A scalar shift: the count is bits 31:0 of S[b] (R378, R389). -/
def scalarShift (ty : Ty) (d a b : SReg) (f : Nat → Nat → Nat) (s : State) : Host.Outcome State Fault Refusal :=
  scalarOp d [a, b] false (fun r => sPlace ty (r.s a) (f ((r.s a).toNat % 2 ^ ty.bits) ((r.s b).toNat % 2 ^ 32))) s

/-- A scalar count, zero-extended (R390). -/
def scalarCount (ty : Ty) (d a : SReg) (f : Nat → Nat) (s : State) : Host.Outcome State Fault Refusal :=
  scalarOp d [a] false (fun r => BitVec.ofNat 64 (f ((r.s a).toNat % 2 ^ ty.bits))) s

/-- SADD (R389). -/
def execSadd (ty : Ty) (d a b : SReg) (s : State) : Host.Outcome State Fault Refusal := scalarBin ty d a b false (addRaw ty) s
/-- SSUB (R389). -/
def execSsub (ty : Ty) (d a b : SReg) (s : State) : Host.Outcome State Fault Refusal := scalarBin ty d a b false (subRaw ty) s
/-- SMUL (R389). -/
def execSmul (ty : Ty) (d a b : SReg) (s : State) : Host.Outcome State Fault Refusal := scalarBin ty d a b false (mulRaw ty) s
/-- SMULH (R389). -/
def execSmulh (ty : Ty) (d a b : SReg) (s : State) : Host.Outcome State Fault Refusal := scalarBin ty d a b false (mulhRaw ty) s
/-- SDIV, long-latency (R65, R389). -/
def execSdiv (ty : Ty) (d a b : SReg) (s : State) : Host.Outcome State Fault Refusal := scalarBin ty d a b true (divRaw ty) s
/-- SREM, long-latency (R65, R389). -/
def execSrem (ty : Ty) (d a b : SReg) (s : State) : Host.Outcome State Fault Refusal := scalarBin ty d a b true (remRaw ty) s
/-- SMIN (R389). -/
def execSmin (ty : Ty) (d a b : SReg) (s : State) : Host.Outcome State Fault Refusal := scalarBin ty d a b false (minRaw ty) s
/-- SMAX (R389). -/
def execSmax (ty : Ty) (d a b : SReg) (s : State) : Host.Outcome State Fault Refusal := scalarBin ty d a b false (maxRaw ty) s
/-- SAND (R389). -/
def execSand (ty : Ty) (d a b : SReg) (s : State) : Host.Outcome State Fault Refusal := scalarBin ty d a b false andRaw s
/-- SOR (R389). -/
def execSor (ty : Ty) (d a b : SReg) (s : State) : Host.Outcome State Fault Refusal := scalarBin ty d a b false orRaw s
/-- SXOR (R389). -/
def execSxor (ty : Ty) (d a b : SReg) (s : State) : Host.Outcome State Fault Refusal := scalarBin ty d a b false xorRaw s
/-- SSHL (R378, R389). -/
def execSshl (ty : Ty) (d a b : SReg) (s : State) : Host.Outcome State Fault Refusal := scalarShift ty d a b (shlRaw ty) s
/-- SSHR (R378, R389). -/
def execSshr (ty : Ty) (d a b : SReg) (s : State) : Host.Outcome State Fault Refusal := scalarShift ty d a b (shrRaw ty) s
/-- SSHA (R378, R389). -/
def execSsha (ty : Ty) (d a b : SReg) (s : State) : Host.Outcome State Fault Refusal := scalarShift ty d a b (shaRaw ty) s
/-- SCLZ (R389, R390). -/
def execSclz (ty : Ty) (d a : SReg) (s : State) : Host.Outcome State Fault Refusal := scalarCount ty d a (clzRaw ty) s
/-- SPOPC (R389, R390). -/
def execSpopc (ty : Ty) (d a : SReg) (s : State) : Host.Outcome State Fault Refusal := scalarCount ty d a (popcRaw ty) s

/-- SCMP (R391): tagged sources are allowed, a tagged destination is not. -/
def execScmp (rel : Rel) (ty : Ty) (d a b : SReg) (s : State) : Host.Outcome State Fault Refusal :=
  scalarEffect s (fun c =>
    match c.team.linear? [d.val] with
    | some h => .fault s .linearCopy h
    | none =>
      let r := s.sRd c
      let hit := relInt rel (intVal ty (r.s a).toNat) (intVal ty (r.s b).toNat)
      .done (s.putS c d (if hit then 1 else 0)))

/-- SSEL (R393): bits 63:32 of a 32-bit result come from the chosen source. -/
def execSsel (ty : Ty) (d a b x : SReg) (s : State) : Host.Outcome State Fault Refusal :=
  scalarOp d [a, b, x] false (fun r =>
    let v := if r.s x ≠ 0 then r.s a else r.s b
    sPlace ty v (v.toNat % 2 ^ ty.bits)) s

/-- SMOV without .MV (R396). -/
def execSmov (ty : Ty) (d a : SReg) (s : State) : Host.Outcome State Fault Refusal :=
  scalarOp d [a] false (fun r => sPlace ty (r.s a) ((r.s a).toNat % 2 ^ ty.bits)) s

/-- SMOV.MV (R233): the handle moves with its tag, and the source becomes null. A null source, or d = a, changes
nothing, whatever d holds: a second batch's SMOV.MV finds the handle moved; else a tagged destination faults (R396). -/
def execSmovMv (d a : SReg) (s : State) : Host.Outcome State Fault Refusal :=
  scalarEffect s (fun c =>
    let v := (s.sRd c).s a
    if v = 0 || d == a then .done s
    else match c.team.linear? [d.val] with
      | some h => .fault s .linearCopy h
      | none =>
        .done (s.onCur c (fun t =>
          let t1 := (t.putSNow d.val v).putSNow a.val 0
          if t.tagged a.val then (t1.untag a.val).tag d.val else t1)))

/-- SMOVI (R397). -/
def execSmovi (ty : Ty) (d : SReg) (imm : W32) (s : State) : Host.Outcome State Fault Refusal :=
  scalarOp d [] false (fun _ =>
    if ty.bits = 64 then (if ty.isI then imm.signExtend 64 else imm.setWidth 64)
    else sWiden ty (imm.toNat % 2 ^ ty.bits)) s

/-- SPRM (R398): a word of the grid's parameter copy (R40); the fault address is the offset (R211). -/
def execSprm (ty : Ty) (d : SReg) (imm : W32) (s : State) : Host.Outcome State Fault Refusal :=
  scalarEffect s (fun c =>
    let g := s.gridOf c.team
    let n := ty.bytes
    match c.team.linear? [d.val] with
    | some h => .fault s .linearCopy h
    | none =>
    if imm.toNat % n ≠ 0 then .fault s .alignment (imm.setWidth 64)
    else if g.psize < imm.toNat + n then .fault s .access (imm.setWidth 64)
    else .done (s.putSLate c d (sWiden ty (g.param.readLE imm.toNat n))))

/-- TCTL of a tile (R95): the reset value stands where nothing has been written. -/
def Team.tctlOf (t : Team) (n : Nat) : W32 := Store.get 0x8040 t.tctl n
/-- ACST of an accumulator (R97). -/
def Team.acstOf (t : Team) (n : Nat) : Acst := t.acst.getD n ⟨0, 0⟩
/-- TCTL and ACST by their SGET selectors (R95, R97). -/
def Team.tileSel (t : Team) (n : Nat) : W64 :=
  if n < 0x30 then (t.tctlOf (n - 0x20)).setWidth 64
  else BitVec.ofNat 64 ((t.acstOf (n - 0x30)).mode * 2 ^ 24 + (t.acstOf (n - 0x30)).bound)
/-- The values of SGET that read no register (R33, R394). -/
def State.sgetPlain (s : State) (c : Ctx) (n : Nat) : W64 :=
  let t := c.team
  let g := s.gridOf t
  let v (x : Nat) : W64 := BitVec.ofNat 64 x
  if n = 0 then v (t.lin % g.gx)
  else if n = 1 then v (t.lin / g.gx % g.gy)
  else if n = 2 then v (t.lin / (g.gx * g.gy))
  else if n = 3 then v g.gx
  else if n = 4 then v g.gy
  else if n = 5 then v g.gz
  else if n = 6 then v t.lin
  else if n = 7 then v g.threads
  else if n = 8 then v g.depth
  else if n = 9 then v t.cls
  else if n = 0x0A then v g.cls
  else if n = 0x0B then v t.prio
  else if n = 0x0E then v g.psize
  else if n = 0x0F then g.tag.setWidth 64
  else if n = 0x11 then (t.fexcSeen s.sched.tick).setWidth 64
  else if n < 0x38 then underOlds s.sched.tick true n t.sOlds (t.tileSel n)
  else if n < 0x50 then (t.bar (n - 0x40)).state
  else (s.counter g.fn (n - 0x60)).setWidth 64

/-- SGET (R33, R34, R394). -/
def execSget (q : BitVec 16) (d : SReg) (a b : Option SReg) (s : State) : Host.Outcome State Fault Refusal :=
  scalarEffect s (fun c =>
    let n := q.toNat
    let g := s.gridOf c.team
    let r := s.sRd c
    let src (x : Option SReg) : W64 := match x with | some y => r.s y | none => 0
    let names := (match a with | some x => [x.val] | none => []) ++ (match b with | some x => [x.val] | none => [])
    match c.team.linear? (d.val :: names) with
    | some h => .fault s .linearCopy h
    | none =>
    if n = 0x0C then
      let h := s.handleFor (.grid g.uid)
      .done (h.2.putS c d h.1)
    else if n = 0x0D then
      let h := s.handleFor (.team g.uid c.team.lin)
      .done (h.2.putS c d h.1)
    else if n = 0x10 then
      match s.targetIn g.part (src a) with
      | some (.grid u) =>
        match s.grid? u with
        | some x =>
          if (src b).toNat < x.count then
            let h := s.handleFor (.team u (src b).toNat)
            .done (h.2.putS c d h.1)
          else .fault s .access (src a)
        | none => .fault s .access (src a)
      | _ => .fault s .access (src a)
    else if n = 0x50 then .done (s.putS c d (s.netBar g.part ((src a).toNat % 256)).state)
    else
      let s1 := s.putS c d (s.sgetPlain c n)
      .done (if n = 0x11 then s1.onCur c (fun t => t.seeFexc s.sched.tick) else s1))

/-- SSET (R400): FEXC in any mode; PRIO and the trigger counters in K-mode. -/
def execSset (q : BitVec 16) (a : SReg) (s : State) : Host.Outcome State Fault Refusal :=
  scalarEffect s (fun c =>
    let n := q.toNat
    let g := s.gridOf c.team
    let v := (s.sRd c).s a
    if n ≠ 0x11 ∧ !g.kmode then .fault s .privilege 0
    else if n ≠ 0x11 ∧ n ≠ 0x0B ∧ (n < 0x60 ∨ 0x9F < n) then .fault s .illegalInstruction 0
    else
      match c.team.linear? [a.val] with
      | some h => .fault s .linearCopy h
      | none =>
        if n = 0x11 then .done (s.onCur c (fun t => t.clearFexc s.sched.tick (v.setWidth 5)))
        else if n = 0x0B then
          if 8 ≤ v.toNat then .fault s .access 0
          else .done (s.onCur c (fun t => { t with prio := v.toNat }))
        else .done (s.setCounter g.fn (n - 0x60) (v.setWidth 32)))

end Sys2Proof.Machine
end

