-- ==== Sys2Proof/Machine/Vector.lean ====
section
/-! DEFINITION. The vector instructions (R332, R337, R342, R353-R357, R364, R373-R375, R377, R385, R393, R418): each acts
for the active threads of its batch. -/

namespace Sys2Proof.Machine

/-- What a vector instruction does in one thread: the registers it writes and the flags it sets. -/
structure VRes where
  writes : List (Reg × Ty × Nat)
  flags : Flags

/-- A register position of an instruction, and whether its operand is 64 bits wide. -/
abbrev Posn := Reg × Bool
/-- A position of an operand of a type. -/
def atTy (ty : Ty) (r : Reg) : Posn := (r, ty.bits == 64)
def at32 (r : Reg) : Posn := (r, false)

/-- The checks of a thread's register positions: K registers beyond the crew's block (R313), then tagged S registers
(R331). -/
def Ctx.regFault (c : Ctx) (i : Nat) (ps : List Posn) : Option (Code × W64) :=
  if !ps.all (fun p => regInBlock (c.team.kTop i) p.2 p.1) then some (.illegalInstruction, 0)
  else (c.team.linear? (sNames (ps.map (·.1)))).map (fun h => (.linearCopy, h))

/-- Registers of a thread written as a vector instruction writes them. -/
def Thread.writeAll (x : Thread) : List (Reg × Ty × Nat) → Thread
  | [] => x
  | (d, ty, v) :: rest => Thread.writeAll (x.write d ty v) rest

/-- The registers a list of writes changes. -/
def regsOf (ws : List (Reg × Ty × Nat)) : List (Bool × Nat) := ws.flatMap (fun w => destRegs w.1 w.2.1)

/-- One thread's result takes effect; under a long-latency write the old values stay visible (R90). -/
def State.putV (s : State) (c : Ctx) (i : Nat) (late : Bool) (v : VRes) : State :=
  (s.onCur c (fun t =>
    (t.onThread i (fun x => ((if late then x.noteOlds c.batch.tok s.fresh (regsOf v.writes) else x.settle (regsOf v.writes)).writeAll v.writes))).orFexc
      c.batch.tok s.fresh v.flags)).bump 1

/-- A long-latency register write is issued under the clause's token (R89, R90). -/
def State.pendRegs (s : State) (c : Ctx) : State := s.onCur c (fun t => t.addPending c.batch.tok 1 0)
/-- A memory write is issued under it (R89). -/
def State.pendMems (s : State) (c : Ctx) : State := s.onCur c (fun t => t.addPending c.batch.tok 0 1)

/-- One thread's part of a vector instruction: its checks, then its result, which is pending when the instruction is
long-latency. -/
def vecPart (late : Bool) (ps : List Posn) (f : Rd → VRes) (s : State) (c : Ctx) (s1 : State) (i : Nat) : Did :=
  match c.regFault i ps with
  | some (code, h) => .fault s1 code h
  | none =>
    let s2 := s1.putV c i late (f (s.rd c.team i))
    .done (if late then s2.pendRegs c else s2)

/-- A vector instruction: in each active thread, its part. -/
def vecOp (late : Bool) (ps : List Posn) (f : Rd → VRes) (s : State) : Host.Outcome State Fault Refusal :=
  perThread s activeOf (vecPart late ps f s)

/-- One result written to d. -/
def VRes.one (d : Reg) (ty : Ty) (raw : Nat) : VRes := ⟨[(d, ty, raw)], 0⟩
/-- One result and its flags. -/
def VRes.flt (d : Reg) (ty : Ty) (x : Nat × Flags) : VRes := ⟨[(d, ty, x.1)], x.2⟩

/-- A two-source integer word (R332). -/
def vecBin (ty : Ty) (d a b : Reg) (late : Bool) (f : Nat → Nat → Nat) (s : State) : Host.Outcome State Fault Refusal :=
  vecOp late [atTy ty d, atTy ty a, atTy ty b] (fun r => .one d ty (f (r.val ty a) (r.val ty b))) s
/-- A one-source integer word (R332). -/
def vecUn (ty : Ty) (d a : Reg) (f : Nat → Nat) (s : State) : Host.Outcome State Fault Refusal :=
  vecOp false [atTy ty d, atTy ty a] (fun r => .one d ty (f (r.val ty a))) s
/-- A shift: b is one register whatever the type (R378). -/
def vecShift (ty : Ty) (d a b : Reg) (f : Nat → Nat → Nat) (s : State) : Host.Outcome State Fault Refusal :=
  vecOp false [atTy ty d, atTy ty a, at32 b] (fun r => .one d ty (f (r.val ty a) (r.lo b).toNat)) s
/-- A count: d is one register whatever the type (R332, R377). -/
def vecCount (ty : Ty) (d a : Reg) (f : Nat → Nat) (s : State) : Host.Outcome State Fault Refusal :=
  vecOp false [at32 d, atTy ty a] (fun r => .one d .n32 (f (r.val ty a))) s

/-- ADD (R332). -/
def execAdd (ty : Ty) (d a b : Reg) (s : State) : Host.Outcome State Fault Refusal := vecBin ty d a b false (addRaw ty) s
/-- SUB (R377). -/
def execSub (ty : Ty) (d a b : Reg) (s : State) : Host.Outcome State Fault Refusal := vecBin ty d a b false (subRaw ty) s
/-- MUL (R373). -/
def execMul (ty : Ty) (d a b : Reg) (s : State) : Host.Outcome State Fault Refusal := vecBin ty d a b false (mulRaw ty) s
/-- MULH (R373). -/
def execMulh (ty : Ty) (d a b : Reg) (s : State) : Host.Outcome State Fault Refusal := vecBin ty d a b false (mulhRaw ty) s
/-- MAD (R373). -/
def execMad (ty : Ty) (d a b x : Reg) (s : State) : Host.Outcome State Fault Refusal :=
  vecOp false [atTy ty d, atTy ty a, atTy ty b, atTy ty x]
    (fun r => .one d ty (madRaw ty (r.val ty a) (r.val ty b) (r.val ty x))) s
/-- DIV, long-latency (R65, R332). -/
def execDiv (ty : Ty) (d a b : Reg) (s : State) : Host.Outcome State Fault Refusal := vecBin ty d a b true (divRaw ty) s
/-- REM, long-latency (R65, R377). -/
def execRem (ty : Ty) (d a b : Reg) (s : State) : Host.Outcome State Fault Refusal := vecBin ty d a b true (remRaw ty) s
/-- MIN (R373). -/
def execMin (ty : Ty) (d a b : Reg) (s : State) : Host.Outcome State Fault Refusal := vecBin ty d a b false (minRaw ty) s
/-- MAX (R373). -/
def execMax (ty : Ty) (d a b : Reg) (s : State) : Host.Outcome State Fault Refusal := vecBin ty d a b false (maxRaw ty) s
/-- ABS (R332). -/
def execAbs (ty : Ty) (d a : Reg) (s : State) : Host.Outcome State Fault Refusal := vecUn ty d a (absRaw ty) s
/-- NEG (R377). -/
def execNeg (ty : Ty) (d a : Reg) (s : State) : Host.Outcome State Fault Refusal := vecUn ty d a (negRaw ty) s
/-- AND (R332). -/
def execAnd (ty : Ty) (d a b : Reg) (s : State) : Host.Outcome State Fault Refusal := vecBin ty d a b false andRaw s
/-- OR (R377). -/
def execOr (ty : Ty) (d a b : Reg) (s : State) : Host.Outcome State Fault Refusal := vecBin ty d a b false orRaw s
/-- XOR (R418). -/
def execXor (ty : Ty) (d a b : Reg) (s : State) : Host.Outcome State Fault Refusal := vecBin ty d a b false xorRaw s
/-- NOT (R377). -/
def execNot (ty : Ty) (d a : Reg) (s : State) : Host.Outcome State Fault Refusal := vecUn ty d a (notRaw ty) s
/-- SHL (R377, R378). -/
def execShl (ty : Ty) (d a b : Reg) (s : State) : Host.Outcome State Fault Refusal := vecShift ty d a b (shlRaw ty) s
/-- SHR (R377, R378). -/
def execShr (ty : Ty) (d a b : Reg) (s : State) : Host.Outcome State Fault Refusal := vecShift ty d a b (shrRaw ty) s
/-- SHA (R377, R378). -/
def execSha (ty : Ty) (d a b : Reg) (s : State) : Host.Outcome State Fault Refusal := vecShift ty d a b (shaRaw ty) s
/-- CLZ (R332). -/
def execClz (ty : Ty) (d a : Reg) (s : State) : Host.Outcome State Fault Refusal := vecCount ty d a (clzRaw ty) s
/-- POPC (R377). -/
def execPopc (ty : Ty) (d a : Reg) (s : State) : Host.Outcome State Fault Refusal := vecCount ty d a (popcRaw ty) s
/-- BREV (R332). -/
def execBrev (ty : Ty) (d a : Reg) (s : State) : Host.Outcome State Fault Refusal := vecUn ty d a (brevRaw ty) s

/-- A compare with .PUSH (R56, R342): every thread of the batch pushes; a thread whose top is false pushes false and
writes nothing; a push at depth 8 faults. Without .PUSH, the active threads only. -/
def compareOp (push : Bool) (ps : List Posn) (d : Reg) (f : Rd → Bool × Flags) (s : State) :
    Host.Outcome State Fault Refusal :=
  perThread s (if push then everyOf else activeOf) (fun c s1 i =>
    let x := c.team.thread i
    match (if x.top then c.regFault i ps else none) with
    | some (code, h) => .fault s1 code h
    | none =>
      if push && decide (8 ≤ x.preds.length) then .fault s1 .predOverflow 0
      else if x.top then
        let r := f (s.rd c.team i)
        let s2 := s1.putV c i false ⟨[(d, .n32, if r.1 then 1 else 0)], r.2⟩
        .done (if push then s2.onCur c (fun t => t.onThread i (fun y => { y with preds := r.1 :: y.preds })) else s2)
      else .done (s1.onCur c (fun t => t.onThread i (fun y => { y with preds := false :: y.preds }))))

/-- CMP (R342). -/
def execCmp (rel : Rel) (ty : Ty) (push : Bool) (d a b : Reg) (s : State) : Host.Outcome State Fault Refusal :=
  compareOp push [at32 d, atTy ty a, atTy ty b] d (fun r => (relInt rel (r.int ty a) (r.int ty b), 0)) s

/-- SEL (R393). -/
def execSel (ty : Ty) (d a b x : Reg) (s : State) : Host.Outcome State Fault Refusal :=
  vecOp false [atTy ty d, atTy ty a, atTy ty b, at32 x]
    (fun r => .one d ty (if r.lo x ≠ 0 then r.val ty a else r.val ty b)) s
/-- MOV (R374). -/
def execMov (ty : Ty) (d a : Reg) (s : State) : Host.Outcome State Fault Refusal := vecUn ty d a (fun x => x) s
/-- The value MOVI writes (R375). -/
def moviRaw (ty : Ty) (imm : W32) : Nat :=
  if ty = .i64 then (imm.signExtend 64).toNat else imm.toNat % 2 ^ ty.bits
/-- MOVI (R375). -/
def execMovi (ty : Ty) (d : Reg) (imm : W32) (s : State) : Host.Outcome State Fault Refusal :=
  vecOp false [atTy ty d] (fun _ => .one d ty (moviRaw ty imm)) s
/-- BCST (R337). -/
def execBcst (ty : Ty) (d : Reg) (a : SReg) (s : State) : Host.Outcome State Fault Refusal :=
  vecOp false [atTy ty d, atTy ty (.s a)] (fun r => .one d ty (r.val ty (.s a))) s
/-- IDX (R33, R364). -/
def execIdx (q : BitVec 16) (d : Reg) (s : State) : Host.Outcome State Fault Refusal :=
  vecOp false [at32 d] (fun r =>
    .one d .n32 (match q.toNat with | 0 => r.i | 1 => crewOf r.i | _ => r.i % 32)) s

-- floating point

/-- A two-source floating word (R354). -/
def fltBin (ty : Ty) (d a b : Reg) (late : Bool) (f : Fmt → Nat → Nat → Nat × Flags) (s : State) :
    Host.Outcome State Fault Refusal :=
  vecOp late [at32 d, at32 a, at32 b] (fun r => .flt d ty (f (fmtOf ty) (r.val ty a) (r.val ty b))) s
/-- A one-source floating word (R354). -/
def fltUn (ty : Ty) (d a : Reg) (late : Bool) (f : Fmt → Nat → Nat × Flags) (s : State) : Host.Outcome State Fault Refusal :=
  vecOp late [at32 d, at32 a] (fun r => .flt d ty (f (fmtOf ty) (r.val ty a))) s

/-- FADD (R354). -/
def execFadd (ty : Ty) (rm : Rm) (d a b : Reg) (s : State) : Host.Outcome State Fault Refusal :=
  fltBin ty d a b false (fun f => fAdd f rm) s
/-- FSUB (R354). -/
def execFsub (ty : Ty) (rm : Rm) (d a b : Reg) (s : State) : Host.Outcome State Fault Refusal :=
  fltBin ty d a b false (fun f => fSub f rm) s
/-- FMUL (R354). -/
def execFmul (ty : Ty) (rm : Rm) (d a b : Reg) (s : State) : Host.Outcome State Fault Refusal :=
  fltBin ty d a b false (fun f => fMul f rm) s
/-- FMA (R354, R355). -/
def execFma (ty : Ty) (rm : Rm) (d a b x : Reg) (s : State) : Host.Outcome State Fault Refusal :=
  vecOp false [at32 d, at32 a, at32 b, at32 x]
    (fun r => .flt d ty (fMad (fmtOf ty) rm (r.val ty a) (r.val ty b) (r.val ty x))) s
/-- FMIN (R71, R354). -/
def execFmin (ty : Ty) (d a b : Reg) (s : State) : Host.Outcome State Fault Refusal :=
  fltBin ty d a b false (fun f => fMinMax f false) s
/-- FMAX (R71, R354). -/
def execFmax (ty : Ty) (d a b : Reg) (s : State) : Host.Outcome State Fault Refusal :=
  fltBin ty d a b false (fun f => fMinMax f true) s
/-- FABS (R354): the sign bit cleared, no flag. -/
def execFabs (ty : Ty) (d a : Reg) (s : State) : Host.Outcome State Fault Refusal :=
  fltUn ty d a false (fun f x => (x % f.signBit, 0)) s
/-- FNEG (R354): the sign bit inverted, no flag. -/
def execFneg (ty : Ty) (d a : Reg) (s : State) : Host.Outcome State Fault Refusal :=
  fltUn ty d a false (fun f x => (if f.signBit ≤ x then x - f.signBit else x + f.signBit, 0)) s
/-- FCMP (R356). -/
def execFcmp (rel : Rel) (ty : Ty) (push : Bool) (d a b : Reg) (s : State) : Host.Outcome State Fault Refusal :=
  compareOp push [at32 d, at32 a, at32 b] d (fun r => fRel (fmtOf ty) rel (r.val ty a) (r.val ty b)) s
/-- FCLASS (R357). -/
def execFclass (ty : Ty) (d a : Reg) (s : State) : Host.Outcome State Fault Refusal :=
  vecOp false [at32 d, at32 a] (fun r => .one d .n32 (fClass (fmtOf ty) (r.val ty a))) s
/-- FRCP, long-latency (R354, R355). -/
def execFrcp (ty : Ty) (rm : Rm) (d a : Reg) (s : State) : Host.Outcome State Fault Refusal :=
  fltUn ty d a true (fun f => fRcp f rm) s
/-- FRSQ, long-latency (R354, R355). -/
def execFrsq (ty : Ty) (rm : Rm) (d a : Reg) (s : State) : Host.Outcome State Fault Refusal :=
  fltUn ty d a true (fun f => fRsq f rm) s
/-- FSQRT, long-latency (R354, R355). -/
def execFsqrt (ty : Ty) (rm : Rm) (d a : Reg) (s : State) : Host.Outcome State Fault Refusal :=
  fltUn ty d a true (fun f => fSqrt f rm) s
/-- FDIV, long-latency (R354, R355). -/
def execFdiv (ty : Ty) (rm : Rm) (d a b : Reg) (s : State) : Host.Outcome State Fault Refusal :=
  fltBin ty d a b true (fun f => fDiv f rm) s
/-- FEXP2, long-latency (R354, R355). -/
def execFexp2 (ty : Ty) (rm : Rm) (d a : Reg) (s : State) : Host.Outcome State Fault Refusal :=
  fltUn ty d a true (fun f => fExp2 f rm) s
/-- FLOG2, long-latency (R354, R355). -/
def execFlog2 (ty : Ty) (rm : Rm) (d a : Reg) (s : State) : Host.Outcome State Fault Refusal :=
  fltUn ty d a true (fun f => fLog2 f rm) s
/-- CVT (R76, R348, R349). -/
def execCvt (dty sty : Ty) (sym : Bool) (rm : Rm) (d a : Reg) (s : State) : Host.Outcome State Fault Refusal :=
  vecOp false [atTy dty d, atTy sty a] (fun r => .flt d dty (cvtRaw dty sty sym rm (r.val sty a))) s

-- residues

/-- RFWD (R68, R385). -/
def execRfwd (ty : Ty) (d a : Reg) (s : State) : Host.Outcome State Fault Refusal :=
  vecOp false [at32 d, atTy ty a] (fun r => .one d .rt (residueOf (r.int ty a))) s
/-- RADD (R385). -/
def execRadd (d a b : Reg) (s : State) : Host.Outcome State Fault Refusal :=
  vecOp false [at32 d, at32 a, at32 b] (fun r => .one d .rt (rtAdd (r.lo a).toNat (r.lo b).toNat)) s
/-- RMUL (R385). -/
def execRmul (d a b : Reg) (s : State) : Host.Outcome State Fault Refusal :=
  vecOp false [at32 d, at32 a, at32 b] (fun r => .one d .rt (rtMul (r.lo a).toNat (r.lo b).toNat)) s
/-- RMAD (R385). -/
def execRmad (d a b x : Reg) (s : State) : Host.Outcome State Fault Refusal :=
  vecOp false [at32 d, at32 a, at32 b, at32 x]
    (fun r => .one d .rt (rtAdd (rtMul (r.lo a).toNat (r.lo b).toNat) (r.lo x).toNat)) s
/-- RBACK (R68, R385). -/
def execRback (d a : Reg) (s : State) : Host.Outcome State Fault Refusal :=
  vecOp false [at32 d, at32 a] (fun r => .one d .i32 (lowBits 32 (crtBack (r.lo a).toNat))) s

end Sys2Proof.Machine
end

