-- ==== Sys2Proof/Machine/Quant.lean ====
section
/-! DEFINITION. Quantising and 2:4 compression (R66, R69, R77-R80, R343, R350, R383, R384, R419). -/

namespace Sys2Proof.Machine

/-- m · 2^e ≤ k · 2^f, exactly. -/
def scaledLe (m : Nat) (e : Int) (k : Nat) (f : Int) : Bool :=
  let p := quot m (e - f)
  decide (p.1 ≤ k * p.2)

/-- The larger of two magnitudes. -/
def maxMag (a b : Nat × Int) : Nat × Int := if scaledLe a.1 a.2 b.1 b.2 then b else a

/-- The largest magnitude among the finite values of a block. -/
def amaxOf : List FVal → Nat × Int
  | [] => (0, 0)
  | .fin _ m e :: xs => maxMag (amaxOf xs) (m, e)
  | _ :: xs => amaxOf xs

/-- The code of the smallest non-zero SE8 value s with amax / s ≤ q, or 0xFF (R77). -/
def scaleFor (q : Nat) (a : Nat × Int) : Nat :=
  ((List.range 255).find? (fun i => scaledLe a.1 a.2 (q * se8Man (i + 1)) (se8Exp (i + 1)))).elim 255 (· + 1)

/-- One element of a block quantised (R77): its value and flags. -/
def quantOne (rm : Rm) (q sc : Nat) (huge zero : Bool) (x : FVal) : Int × Flags :=
  match x with
  | .nan _ => (0, Flags.nv)
  | .inf n => (if n then -(q : Int) else q, Flags.nv)
  | .fin n m e =>
    if huge then (0, if m = 0 then 0 else Flags.nx)
    else if zero then (0, 0)
    else
      let p := quot m (e - se8Exp sc)
      let r := roundQuot rm true n p.1 (p.2 * se8Man sc) false
      if q < r.1 then (if n then -(q : Int) else q, Flags.nv)
      else (if n then -(r.1 : Int) else r.1, if r.2 then Flags.nx else 0)

/-- A block quantised (R77): element values, scale code, flags. -/
def quantBlock (rm : Rm) (q : Nat) (xs : List FVal) : List Int × Nat × Flags :=
  let huge := xs.any (fun x => match x with | .inf _ => true | _ => false)
  let a := amaxOf xs
  let zero := a.1 == 0
  let sc := if huge then 255 else if zero then 0 else scaleFor q a
  let rs := xs.map (quantOne rm q sc huge zero)
  (rs.map (·.1), sc, rs.foldl (fun f r => f ||| r.2) 0)

/-- Codes packed into registers, `n` to a register of `w` bits each (R383). -/
def packCodes (w n : Nat) : Nat → List Int → List Nat
  | 0, _ => []
  | k + 1, vs => ((vs.take n).foldr (fun v acc => lowBits w v + 2 ^ w * acc) 0) :: packCodes w n k (vs.drop n)

/-- Register `n` after r in its file. -/
def regPlus (r : Reg) (n : Nat) : Reg :=
  match r with
  | .w i => .w (i + Fin.ofNat 64 n)
  | .k i => .k (i + Fin.ofNat 128 n)
  | .s i => .s (i + Fin.ofNat 64 n)
/-- The positions of `n` registers from r on. -/
def regRun (r : Reg) (n : Nat) : List Posn := (List.range n).map (fun i => at32 (regPlus r i))

/-- The 32 elements of QNT's block, as F32 or narrower floats (R383). -/
def qntBlock (sty : Ty) (r : Rd) (a : Reg) : List FVal :=
  if sty = .f32 then (List.range 32).map (fun i => unpack .f32 (r.lo (regPlus a i)).toNat)
  else (List.range 16).flatMap (fun i =>
    let v := (r.lo (regPlus a i)).toNat
    [unpack (fmtOf sty) (v % 65536), unpack (fmtOf sty) (v / 65536)])

/-- QNT (R383, R384). -/
def execQnt (dty sty : Ty) (rm : Rm) (d a b : Reg) (s : State) : Host.Outcome State Fault Refusal :=
  let nd := qntCodes dty
  vecOp false (regRun d nd ++ regRun a (qntSources sty) ++ [at32 b]) (fun r =>
    let x := quantBlock rm (elemMax dty) (qntBlock sty r a)
    let codes := if dty = .i4 then packCodes 4 8 4 x.1 else packCodes 8 4 8 x.1
    ⟨codes.mapIdx (fun i v => (regPlus d i, Ty.n32, v)) ++ [(b, .n32, x.2.1)], x.2.2⟩) s

/-- DQNT (R78, R350): exact; a zero product is +0. -/
def dqntRaw (ty : Ty) (code scale : Nat) : Nat :=
  let q := elemVal ty code
  let v := q * (se8Man scale : Int)
  if v = 0 then 0 else (roundTo .f32 .rne (decide (v < 0)) v.natAbs (se8Exp scale) false).1
def execDqnt (ty : Ty) (d a b : Reg) (s : State) : Host.Outcome State Fault Refusal :=
  vecOp false [at32 d, at32 a, at32 b] (fun r => .one d .f32 (dqntRaw ty (r.lo a).toNat (r.lo b).toNat)) s

/-- The rank of an element for CMPR (R79). NaN above ∞ above every finite magnitude. -/
def cmprRank (ty : Ty) (x : Nat) : Nat :=
  if ty = .i8 then (elemVal .i8 x).natAbs
  else match unpack (fmtOf ty) x with
    | .nan _ => 65536
    | _ => x % 32768

/-- The indices of the two kept of four elements, rising (R79): equal ranks go to the lower index. -/
def cmprKeep (rs : List Nat) : Nat × Nat :=
  let best (skip : Nat) : Nat := ([0, 1, 2, 3].filter (· != skip)).foldl
    (fun b i => if b = 4 ∨ rs.getD b 0 < rs.getD i 0 then i else b) 4
  let p := best 4
  let q := best p
  if p < q then (p, q) else (q, p)

/-- The elements of a group as they stand in registers (R343). -/
def group (ty : Ty) (lo hi : Nat) : List Nat :=
  if ty = .i8 then [lo % 256, lo / 256 % 256, lo / 65536 % 256, lo / 16777216 % 256]
  else [lo % 65536, lo / 65536 % 65536, hi % 65536, hi / 65536 % 65536]

/-- CMPR's two kept elements and pattern code. -/
def cmprOf (ty : Ty) (es : List Nat) : Nat × Nat × Nat :=
  let k := cmprKeep (es.map (cmprRank ty))
  (es.getD k.1 0, es.getD k.2 0, k.1 + 4 * k.2)

/-- CMPR (R79, R343). -/
def execCmpr (ty : Ty) (d a : Reg) (s : State) : Host.Outcome State Fault Refusal :=
  vecOp false ((d, ty != .i8) :: regRun a (groupRegs ty)) (fun r =>
    let x := cmprOf ty (group ty (r.lo a).toNat (r.lo (regPlus a 1)).toNat)
    if ty = .i8 then .one d .n32 (x.1 + 256 * x.2.1 + 65536 * x.2.2)
    else .one d .n64 (x.1 + 65536 * x.2.1 + 2 ^ 32 * x.2.2)) s

/-- XPND's four elements (R80), and whether the code is one of the six. -/
def xpndOf (e0 e1 code : Nat) : List Nat × Bool :=
  if [0x4, 0x8, 0xC, 0x9, 0xD, 0xE].contains code then
    ((List.range 4).map (fun i => if i = code % 4 then e0 else if i = code / 4 then e1 else 0), true)
  else ([0, 0, 0, 0], false)

/-- XPND (R80, R419). -/
def execXpnd (ty : Ty) (d a : Reg) (s : State) : Host.Outcome State Fault Refusal :=
  vecOp false ((d, ty != .i8) :: regRun a (groupRegs ty)) (fun r =>
    let lo := (r.lo a).toNat
    let hi := (r.lo (regPlus a 1)).toNat
    let x := if ty = .i8 then xpndOf (lo % 256) (lo / 256 % 256) (lo / 65536 % 16)
      else xpndOf (lo % 65536) (lo / 65536) (hi % 16)
    let w := if ty = .i8 then 8 else 16
    let v := x.1.foldr (fun e acc => e + 2 ^ w * acc) 0
    ⟨[(d, if ty = .i8 then Ty.n32 else .n64, v)], if x.2 then 0 else Flags.nv⟩) s

end Sys2Proof.Machine
end

