-- ==== Sys2Proof/Machine/MemOps.lean ====
section
/-! DEFINITION. The memory instructions (R84, R124, R141-R147, R237, R238, R293, R333, R334, R358, R369-R372, R381, R386,
R395, R401, R402). -/

namespace Sys2Proof.Machine

/-- Where an access goes once its operands have been checked. -/
inductive Where where
  | global (a : Agent) (va : Nat) (k : Kind)
  | scratch (team off : Nat)
  | param (off : Nat)
  /-- The aperture: entry and byte offset (R292). -/
  | aperture (entry off : Nat)
  /-- A tile of another device (R247), by its handle and that handle's tag. -/
  | remote (dev : Nat) (h : W64) (tagged : Bool) (off : Nat)

/-- An address as a fault reports it. -/
def addr64 (o : Int) : W64 := BitVec.ofInt 64 o

/-- A global address of the aperture (R125, R292). -/
def isAperture (va : Nat) : Bool := decide (va < 2 ^ 57) && bits va 54 3 == 5
def whereGlobal (a : Agent) (va : Nat) (k : Kind) : Where :=
  if isAperture va then .aperture (bits va 46 8) (va % 2 ^ 46) else .global a va k

/-- A byte offset in scratchpad or parameter space (R40, R124). -/
def inRange (o : Int) (n size : Nat) : Bool := decide (0 ≤ o) && decide (o + n ≤ size)

/-- An access through a fill handle in S register `h` (R237). -/
def State.whereFh (s : State) (c : Ctx) (h : W64) (tagged : Bool) (o : Int) (n : Nat) (write : Bool) :
    Except (Code × W64) Where :=
  let part := (s.gridOf c.team).part
  match s.checkHandle part h tagged .fill with
  | .bad e => .error (e, h)
  | .remote dev => .ok (.remote dev h tagged (addr64 o).toNat)
  | .ok die n' =>
    let x := s.slot die n'
    let at_ := addr64 ((x.base.toNat : Int) + o)
    if o % n ≠ 0 then .error (.alignment, at_)
    else if !inRange o n x.size then .error (.access, at_)
    else if x.scratch then
      if x.team ≠ c.team.uid then .error (.access, at_) else .ok (.scratch x.team (x.base.toNat + o.toNat))
    else .ok (.global ⟨c.team.core, x.fn, x.part, c.team.grid, (s.core c.team.core).marks⟩ (x.base.toNat + o.toNat) (if write then .fillWrite else .read))

/-- The address of an access in thread i, checked as far as its operands go (R84, R124, R370, R402). -/
def State.whereOf (s : State) (c : Ctx) (r : Rd) (sp : Space) (a : Reg) (b : Option Reg) (off : BitVec 16) (n : Nat)
    (write : Bool) : Except (Code × W64) Where :=
  match sp with
  | .g =>
    let va := r.globalAddr a b off
    if va.toNat % n ≠ 0 then .error (.alignment, va)
    else .ok (whereGlobal (s.agent c.team) va.toNat (if write then .write else .read))
  | .s =>
    let o := r.offset a b off
    if o % n ≠ 0 then .error (.alignment, addr64 o)
    else if inRange o n (s.gridOf c.team).spBytes then .ok (.scratch c.team.uid o.toNat) else .error (.access, addr64 o)
  | .p =>
    let o := r.offset a b off
    if o % n ≠ 0 then .error (.alignment, addr64 o)
    else if inRange o n (s.gridOf c.team).psize then .ok (.param o.toNat) else .error (.access, addr64 o)
  | _ => s.whereFh c (r.quad a) (c.team.tagged a.num) (r.tileOffset b off) n write

/-- The register positions of an address (R84), but for a handle base, which may be tagged (R232). -/
def basePosn (sp : Space) (a : Reg) (b : Option Reg) : List Posn :=
  (match sp with | .g => [(a, true)] | .s => [at32 a] | .p => [at32 a] | _ => []) ++
    (match b with | some x => [at32 x] | none => [])

-- the aperture (R292-R294)

def collOp (v : W64) : Nat := bits v.toNat 24 4
def collType (v : W64) : Nat := bits v.toNat 20 4
def collSize (v : W64) : Nat := bits v.toNat 4 16 * 4096
def tyOfCode : Nat → Option Ty
  | 2 => some .i32 | 8 => some .n32 | 0xA => some .f16 | 0xB => some .bf16 | 0xC => some .f32
  | _ => none
/-- The store key of an element's counts. -/
def elemKey (fn e i : Nat) : Nat := (fn * 256 + e) * 2 ^ 46 + i

/-- A contribution (R293): counted at the hub die and sent to the switch in its wire format (R294). -/
def State.contribute (s : State) (fn e i : Nat) (ty : Ty) (raw : Nat) : State :=
  let v := s.ctl.collApOf fn e
  let wire := if collOp v = 4 then widen ty 64 raw else raw
  let n := Store.get 0 s.net.stores (elemKey fn e i)
  (s.setNet { s.net with stores := Store.set 0 s.net.stores (elemKey fn e i) (n + 1) }).emit
    (.contribution fn e i (BitVec.ofNat 64 wire))

/-- A store to the aperture (R293). -/
def State.apertureStore (s : State) (c : Ctx) (ord : Ord) (sc : Scope) (ty : Ty) (e off raw : Nat) (va : W64) : Did :=
  let fn := (s.gridOf c.team).fn
  let v := s.ctl.collApOf fn e
  match tyOfCode (collType v) with
  | none => .fault s .access va
  | some t =>
    if !bit v.toNat 0 || t != ty then .fault s .access va
    else if off % t.bytes ≠ 0 then .fault s .alignment va
    else if collSize v ≤ off ∨ !(ord == .plain || (ord == .rel && sc == .device)) then .fault s .access va
    else .done (s.contribute fn e (off / t.bytes) ty raw)

/-- A load of the aperture (R293): the k-th load of an element returns round k's result, and parks until the switch has
delivered it. -/
def State.apertureLoad (s : State) (c : Ctx) (i : Nat) (ord : Ord) (sc : Scope) (ty : Ty) (e off : Nat) (va : W64)
    (ok : Nat → State → Did) : Did :=
  let fn := (s.gridOf c.team).fn
  let v := s.ctl.collApOf fn e
  match tyOfCode (collType v) with
  | none => .fault s .access va
  | some t =>
    let wide := collOp v = 4
    let want : Ty := if wide then (if t = .i32 then .i64 else .n64) else t
    if !bit v.toNat 0 || want != ty then .fault s .access va
    else if off % want.bytes ≠ 0 then .fault s .alignment va
    else if (if wide then 2 else 1) * collSize v ≤ off ∨ !(ord == .plain || (ord == .acq && sc == .device)) then .fault s .access va
    else
      match (match (c.team.thread i).frame with | some f => f.grant | none => none) with
      | some g => ok (g.toNat % 2 ^ want.bits) s
      | none =>
        let key := elemKey fn e (off / want.bytes)
        let round := Store.get 0 s.net.loads key
        let s2 := s.setNet { s.net with loads := Store.set 0 s.net.loads key (round + 1) }
        match s2.net.results.find? (fun x => x.1 == key && x.2.1 == round) with
        | some x => ok (x.2.2.1.toNat % 2 ^ want.bits) (s2.setNet { s2.net with results := s2.net.results.erase x })
        | none => .park s2 (.aperture e (off / want.bytes) round)

-- handles of other devices (R247)

/-- An access of a thread to another device: sent once, then held until it is answered; the answer is used up. -/
def State.remoteAccess (s : State) (c : Ctx) (i dev : Nat) (h : W64) (acc : RemoteAccess) (park : Bool)
    (ok : List Byte → State → Did) : Did :=
  match s.net.waits.find? (fun w => w.team == c.team.uid && w.thread == i && w.h == h) with
  | none =>
    let id := s.fresh
    let s1 := (s.setNet { s.net with waits := s.net.waits ++ [⟨id, dev, c.team.uid, i, h, park, none⟩] }).bump 1
    let s2 := s1.emit (.remote (s.gridOf c.team).part dev id acc)
    if park then .park s2 (.remote h) else .held s2
  | some w =>
    match w.answer with
    | none => if park then .park s (.remote h) else .held s
    | some (code, v) =>
      let s1 := s.setNet { s.net with waits := s.net.waits.erase w }
      -- an answer that is a fault carries its fault address; an uncorrectable error ends the team (R306)
      if code = 0 then ok v s1
      else if code = Code.uncorrectable.num then .poisoned s1
      else .fault s1 ((Code.ofNum code).getD .access) (BitVec.ofNat 64 (ofLE (v.take 8)))

-- reads and writes at a checked place

/-- A scratchpad access of the issuing batch waits: for an engine's claim (R149), or for a tile operation issued before it (R52). -/
def State.spBarred (s : State) (c : Ctx) (u off n : Nat) : Bool :=
  s.mem.scratchBarred u off n || (u == c.team.uid && (s.curTeam c).scrAhead c.batch.id)
/-- Where the ordering of an access acts (R140, R370): in scratchpad and parameter space at TEAM, where every earlier access is
performed and nothing is invalidated. -/
def Where.ord (w : Where) (ord : Ord) : Ord :=
  match w with
  | .scratch _ _ => .plain
  | .param _ => .plain
  | _ => ord

/-- The laggard crew's loads mark the lines they fill; a line that another load fills has no mark (R258). -/
def State.markLine (s : State) (c : Ctx) (i : Nat) (a : Agent) (va : Nat) : State :=
  match c.team.sel with
  | none => s
  | some x =>
    let key := l1Key a.core a.fn (va / 128 * 128)
    if s.mem.l1Has a.core a.fn va 4 then s
    else
      let k := s.core a.core
      if x.laggard = crewOf i then
        (if k.marks.contains key then s else s.setCore a.core { k with marks := key :: k.marks })
      else if k.marks.contains key then s.setCore a.core { k with marks := k.marks.erase key } else s

/-- The global place a read is made at, for its ordering. -/
def Where.spot (w : Where) (n : Nat) : Option (Agent × Nat × Nat) :=
  match w with
  | .global a va _ => some (a, va, n)
  | _ => none

/-- A read of `n` bytes at a checked place, in its order (R142). -/
def State.readAt (s0 : State) (c : Ctx) (i : Nat) (w : Where) (ord : Ord) (sc : Scope) (ty : Ty) (n : Nat) (va : W64)
    (ok : List Byte → State → Did) : Did :=
  s0.inOrder c.team.core (w.ord ord) sc (w.spot n) (fun s =>
    match w with
    | .scratch u off => if s.spBarred c u off n then .held s0 else ok (s.scratchRead u off n) s
    | .param off => ok ((s.gridOf c.team).param.bytes off n) s
    | .aperture e off => s.apertureLoad c i ord sc ty e off va (fun v t => ok (toLE n v) t)
    | .remote dev h tg off => s.remoteAccess c i dev h (.ldFh h tg off n n) false (fun v t => ok (toLE n (ofLE v)) t)
    | .global a va' k =>
      let s1 := s.markLine c i a va'
      (loadGlobal s1.ctl s1.mem a va' n k).did s0 (BitVec.ofNat 64 va') (fun bs m => ok bs (s1.setMem m)))

/-- A write at a checked place, in its order (R142). -/
def State.writeAt (s0 : State) (c : Ctx) (i : Nat) (w : Where) (ord : Ord) (sc : Scope) (ty : Ty) (raw : Nat) (va : W64) : Did :=
  let bs := toLE ty.bytes raw
  s0.inOrder c.team.core (w.ord ord) sc none (fun s =>
    match w with
    | .scratch u off => if s.spBarred c u off ty.bytes then .held s0 else .done (s.scratchWrite u off bs)
    | .param _ => .fault s .access va
    | .aperture e off => s.apertureStore c ord sc ty e off raw va
    | .remote dev h tg off => s.remoteAccess c i dev h (.stFh h tg off bs.length bs) false (fun _ t => .done t)
    | .global a va' k =>
      (storeGlobal s.ctl s.mem a va' k (ord != .plain && sc == .system) bs).did s0 (BitVec.ofNat 64 va') (fun _ m => .done (s.setMem m)))

/-- The virtual address an operand names, for the aperture's fault address. -/
def Rd.vaOf (r : Rd) (sp : Space) (a : Reg) (b : Option Reg) (off : BitVec 16) : W64 :=
  if sp = .g then r.globalAddr a b off else 0

-- LD, ST, LDP, PREF, FENCE

/-- LD (R369, R370). -/
def execLd (ord : Ord) (sc : Scope) (ty : Ty) (sp : Space) (d a : Reg) (b : Option Reg) (off : BitVec 16) (s : State) :
    Host.Outcome State Fault Refusal :=
  perThread s activeOf (fun c s1 i =>
    match c.regFault i (atTy ty d :: basePosn sp a b) with
    | some (e, h) => .fault s1 e h
    | none =>
      let r := s.rd c.team i
      match s1.whereOf c r sp a b off ty.bytes false with
      | .error (e, h) => .fault s1 e h
      | .ok w => s1.readAt c i w ord sc ty ty.bytes (r.vaOf sp a b off)
          (fun bs t => .done ((t.putV c i true (.one d ty (ofLE bs))).pendRegs c)))

/-- ST (R401, R402). -/
def execSt (ord : Ord) (sc : Scope) (ty : Ty) (sp : Space) (d a : Reg) (b : Option Reg) (off : BitVec 16) (s : State) :
    Host.Outcome State Fault Refusal :=
  perThread s activeOf (fun c s1 i =>
    match c.regFault i (atTy ty d :: basePosn sp a b) with
    | some (e, h) => .fault s1 e h
    | none =>
      let r := s.rd c.team i
      match s1.whereOf c r sp a b off ty.bytes true with
      | .error (e, h) => .fault s1 e h
      | .ok w =>
        match s1.writeAt c i w ord sc ty (r.val ty d) (r.vaOf sp a b off) with
        | .done t => .done (t.pendMems c)
        | x => x)

/-- LDP (R371): two elements, one after the other, aligned to their pair; it may not reach the aperture (R293). -/
def execLdp (ty : Ty) (sp : Space) (d a : Reg) (b : Option Reg) (off : BitVec 16) (s : State) :
    Host.Outcome State Fault Refusal :=
  let n := ty.bytes
  let d2 := regPlus d (if n = 8 then 2 else 1)
  perThread s activeOf (fun c s1 i =>
    match c.regFault i ([atTy ty d, atTy ty d2] ++ basePosn sp a b) with
    | some (e, h) => .fault s1 e h
    | none =>
      let r := s.rd c.team i
      match s1.whereOf c r sp a b off (2 * n) false with
      | .error (e, h) => .fault s1 e h
      | .ok (.aperture _ _) => .fault s1 .access (r.vaOf sp a b off)
      | .ok (.remote dev h tg o) =>
        s1.remoteAccess c i dev h (.ldFh h tg o (2 * n) (2 * n)) false (fun v t =>
          .done ((t.putV c i true ⟨[(d, ty, ofLE (v.take n)), (d2, ty, ofLE ((v.drop n).take n))], 0⟩).pendRegs c))
      | .ok w => s1.readAt c i w Ord.plain Scope.team ty (2 * n) 0 (fun bs t =>
          .done ((t.putV c i true ⟨[(d, ty, ofLE (bs.take n)), (d2, ty, ofLE (bs.drop n))], 0⟩).pendRegs c)))

/-- PREF (R381): in global space the line comes into the L1 as a plain read; a translation that would fault, and every
other space, does nothing. At the aperture it does nothing either (log 90). -/
def execPref (ty : Ty) (sp : Space) (a : Reg) (b : Option Reg) (off : BitVec 16) (s : State) :
    Host.Outcome State Fault Refusal :=
  let _ := ty
  perThread s activeOf (fun c s1 i =>
    let ps : List Posn := (a, sp == .g) :: (match b with | some x => [at32 x] | none => [])
    if !ps.all (fun p => regInBlock (c.team.kTop i) p.2 p.1) then .fault s1 .illegalInstruction 0
    else if sp ≠ .g then .done s1
    else match c.regFault i ps with
      | some (e, h) => .fault s1 e h
      | none =>
        let ag := s1.agent c.team
        let va := ((s.rd c.team i).globalAddr a b off).toNat / 128 * 128
        if isAperture va then .done s1
        else match loadGlobal s1.ctl s1.mem ag va 128 .read with
          | .ok _ m => .done (s1.setMem m)
          | .held => .held s1
          | .blocked k => .blocked s1 k
          | .fault _ => .done s1
          | .poisoned => .done s1)

/-- FENCE (R142, R146, R358). -/
def execFence (ord : Ord) (sc : Scope) (s : State) : Host.Outcome State Fault Refusal :=
  perThread s activeOf (fun c s1 _ => s1.inOrder c.team.core ord sc none (fun s2 => .done (s2.pendMems c)))

-- ATOM and RED

/-- An atomic's new value (R334); none writes nothing. -/
def atomNew (aop : Aop) (ty : Ty) (old v cmp : Nat) : Option Nat :=
  match aop with
  | .add => some (addRaw ty old v)
  | .min => some (minRaw ty old v)
  | .max => some (maxRaw ty old v)
  | .and => some (andRaw old v)
  | .or => some (orRaw old v)
  | .xor => some (xorRaw old v)
  | .xchg => some v
  | .cas => if old = cmp then some v else none
  | .fadd => some (fAdd .f32 .rne old v).1

/-- The registers CAS's b stands for: compare value and new value (R333). -/
def casRegs (ty : Ty) (b : Reg) : Reg × Reg := (b, regPlus b (if ty.bits = 64 && !b.isS then 2 else 1))
def atomPosn (aop : Aop) (ty : Ty) (b : Reg) : List Posn :=
  if aop = .cas then [atTy ty (casRegs ty b).1, atTy ty (casRegs ty b).2] else [atTy ty b]

/-- The acquire part of an ordering; the fence that an Sc access implies stands before it (R142, R147). -/
def acquireOnly : Ord → Ord
  | .rel => .plain
  | .ar => .acq
  | o => o

/-- An atomic access of one thread (R334, R386); `ok` takes the old value. -/
def State.atomAt (s : State) (c : Ctx) (r : Rd) (i : Nat) (aop : Aop) (ord : Ord) (sc : Scope) (ty : Ty) (sp : Space)
    (a b : Reg) (off : BitVec 16) (ok : Nat → State → Did) : Did :=
  let cmp := if aop = .cas then r.val ty (casRegs ty b).1 else 0
  let v := if aop = .cas then r.val ty (casRegs ty b).2 else r.val ty b
  let n := ty.bytes
  match s.whereOf c r sp a none off n true with
  | .error (e, h) => .fault s e h
  | .ok (.scratch u o) =>
    if s.spBarred c u o n then .held s
    else
      let old := ofLE (s.scratchRead u o n)
      match atomNew aop ty old v cmp with
      | some x => ok old (s.scratchWrite u o (toLE n x))
      | none => ok old s
  | .ok (.global ag va _) =>
    -- a CAS that fails is a read, with no release (R147)
    let fails := match atomicGlobal s.ctl s.mem ag va n (fun _ => none) with
      | .ok bs _ => (atomNew aop ty (ofLE bs) v cmp).isNone
      | _ => false
    s.inOrder c.team.core (if fails then acquireOnly ord else ord) sc (some (ag, va, n)) (fun s1 =>
    (atomicGlobal s1.ctl s1.mem ag va n (fun bs => (atomNew aop ty (ofLE bs) v cmp).map (toLE n))).did s
      (BitVec.ofNat 64 va) (fun bs m => ok (ofLE bs) (s1.setMem m)))
  | .ok _ =>
    let _ := i
    .fault s .access (r.vaOf sp a none off)

/-- ATOM (R333, R334). -/
def execAtom (aop : Aop) (ord : Ord) (sc : Scope) (ty : Ty) (sp : Space) (d a b : Reg) (off : BitVec 16) (s : State) :
    Host.Outcome State Fault Refusal :=
  perThread s activeOf (fun c s1 i =>
    match c.regFault i (atTy ty d :: basePosn sp a none ++ atomPosn aop ty b) with
    | some (e, h) => .fault s1 e h
    | none => s1.atomAt c (s.rd c.team i) i aop ord sc ty sp a b off (fun old t =>
        .done (((t.putV c i true (.one d ty old)).pendRegs c).pendMems c)))

/-- RED (R386). -/
def execRed (aop : Aop) (ord : Ord) (sc : Scope) (ty : Ty) (sp : Space) (a b : Reg) (off : BitVec 16) (s : State) :
    Host.Outcome State Fault Refusal :=
  perThread s activeOf (fun c s1 i =>
    match c.regFault i (basePosn sp a none ++ atomPosn aop ty b) with
    | some (e, h) => .fault s1 e h
    | none => s1.atomAt c (s.rd c.team i) i aop ord sc ty sp a b off (fun _ t => .done (t.pendMems c)))

-- LDSEE

/-- The checks of a see-load after its handle's (R238): the slot's tile read, a park, or the fault. -/
def State.seeAt (s : State) (c : Ctx) (die n' : Nat) (o : Int) (n : Nat) (np : Bool) (ok : List Byte → State → Did) : Did :=
  let x := s.slot die n'
  let t := s.curTeam c
  let at_ := addr64 ((x.base.toNat : Int) + o)
  if o % n ≠ 0 then .fault s .alignment at_
  else if !inRange o n x.size then .fault s .access at_
  else if x.scratch ∧ x.team ≠ t.uid then .fault s .access at_
  else match x.st with
    | .abandoned => .fault s .abandonedFill 0
    | .filling =>
      if x.holder = .team t.uid then .fault s .progressClass 0
      else
        let p : Park := .see die n' x.gen np
        match s.classCheck t (s.parkOn t p) np with
        | .error e => .fault s e 0
        | .ok s1 => .park s1 p
    | _ =>
      if x.scratch && s.spBarred c x.team (x.base.toNat + o.toNat) n then .held s
      else (s.tileRead (some c.team.core) x o.toNat n).did s at_ (fun bs m => ok bs (s.setMem m))

/-- LDSEE (R150, R238, R239, R372). -/
def execLdsee (np : Bool) (ord : Ord) (sc : Scope) (ty : Ty) (d : Reg) (a : SReg) (b : Option Reg) (off : BitVec 16)
    (s : State) : Host.Outcome State Fault Refusal :=
  perThread s activeOf (fun c s1 i =>
    match c.regFault i (atTy ty d :: basePosn .see (.s a) b ++ [at32 (.s a)]) with
    | some (e, h) => .fault s1 e h
    | none =>
      let r := s.rd c.team i
      let h := r.s a
      let o := r.tileOffset b off
      let put (bs : List Byte) (t : State) : Did :=
        let t1 := if ord = .acq then t.acquireAt c.team.core sc else t
        .done ((t1.putV c i true (.one d ty (ofLE bs))).pendRegs c)
      match s1.checkHandle (s1.gridOf c.team).part h (c.team.tagged a.val) .seeRead with
      | .bad e => .fault s1 e h
      | .remote dev => s1.remoteAccess c i dev h (.ldsee h (addr64 o).toNat ty.bytes ty.bytes) true (fun v t => put (toLE ty.bytes (ofLE v)) t)
      | .ok die n' => s1.seeAt c die n' o ty.bytes np put)

-- SLD and SST

/-- SLD (R395). -/
def execSld (ord : Ord) (sc : Scope) (ty : Ty) (sp : Space) (d a : SReg) (b : Option SReg) (off : BitVec 16) (s : State) :
    Host.Outcome State Fault Refusal :=
  scalarEffect s (fun c =>
    let i := (sortNat c.batch.threads).headD 0
    let r := s.sRd c
    let ra : Reg := .s a
    let rb : Option Reg := b.map .s
    match c.team.linear? (d.val :: a.val :: (match b with | some x => [x.val] | none => [])) with
    | some h => .fault s .linearCopy h
    | none =>
      match s.whereOf c r sp ra rb off ty.bytes false with
      | .error (e, h) => .fault s e h
      | .ok w => s.readAt c i w ord sc ty ty.bytes (r.vaOf sp ra rb off)
          (fun bs t => .done (t.putSLate c d (sWiden ty (ofLE bs)))))

/-- SST (R395). -/
def execSst (ord : Ord) (sc : Scope) (ty : Ty) (sp : Space) (d a : SReg) (b : Option SReg) (off : BitVec 16) (s : State) :
    Host.Outcome State Fault Refusal :=
  scalarEffect s (fun c =>
    let i := (sortNat c.batch.threads).headD 0
    let r := s.sRd c
    let ra : Reg := .s a
    let rb : Option Reg := b.map .s
    match c.team.linear? (d.val :: a.val :: (match b with | some x => [x.val] | none => [])) with
    | some h => .fault s .linearCopy h
    | none =>
      match s.whereOf c r sp ra rb off ty.bytes true with
      | .error (e, h) => .fault s e h
      | .ok w =>
        match s.writeAt c i w ord sc ty ((r.s d).toNat % 2 ^ ty.bits) (r.vaOf sp ra rb off) with
        | .done t => .done (t.pendMems c)
        | x => x)

end Sys2Proof.Machine
end

