-- ==== Sys2Proof/Machine/Control.lean ====
section
/-! DEFINITION. The control-flow class (R46, R53-R58, R61, R94, R175-R178, R194-R199, R210, R335, R336, R339-R341, R347,
R352, R360, R376, R379, R380, R387, R388, R413, R416, R420). -/

namespace Sys2Proof.Machine

/-- An outcome with its next state changed. -/
def thenDo (o : Host.Outcome State Fault Refusal) (f : State → State) : Host.Outcome State Fault Refusal :=
  match o with
  | .next s => .next (f s)
  | .fault r => .fault r
  | .refused r => .refused r

/-- A terminator: performed once the block's long-latency register writes and the copies naming its flags are complete
(R90, R169), by every thread of the batch. -/
def terminator (s : State) (f : Ctx → State → Nat → Did) : Host.Outcome State Fault Refusal :=
  match s.ctx? with
  | none => .fault .noBatch
  | some c => if s.mayEnd c then perThread s everyOf f else .next (s.waitHere c)

/-- A thread's next block, tested against the image's block count (R46, R341). -/
def State.jump (s : State) (c : Ctx) (i : Nat) (st : TState) (target : Nat) : Did :=
  if (s.gridOf c.team).blocks ≤ target then .fault s .illegalInstruction 0 else .done (s.goTo c i st target)

/-- BRA (R53, R340). -/
def execBra (t : BitVec 24) (s : State) : Host.Outcome State Fault Refusal :=
  terminator s (fun c s1 i => s1.jump c i .waiting t.toNat)

/-- BRC (R53, R340). -/
def execBrc (t : BitVec 24) (s : State) : Host.Outcome State Fault Refusal :=
  terminator s (fun c s1 i => s1.jump c i .waiting (if (c.team.thread i).top then t.toNat else c.batch.block + 1))

/-- BSW (R53, R340). -/
def execBsw (t : BitVec 24) (a : Reg) (n : BitVec 16) (s : State) : Host.Outcome State Fault Refusal :=
  terminator s (fun c s1 i =>
    match c.regFault i [at32 a] with
    | some (e, h) => .fault s1 e h
    | none => s1.jump c i .waiting (t.toNat + Nat.min ((s.rd c.team i).lo a).toNat n.toNat))

/-- CALL (R53, R340, R341): the return block is written before the target is tested. -/
def execCall (t : BitVec 24) (a : Fin 128) (s : State) : Host.Outcome State Fault Refusal :=
  terminator s (fun c s1 i =>
    match c.regFault i [at32 (.k a)] with
    | some (e, h) => .fault s1 e h
    | none => (s1.onCur c (fun y => y.onThread i (fun x => (x.settle [(false, a.val)]).write (.k a) .n32 (c.batch.block + 1)))).jump c i .waiting t.toNat)

/-- RET (R53, R388). -/
def execRet (a : Reg) (s : State) : Host.Outcome State Fault Refusal :=
  terminator s (fun c s1 i =>
    match c.regFault i [at32 a] with
    | some (e, h) => .fault s1 e h
    | none => s1.jump c i .waiting ((s.rd c.team i).lo a).toNat)

/-- YIELD (R54, R420). -/
def execYield (t : BitVec 24) (s : State) : Host.Outcome State Fault Refusal :=
  terminator s (fun c s1 i => s1.jump c i .yielded t.toNat)

/-- EXIT (R352): every thread of the batch ends; crews and the team end with their last threads. -/
def execExit (s : State) : Host.Outcome State Fault Refusal :=
  thenDo (terminator s (fun c s1 i => .done (s1.onCur c (fun t =>
    match t.batch? c.batch.id with
    | some b => (t.leave b i .ended b.pos none).onThread i Thread.finish
    | none => t))))
    (fun s1 => match s.ctx? with
      | some c => if s.mayEnd c then s1.afterExit c.team.uid else s1
      | none => s1)

/-- PNOT (R56, R380). -/
def execPnot (s : State) : Host.Outcome State Fault Refusal :=
  perThread s everyOf (fun c s1 i => .done (s1.onCur c (fun t => t.onThread i (fun x =>
    { x with preds := match x.preds with
        | [] => []
        | p :: ps => (!p && ps.headD true) :: ps }))))

/-- PPOP (R56, R380). -/
def execPpop (s : State) : Host.Outcome State Fault Refusal :=
  perThread s everyOf (fun c s1 i => .done (s1.onCur c (fun t => t.onThread i (fun x => { x with preds := x.preds.tail }))))

-- barriers

/-- The barrier an instruction names, as it stands: a team's, or its partition's network barrier (R175). -/
def State.barOf (s : State) (c : Ctx) (net : Bool) (b : Nat) : Bar :=
  if net then s.netBar (s.gridOf c.team).part b else (s.curTeam c).bar b
def State.putBar (s : State) (c : Ctx) (net : Bool) (b : Nat) (x : Bar) : State :=
  if net then s.setNetBar (s.gridOf c.team).part b x else s.onCur c (fun t => t.setBar b x)
/-- The crew of a thread as a barrier counts it. -/
def crewRef (c : Ctx) (net : Bool) (i : Nat) : Nat × Nat := (if net then c.team.uid else 0, crewOf i)
/-- An arrival by a team that is not a member faults (R176). -/
def outsider (c : Ctx) (net : Bool) (b : Nat) : Bool := net && !c.team.netMask.contains b
/-- The barrier is tested once after the cycle's arrivals (R178). -/
def State.testBar (s : State) (c : Ctx) (net : Bool) (b : Nat) : State :=
  s.reachBar net (if net then (s.gridOf c.team).part else c.team.uid) b
/-- The same on the outcome of an instruction that began in state s. -/
def openAfter (s : State) (net : Bool) (b : Nat) (o : Host.Outcome State Fault Refusal) : Host.Outcome State Fault Refusal :=
  thenDo o (fun s1 => match s.ctx? with
    | some c => s1.testBar c net b
    | none => s1)
def barPark (net : Bool) (b gen target : Nat) : Park := if net then .netBar b gen target else .bar b gen target

/-- A crew's arrival at a network barrier releases at PART (R148). -/
def State.arriving (s : State) (c : Ctx) (net : Bool) (f : State → Did) : Did :=
  if net then s.released c.team.core .part f else f s

/-- BAR (R57, R335): a crew that has not arrived arrives and its threads of this batch park; others pass. -/
def execBar (net : Bool) (b : BitVec 8) (t : BitVec 24) (s : State) : Host.Outcome State Fault Refusal :=
  openAfter s net b.toNat (terminator s (fun c s1 i =>
    let x := s.barOf c net b.toNat
    let who := crewRef c net i
    if (s.gridOf c.team).blocks ≤ t.toNat then .fault s1 .illegalInstruction 0
    else if outsider c net b.toNat then .fault s1 .access 0
    else if x.arrived.contains who then .done (s1.goTo c i .waiting t.toNat)
    else s1.arriving c net (fun s2 =>
      .park (s2.putBar c net b.toNat ((s2.barOf c net b.toNat).arrive who)) (barPark net b.toNat x.gen t.toNat))))

/-- BARA (R57, R335): the crew arrives; no thread parks. -/
def execBara (net : Bool) (b : BitVec 8) (s : State) : Host.Outcome State Fault Refusal :=
  openAfter s net b.toNat (perThread s everyOf (fun c s1 i =>
    let who := crewRef c net i
    if outsider c net b.toNat then .fault s1 .access 0
    else if (s1.barOf c net b.toNat).arrived.contains who then .done s1
    else s1.arriving c net (fun s2 => .done (s2.putBar c net b.toNat ((s2.barOf c net b.toNat).arrive who)))))

/-- BARW (R57, R335): the thread parks until the generation its crew last arrived at has opened. -/
def execBarw (net : Bool) (b : BitVec 8) (t : BitVec 24) (s : State) : Host.Outcome State Fault Refusal :=
  terminator s (fun c s1 i =>
    let x := s1.barOf c net b.toNat
    if (s.gridOf c.team).blocks ≤ t.toNat then .fault s1 .illegalInstruction 0
    else if outsider c net b.toNat then .fault s1 .access 0
    else match x.last.find? (fun e => e.1 == crewRef c net i) with
      | some e => if e.2 = x.gen then .park s1 (barPark net b.toNat x.gen t.toNat) else .done (s1.goTo c i .waiting t.toNat)
      | none => .done (s1.goTo c i .waiting t.toNat))

/-- Membership as last asked for: a change that waits for the opening, or the mask (R376). -/
def State.asked (s : State) (c : Ctx) (b : Nat) : Bool :=
  match (s.netBar (s.gridOf c.team).part b).changes.reverse.find? (fun e => e.1 == c.team.uid) with
  | some e => e.2.1
  | none => (s.curTeam c).netMask.contains b

/-- A team asks to join or leave a network barrier (R176): at once where it has no member crew, else at its opening. -/
def State.member (s : State) (c : Ctx) (b : Nat) (join : Bool) : State :=
  let part := (s.gridOf c.team).part
  let x := s.netBar part b
  let cyc := s.sched.now / 250
  if s.asked c b = join then s
  else if (s.netMembers part b).isEmpty then
    (s.setNetBar part b { x with changes := x.changes.filter (fun e => e.1 != c.team.uid) }).applyNet b [(c.team.uid, join, cyc)]
  else s.setNetBar part b { x with changes := x.changes.filter (fun e => e.1 != c.team.uid || e.2.2 != cyc) ++ [(c.team.uid, join, cyc)] }

/-- NBMEM (R176, R376). -/
def execNbmem (b : BitVec 8) (join : Bool) (s : State) : Host.Outcome State Fault Refusal :=
  perThread s everyOf (fun c s1 _ =>
    if join && c.team.cls == 0 then .fault s1 .progressClass 0 else .done (s1.member c b.toNat join))

-- waits

/-- A wait record of 32 bytes, where it meets R195. -/
def waitRecOf (bs : List Byte) : Option WaitRec :=
  let f := field bs 24 1
  let r : WaitRec :=
    { waddr := BitVec.ofNat 64 (field bs 0 8), value := BitVec.ofNat 64 (field bs 8 8), target := BitVec.ofNat 64 (field bs 16 8)
      rel := bits f 0 3, n64 := bit f 3, scratch := bit f 4 }
  if 4 < r.rel || bits f 5 3 != 0 || !(bs.drop 25).all (· == 0) then none
  else if r.rel = 4 && (r.waddr != 0 || r.value != 0 || r.n64 || r.scratch || r.target == 0) then none
  else some r

/-- An ENDED wait on the waiter's own team, its own grid or an ancestor grid (R35, R196). -/
def State.ownLineage (s : State) (t : Team) : Target → Bool
  | .team g lin => g == t.grid && lin == t.lin
  | .grid g => (s.ancestors 10 t.grid).contains g

/-- The watched condition read for the first time (R197): the thread goes on with an acquire, or parks. -/
def State.firstRead (s : State) (c : Ctx) (i : Nat) (r : WaitRec) (np : Bool) (t : Nat) : Did :=
  if r.rel = 4 then
    match s.target? r.target with
    | some x => match s.endSeen x with
      | some s1 => .done ((s1.acquire c.team.core).goTo c i .waiting t)
      | none => .park s (.waitf r np t)
    | none => .park s (.waitf r np t)
  else
    let s0 := if r.scratch then s else s.flushFor c.team
    match s0.watch (s0.curTeam c) r with
    | .holds m => .done ((if r.scratch then s0.setMem m else (s0.setMem m).acquire c.team.core).goTo c i .waiting t)
    | .not m => .park (s0.setMem m) (.waitf r np t)
    | .fault e a => if e = .uncorrectable then .poisoned s0 else .fault s0 e a
    | .held => .held s0
    | .blocked k => .blocked s0 k

/-- One thread's WAITF from its record on (R196). -/
def State.waitOn (s : State) (c : Ctx) (i : Nat) (r : WaitRec) (np : Bool) (t : Nat) : Did :=
  if r.target = 0 then (if r.scratch then s.firstRead c i r np t else .fault s .progressClass 0)
  else match s.targetIn (s.gridOf c.team).part r.target with
    | none => .fault s .access r.target
    | some x =>
      if r.rel = 4 && s.ownLineage c.team x then .fault s .progressClass 0
      else match s.classCheck (s.curTeam c) (onOf r.rel x) np with
        | .error e => .fault s e 0
        | .ok s1 => s1.firstRead c i r np t

/-- WAITF (R194-R199, R416). -/
def execWaitf (np : Bool) (a : Reg) (t : BitVec 24) (s : State) : Host.Outcome State Fault Refusal :=
  terminator s (fun c s1 i =>
    let g := s.gridOf c.team
    if g.blocks ≤ t.toNat then .fault s1 .illegalInstruction 0
    else match c.regFault i [at32 a] with
      | some (e, h) => .fault s1 e h
      | none =>
        let o := ((s.rd c.team i).lo a).toNat
        if o % 8 ≠ 0 then .fault s1 .alignment (BitVec.ofNat 64 o)
        else if g.spBytes < o + 32 then .fault s1 .access (BitVec.ofNat 64 o)
        else if s1.spBarred c c.team.uid o 32 then .held s1
        else match waitRecOf (s1.scratchRead c.team.uid o 32) with
          | none => .fault s1 .access (BitVec.ofNat 64 o)
          | some r => s1.waitOn c i r np t.toNat)

-- extended registers, convergence registers

/-- GRAB (R26, R94, R360). -/
def execGrab (s : State) : Host.Outcome State Fault Refusal :=
  perThread s everyOf (fun c s1 i =>
    let t := s1.curTeam c
    let e := (s.gridOf c.team).ext
    if t.ext (crewOf i) then .done s1
    else if e = 0 then .fault s1 .regDeadlock 0
    else if t.holders.length < e then .done (s1.onCur c (fun x => x.grant (crewOf i)))
    else .park s1 .grab)

/-- RELX (R94, R387): the block goes back to the team and on to a crew parked at GRAB. -/
def execRelx (s : State) : Host.Outcome State Fault Refusal :=
  perThread s everyOf (fun c s1 i =>
    let k := crewOf i
    .done (s1.onCur c (fun t =>
      if t.ext k then
        ({ t.clearExt k with holders := t.holders.filter (· != k) }).grantBlocks (s.gridOf c.team).ext
      else t)))

/-- CVSET (R58, R347). -/
def execCvset (cv : Fin 16) (n : BitVec 16) (s : State) : Host.Outcome State Fault Refusal :=
  scalarEffect s (fun c =>
    if n = 0 || c.team.threads.length < n.toNat then .fault s .illegalInstruction 0
    else
      let x := c.team.cvOf cv.val
      if x.n = n.toNat then .done s
      else .done (s.onCur c (fun t =>
        { t.putCv cv.val { x with n := n.toNat, count := 0 } with owed := t.owed.filter (fun e => e.1 != cv.val) })))

-- traps

/-- BKPT (R61, R339): every thread traps with the tag as its fault address, to resume at the next instruction; under
ALL_STOP, as the team's selection took it (R50), the rest of the team stops too. -/
def execBkpt (tag : BitVec 16) (s : State) : Host.Outcome State Fault Refusal :=
  withCtx s (fun c =>
    let s1 := (everyOf c).foldl (fun (a : State) i =>
      a.trapThread c.team.uid c.batch.id i .breakpoint 0 (tag.setWidth 64) c.batch.pos c.batch.next) s
    let s2 := s1.moveOn c []
    if (match c.team.sel with | some x => bit x.ctl.toNat 16 | none => s.ctl.nonStop c.team.core) then s2 else s2.onTeam c.team.uid (fun t => t.stopAll (s2.frameW t)))

/-- TRAP (R210, R413): the active threads trap with the code as their fault address, to resume at the next instruction. -/
def execTrap (code : BitVec 16) (s : State) : Host.Outcome State Fault Refusal :=
  withCtx s (fun c =>
    ((activeOf c).foldl (fun (a : State) i =>
      a.trapThread c.team.uid c.batch.id i .softwareTrap 0 (code.setWidth 64) c.batch.pos c.batch.next) s).moveOn c [])

/-- NOP (R379). -/
def execNop (s : State) : Host.Outcome State Fault Refusal := perThread s everyOf (fun _ s1 _ => .done s1)

/-- A word of a clause that no row of its class's map assigns (R311, R324). -/
def execUnassignedOpcode (cls : Cls) (_word : W64) (s : State) : Host.Outcome State Fault Refusal :=
  withCtx s (fun c => s.badWord c cls)

end Sys2Proof.Machine
end

