-- ==== Sys2Proof/Machine/Engine.lean ====
section
/-! DEFINITION. The copy instructions and the graphs (R164-R187, R338, R345, R346, R359, R361, R411, R412), and the events
of the engines. -/

namespace Sys2Proof.Machine

-- places and checks of a copy (R167)

/-- The home of a global address has no slice of the partition (R125); home 4 is the host's. -/
def State.homeless (s : State) (part va : Nat) : Bool := decide (bits va 54 3 < 4) && !s.ctl.onDie part (bits va 54 3)
/-- The checks of a global address at issue: ACCESS, then OUT_OF_PARTITION. -/
def State.globalBad (s : State) (part va : Nat) : Option Code :=
  if decide (2 ^ 57 ≤ va) || decide (5 ≤ bits va 54 3) then some .access
  else if s.homeless part va then some .outOfPartition else none

/-- A destination or a source as a thread's copy finds it. -/
inductive CopyEnd where
  | at (p : Place)
  /-- A tile that is still being filled (R167). -/
  | filling (die slot : Nat)

/-- The tile of a slot as a copy's end, creator and range checked (R167, R237, R238). -/
def tileEnd (c : Ctx) (x : Slot) (o : Int) (n : Nat) : Except (Code × W64) Place :=
  let at_ := addr64 ((x.base.toNat : Int) + o)
  if !inRange o n x.size then .error (.access, at_)
  else if x.scratch then
    if x.team ≠ c.team.uid then .error (.access, at_) else .ok (.scratch x.team (x.base.toNat + o.toNat))
  else .ok (.global x.fn x.part (x.base.toNat + o.toNat))

/-- A copy's destination in thread i, `n` bytes long, its alignment checked before (R167). -/
def State.copyDst (s : State) (c : Ctx) (r : Rd) (sp : CpySpace) (d : Reg) (n : Nat) : Except (Code × W64) Place :=
  let g := s.gridOf c.team
  match sp with
  | .g => (match s.globalBad g.part (r.quad d).toNat with
    | some e => .error (e, r.quad d)
    | none => .ok (.global g.fn g.part (r.quad d).toNat))
  | .s => if inRange (r.lo d).toNat n g.spBytes then .ok (.scratch c.team.uid (r.lo d).toNat) else .error (.access, (r.lo d).setWidth 64)
  | .h =>
    -- the register as it stands now: an earlier thread's copy may have taken the handle
    let h := Store.get 0 (s.curTeam c).s d.num
    match s.checkHandle g.part h ((s.curTeam c).tagged d.num) .fill with
    | .bad e => .error (e, h)
    | .remote dev => .ok (.remote dev h 0)
    | .ok die k => tileEnd c (s.slot die k) 0 n

/-- A copy's source in thread i. -/
def State.copySrc (s : State) (c : Ctx) (r : Rd) (sp : CpySpace) (a : Reg) (b : Option Reg) (n : Nat) :
    Except (Code × W64) CopyEnd :=
  let g := s.gridOf c.team
  match sp with
  | .g =>
    let va := r.globalAddr a b 0
    (match s.globalBad g.part va.toNat with
    | some e => .error (e, va)
    | none => .ok (.at (.global g.fn g.part va.toNat)))
  | .s =>
    let o := r.offset a b 0
    if inRange o n g.spBytes then .ok (.at (.scratch c.team.uid o.toNat)) else .error (.access, addr64 o)
  | .h =>
    let h := r.quad a
    match s.checkHandle g.part h (c.team.tagged a.num) .seeRead with
    | .bad e => .error (e, h)
    | .remote dev => .ok (.at (.remote dev h (addr64 (r.tileOffset b 0)).toNat))
    | .ok die k =>
      let x := s.slot die k
      match tileEnd c x (r.tileOffset b 0) n with
      | .error e => .error e
      | .ok p =>
        if x.st = .abandoned then .error (.abandonedFill, 0)
        else if x.st = .filling then .ok (.filling die k) else .ok (.at p)

/-- The ALIGNMENT check of a copy: destination, source and count are multiples of 4 (R167). -/
def copyMisaligned (r : Rd) (dsp ssp : CpySpace) (d a : Reg) (b : Option Reg) (n : Nat) (base : W64) : Option W64 :=
  let dst : W64 := match dsp with | .g => r.quad d | .s => (r.lo d).setWidth 64 | .h => 0
  let src : W64 := match ssp with
    | .g => r.globalAddr a b 0
    | .s => addr64 (r.offset a b 0)
    | .h => base + addr64 (r.tileOffset b 0)
  if dst.toNat % 4 ≠ 0 then some dst else if src.toNat % 4 ≠ 0 then some src else if n % 4 ≠ 0 then some 0 else none

/-- What a copy of a batch signals (R165). -/
def State.signalOf (s : State) (c : Ctx) (ck : CpyKind) (t : Nat) : Signal :=
  match ck with
  | .flag => .flag c.team.uid c.batch.id t
  | .teamBar => .bar c.team.uid t
  | .netBar => .netBar (s.gridOf c.team).part t

/-- A new copy of a function and partition. -/
def mkCopy (id : Nat) (who : Issuer) (fn part core : Nat) (src dst : Place) (n : Nat) (sig : Signal) : Copy :=
  { id := id, issuer := who, fn := fn, part := part, core := core, src := src, dst := dst, count := n, moved := 0
    viaFill := false, signal := sig, fill := none, shape := none, ranks := [], gathered := [], asked := false, tag := 0, ring := 0
    parked := none, told := false, tok := 0 }

/-- A copy claims its destination and joins an engine's queue (R149, R164). -/
def State.post (s : State) (e : Nat) (x : Copy) (lines : List Nat) : State :=
  let s1 : State := match x.dst with
    | .global fn part _ => s.setMem (s.mem.claimLines s.ctl x.id x.core fn part x.viaFill lines)
    | .scratch u off =>
      let n := match x.shape with | some p => p.bytes | none => x.count
      s.setMem { s.mem with claims := s.mem.claims ++ [Claim.scratch x.id u off (off + n)] }
    | .remote _ _ _ => s
  s1.postAt e x

/-- A copy posted by a thread: a flag named as target rises; a copy of nothing signals at once (R167, R169, R346). -/
def State.postThread (s : State) (e : Nat) (x : Copy) (lines : List Nat) : State :=
  let s1 := match x.signal with
    | .flag u b f => s.onTeam u (fun t => t.raiseFlag b f 1)
    | _ => s
  if x.count = 0 && x.shape.isNone then s1.lowerFlagOf x.signal
  else match x.issuer with
    | .thread u _ _ => (s1.onTeam u (fun t => t.addPost x.tok)).post e x lines
    | _ => s1.post e x lines

/-- The ends of a copy that lie on other devices are checked there; a source that is still being filled is waited for (R167,
R231, R247). -/
def State.farEnds (s : State) (c : Ctx) (i : Nat) (dst : Place) (src : CopyEnd) (tagged : Bool) (n : Nat) (ok : State → Did) : Did :=
  let from_ (t : State) : Did := match src with
    | .at (.remote dev h off) => t.remoteAccess c i dev h (.copyFrom h off n) true (fun _ u => ok u)
    | _ => ok t
  match dst with
  | .remote dev h off => s.remoteAccess c i dev h (.copyTo h tagged off n) false (fun _ t => from_ t)
  | _ => from_ s

/-- CPY (R164-R170, R345, R346). Where destination and source fail different checks, the destination's fault is taken, and "no
owned engine" is tested after them (log 84). -/
def execCpy (dsp ssp : CpySpace) (ck : CpyKind) (d a : Reg) (b : Option Reg) (x : Reg) (target : BitVec 16) (s : State) :
    Host.Outcome State Fault Refusal :=
  let wide (sp : CpySpace) : Bool := decide (sp = .g)
  let ps : List Posn := (if dsp = .h then [] else [(d, wide dsp)]) ++ [(a, wide ssp)] ++
    (match b with | some y => [at32 y] | none => []) ++ [at32 x]
  perThread s activeOf (fun c s1 i =>
    match c.regFault i ps with
    | some (e, h) => .fault s1 e h
    | none =>
      let r := s.rd c.team i
      let g := s.gridOf c.team
      let n := (r.lo x).toNat
      let hsrc := r.quad a
      let base := (s1.slot (hDie hsrc) (hSlot hsrc)).base
      match copyMisaligned r dsp ssp d a b n base with
      | some va => .fault s1 .alignment va
      | none =>
        match s1.copyDst c r dsp d n, s1.copySrc c r ssp a b n with
        | .error (e, h), _ => .fault s1 e h
        | _, .error (e, h) => .fault s1 e h
        | .ok dst, .ok src =>
          if (s1.enginesOf g.part).isEmpty then .fault s1 .access 0
          -- the checks that another device makes at home come before the copy is posted (R231 order 2)
          else s1.farEnds c i dst src ((s1.curTeam c).tagged d.num) n (fun s1 => match src with
            | .filling die k =>
              let y := s1.slot die k
              if y.holder = .team c.team.uid then .fault s1 .progressClass 0
              else
                let p : Park := .see die k y.gen false
                (match s1.classCheck (s1.curTeam c) (s1.parkOn (s1.curTeam c) p) false with
                | .error e => .fault s1 e 0
                | .ok s2 => .park s2 p)
            | .at src =>
              match s1.engineFor g.part with
              | .unowned => .fault s1 .access 0
              | .full => .held (s1.markFull c true)
              | .engine e =>
                let id := s1.fresh
                let h := Store.get 0 (s1.curTeam c).s d.num
                let takes := decide (dsp = .h) && decide (n ≠ 0)
                let y := { mkCopy id (.thread c.team.uid i c.batch.id) g.fn g.part c.team.core src dst n (s1.signalOf c ck target.toNat) with
                  viaFill := decide (dsp = .h), fill := if takes then some h else none, tok := c.batch.tok }
                let s2 := (s1.bump 1).postThread e y (match dst with | .global _ _ va => lineVas va n | _ => [])
                -- the fill handle moves to the engine (R167, R232)
                let s3 := if takes then
                    let t1 := s2.onCur c (fun t => (t.putSNow d.num 0).untag d.num)
                    match dst with
                    | .remote _ _ _ => t1
                    | _ => t1.setSlot (hDie h) (hSlot h) { t1.slot (hDie h) (hSlot h) with holder := .engine id }
                  else s2
                .done s3))

/-- A TY code of a shape record (R173). -/
def shapeTy : Nat → Option Ty
  | 0 => some .i8 | 1 => some .i16 | 2 => some .i32 | 3 => some .i64 | 5 => some .n8 | 6 => some .n16 | 8 => some .n32
  | 9 => some .n64 | 10 => some .f16 | 11 => some .bf16 | 12 => some .f32 | 13 => some .rt
  | _ => none

/-- A shape record of 64 bytes, where it meets R173. Extents of dimensions at or beyond DIMS bound nothing; their POS and STRIDE
still count in an address (log 53). -/
def shapeOf (bs : List Byte) (toScratch : Bool) : Option Shape :=
  match shapeTy (bits (field bs 44 1) 0 4) with
  | none => none
  | some ty =>
    let sz := ty.bits / 8
    let dims := field bs 45 1
    let redop := bits (field bs 44 1) 4 4
    let four (o : Nat) : List Nat := (List.range 4).map (fun k => field bs (o + 2 * k) 2)
    let tile := four 28
    let strides := (List.range 3).map (fun k => field bs (8 + 4 * k) 4)
    let gridw := field bs 48 1
    let gridh := field bs 49 1
    let coord := field bs 50 2
    let ok := decide (1 ≤ dims ∧ dims ≤ 4) && decide (redop ≤ 3) && strides.all (fun v => v % sz == 0) &&
      tile.all (fun v => decide (1 ≤ v)) && (tile.drop dims).all (· == 1) && bits (field bs 46 2) 11 5 == 0 &&
      decide (1 ≤ gridw ∧ gridw ≤ 64) && decide (1 ≤ gridh ∧ gridh ≤ 64) && bits coord 12 4 == 0 &&
      decide (bits coord 0 6 < gridw) && decide (bits coord 6 6 < gridh) && bit (field bs 52 4) 0 && field bs 56 8 == 0 &&
      (redop == 0 || (toScratch && [Ty.i32, .n32, .f16, .bf16, .f32].contains ty))
    if ok then
      some { base := BitVec.ofNat 64 (field bs 0 8), strides := strides.map (fun (v : Nat) => (v : Int)), ext := (four 20).take dims
             tile := tile, pos := four 36, ety := ty, redop := redop, devbase := bits (field bs 46 2) 0 11, gridw := gridw
             x := bits coord 0 6, y := bits coord 6 6, repl := field bs 52 4 }
    else none

/-- TCPY (R165, R173, R174, R411, R412). -/
def execTcpy (toScratch : Bool) (ck : CpyKind) (d : Reg) (a : SReg) (target : BitVec 16) (s : State) :
    Host.Outcome State Fault Refusal :=
  perThread s activeOf (fun c s1 i =>
    match c.regFault i [at32 d, at32 (.s a)] with
    | some (e, h) => .fault s1 e h
    | none =>
      let r := s.rd c.team i
      let g := s.gridOf c.team
      let ra := r.s a
      let o := (r.lo d).toNat
      if ra.toNat % 64 ≠ 0 then .fault s1 .alignment ra
      else (readFresh s1.ctl (s1.mem.drain c.team.core) c.team.core g.fn g.part ra.toNat 64 .read).did s1 ra (fun bs m =>
        let s2 := s1.setMem m
        match shapeOf bs toScratch with
        | none => .fault s2 .tileShape 0
        | some p =>
          if o % p.size ≠ 0 then .fault s2 .alignment (BitVec.ofNat 64 o)
          else if g.spBytes < o + p.bytes then .fault s2 .access (BitVec.ofNat 64 o)
          else match s2.globalBad g.part p.base.toNat with
            | some e => .fault s2 e p.base
            | none =>
              match s2.engineFor g.part with
              | .unowned => .fault s2 .access 0
              | .full => .held (s2.markFull c true)
              | .engine e =>
                let pool : Place := .scratch c.team.uid o
                let far : Place := .global g.fn g.part p.base.toNat
                let y := { mkCopy s2.fresh (.thread c.team.uid i c.batch.id) g.fn g.part c.team.core
                    (if toScratch then far else pool) (if toScratch then pool else far) p.bytes (s2.signalOf c ck target.toNat) with
                  shape := some p, ranks := p.ranks toScratch, tok := c.batch.tok }
                let lines := if !toScratch && (p.ranks false).contains (s2.ctl.devnum g.part) then p.lines.map (128 * ·) else []
                .done ((s2.bump 1).postThread e y lines)))

/-- BEXP (R177, R178, R338): an addition in each active thread; the open condition is tested once after them. -/
def execBexp (net : Bool) (a : Reg) (b : BitVec 8) (s : State) : Host.Outcome State Fault Refusal :=
  openAfter s net b.toNat (perThread s activeOf (fun c s1 i =>
    match c.regFault i [at32 a] with
    | some (e, h) => .fault s1 e h
    | none =>
      if outsider c net b.toNat then .fault s1 .access 0
      else match (s1.barOf c net b.toNat).expect ((s.rd c.team i).lo a).toNat with
        | none => .fault s1 .barrierOverflow 0
        | some x => .done (s1.putBar c net b.toNat x)))

/-- COPY_LINE (R168): an engine performs its copy's next line; nothing where it cannot go on. -/
def execCopyLine (e : Nat) (s : State) : Host.Outcome State Fault Refusal := .next ((s.engineStep e).getD s)

-- graphs (R181-R187)

/-- The nodes of a graph from its bytes, and its header, where they meet R181 and R182. -/
def nodeOf (bs : List Byte) : Option Node :=
  let ty := field bs 0 1
  let used := match ty with | 1 => 20 | 2 => 8 | 3 => 8 | 4 => 16 | 5 => 16 | _ => 0
  if used ≠ 0 ∧ field bs 2 2 = 0 ∧ (bs.drop (12 + used)).all (· == 0) then
    some { type := ty, npred := field bs 1 1, succ := (List.range 4).map (fun k => field bs (4 + 2 * k) 2), payload := bs.drop 12
           count := field bs 1 1, iter := 0, running := false, work := none, finished := false }
  else none

def graphOf (head body : List Byte) : Option Graph :=
  let n := field head 0 2
  if 1 ≤ n ∧ n ≤ 256 ∧ field head 2 2 = 0 ∧ field head 16 16 = 0 then
    let ns := (List.range n).map (fun i => nodeOf ((body.drop (32 * i)).take 32))
    if ns.all (·.isSome) then some ⟨BitVec.ofNat 32 (field head 4 4), BitVec.ofNat 64 (field head 8 8), ns.filterMap id, false⟩ else none
  else none

/-- A node of a team's graph changed. -/
def State.onNode (s : State) (u n : Nat) (f : Node → Node) : State :=
  s.onTeam u (fun t => { t with walker := t.walker.map (fun (g : Graph) =>
    { g with nodes := g.nodes.mapIdx (fun i x => if i = n then f x else x) }) })

/-- The launch of a graph's LAUNCH node, as its team's leader would execute LAUNCH (R182, R185): a user-mode child, after the
leader's release; a descriptor that is not aligned stops the graph. The records carry the graph's TAG (R181). What holds the
launch back leaves the node running, to be tried again. -/
def State.launchNode (s0 : State) (t : Team) (g : Graph) (n : Nat) (x : Node) : State :=
  let s := s0.setMem (s0.mem.release t.core .part)
  let gr := s.gridOf t
  let va := ofLE (x.payload.take 8)
  let stop (c : Code) : State := (s.graphFault t.uid n c).onNode t.uid n (fun y => { y with running := false })
  if s.mem.owes t.core then s
  else if va % 64 ≠ 0 then stop .alignment
  else match deviceRead s.ctl s.mem gr.fn gr.part va 64 .read with
  | .ok bs m =>
    let s1 := s.setMem m
    let d := descOf bs
    let a : Asker := ⟨.node t.uid n, gr.fn, gr.part, false, some t, gr.depth + 1⟩
    if s1.launchHeld gr.fn gr.part d (some g.ring) then s
    else match s1.launch a d false with
    | .ok (s2, k) => (s2.onNode t.uid n (fun y => { y with work := some k })).joinCheck k
    | .error st =>
      let ring := if s1.ringUsable gr.fn gr.part d.ring then d.ring else g.ring
      (s1.sendRec t.uid (mkRec gr.fn gr.part ring kindLaunchReject st g.tag 0 0)).nodeOver t.uid n
  | .fault c => stop c
  | .poisoned => (s.endTeam t.uid (some Code.uncorrectable.num)).onNode t.uid n (fun y => { y with running := false })
  | _ => s

/-- The copy of a graph's COPY node (R182). One that fails R167's checks stops its graph with that code, as a node that service
ends does (R186; log 55). -/
def State.copyNode (s : State) (t : Team) (g : Graph) (n : Nat) (x : Node) : State :=
  let gr := s.gridOf t
  let src := field x.payload 0 8
  let dst := field x.payload 8 8
  let len := field x.payload 16 4
  let bad : Option Code :=
    if dst % 4 ≠ 0 ∨ src % 4 ≠ 0 ∨ len % 4 ≠ 0 then some .alignment
    else match s.globalBad gr.part dst, s.globalBad gr.part src with
      | some e, _ => some e
      | _, some e => some e
      | none, none => if (s.enginesOf gr.part).isEmpty then some .access else none
  match bad with
  | some e => (s.graphFault t.uid n e).onNode t.uid n (fun y => { y with running := false })
  | none =>
    let y := { mkCopy s.fresh (.node t.uid n) gr.fn gr.part t.core (.global gr.fn gr.part src) (.global gr.fn gr.part dst) len .none with
      tag := g.tag, ring := g.ring }
    if len = 0 then (s.sendRec t.uid (y.record stOk 0)).nodeOver t.uid n
    else match s.engineFor gr.part with
      | .engine e => (s.bump 1).post e y (lineVas dst len)
      | _ =>
        let s1 := s.bump 1
        let s2 := s1.setMem (s1.mem.claimLines s1.ctl y.id y.core gr.fn gr.part false (lineVas dst len))
        s2.setEng { s2.eng with saved := s2.eng.saved ++ [y] }

/-- A node starts (R182-R185): a COND or WHILE reads its word when its finish is dealt with. -/
def State.startNode (s : State) (u n : Nat) : State :=
  match s.team? u with
  | none => s
  | some t =>
    match t.walker with
    | none => s
    | some g =>
      match g.nodes[n]? with
      | none => s
      | some x =>
        if g.faulted then s
        else
          let s1 := s.onNode u n (fun y => { y with running := true, finished := false, work := none })
          let gr := s.gridOf t
          match x.type with
          | 1 => s1.copyNode t g n x
          | 2 => s1.launchNode t g n x
          | 5 => s1.sendRec t.uid { mkRec gr.fn gr.part (BitVec.ofNat 64 (field x.payload 0 8)) kindSignal stOk g.tag
                    (BitVec.ofNat 64 (field x.payload 8 8)) 0 with node := some (u, n) }
          | _ => s1

/-- Nodes that became ready together start in ascending index (R184). -/
def State.startNodes (s : State) (u : Nat) (ns : List Nat) : State := (sortNat ns).foldl (fun (a : State) n => a.startNode u n) s

/-- The code of a graph fault for which R186 names none: any that R207 reports as a fault, which 16 is
not (log 55). -/
def State.graphCode (s : State) : Code :=
  let n := 1 + Config.graphCode s.sched.tick % 23
  .other (if n < 16 then n else n + 1)

/-- One Dec of R184: the state, and the node where its count reached 0. A Dec that faults reports the node that makes it
(R186; log 55). -/
def State.dec (s : State) (u from_ i : Nat) : State × Option Nat :=
  if i = 0xFFFF then (s, none)
  else match s.team? u with
    | none => (s, none)
    | some t =>
      match t.walker with
      | none => (s, none)
      | some g =>
        match g.nodes[i]? with
        | none => (s.graphFault u from_ s.graphCode, none)
        | some x =>
          if x.count = 0 then (s.graphFault u from_ s.graphCode, none)
          else (s.onNode u i (fun y => { y with count := y.count - 1 }), if x.count = 1 then some i else none)

/-- Decs in turn; a graph that has stopped starts nothing more. -/
def State.decs (s : State) (u from_ : Nat) : List Nat → State × List Nat
  | [] => (s, [])
  | i :: is =>
    let r := s.dec u from_ i
    let q := State.decs r.1 u from_ is
    (q.1, (match r.2 with | some n => [n] | none => []) ++ q.2)

/-- The bodies of a WHILE rearmed (R184): none where a body node runs; a body that reaches beyond NODES is treated alike
(log 55). -/
def rearm (g : Graph) (lo hi : Nat) : Option Graph :=
  let body := (List.range (hi + 1)).filter (fun i => decide (lo ≤ i))
  if body.any (fun i => match g.nodes[i]? with | some x => x.running | none => true) then none
  else some { g with nodes := g.nodes.mapIdx (fun i x => if lo ≤ i ∧ i ≤ hi then { x with count := x.npred } else x) }

/-- The walker is idle again once nothing runs; a team it kept may leave (R183, R185, R186). -/
def State.walkerIdle (s : State) (u : Nat) : State :=
  match s.team? u with
  | none => s
  | some t =>
    match t.walker with
    | some g => if g.nodes.any (·.running) then s else (s.setTeam { t with walker := none }).leaveTeam u
    | none => s

/-- A condition word read as an acquire at PART scope (R184). -/
def State.readCond (s : State) (t : Team) (x : Node) : Got (List Byte) :=
  if x.cond % 4 ≠ 0 then .fault .alignment
  else readRegistry s.ctl s.mem (s.gridOf t).fn (s.gridOf t).part x.cond 4 .read

/-- GRAPH_NODE_FINISH (R184, R186): a node's work is over, or its condition is read; its successors are dealt with. The walker of a saved
team stands still. The model's choice (log 97): a condition word or a descriptor on a poisoned line ends the team as any read of it does
(R306); the node is over, with no Dec and no FAULTED record. -/
def execGraphNodeFinish (team node : Nat) (s : State) : Host.Outcome State Fault Refusal :=
  match s.team? team with
  | none => .next s
  | some t =>
    match t.walker with
    | none => .next s
    | some g =>
      match g.nodes[node]? with
      | none => .next s
      | some x =>
        let off (a : State) : State := a.onNode team node (fun y => { y with running := false, finished := false, work := none })
        let go (a : State) (is : List Nat) : State :=
          let r := a.decs team node is
          ((r.1.startNodes team r.2)).walkerIdle team
        if !x.running || !(t.placed || t.phase == .retiring) || t.saved then .next s
        else if g.faulted && (x.finished || (x.type == 2 && x.work.isNone) || x.type == 3 || x.type == 4 || (match x.work with | some w => s.gridRetired w | none => false)) then
          .next ((off s).walkerIdle team)
        else if x.type = 3 ∨ x.type = 4 then
          match (s.acquire t.core).readCond t x with
          | .ok bs m =>
            let s1 := off ((s.acquire t.core).setMem m)
            let v := ofLE bs
            let sc (k : Nat) : Nat := x.succ.getD k 0xFFFF
            if x.type = 3 then .next (go s1 (if v ≠ 0 then [sc 0, sc 1] else [sc 2, sc 3]))
            else
              let lo := field x.payload 8 2
              let hi := field x.payload 10 2
              let maxit := field x.payload 12 4
              if v ≠ 0 ∧ (maxit = 0 ∨ x.iter < maxit) then
                match (match s1.team? team with | some t1 => t1.walker | none => none) with
                | none => .next s1
                | some g1 =>
                  match rearm { g1 with nodes := listPut g1.nodes node { x with iter := x.iter + 1, running := false, finished := false } } lo hi with
                  | none => .next ((s1.graphFault team node .illegalInstruction).walkerIdle team)
                  | some g2 =>
                    let s2 := s1.onTeam team (fun t1 => { t1 with walker := some g2 })
                    let s3 := s2.onNode team node (fun y => { y with count := 1 })
                    .next (go s3 [sc 0])
              else .next (go (s1.onNode team node (fun y => { y with iter := 0 })) [sc 1])
          | .fault c => .next ((off (s.graphFault team node c)).walkerIdle team)
          | .poisoned => .next ((off (s.endTeam team (some Code.uncorrectable.num))).walkerIdle team)
          | _ => .next s
        else if x.finished || (match x.work with | some w => s.gridRetired w | none => false) then
          .next (go (off s) x.succ)
        else if x.type = 2 ∧ x.work.isNone then .next ((s.launchNode t g node x).walkerIdle team)
        else .next s

/-- GSTART in one thread whose walker is idle (R183, R361). -/
def State.startGraph (s0 : State) (c : Ctx) (va : W64) (ok : Nat → State → Did) : Did :=
  let g := s0.gridOf c.team
  (readRegistry s0.ctl s0.mem g.fn g.part va.toNat 32 .read).did s0 va (fun head m =>
    let n := field head 0 2
    if n = 0 ∨ 256 < n then ok 2 (s0.setMem m)
    else
      let body := va.toNat + 32
      -- nodes are read one by one, so that a fault names its own address
      let rec nodes : Nat → Mem → Nat → (List Byte → Mem → Did) → Did
        | 0, m1, _, k => k [] m1
        | f + 1, m1, a, k =>
          (readRegistry s0.ctl m1 g.fn g.part a 32 .read).did (s0.setMem m1) (BitVec.ofNat 64 a) (fun bs m2 =>
            nodes f m2 (a + 32) (fun rest m3 => k (bs ++ rest) m3))
      nodes n m body (fun bs m1 =>
        let s1 := s0.setMem m1
        match graphOf head bs with
        | none => ok 2 s1
        | some gr =>
          let s2 := s1.onCur c (fun t => { t with walker := some gr })
          let ready := (List.range gr.nodes.length).filter (fun i => match gr.nodes[i]? with | some x => x.count == 0 | none => false)
          ok 1 ((s2.startNodes c.team.uid ready).walkerIdle c.team.uid)))

/-- GSTART (R183, R361): the first active thread with an idle walker starts its graph; a busy walker gives 0. -/
def execGstart (d : Reg) (a : SReg) (s : State) : Host.Outcome State Fault Refusal :=
  perThread s activeOf (fun c s1 i =>
    match c.regFault i [at32 d, at32 (.s a)] with
    | some (e, h) => .fault s1 e h
    | none =>
      let va := (s.rd c.team i).s a
      let put (v : Nat) (t : State) : Did := .done ((t.putV c i true (.one d .n32 v)).pendRegs c)
      if va.toNat % 32 ≠ 0 then .fault s1 .alignment va
      else s1.released c.team.core .part (fun s2 =>
        if (s2.curTeam c).walker.isSome then put 0 s2 else s2.startGraph c va put))

/-- GCOND (R187, R359): ST.REL.PART.N32.G of b. -/
def execGcond (a : SReg) (b : Reg) (off : BitVec 16) (s : State) : Host.Outcome State Fault Refusal :=
  perThread s activeOf (fun c s1 i =>
    match c.regFault i [at32 (.s a), at32 b] with
    | some (e, h) => .fault s1 e h
    | none =>
      let r := s.rd c.team i
      match s1.whereOf c r .g (.s a) none off 4 true with
      | .error (e, h) => .fault s1 e h
      | .ok w =>
        match s1.writeAt c i w .rel .part .n32 (r.lo b).toNat (r.vaOf .g (.s a) none off) with
        | .done t => .done (t.pendMems c)
        | x => x)

end Sys2Proof.Machine
end

