-- ==== Sys2Proof/Machine/PairOps.lean ====
section
/-! DEFINITION. The paired-tile instructions (R228-R247, R351, R362, R363, R382, R392): each acts once per batch, for its
lowest active thread, and a fault is taken by every active thread. -/

namespace Sys2Proof.Machine

/-- The linear-tag check of an instruction's plain S positions (R232). -/
def Ctx.pairFault (c : Ctx) (ns : List SReg) : Option W64 := c.team.linear? (ns.map (·.val))

/-- A handle written to S[d] as a long-latency write; a fill handle is tagged (R232). -/
def State.putHandle (s : State) (c : Ctx) (d : SReg) (h : W64) (fill : Bool) : State :=
  (s.putSLate c d h).onCur c (fun t => if fill then t.tag d.val else t)

/-- A fill handle leaves its register: null and untagged at once (R232). -/
def State.nullS (s : State) (c : Ctx) (a : SReg) : State := s.onCur c (fun t => (t.putSNow a.val 0).untag a.val)

/-- A leaf that PTNEW refuses (R235): not pair-owned, in host memory, or not readable. -/
def Mem.notPairPage (m : Mem) (fn va : Nat) : Bool :=
  match Store.get none m.tlb (tlbKey (bits va 54 3) fn (va / 65536 % 2 ^ 38)) with
  | some e => !leafPo e.leaf || leafHost e.leaf || !leafR e.leaf
  | none => true

/-- PTNEW's walk of each 64 KiB step of a range (R235). -/
def probeRange (c : Ctl) (fn part : Nat) : Nat → Mem → Nat → Nat → Got Unit
  | 0, m, _, _ => .ok () m
  | n + 1, m, va, last =>
    if last < va then .ok () m
    else match translate c m fn part va .probe with
      | .fault e => .failed e
      | .blocked i => .blocked i
      | .ok _ m1 => if m1.notPairPage fn va then .fault .access else probeRange c fn part n m1 ((va / 65536 + 1) * 65536) last

/-- PTNEW takes a slot (R229, R235): the lowest-numbered free one the partition's share allows, or null. -/
def State.takeSlot (s : State) (c : Ctx) (die : Nat) (scratch : Bool) (d : SReg) (base : W64) (size : Nat) : State :=
  let g := s.gridOf c.team
  if 16384 * s.ctl.slicesOn g.part die / 3 ≤ s.slotsHeld g.part die then s.putHandle c d 0 false
  else match s.freeSlotOf die with
    | none => s.putHandle c d 0 false
    | some n =>
      let x := s.slot die n
      let y : Slot := { st := .filling, gen := x.gen, base := base, size := size, scratch := scratch, team := c.team.uid
                        fn := g.fn, part := g.part, holder := .team c.team.uid, withdrawn := false }
      (s.setSlot die n y).putHandle c d (s.mkHandle true (s.ctl.devnum g.part) die n x.gen 7) true

/-- PTNEW (R229, R235, R382). -/
def execPtnew (scratch : Bool) (d a b : SReg) (s : State) : Host.Outcome State Fault Refusal :=
  onceEffect s (fun c i =>
    match c.pairFault [d, a, b] with
    | some h => .fault s .linearCopy h
    | none =>
      let r := s.rd c.team i
      let g := s.gridOf c.team
      let base := r.s a
      let va := base.toNat
      let size := (r.s b).toNat
      if va % 64 ≠ 0 ∨ size % 64 ≠ 0 then .fault s .alignment base
      else if size < 64 ∨ 16777216 < size then .fault s .access base
      else if scratch then
        let die := c.team.core / 72
        if g.spBytes < va + size then .fault s .access base
        else if s.tileOverlap die true c.team.uid va size then .fault s .access base
        else .done (s.takeSlot c die true d base size)
      else if decide (2 ^ 57 ≤ va) || decide (3 < bits va 54 3) then .fault s .access base
      else
        let die := bits va 54 3
        if !s.ctl.onDie g.part die then .fault s .outOfPartition base
        else (probeRange s.ctl g.fn g.part (size / 65536 + 2) s.mem va (va + size - 1)).did s base (fun _ m =>
          let s1 := s.setMem m
          if s1.tileOverlap die false 0 va size then .fault s1 .access base else .done (s1.takeSlot c die false d base size)))

/-- The issuer may free a slot, or ask for the FREE right (R236, R242). -/
def State.mayFree (s : State) (c : Ctx) (x : Slot) (ended : Bool) : Bool :=
  let g := s.gridOf c.team
  x.team == c.team.uid || g.kmode ||
    (ended && x.fn == g.fn && (match s.team? x.team with | some t => t.phase == .retiring || t.phase == .ended | none => true))

/-- PTFREE (R242, R382). -/
def execPtfree (a : SReg) (s : State) : Host.Outcome State Fault Refusal :=
  onceEffect s (fun c i =>
    match c.pairFault [a] with
    | some h => .fault s .linearCopy h
    | none =>
      let h := (s.rd c.team i).s a
      match s.checkHandle (s.gridOf c.team).part h false .seeFree with
      | .bad e => .fault s e h
      | .remote dev => s.remoteAccess c i dev h (.free h) false (fun _ t => .done (t.pendMems c))
      | .ok die n =>
        let x := s.slot die n
        if x.st = .filling then .fault s .access 0
        else if !s.mayFree c x true then .fault s .access 0
        else .done ((s.freeSlot die n).pendMems c))

/-- SEEH (R236, R392). -/
def execSeeh (d a : SReg) (rights : BitVec 3) (s : State) : Host.Outcome State Fault Refusal :=
  onceEffect s (fun c i =>
    match c.pairFault [d] with
    | some h => .fault s .linearCopy h
    | none =>
      let h := (s.rd c.team i).s a
      match s.checkHandle (s.gridOf c.team).part h (c.team.tagged a.val) .either with
      | .bad e => .fault s e h
      | .remote dev => s.remoteAccess c i dev h (.seeh h (c.team.tagged a.val) rights.toNat) false (fun v t => .done (t.putHandle c d (BitVec.ofNat 64 (ofLE (v.take 8))) false))
      | .ok die n =>
        let x := s.slot die n
        if x.st = .free then .fault s .access 0
        else if rights.getLsbD 2 && !s.mayFree c x false then .fault s .access 0
        else if !hFill h && rights &&& ~~~(BitVec.ofNat 3 (hRights h)) != 0 then .fault s .access 0
        else .done (s.putHandle c d (s.mkHandle false (hDevice h) die n x.gen rights.toNat) false))

/-- An ST.FH that the team issued through the slot before has not been performed yet (R240): it is held here, or its home device
has not answered; `i`: the thread that drops. -/
def State.fillsOut (s : State) (c : Ctx) (i : Nat) (h : W64) : Bool :=
  c.team.batches.any (fun b => b.id != c.batch.id && b.held &&
    (match b.here with
     | some (.st _ _ _ .fh _ (.s a) _ _) => Store.get 0 c.team.s a.val == h
     | some (.sst _ _ _ .fh _ a _ _) => Store.get 0 c.team.s a.val == h
     | _ => false)) ||
  s.net.waits.any (fun w => w.team == c.team.uid && w.h == h && w.thread != i && w.answer.isNone)

/-- DROP (R240, R351): the team's writes are performed at DEVICE scope, the slot is sealed, S[a] is null. -/
def execDrop (a : SReg) (s : State) : Host.Outcome State Fault Refusal :=
  onceEffect s (fun c i =>
    let h := (s.rd c.team i).s a
    match s.checkHandle (s.gridOf c.team).part h (c.team.tagged a.val) .fill with
    | .bad e => .fault s e h
    | .remote dev =>
      if s.fillsOut c i h then .held s
      else s.released c.team.core .device (fun s1 =>
        s1.remoteAccess c i dev h (.drop h (c.team.tagged a.val)) false (fun _ t => .done ((t.nullS c a).pendRegs c)))
    | .ok die n =>
      if s.fillsOut c i h then .held s
      else s.released c.team.core .device (fun s1 => .done (((s1.sealSlot die n).nullS c a).pendRegs c)))

/-- HSEND's own checks of its destination (R245). -/
def State.destBad (s : State) (part : Nat) (v : W64) : Bool :=
  let dev := bits v.toNat 0 11
  bits v.toNat 11 21 != 0 || dev == s.ctl.devnum part || !(s.peersOf part).contains dev

/-- The transfer limit: 100 µs (R299). -/
def transferLimit : Nat := 100000000

/-- HSEND (R245, R299, R363): S[d] is written when the outcome is known. -/
def execHsend (d a b : SReg) (s : State) : Host.Outcome State Fault Refusal :=
  onceEffect s (fun c i =>
    match c.pairFault [d, b] with
    | some h => .fault s .linearCopy h
    | none =>
      let r := s.rd c.team i
      let part := (s.gridOf c.team).part
      let h := r.s a
      let v := r.s b
      let tagged := c.team.tagged a.val
      let send (s1 : State) : Did :=
        let id := s1.fresh
        let tag : W32 := BitVec.ofNat 32 (v.toNat / 2 ^ 32)
        let x : Transfer := { id := id, handle := h, team := c.team.uid, d := d.val, dest := bits v.toNat 0 11, tag := tag
                              fill := hFill h, tok := c.batch.tok, deadline := s.sched.now + transferLimit }
        let s2 := (s1.bump 1).setPairs { s1.pairs with transfers := s1.pairs.transfers ++ [x] }
        -- S[d]'s write is pending until the outcome is known: a later write of S[d] takes effect after it (R90)
        let s3 := s2.onCur c (fun t => t.noteOldS c.batch.tok id d.val)
        let s4 := if hFill h then s3.nullS c a else s3
        .done ((s4.emit (.handle part (bits v.toNat 0 11) id tag h)).pendRegs c)
      -- a fill handle's team has its writes performed first (R245)
      let first (f : State → Did) : Did := if hFill h then s.released c.team.core .device f else f s
      match s.checkHandle part h tagged .either with
      | .bad e => .fault s e h
      | .remote dev =>
        -- the home device's checks come before HSEND's own (R231, R363)
        first (fun s1 => s1.remoteAccess c i dev h (.pass h tagged) false (fun _ t =>
          if s.destBad part v then .fault t .access 0 else send t))
      | .ok die n =>
        if s.destBad part v then .fault s .access 0
        else first (fun s1 => send (if hFill h then s1.setSlot die n { s1.slot die n with holder := .transport } else s1)))

/-- A fill handle's slot, where it is of this device and still that of the handle, has a new holder (R228, R246). -/
def State.heldBy (s : State) (part : Nat) (h : W64) (who : Holder) : State :=
  let x := s.slot (hDie h) (hSlot h)
  if hFill h && hDevice h == s.ctl.devnum part && x.part == part && x.gen == hGen h && x.st == .filling then
    s.setSlot (hDie h) (hSlot h) { x with holder := who }
  else s

/-- A handle is given to a team in S[d] (R246): tagged, and the team its holder, when it is a fill handle. S[d] holds it from then
on: of the two values that R90 allows a read before the write has reached the register, reads get the new one (log 88). -/
def State.giveHandle (s : State) (u d : Nat) (h : W64) : State :=
  let s1 := s.onTeam u (fun t => let t1 := t.putSNow d h; if hFill h then t1.tag d else t1)
  match s.team? u with
  | some t => let part := (s.gridOf t).part; (s1.heldBy part h (.team u)).tellHome part h (.hold h (s.ctl.devnum part))
  | none => s1

/-- HRECV (R246, R362): the oldest queued handle with the tag, or a park until one arrives. A replay after one was given
has it in S[d] already. -/
def execHrecv (d a : SReg) (s : State) : Host.Outcome State Fault Refusal :=
  onceEffect s (fun c i =>
    match (match (c.team.thread i).frame with | some f => f.grant | none => none) with
    | some _ => .done (s.pendRegs c)
    | none =>
      match c.pairFault [d, a] with
      | some h => .fault s .linearCopy h
      | none =>
        let part := (s.gridOf c.team).part
        let tag := ((s.rd c.team i).s a).toNat % 2 ^ 32
        match s.pairs.queue.find? (fun e => e.1 == part && e.2.1.toNat == tag) with
        | some e => .done (((s.setPairs { s.pairs with queue := s.pairs.queue.erase e }).giveHandle c.team.uid d.val e.2.2).pendRegs c)
        | none => .park s (.hrecv tag d.val c.batch.id))

end Sys2Proof.Machine
end

