-- ==== Sys2Proof/Machine/System.lean ====
section
/-! DEFINITION. Launches from a team, service calls, time stamps, the K-mode instructions, and posting to the transport
(R31, R32, R61, R211-R219, R285, R295-R298, R365-R368, R399, R403, R414, R415, R417). -/

namespace Sys2Proof.Machine

-- LAUNCH (R31, R32, R368)

/-- The rejection record of a LAUNCH: to the descriptor's ring, else to the issuing grid's (R32). -/
def State.rejectLaunch (s : State) (g : Grid) (d : Desc) (st : Nat) : State :=
  let put (ring : W64) : State := s.pushRec (mkRec g.fn g.part ring kindLaunchReject st d.tag 0 0)
  if s.ringUsable g.fn g.part d.ring then put d.ring
  else if s.ringUsable g.fn g.part g.ring then put g.ring
  else s

/-- LAUNCH (R368): the leader launches; any other active thread faults. -/
def execLaunch (d a : SReg) (s : State) : Host.Outcome State Fault Refusal :=
  perThread s activeOf (fun c s1 i =>
    if i ≠ 0 then .fault s1 .illegalInstruction 0
    else match c.team.linear? [d.val, a.val] with
      | some h => .fault s1 .linearCopy h
      | none =>
        let g := s.gridOf c.team
        let va := (s.rd c.team i).s a
        if va.toNat % 64 ≠ 0 then .fault s1 .alignment va
        else s1.released c.team.core .part (fun s0 => (readRegistry s0.ctl s0.mem g.fn g.part va.toNat 64 .read).did s1 va (fun bs m =>
          let s2 := s0.setMem m
          let ds := descOf bs
          let go (s3 : State) : Did :=
            let asker : Asker := ⟨.launch c.team.uid, g.fn, g.part, false, some (s3.curTeam c), g.depth + 1⟩
            match s3.launchStop g.fn g.part ds (some g.ring) with
            | some x => .stopped s1 x
            | none => match s3.launch asker ds false with
              | .error st => .done (((s3.rejectLaunch g ds st).putSLate c d 0))
              | .ok (s4, k) =>
                let h := s4.handleFor (.grid k)
                .done ((h.2.joinCheck k).putSLate c d h.1)
          if ds.ring.toNat % 64 ≠ 0 then go s2
          else (readRegistry s2.ctl s2.mem g.fn g.part ds.ring.toNat 64 .read).did s2 ds.ring (fun _ m2 => go (s2.setMem m2)))))

-- service calls (R218, R219)

/-- A service record that can be written now: none while its ring is full, unreadable, or has records held before it. -/
def State.writeSvc (s : State) (part : Nat) (body : List Byte) : Option (Nat × State) :=
  let base := s.svcBase part
  if s.queues.held.any (fun r => r.fn == 0 && r.ring == base) then none
  else match s.ringHead 0 part base with
    | none => none
    | some h =>
      (s.writeRec { mkRec 0 part base 0 0 0 0 0 with service := some body }).map (fun t => (h.head, t))

/-- The service ring is full, or records wait before it is. -/
def State.svcFull (s : State) (part : Nat) : Bool :=
  let base := s.svcBase part
  s.queues.held.any (fun r => r.fn == 0 && r.ring == base) || (match s.ringHead 0 part base with | some h => h.full | none => false)

/-- SYSC (R218, R403). -/
def execSysc (d : SReg) (a : Reg) (s : State) : Host.Outcome State Fault Refusal :=
  perThread s activeOf (fun c s1 i =>
    match c.regFault i [at32 (.s d), (a, true)] with
    | some (e, h) => .fault s1 e h
    | none =>
      let g := s.gridOf c.team
      let p := (s.rd c.team i).globalAddr a none 0
      if p.toNat % 64 ≠ 0 then .fault s1 .alignment p
      else if !s1.svcOn g.part then .fault s1 .access 0
      else if isAperture p.toNat then .fault s1 .access p
      else s1.readAt c i (whereGlobal (s1.agent c.team) p.toNat .read) .plain .team .n64 64 p (fun q s2 => s2.released c.team.core .device (fun s3 =>
        let hs := s3.handleFor (.team c.team.grid c.team.lin)
        let body := svcBody 1 0 (s3.curTeam c).cls g.fn hs.1 i 0 0 0 q
        match hs.2.writeSvc g.part body with
        | none => (match hs.2.recStop { mkRec 0 g.part (hs.2.svcBase g.part) 0 0 0 0 0 with service := some body } with
          | some (some k) => .blocked s1 k
          | _ => .held (s1.markFull c (s1.svcFull g.part)))
        | some (n, s4) => .done (s4.putSLate c d (BitVec.ofNat 64 n)))))

/-- The address is that of a record of the partition's service ring (R219). -/
def State.isSvcRecord (s : State) (part a : Nat) : Bool :=
  let base := (s.svcBase part).toNat + 64
  let n := match s.ringHead 0 part (s.svcBase part) with | some h => 2 ^ h.log | none => 2 ^ 16
  decide (base ≤ a) && (a - base) % 128 == 0 && decide ((a - base) / 128 < n)

/-- The reply of an SRET, once the record has been checked (R219): the caller's ring faults the service thread. ANSWERED is set
once the reply is written (R399). -/
def State.serviceReply (s : State) (part : Nat) (bs : List Byte) (v : W64) (st : Nat) (answer : Nat × Nat × Nat × Byte) : Except (Code × W64) State :=
  let fn := field bs 4 2
  let ring := BitVec.ofNat 64 (field bs 64 8)
  let tag := BitVec.ofNat 32 (field bs 72 4)
  if ring.toNat % 64 ≠ 0 then .error (.alignment, ring)
  else match deviceRead s.ctl s.mem fn part ring.toNat 64 .read with
    | .fault e => .error (e, ring)
    | .ok head _ =>
      match (ringHeadOf head).map (fun h => s.recAt { mkRec fn part ring kindServiceReply st tag v 0 with answer := some answer } h) with
      | none => .error (.access, ring)
      | some at_ =>
      match writeRegistry s.ctl s.mem fn part at_ .write (toLE 32 0), writeRegistry s.ctl s.mem fn part ring.toNat .write (toLE 8 0) with
      | .fault e, _ => .error (e, BitVec.ofNat 64 at_)
      | .poisoned, _ => .error (.uncorrectable, BitVec.ofNat 64 at_)
      | _, .fault e => .error (e, ring)
      | _, _ =>
        let hs : W64 × State := match s.target? (BitVec.ofNat 64 (field bs 16 8)) with
          | some (.team g _) => s.handleFor (.grid g)
          | some (.grid g) => s.handleFor (.grid g)
          | none => (0, s)
        .ok (hs.2.pushRec { mkRec fn part ring kindServiceReply st tag v hs.1 with answer := some answer })
    | .poisoned => .error (.uncorrectable, ring)
    | _ => .error (.access, ring)

/-- A reply to the service record is held (R44): another SRET of the record arrives after it (R399). -/
def State.answering (s : State) (fn a : Nat) : Bool :=
  s.queues.held.any (fun r => match r.answer with | some (f, _, x, _) => f == fn && x == a | none => false)

/-- SRET (R219, R399). -/
def execSret (a b : SReg) (faulted : Bool) (s : State) : Host.Outcome State Fault Refusal :=
  perThread s activeOf (fun c s1 i =>
    let g := s.gridOf c.team
    if !g.kmode then .fault s1 .privilege 0
    else match c.team.linear? [a.val, b.val] with
      | some h => .fault s1 .linearCopy h
      | none =>
        let r := s.rd c.team i
        let va := r.s a
        let n := va.toNat
        -- what the service thread wrote before is visible with HEAD, in host memory too (R44, R399)
        s1.released c.team.core .system (fun s0 =>
          (readMany s0.ctl g.fn g.part .read 3 s0.mem n 128).did s1 va (fun bs m =>
            let s2 := s0.setMem m
            match s2.ringStop 0 g.part (s2.svcBase g.part).toNat with
            | some x => .stopped s1 x
            | none =>
            if !s2.isSvcRecord g.part n || field bs 0 1 != 1 || bit (field bs 2 1) 0 then .fault s2 .access va
            else match s2.ringStop (field bs 4 2) g.part (field bs 64 8) with
            | some x => .stopped s1 x
            | none =>
              if s2.answering g.fn (n + 2) then .held s1
              else
                let byte := BitVec.ofNat 8 (field bs 2 1 ||| 1)
                (writeRegistry s2.ctl s2.mem g.fn g.part (n + 2) .write [byte]).did s2 va (fun _ _ =>
                  match s2.serviceReply g.part bs (r.s b) (if faulted then stFaulted else stOk) (g.fn, g.part, n + 2, byte) with
                  | .error (e, h) => if e = .uncorrectable then .poisoned s2 else .fault s2 e h
                  | .ok s3 => .done s3))))

-- time (R285, R415)

/-- TSTAMP (R285, R415). -/
def execTstamp (cyc : Bool) (d : SReg) (s : State) : Host.Outcome State Fault Refusal :=
  onceEffect s (fun c _ =>
    match c.team.linear? [d.val] with
    | some h => .fault s .linearCopy h
    | none => .done (s.putSLate c d (BitVec.ofNat 64 (if cyc then (s.core c.team.core).cyc else s.refTime))))

-- KTLBI (R366, R367)

/-- A cached translation lies in the range of a KTLBI: kind, home and page of its address. -/
def tlbHit (kind fn home page : Nat) (key : Nat) (e : Option TlbEntry) : Bool :=
  let big := match e with | some x => x.big | none => false
  let p := key % 2 ^ 38
  key / 2 ^ 38 % 512 == fn &&
    (match kind with
     | 0 => key / 2 ^ 47 == home && (p == page || (big && p / 32 == page / 32))
     | 1 => key / 2 ^ 47 == home && p / 32 == page / 32
     | 2 => key / 2 ^ 47 == home
     | _ => decide (key / 2 ^ 47 < 5))

/-- The same of an L1 word's address. -/
def l1Hit (kind fn home page : Nat) (key : Nat) : Bool :=
  let va := l1Va key
  l1Fn key == fn &&
    (match kind with
     | 0 => va / 65536 == page
     | 1 => va / 2097152 == page / 32
     | 2 => bits va 54 3 == home
     | _ => true)

/-- KTLBI's removals (R367). -/
def State.flushTlb (s : State) (part kind fn va : Nat) : State :=
  let home := bits va 54 3
  let page := va / 65536 % 2 ^ 38
  let mine (k : Nat) : Bool := s.ctl.owns part (k / 24)
  let m := s.mem
  let m1 := { m with
    tlb := Store.keep m.tlb (fun key e => !tlbHit kind fn home page key e)
    l1 := Store.keep m.l1 (fun key w => !(mine (l1Core key) && l1Hit kind fn home (va / 65536) key &&
      (match w with | some x => !x.owned | none => false))) }
  (s.setMem m1).setWork { s.work with cores := s.work.cores.map (fun (e : Nat × Core) =>
    if mine e.1 then (e.1, { e.2 with clauses := [] }) else e) }

/-- A function's leaf for a page as the tables hold it now: its MG bit and its size; none where the walk fails. -/
def State.leafNow (s : State) (fn part page : Nat) : Option (Bool × Bool) :=
  match walk s.ctl s.mem fn part (bits (page * 65536) 54 3) (page * 65536) with
  | .ok (l, big) => some (leafMg l, big)
  | .error _ => none

/-- The stores of every core translated under the entries that a KTLBI removes are performed at their frames (R367 step 4), as far
as they are not blocked. -/
def Mem.settleRange (m : Mem) (kind fn va : Nat) : Mem :=
  m.acceptIf (fun f => l1Hit kind fn (bits va 54 3) (va / 65536) f.key && m.flightFree f)
/-- One of them is still in flight. -/
def Mem.rangeOwes (m : Mem) (kind fn va : Nat) : Bool :=
  m.flights.any (fun f => l1Hit kind fn (bits va 54 3) (va / 65536) f.key)

/-- A blocked page lies in the range of a KTLBI. -/
def moveHit (kind fn va : Nat) (x : Migration) : Bool :=
  x.fn == fn &&
    (match kind with
     | 0 => x.covers fn (va / 65536)
     | 1 => x.page / 32 == va / 2097152
     | 2 => x.page / 2 ^ 38 == bits va 54 3
     | _ => true)

/-- What a queue replays, in arrival order: a batch once, for all of its threads that wait. -/
def replayActs (q : List (Act × Nat)) : List Act :=
  q.foldl (fun (as : List Act) e => match e.1 with
    | .batch _ _ => if as.contains e.1 then as else as ++ [e.1]
    | _ => as ++ [e.1]) []

/-- What the home agents do at a KTLBI (R137): a page whose leaf has MG is blocked; one whose leaf has it no more is given
back, and the accesses queued for it are to be replayed in their order. -/
def State.agentsMeet (s : State) (part kind fn va : Nat) : State :=
  let page := va / 65536
  let still (x : Migration) : Bool := !moveHit kind fn va x || (match s.leafNow fn part x.page with | some (mg, _) => mg | none => false)
  let ended := s.mem.moves.filter (fun x => !still x)
  let stay := s.mem.moves.filter still
  let more := if kind ≤ 1 && !stay.any (fun x => x.covers fn page) then
      (match s.leafNow fn part page with | some (true, big) => [(⟨fn, page, big, false, []⟩ : Migration)] | _ => [])
    else []
  s.setMem { s.mem with moves := stay ++ more, replays := s.mem.replays ++ ended.flatMap (fun x => replayActs x.queue) }

/-- KTLBI (R366, R367). -/
def execKtlbi (kind : Fin 4) (a : Option SReg) (b : Reg) (s : State) : Host.Outcome State Fault Refusal :=
  perThread s activeOf (fun c s1 i =>
    let g := s.gridOf c.team
    let as_ : List Posn := match a with | some x => [at32 (.s x)] | none => []
    if !regInBlock (c.team.kTop i) false b then .fault s1 .illegalInstruction 0
    else if !g.kmode then .fault s1 .privilege 0
    else match c.regFault i (as_ ++ [at32 b]) with
      | some (e, h) => .fault s1 e h
      | none =>
        let r := s.rd c.team i
        let f := (r.lo b).toNat
        let va := match a with | some x => r.s x | none => 0
        let n := va.toNat
        if 384 < f ∨ !(f == 0 || (s1.ctl.fnOn f && s1.ctl.vfPart f == g.part)) then .fault s1 .access 0
        else if (kind.val = 0 ∧ n % 65536 ≠ 0) ∨ (kind.val = 1 ∧ n % 2097152 ≠ 0) then .fault s1 .alignment va
        else if kind.val ≤ 2 ∧ (2 ^ 57 ≤ n ∨ 5 ≤ bits n 54 3) then .fault s1 .access va
        else if kind.val ≤ 2 && s1.homeless g.part n then .fault s1 .outOfPartition va
        else s1.released c.team.core .device (fun s2 =>
          let m := s2.mem.settleRange kind.val f n
          if m.rangeOwes kind.val f n then .held (s2.setMem m)
          else .done ((((s2.setMem m).flushTlb g.part kind.val f n).agentsMeet g.part kind.val f n).pendMems c)))

-- KGET, KSET, KRESUME (R211-R215, R365)

/-- What a K-mode instruction's team handle names: the team's grid and index (R212). -/
def State.kTeam (s : State) (part : Nat) (h : W64) : Option (Nat × Nat) :=
  match s.targetIn part h with
  | some (.team g lin) => if s.teamEnded g lin then none else some (g, lin)
  | _ => none

/-- STATE of the trap state word (R211). -/
def Thread.trapState (x : Thread) : Nat :=
  match x.st with
  | .trapped => 1
  | .held => 2
  | .ended => 3
  | _ => 0

/-- The trap state word (R211). -/
def Thread.trapWord (x : Thread) : W64 :=
  let w (cause block clause instr detail : Nat) : W64 := BitVec.ofNat 64
    (cause % 256 * 2 ^ 56 + block % 2 ^ 24 * 2 ^ 32 + clause % 2 ^ 16 * 2 ^ 16 + instr % 16 * 2 ^ 12 + detail % 16 * 2 ^ 8 + x.trapState)
  match x.st with
  | .trapped => w x.trap.cause x.trap.block x.trap.clause x.trap.instr x.trap.detail
  | .held => w 0 x.pos.block x.pos.clause x.pos.instr 0
  | .ended => w 0 0 0 0 0
  | _ => 0

/-- The fault address (R211). -/
def Thread.faultAddr (x : Thread) : W64 := match x.st with | .trapped => x.trap.addr | _ => 0

/-- A thread that service may read and write: trapped or in debug-hold. -/
def Thread.open (x : Thread) : Bool := x.st == .trapped || x.st == .held

/-- What KGET reads (R214), or none for ACCESS. -/
def State.kRead (s : State) (g lin b sel n : Nat) : Option W64 :=
  match s.teamOf g lin with
  | none =>
    -- not started: no thread has trapped
    match s.grid? g with
    | some x => if b < x.threads ∧ sel ≤ 1 then some 0 else none
    | none => none
  | some t =>
    if t.threads.length ≤ b then none
    else
      let x := t.thread b
      match sel with
      | 0 => some x.trapWord
      | 1 => some x.faultAddr
      | 2 => if x.open && decide (n < t.kTop b) then some ((Store.get 0 x.k n).setWidth 64) else none
      | _ => if x.open && decide (n < 64) then
          some (match x.frame with
            | some f => (match f.w.find? (fun e => e.1 == n) with | some e => e.2.setWidth 64 | none => 0)
            | none => 0)
        else none

/-- KGET (R211, R213, R214, R365). -/
def execKget (sel : Fin 4) (d a : SReg) (b : Reg) (n : BitVec 16) (s : State) : Host.Outcome State Fault Refusal :=
  perThread s activeOf (fun c s1 i =>
    if !regInBlock (c.team.kTop i) false b then .fault s1 .illegalInstruction 0
    else if !(s.gridOf c.team).kmode then .fault s1 .privilege 0
    else match c.regFault i [at32 (.s d), at32 (.s a), at32 b] with
      | some (e, h) => .fault s1 e h
      | none =>
        let r := s.rd c.team i
        match s1.kTeam (s.gridOf c.team).part (r.s a) with
        | none => .fault s1 .access (r.s a)
        | some (g, lin) =>
          match s1.kRead g lin (r.lo b).toNat sel.val n.toNat with
          | none => .fault s1 .access 0
          | some v => .done (s1.putSLate c d v))

/-- What KSET writes (R214), or none for ACCESS. -/
def State.kWrite (s : State) (g lin b : Nat) (isW : Bool) (n : Nat) (v : W32) : Option State :=
  match s.teamOf g lin with
  | none => none
  | some t =>
    let x := t.thread b
    if t.threads.length ≤ b || !x.open then none
    else if isW then
      if 64 ≤ n then none
      else some (s.setTeam (t.setThread b { x with frame := x.frame.map (fun (f : Frame) =>
        { f with w := f.w.map (fun e => if e.1 = n then (n, v) else e) }) }))
    else if t.kTop b ≤ n then none
    else some (s.setTeam (t.setThread b { x with k := Store.set 0 x.k n v }))

/-- KSET (R213, R214, R365). -/
def execKset (isW : Bool) (a : SReg) (b x : Reg) (n : BitVec 16) (s : State) : Host.Outcome State Fault Refusal :=
  perThread s activeOf (fun c s1 i =>
    if !regInBlock (c.team.kTop i) false b || !regInBlock (c.team.kTop i) false x then .fault s1 .illegalInstruction 0
    else if !(s.gridOf c.team).kmode then .fault s1 .privilege 0
    else match c.regFault i [at32 (.s a), at32 b, at32 x] with
      | some (e, h) => .fault s1 e h
      | none =>
        let r := s.rd c.team i
        match s1.kTeam (s.gridOf c.team).part (r.s a) with
        | none => .fault s1 .access (r.s a)
        | some (g, lin) =>
          match s1.kWrite g lin (r.lo b).toNat isW n.toNat (r.lo x) with
          | none => .fault s1 .access 0
          | some s2 => .done s2)

/-- ALL_STOP ends once no thread is in debug-hold and none is trapped with BREAKPOINT (R61). -/
def Team.restart (t : Team) : Team :=
  if t.threads.any (fun x => x.st == .held || x.stepping || (x.st == .trapped && x.trap.cause == Code.breakpoint.num)) ||
      t.batches.any (·.stepped) then t
  else { t with stopped := false }

/-- KRESUME RESUME of a team's thread, or of every thread (R215). -/
def Team.resumeThreads (t : Team) (b : Nat) : Team :=
  ({ t with threads := t.threads.mapIdx (fun i (x : Thread) => if b = 2 ^ 32 - 1 ∨ i = b then x.resume else x) }).restart
/-- KRESUME STEP (R61, R215). -/
def Team.stepThread (t : Team) (b : Nat) : Team :=
  t.onThread b (fun x =>
    if x.st = .held ∨ (x.st = .trapped ∧ x.trap.cause = Code.breakpoint.num) then { x.resume with stepping := true } else x)

/-- KRESUME acts on a team: its core's clause cache goes (R326), its watchdog count is 0 (R226). -/
def State.kTouch (s : State) (t : Team) : State :=
  let s1 := s.onTeam t.uid (·.wdogReset)
  if t.placed then s1.acquire t.core else s1

/-- A KRESUME on a team named by a handle: its checks, then its effect on a thread number or a code (R213, R215). -/
def kresumeTeam (s : State) (a : SReg) (b : Reg) (f : State → Nat → Nat → Nat → Option State) : Host.Outcome State Fault Refusal :=
  perThread s activeOf (fun c s1 i =>
    if !regInBlock (c.team.kTop i) false b then .fault s1 .illegalInstruction 0
    else if !(s.gridOf c.team).kmode then .fault s1 .privilege 0
    else match c.regFault i [at32 (.s a), at32 b] with
      | some (e, h) => .fault s1 e h
      | none =>
        let r := s.rd c.team i
        match s1.kTeam (s.gridOf c.team).part (r.s a) with
        | none => .fault s1 .access (r.s a)
        | some (g, lin) =>
          match f s1 g lin (r.lo b).toNat with
          | none => .fault s1 .access 0
          | some s2 => .done s2)

/-- Threads of a team, started or not. -/
def State.threadsOf (s : State) (g lin : Nat) : Nat :=
  match s.teamOf g lin with
  | some t => t.threads.length
  | none => match s.grid? g with | some x => x.threads | none => 0

/-- KRESUME RESUME (R215). -/
def execKresumeResume (a : SReg) (b : Reg) (s : State) : Host.Outcome State Fault Refusal :=
  kresumeTeam s a b (fun s1 g lin n =>
    if n ≠ 2 ^ 32 - 1 ∧ s1.threadsOf g lin ≤ n then none
    else match s1.teamOf g lin with
      | none => some s1
      | some t => some ((s1.setTeam (t.resumeThreads n)).kTouch t))

/-- KRESUME STEP (R61, R215). -/
def execKresumeStep (a : SReg) (b : Reg) (s : State) : Host.Outcome State Fault Refusal :=
  kresumeTeam s a b (fun s1 g lin n =>
    if s1.threadsOf g lin ≤ n then none
    else match s1.teamOf g lin with
      | none => some s1
      | some t => some ((s1.setTeam (t.stepThread n)).kTouch t))

/-- KRESUME KILL (R215). -/
def execKresumeKill (a : SReg) (b : Reg) (s : State) : Host.Outcome State Fault Refusal :=
  kresumeTeam s a b (fun s1 g lin n =>
    let code := n % 256
    if code < 1 ∨ 24 < code then none
    else
      let m := s1.materialise g lin
      match m.1.team? m.2 with
      | none => some s1
      | some t => some ((m.1.kTouch t).endTeam m.2 (some code)))

/-- A KRESUME on an engine: its checks, then its effect on the engine's number (R215). -/
def kresumeEngine (s : State) (a b : Reg) (f : State → Nat → State) : Host.Outcome State Fault Refusal :=
  perThread s activeOf (fun c s1 i =>
    if !regInBlock (c.team.kTop i) false a || !regInBlock (c.team.kTop i) false b then .fault s1 .illegalInstruction 0
    else if !(s.gridOf c.team).kmode then .fault s1 .privilege 0
    else match c.regFault i [at32 a, at32 b] with
      | some (e, h) => .fault s1 e h
      | none =>
        let e := ((s.rd c.team i).lo a).toNat
        if !(s1.ctl.enginesOf (s.gridOf c.team).part).contains e then .fault s1 .access 0 else .done (f s1 e))

/-- KRESUME ENGRESUME (R170, R215). -/
def execKresumeEngresume (a b : Reg) (s : State) : Host.Outcome State Fault Refusal :=
  kresumeEngine s a b (fun s1 e => match s1.queueOf e with
    | x :: _ => if x.parked.isSome then (s1.putHead e { x with parked := none, told := false }).claimRest x else s1
    | [] => s1)

/-- KRESUME ENGEND (R170, R215). -/
def execKresumeEngend (a b : Reg) (s : State) : Host.Outcome State Fault Refusal :=
  kresumeEngine s a b (fun s1 e => match s1.queueOf e with
    | x :: _ => (match x.parked with | some (code, _) => s1.killCopy e x (.other code) | none => s1)
    | [] => s1)

-- posting to the transport (R295-R298, R414, R417)

/-- A work-request ring's header (R295): PROD, CONS and L, where it meets the limits. -/
def wqHead (bs : List Byte) : Option (Nat × Nat × Nat) :=
  let l := ofLE ((bs.drop 16).take 1)
  if 4 ≤ l ∧ l ≤ 12 ∧ (bs.drop 17).all (· == 0) then some (field bs 0 8, field bs 8 8, l) else none

def State.wqOn (s : State) (fn r : Nat) : Bool := bit (s.ctl.wqRingOf fn r).toNat 0
def State.wqBase (s : State) (fn r : Nat) : Nat := bits (s.ctl.wqRingOf fn r).toNat 6 51 * 64
/-- EN of a ring cleared. -/
def State.wqClear (s : State) (fn r : Nat) : State :=
  s.setCtl { s.ctl with wqRing := Store.set 0 s.ctl.wqRing (fn * 64 + r) (put64 (s.ctl.wqRingOf fn r) 0 1 0) }

/-- A thread stands at a WQPOST in a batch: it waits with the index it was assigned (R417). -/
def State.posting (s : State) (e : Nat × Nat × Nat) : Bool :=
  match s.team? e.2.1 with
  | some t => t.phase == .live && (t.thread e.2.2).st == .inBatch
  | none => false
/-- Posts to the ring that arrived before this one and wait still (R417). -/
def State.postsAhead (s : State) (e : Nat × Nat × Nat) : Nat :=
  ((s.net.posts.takeWhile (· != e)).filter (fun x => x.1 == e.1 && s.posting x)).length
/-- A post arrives at the hub die, which assigns it the next index (R417). -/
def State.arrive (s : State) (e : Nat × Nat × Nat) : State :=
  if s.net.posts.contains e then s else s.setNet { s.net with posts := s.net.posts ++ [e] }
/-- It has its index filled, or its thread has faulted and arrives again at its replay (log 94). -/
def State.posted (s : State) (e : Nat × Nat × Nat) : State :=
  if s.net.posts.contains e then s.setNet { s.net with posts := s.net.posts.erase e } else s

/-- WQPOST from its index on (R417 steps 4 to 7); `n`: the index. -/
def State.fillPost (s : State) (c : Ctx) (i : Nat) (d : SReg) (va : W64) (base key l n : Nat) : Did :=
  let g := s.gridOf c.team
  if isAperture va.toNat then .fault s .access va
  else s.readAt c i (whereGlobal (s.agent c.team) va.toNat .read) .plain .team .n64 64 va (fun q s3 =>
    (writeFresh s3.ctl s3.mem c.team.core g.fn g.part (base + 64 + 64 * (n % 2 ^ l)) .write q).did s3 (BitVec.ofNat 64 base) (fun _ m4 =>
      (writeFresh s3.ctl m4 c.team.core g.fn g.part base .write (toLE 8 (n + 1))).did s3 (BitVec.ofNat 64 base) (fun _ m5 =>
        let s5 := s3.setMem m5
        let s6 := s5.setNet { s5.net with wqNext := Store.set 0 s5.net.wqNext key (n + 1) }
        .done ((s6.posted (key, c.team.uid, i)).putSLate c d (BitVec.ofNat 64 n)))))

/-- WQPOST (R297, R417). Posts to one ring are filled in the order of their indices, so that the first to have arrived is filled
first and a post that waits keeps those behind it waiting. -/
def execWqpost (d a : SReg) (ring : Fin 64) (s : State) : Host.Outcome State Fault Refusal :=
  perThread s activeOf (fun c s1 i =>
    match c.team.linear? [d.val, a.val] with
    | some h => .fault s1 .linearCopy h
    | none =>
      let g := s.gridOf c.team
      let va := (s.rd c.team i).s a
      let base := s1.wqBase g.fn ring.val
      let key := g.fn * 64 + ring.val
      let e := (key, c.team.uid, i)
      if va.toNat % 64 ≠ 0 then .fault s1 .alignment va
      else if !s1.wqOn g.fn ring.val then .fault (s1.posted e) .access 0
      else s1.released c.team.core .part (fun s2 =>
        match deviceRead s2.ctl s2.mem g.fn g.part base 64 .read with
        | .ok hb m =>
          (match wqHead hb with
          | none => .fault ((s2.posted e).wqClear g.fn ring.val) .access 0
          | some (prod, cons, l) =>
            let s3 := (s2.setMem m).arrive e
            let ahead := s3.postsAhead e
            let n := Nat.max prod (Store.get 0 s2.net.wqNext key)
            if 2 ^ l ≤ n + ahead - cons then .held ((s1.arrive e).markFull c true)
            else if ahead ≠ 0 then .held (s1.arrive e)
            else match s3.fillPost c i d va base key l n with
              | .fault t code a => .fault (t.posted e) code a
              | .held _ => .held (s1.arrive e)
              | .blocked _ k => .blocked (s1.arrive e) k
              | x => x)
        | .fault _ => .fault ((s2.posted e).wqClear g.fn ring.val) .access 0
        | .poisoned => .poisoned s2
        | x => .stopped s1 x.page))

/-- The terms of a trigger record: none where one is reserved or none is valid (R297). -/
def termsOf (bs : List Byte) : Option (List (Nat × Nat)) :=
  let ts := (List.range 8).map (fun k => field bs (64 + 8 * k) 8)
  let valid := ts.filter (fun v => bit v 63)
  if valid.isEmpty || !ts.all (fun v => bits v 38 25 == 0) then none
  else some (valid.map (fun v => (bits v 32 6, bits v 0 32)))

/-- TRIGA (R297, R298, R414). -/
def execTriga (any : Bool) (d a : SReg) (s : State) : Host.Outcome State Fault Refusal :=
  perThread s activeOf (fun c s1 i =>
    match c.team.linear? [d.val, a.val] with
    | some h => .fault s1 .linearCopy h
    | none =>
      let g := s.gridOf c.team
      let va := (s.rd c.team i).s a
      if va.toNat % 64 ≠ 0 then .fault s1 .alignment va
      else s1.released c.team.core .part (fun s0 => (readMany s0.ctl g.fn g.part .read 4 s0.mem va.toNat 128).did s1 va (fun bs m =>
        let s2 := s0.setMem m
        match termsOf bs with
        | none => .fault s2 .access 0
        | some ts =>
          let used := (s2.armed g.fn).map (·.slot)
          match (List.range 64).find? (fun k => !used.contains k) with
          | none => .done (s2.putSLate c d (BitVec.ofNat 64 (2 ^ 64 - 1)))
          | some k =>
            let x : Trigger := { slot := k, or := any, terms := ts, bytes := bs.take 64, part := g.part }
            let s3 := s2.setNet { s2.net with triggers := Store.set [] s2.net.triggers g.fn (s2.armed g.fn ++ [x]) }
            .done ((s3.putSLate c d (BitVec.ofNat 64 k)).evalSlots g.fn))))

/-- CNTADD (R297, R298). -/
def execCntadd (tc : Fin 64) (a : Reg) (s : State) : Host.Outcome State Fault Refusal :=
  perThread s activeOf (fun c s1 i =>
    match c.regFault i [at32 a] with
    | some (e, h) => .fault s1 e h
    | none => s1.released c.team.core .part (fun s2 => .done (s2.addCounter (s.gridOf c.team).fn tc.val ((s.rd c.team i).lo a).toNat)))

end Sys2Proof.Machine
end

