-- ==== Sys2Proof/Machine/CoreEvents.lean ====
section
/-! DEFINITION. Events on the cores and at the dispatcher (R44, R49, R89, R90, R134, R191, R197, R209, R225, R226, R258,
R281, R283, R306). An event whose moment has not come changes nothing. -/

namespace Sys2Proof.Machine

-- the Hoist and the batches

/-- SELECTION (R48, R49). -/
def execSelection (team : Nat) (s : State) : Host.Outcome State Fault Refusal := .next (s.select team)

/-- CLAUSE_START (R87-R92, R257, R310, R326): of the batch whose turn it is; another team's issue may be due first. -/
def execClauseStart (s : State) : Host.Outcome State Fault Refusal :=
  withCtx s (fun c =>
    if c.batch.buf.isSome then s
    else match s.mayStart c with
      | none => s
      | some ahead =>
        let s1 := s.startClause c
        if (s1.curBatch c).buf.isSome then s1.spendIssue c ahead else s1)

/-- LONG_LATENCY_WRITE_DONE (R89, R90): one register write of a started clause completes. -/
def execLongLatencyWriteDone (team tok : Nat) (s : State) : Host.Outcome State Fault Refusal :=
  match s.team? team with
  | none => .next s
  | some t =>
    match t.tok? tok with
    | none => .next s
    | some k => .next (if s.reserved t k < k.regs then s.setTeam (t.regDone tok) else s)

/-- Every memory write of a token performed (R89). -/
def Team.memAll (t : Team) (k : Nat) : Team :=
  match t.tok? k with
  | none => t
  | some x => (t.setTok { x with mems := 0 }).settleTok k

/-- WRITE_PERFORMED (R89, R142): the core's registrations are accepted, and with them the clause's writes are performed;
while one of them waits at a blocked page or a scrub, they are not. -/
def execWritePerformed (team tok : Nat) (s : State) : Host.Outcome State Fault Refusal :=
  match s.team? team with
  | none => .next s
  | some t =>
    let s1 := s.setMem (s.mem.drain t.core)
    if s1.mem.flights.any (fun f => f.core == t.core) then .next s1
    else .next (s1.onTeam team (fun x => x.memAll tok))

/-- A record that is due before thread `i`'s of a team (R209): of a trap taken in the same cycle, on a lower core, at a lower place
or in a lower thread. -/
def State.trapBehind (s : State) (t : Team) (i : Nat) : Bool :=
  let c := (t.thread i).trap.cycle
  s.teams.any (fun y =>
    y.phase == .live && (s.gridOf y).part == (s.gridOf t).part &&
      (y.indices (fun x => x.st == .trapped && !x.trap.posted && x.trap.cycle == c)).any (fun j =>
        if y.uid = t.uid then decide (j < i)
        else if y.core ≠ t.core then decide (y.core < t.core) else decide (y.place < t.place)))

/-- TRAP_RECORD_POST (R92, R209, R216, R217): a thread's trap record, once its own operations are complete; while the
ring is off, or in a K-mode team, the trap is fatal. -/
def execTrapRecordPost (team thread : Nat) (s : State) : Host.Outcome State Fault Refusal :=
  match s.team? team with
  | none => .next s
  | some t =>
    let x := t.thread thread
    let g := s.gridOf t
    if x.st ≠ .trapped || x.trap.posted || s.frameBusy t thread || s.trapBehind t thread then .next s
    else if !s.svcOn g.part || g.kmode then .next (s.endTeam team (some x.trap.cause))
    else
      let hs := s.handleFor (.team t.grid t.lin)
      let body := svcBody 2 x.trap.cause t.cls g.fn hs.1 thread 0 x.trap.addr x.trapWord []
      .next ((hs.2.pushSvc g.part body).onTeam team (fun y => y.onThread thread (fun z => { z with trap := { z.trap with posted := true } })))

/-- REGISTRATION_ACCEPTED (R134): the oldest registration of a core. -/
def execRegistrationAccepted (core : Nat) (s : State) : Host.Outcome State Fault Refusal :=
  .next (s.setMem (s.mem.acceptOldest core))

/-- WAIT_POLL (R197). -/
def execWaitPoll (team thread : Nat) (s : State) : Host.Outcome State Fault Refusal := .next (s.pollWait team thread)

/-- BARRIER_WAVE (R281): the crews whose wave is due. -/
def execBarrierWave (core : Nat) (s : State) : Host.Outcome State Fault Refusal :=
  let s1 := s.catchUp core
  .next (if (s1.core core).waves.any (fun w => decide (w.due ≤ s1.cycNow core)) then s1.releaseWave core else s1)

-- rings and grids

/-- RECORD_WRITE (R44): the next record of a ring. -/
def execRecordWrite (fn : Nat) (ring : W64) (s : State) : Host.Outcome State Fault Refusal := .next (s.flushRing fn ring)

/-- RING_HEADER_RECHECK (R44): a ring that holds records reads its header again. -/
def execRingHeaderRecheck (fn : Nat) (ring : W64) (s : State) : Host.Outcome State Fault Refusal :=
  .next (s.flushAll fn ring (s.queues.held.filter (fun r => r.fn == fn && r.ring == ring)).length)

/-- Packets whose grid it was complete with it (R251). -/
def State.packetsOf (s : State) (g : Nat) : State :=
  s.setQueues { s.queues with packets := s.queues.packets.filter (fun p => p.work != some g) }

/-- GRID_RETIRE (R37, R251): a grid whose teams have all ended retires; its LAUNCH packet is complete. -/
def execGridRetire (grid : Nat) (s : State) : Host.Outcome State Fault Refusal :=
  let s1 := s.retireGrid grid
  .next (if s1.gridRetired grid then s1.packetsOf grid else s1)

/-- TEAM_PLACEMENT (R191, R192, R206): one placement or one eviction of a partition's dispatcher. -/
def execTeamPlacement (part : Nat) (s : State) : Host.Outcome State Fault Refusal := .next (s.dispatch part s.prioOf)

/-- DUSK_GRACE_EXPIRY (R189, R190, R192): NIGHT teams are evicted for a DUSK team past its grace, and for a
team of an admitted NOON grid that is still unplaced. -/
def execDuskGraceExpiry (grid lin : Nat) (s : State) : Host.Outcome State Fault Refusal :=
  match s.grid? grid with
  | none => .next s
  | some g =>
    match (s.candidates g.part s.prioOf).find? (fun c => c.g.uid == grid && c.lin == lin && (s.pastGrace g.part c || c.cls == 2)) with
    | none => .next s
    | some c =>
      let m := s.materialise grid lin
      .next ((m.1.onTeam m.2 (fun t => { t with waited := c.waited })).graceEvict m.2)

-- watchdog (R225, R226)

def Team.wdogLimit (t : Team) : Nat := bits t.wdogCtl.toNat 0 16 * 4096
/-- The watchdog count has reached its limit. -/
def Team.wdogDue (t : Team) : Bool := decide (0 < t.wdogLimit) && decide (t.wdogLimit ≤ t.wdog)

/-- WATCHDOG_EXPIRY (R226). -/
def execWatchdogExpiry (team : Nat) (s : State) : Host.Outcome State Fault Refusal :=
  match s.team? team with
  | none => .next s
  | some t => .next (if t.phase ≠ .live || !t.wdogDue then s else s.biteTeam team t)

/-- A park that names no team (R196, R246, R293). -/
def Park.anonymous : Park → Bool
  | .waitf r _ _ => r.target == 0
  | .hrecv _ _ _ => true
  | .aperture _ _ _ => true
  | _ => false

/-- WAIT_LIMIT in picoseconds (R225). -/
def Team.waitLimit (t : Team) : Nat :=
  bits t.wdogCtl.toNat 16 16 * 1000000
/-- An anonymous park has lasted WAIT_LIMIT. -/
def Team.waitedOut (t : Team) (x : Thread) : Bool :=
  match x.st with
  | .parked p => p.anonymous && t.placed && decide (0 < t.waitLimit) && decide (t.waitLimit ≤ x.parkedFor)
  | _ => false

/-- WAIT_LIMIT_EXPIRY (R226): the thread traps WATCHDOG with DETAIL 1 at its park point. -/
def execWaitLimitExpiry (team thread : Nat) (s : State) : Host.Outcome State Fault Refusal :=
  match s.team? team with
  | none => .next s
  | some t => .next (if t.waitedOut (t.thread thread) then s.onTeam team (fun x => x.failPark thread .watchdog 1 0) else s)

-- the Canary and the marks

/-- CANARY_ALARM (R283): an alarm that the core's last cycle has found acts. -/
def execCanaryAlarm (core : Nat) (s : State) : Host.Outcome State Fault Refusal := .next (s.alarmNow core)

/-- CANARY_STRETCH_END (R283): the stretch is over. -/
def execCanaryStretchEnd (core : Nat) (s : State) : Host.Outcome State Fault Refusal :=
  let k := s.core core
  .next (if k.stretch = 1 then s.setCore core { k with stretch := 0 } else s)

/-- HALF_ISSUE_END (R283): half issue is over. -/
def execHalfIssueEnd (core : Nat) (s : State) : Host.Outcome State Fault Refusal :=
  let k := s.core core
  .next (if k.half = 1 then s.setCore core { k with half := 0 } else s)

/-- L1_MARK_CLEAR (R258). -/
def execL1MarkClear (core : Nat) (s : State) : Host.Outcome State Fault Refusal :=
  .next (s.setCore core { s.core core with marks := [] })

-- soft errors (R306)

/-- One more in a half of ERR_CNT, saturating. -/
def countError (v : W64) (lo : Nat) : W64 :=
  let n := bits v.toNat lo 32
  put64 v lo 32 (if n = 2 ^ 32 - 1 then n else n + 1)
def State.countUncorr (s : State) : State := s.setCtl { s.ctl with errCnt := countError s.ctl.errCnt 32 }

/-- CORRECTABLE_ERROR (R306). -/
def execCorrectableError (s : State) : Host.Outcome State Fault Refusal :=
  .next (s.setCtl { s.ctl with errCnt := countError s.ctl.errCnt 0 })

/-- A team whose state holds a struck word ends; a save in progress completes first, and the fault ends the team at its restore
(R306). -/
def State.strikeTeam (s : State) (u : Nat) : State :=
  match s.team? u with
  | none => s
  | some t =>
    if t.leaving || t.saved then s.setTeam { t with doomed := some Code.uncorrectable.num }
    else s.endTeam u (some Code.uncorrectable.num)
/-- The 64 bits at an L1 key hold a word that the core owns: the SECDED word that is struck (R306). -/
def Mem.strikesOwned (m : Mem) (core key : Nat) : Bool :=
  m.l1.any (fun e => l1Core e.1 == core && e.1 / 2 == key / 2 && (match e.2 with | some x => x.owned | none => false))

/-- UNCORRECTABLE_ERROR (R306, R307, R220, R241). -/
def execUncorrectableError (site : ErrorSite) (s : State) : Host.Outcome State Fault Refusal :=
  let s1 := s.countUncorr
  match site with
  | .team u => .next (s1.strikeTeam u)
  | .sharedL1 core key =>
    -- what is unowned of the line is fetched again when it is next read; an owned word is of the core's teams of its function (log 69)
    let s2 := s1.setMem { s1.mem with l1 := Store.keep s1.mem.l1 (fun k w =>
      !(l1Core k == core && k / 32 == key / 32) || (match w with | some x => x.owned | none => false)) }
    .next (if s1.mem.strikesOwned core key then
        ((s2.teams.filter (fun t => t.placed && t.core == core && (s2.gridOf t).fn == l1Fn key)).map (·.uid)).foldl State.strikeTeam s2
      else s2)
  | .line pa =>
    .next (if s1.mem.poison.contains (pa / 128) then s1 else s1.setMem { s1.mem with poison := s1.mem.poison ++ [pa / 128] })
  | .pairSlot die n =>
    let x := s1.slot die n
    .next (if x.st = .sealed then s1.setSlot die n { x with st := .abandoned } else s1.abandonSlot die n)
  | .savedContext u =>
    .next (s1.onTeam u (fun t => if t.saved then { t with doomed := some Code.contextSaveTimeout.num } else t))
  | .hub => .next (s1.emit (.msix 0 0)) -- the PF is told, which then resets the device

/-- OPERAND_PARITY_ERROR (R306): the instruction is replayed with no visible effect; whether three replays fail is open
(log 24), and then the team ends. -/
def execOperandParityError (team _thread : Nat) (s : State) : Host.Outcome State Fault Refusal :=
  if Config.replaysFail s.sched.tick then .next ((s.countUncorr).endTeam team (some Code.uncorrectable.num))
  else .next s

end Sys2Proof.Machine
end

