-- ==== Sys2Proof/Machine/Tenancy.lean ====
section
/-! DEFINITION. Partitions, virtual functions and their shares (R220-R224, R262-R274): turns and the gang switch tick,
PART_CTL, VF_CFG, VF_L2, VF_BW, ENG_OWN, the L2 epoch, and TDISP. -/

namespace Sys2Proof.Machine

-- turns (R222, R223, R266)

/-- SLICE_US and SAVE_DL of a partition, in picoseconds. -/
def State.sliceTime (s : State) (part : Nat) : Nat := bits (s.ctl.switchCtlOf part).toNat 16 16 * 1000000
def State.saveTime (s : State) (part : Nat) : Nat := bits (s.ctl.switchCtlOf part).toNat 0 16 * 1000000

/-- The next function of a list after one that leaves, in ascending number, wrapping (R266). -/
def nextTurnOf (fs : List Nat) (f : Nat) : Option Nat :=
  match fs.find? (fun x => decide (f < x)) with
  | some x => some x
  | none => fs.head?

/-- A partition's SWITCH_STAT with fields changed. -/
def State.setStat (s : State) (part : Nat) (v : W32) : State :=
  s.setCtl { s.ctl with switchStat := Store.set 0 s.ctl.switchStat part v }

/-- The teams of a tenant in a partition that satisfy a test. -/
def State.tenantTeams (s : State) (fn part : Nat) (p : Team → Bool) : List Team :=
  s.teams.filter (fun t => (s.gridOf t).fn == fn && (s.gridOf t).part == part && p t)

/-- The order of a restore (R206): promoted and NOON teams first, then as dispatch takes them (R191), by the priorities given. -/
def State.restoreBefore (s : State) (prio : Nat → Nat → Nat) (a b : Team) : Bool :=
  let strong (t : Team) : Bool := t.cls == 2 || decide ((s.gridOf t).cls < t.cls)
  let cand (t : Team) : Cand := ⟨s.gridOf t, t.lin, t.cls, prio t.grid t.lin, t.started, some t.uid, t.waited⟩
  if strong a != strong b then strong a else candBefore (cand a) (cand b)

/-- A tenant's teams placed again (R206); the donations that were in force at the save are in force. -/
def State.restoreTenant (s : State) (part fn : Nat) : State :=
  let back := s.tenantTeams fn part (fun t => t.ticked && t.saved)
  let prio := s.prioFrom (fun t => t.placed || back.any (fun x => x.uid == t.uid))
  (sortBy (s.restoreBefore prio) back).foldl (fun (a : State) t =>
    match a.coreFor a.residents (a.gridOf t) with
    | some k => a.placeTeam t.uid k
    | none => a.onTeam t.uid (fun x => { x with ticked := false })) s

/-- A turn begins (R223, R266): the late tenant's slice is shortened by its debt, all but a microsecond of it. -/
def State.beginTurn (s : State) (part fn : Nat) : State :=
  let stat := s.ctl.switchStatOf part
  let debt := bits stat.toNat 0 24
  let owes := decide (Store.get none s.work.debtor part = some fn)
  let pay := if owes then Nat.min debt (bits (s.ctl.switchCtlOf part).toNat 16 16 - 1) else 0
  let s1 := s.setStat part (put32 stat 0 24 (debt - pay))
  (s1.setWork { s1.work with
    turns := Store.set none s1.work.turns part (some fn)
    turnLeft := Store.set 0 s1.work.turnLeft part (s1.sliceTime part - pay * 1000000) }).restoreTenant part fn

/-- The turn of a partition looked at again after its VFs have changed (R266); `more`: a MODE 0 VF has been enabled. -/
def State.refreshTurn (s : State) (part : Nat) (more : Bool) : State :=
  if s.work.saves.any (fun x => x.part == part) then s
  else
    let fs := s.sharedVfs part
    let keep := match Store.get none s.work.turns part with | some f => fs.contains f | none => false
    if keep then
      -- the first tick comes a slice after a second MODE 0 VF is enabled
      if more && fs.length = 2 then s.setWork { s.work with turnLeft := Store.set 0 s.work.turnLeft part (s.sliceTime part) } else s
    else match fs with
      | [] => s.setWork { s.work with turns := Store.set none s.work.turns part none }
      | f :: _ => s.beginTurn part f

/-- Dies that hold a core of a function in a partition, ascending. -/
def State.diesOf (s : State) (fn part : Nat) : List Nat := sortNat ((s.ctl.coresOf fn part).map (· / 72))

/-- SWITCH_TICK (R222, R223): the outgoing tenant's teams leave their cores; share 4 is the hub die's. -/
def execSwitchTick (part : Nat) (s : State) : Host.Outcome State Fault Refusal :=
  if !s.tickDue part then .next s
  else match Store.get none s.work.turns part with
    | none => .next s
    | some fn =>
      let s1 := (s.tenantTeams fn part (·.placed)).foldl (fun (a : State) t =>
        a.onTeam t.uid (fun x => { x with leaving := true, ticked := true })) s
      let x : Save := ⟨part, fn, s.sched.now, s.diesOf fn part ++ [4], []⟩
      .next (s1.setWork { s1.work with saves := s1.work.saves ++ [x], turns := Store.set none s1.work.turns part none })

/-- The incoming tenant's turn after one that has gone out. -/
def State.incoming (s : State) (part fn : Nat) : State :=
  match nextTurnOf (s.sharedVfs part) fn with
  | some f => s.beginTurn part f
  | none => s

/-- The last share is saved (R222, R223). -/
def State.saveDone (s : State) (x : Save) : State :=
  let last := (x.shares.map (·.2)).foldl Nat.max 0
  let late := ((x.shares.filter (fun e => e.2 == last)).map (·.1)).foldl Nat.min 4
  let due := x.start + s.saveTime x.part
  let lag := (s.sched.now - due + 999999) / 1000000
  let stat := s.ctl.switchStatOf x.part
  let debt := Nat.min (bits stat.toNat 0 24 + lag) (2 ^ 24 - 1)
  let s1 := s.setStat x.part (put32 (put32 stat 24 4 late) 0 24 debt)
  let s2 := s1.setWork { s1.work with
    saves := s1.work.saves.filter (fun y => y.part != x.part)
    debtor := if 0 < lag then Store.set none s1.work.debtor x.part (some x.fn) else s1.work.debtor }
  s2.incoming x.part x.fn

/-- SAVE_SHARE_COMPLETE (R220, R221, R223): a die's teams are saved, once their copies allow it and the area has room. -/
def execSaveShareComplete (part die : Nat) (s : State) : Host.Outcome State Fault Refusal :=
  match s.work.saves.find? (fun x => x.part == part && x.left.contains die) with
  | none => .next s
  | some x =>
    -- after 4 × SAVE_DL the context is lost (R224)
    if !s.shareReady x die || decide (x.start + 4 * s.saveTime part < s.sched.now) then .next s
    else
      let s1 := (s.shareTeams x die).foldl (fun (a : State) t => a.saveTeam t.uid) s
      let y : Save := { x with left := x.left.filter (· != die), shares := x.shares ++ [(die, s.refTime)] }
      if y.left.isEmpty then .next (s1.saveDone y)
      else .next (s1.setWork { s1.work with saves := s1.work.saves.map (fun z => if z.part = part then y else z) })

-- ending everything of a tenant (R224, R273)

/-- Teams of a grid that have neither started nor an object of their own end with a code, the lowest of them first (R42). -/
def State.endRest (s : State) (g : Nat) (code : Nat) : State :=
  match s.grid? g with
  | none => s
  | some x =>
    let later := (s.teams.filter (fun t => t.grid == g && decide (x.nextLin ≤ t.lin))).length
    let n := x.count - x.nextLin - later
    if n = 0 then s
    else s.onGrid g (fun y => { y.noteFault code ((s.nextOf x).getD x.nextLin) s.sched.now with nextLin := y.count, gone := y.gone + n, lost := true })

/-- Every team of a tenant ends with a code (R38). -/
def State.endTenant (s : State) (p : Grid → Bool) (code : Nat) : State :=
  let s1 := (s.teams.filter (fun t => p (s.gridOf t) && (t.phase == .live || t.phase == .unstarted))).foldl
    (fun (a : State) t => a.endTeam t.uid (some code)) s
  (s1.grids.filter (fun g => p g && !g.retired)).foldl (fun (a : State) g => a.endRest g.uid code) s1

/-- A copy that moves nothing more: the fill handle it holds is abandoned (R241). -/
def State.dropSaved (s : State) (x : Copy) : State :=
  let s1 := s.setEng { s.eng with
    queues := s.eng.queues.map (fun (q : Nat × List Copy) => (q.1, q.2.filter (fun y => y.id != x.id))), saved := s.eng.saved.filter (fun y => y.id != x.id) }
  let s2 := s1.setMem (s1.mem.unclaimAll x.id)
  match x.fill with
  | some h => s2.loseFill x.part h
  | none => s2

/-- A copy of a lost context (R224): it moves nothing more; a packet's or a node's record says so. -/
def State.loseCopy (s : State) (x : Copy) : State :=
  let s3 := s.dropSaved x
  match x.issuer with
  | .thread _ _ _ => s3
  | .node u n => (s3.sendRec u (x.record stContextLost x.moved)).nodeOver u n
  | .packet fn q idx => (s3.reportOf x.id (x.record stContextLost x.moved)).packetOver fn q idx

/-- A core reset (R224): its clauses, marks, waves and matrix work are gone; its counters run on. -/
def Core.wipe (c : Core) : Core :=
  { c with clauses := [], marks := [], waves := [], matrix := 0, job := ⟨0, 0, 0, 0⟩, hist := [], turn := 3, left := 0 }

/-- SAVE_DEADLINE_EXPIRY (R224): the outgoing context is lost and the incoming tenant starts. -/
def execSaveDeadlineExpiry (part : Nat) (s : State) : Host.Outcome State Fault Refusal :=
  match s.work.saves.find? (fun x => x.part == part) with
  | none => .next s
  | some x =>
    if s.sched.now < x.start + 4 * s.saveTime part then .next s
    else
      let mine := (s.copies.map (·.2) ++ s.eng.saved).filter (fun y => y.fn == x.fn && y.part == part)
      let s1 := mine.foldl (fun (a : State) y => a.loseCopy y) s
      let s2 := (s1.ctl.coresOf x.fn part).foldl (fun (a : State) k => (a.setCore k (a.core k).wipe).setMem (a.mem.acquire k)) s1
      let s3 := s2.endTenant (fun g => g.fn == x.fn && g.part == part) Code.contextSaveTimeout.num
      let stat := s3.ctl.switchStatOf part
      let s4 := s3.setStat part (put32 (put32 stat 31 1 1) 0 24 0)
      .next ((s4.setWork { s4.work with saves := s4.work.saves.filter (fun y => y.part != part) }).incoming part x.fn)

-- the L2's ways (R268, R269)

/-- The enabled functions of a partition, the PF first. -/
def Ctl.functionsOf (c : Ctl) (part : Nat) : List Nat := 0 :: sortNat (c.vfs.filter (fun f => c.vfPart f == part))
def Ctl.floorOf (c : Ctl) (f : Nat) : Nat := bits (c.vfL2Of f).toNat 0 5
def Ctl.ceilOf (c : Ctl) (f : Nat) : Nat := bits (c.vfL2Of f).toNat 8 5
def Ctl.waysOf (c : Ctl) (s f : Nat) : Nat := (c.l2CurOf s f).toNat
def Ctl.setWays (c : Ctl) (s f n : Nat) : Ctl := { c with l2Cur := Store.set 0 c.l2Cur (s * 1024 + f) (BitVec.ofNat 32 n) }
/-- Ways of a slice that no function holds. -/
def Ctl.freeWays (c : Ctl) (s : Nat) (fs : List Nat) : Nat := 24 - (fs.map (c.waysOf s)).foldl (· + ·) 0

/-- The function that holds the most ways above its FLOOR, the higher number on a tie; none holds one (R268). -/
def Ctl.richest (c : Ctl) (s : Nat) (fs : List Nat) : Option Nat :=
  fs.foldl (fun (best : Option Nat) f =>
    let n := c.waysOf s f - c.floorOf f
    if n = 0 then best
    else match best with
      | none => some f
      | some b => if c.waysOf s b - c.floorOf b ≤ n then some f else best) none

/-- One way for a function, from the free ones first; else from one of `from_` (R268). -/
def Ctl.takeWay (c : Ctl) (s : Nat) (all from_ : List Nat) (f : Nat) : Ctl :=
  if 0 < c.freeWays s all then c.setWays s f (c.waysOf s f + 1)
  else match c.richest s (from_.filter (· != f)) with
    | some b => (c.setWays s b (c.waysOf s b - 1)).setWays s f (c.waysOf s f + 1)
    | none => c
/-- A function takes its FLOOR ways of a slice (R268). -/
def Ctl.takeFloor (c : Ctl) (s : Nat) (fs : List Nat) (f : Nat) : Ctl :=
  (List.range (c.floorOf f)).foldl (fun (a : Ctl) _ => a.takeWay s fs fs f) c

/-- The slices of a partition. -/
def Ctl.slicesOf (c : Ctl) (part : Nat) : List Nat := (List.range 12).filter (c.owns part)

/-- The function with the largest gain that may take a way, the lower number on a tie (R269). -/
def bestGain (c : Ctl) (m : Mem) (s : Nat) (fs : List Nat) : Option Nat :=
  let gain (f : Nat) : Nat := (Store.get (0, 0) m.gains (s * 1024 + f)).1
  (fs.filter (fun f => decide (c.waysOf s f < c.ceilOf f) && decide (0 < gain f))).foldl (fun (best : Option Nat) f =>
    match best with
    | none => some f
    | some b => if gain b < gain f then some f else best) none
/-- The function with the smallest loss that may give one, the higher number on a tie (R269). -/
def leastLoss (c : Ctl) (m : Mem) (s : Nat) (fs : List Nat) : Option Nat :=
  let loss (f : Nat) : Nat := (Store.get (0, 0) m.gains (s * 1024 + f)).2
  (fs.filter (fun f => decide (c.floorOf f < c.waysOf s f))).foldl (fun (best : Option Nat) f =>
    match best with
    | none => some f
    | some b => if loss f ≤ loss b then some f else best) none

/-- The moves of an epoch (R269), among the functions that have not moved yet. -/
def epochMoves (m : Mem) (s : Nat) (all : List Nat) : Nat → Ctl → List Nat → Ctl
  | 0, c, _ => c
  | n + 1, c, fs =>
    match bestGain c m s fs with
    | none => c
    | some g =>
      let rest := fs.filter (· != g)
      if 0 < c.freeWays s all then epochMoves m s all n (c.setWays s g (c.waysOf s g + 1)) rest
      else match leastLoss c m s rest with
        | none => c
        | some l =>
          if (Store.get (0, 0) m.gains (s * 1024 + g)).1 ≤ (Store.get (0, 0) m.gains (s * 1024 + l)).2 then c
          else epochMoves m s all n ((c.setWays s l (c.waysOf s l - 1)).setWays s g (c.waysOf s g + 1)) (rest.filter (· != l))

/-- A FLOOR raised above CUR is met, one way an epoch; the functions that moved are told (R269). -/
def meetFloors (s : Nat) (all : List Nat) : List Nat → Ctl × List Nat → Ctl × List Nat
  | [], r => r
  | f :: fs, r =>
    if r.1.waysOf s f < r.1.floorOf f && !r.2.contains f then
      let c := r.1.takeWay s all (all.filter (fun x => !r.2.contains x)) f
      meetFloors s all fs (c, r.2 ++ all.filter (fun x => c.waysOf s x != r.1.waysOf s x))
    else meetFloors s all fs r

/-- The moves at the end of a slice's epoch (R269). -/
def State.l2Epoch (s : State) (slice : Nat) : State :=
  match s.ctl.partOfSlice slice with
  | none => s
  | some part =>
    let all := s.ctl.functionsOf part
    let r := meetFloors slice all all (s.ctl, [])
    let c := epochMoves s.mem slice all all.length r.1 (all.filter (fun f => !r.2.contains f))
    (s.setCtl c).setMem { s.mem with gains := Store.keep s.mem.gains (fun k _ => decide (k / 1024 ≠ slice)) }

/-- Epochs of 100 µs that have ended since the start; the moves act once the cycle of an epoch's end is over, a VF that is
disabled in it having gone first (R269, R274). -/
def State.l2Epochs (s : State) : Nat := (s.sched.now - s.sched.startAt - 250) / 100000000
def State.l2Due (s : State) (slice : Nat) : Bool := decide (Store.get 0 s.sched.waysAt slice < s.l2Epochs)
/-- A slice's moves at the end of its epoch `n`, where they have not been made. -/
def State.l2Moves (s : State) (n slice : Nat) : State :=
  if Store.get 0 s.sched.waysAt slice < n then
    (s.l2Epoch slice).setSched { s.sched with waysAt := Store.set 0 s.sched.waysAt slice n }
  else s
/-- L2_WAY_EPOCH (R269): nothing while the slice's epoch goes on. -/
def execL2WayEpoch (slice : Nat) (s : State) : Host.Outcome State Fault Refusal := .next (s.l2Moves s.l2Epochs slice)

-- partitions (R262, R264)

/-- A write refused: ERR set, nothing changed (R264). -/
def State.setPart (s : State) (i : Nat) (v : W32) : State := s.setCtl { s.ctl with partCtl := Store.set 0 s.ctl.partCtl i v }

/-- A partition is created (R264): its L2s hold nothing, its barriers are zero, its receive queue is empty; the PF takes
its ways. -/
def State.createPart (s : State) (i : Nat) : State :=
  let mine := s.ctl.slicesOf i
  let c0 := { s.ctl with l2Cur := Store.keep s.ctl.l2Cur (fun k _ => !mine.contains (k / 1024)) }
  let c := mine.foldl (fun (a : Ctl) x => a.takeFloor x [0] 0) c0
  let s1 := (s.setCtl c).setMem { s.mem with
    gains := Store.keep s.mem.gains (fun k _ => !mine.contains (k / 1024))
    shadow := Store.keep s.mem.shadow (fun k _ => !mine.contains (k / 16384 / 1024)) }
  let s2 := s1.setNet { s1.net with bars := Store.keep s1.net.bars (fun k _ => decide (k / 256 ≠ i)) }
  s2.setPairs { s2.pairs with queue := s2.pairs.queue.filter (fun e => e.1 != i) }

/-- A partition can be removed (R264). -/
def State.partIdle (s : State) (i : Nat) : Bool :=
  !s.ctl.vfs.any (fun f => s.ctl.vfPart f == i) && (s.ctl.enginesOf i).isEmpty &&
  !(List.range 64).any (fun q => bit (s.ctl.qmapOf 0 q).toNat 31 && bits (s.ctl.qmapOf 0 q).toNat 24 4 == i &&
    bit (Store.get Queue.zero s.queues.q q).ctl.toNat 0) &&
  !s.teams.any (fun t => (s.gridOf t).part == i && t.phase != .ended) &&
  !s.grids.any (fun g => g.part == i && !g.retired && decide (g.nextLin < g.count))

/-- A write of PART_CTL_s (R264). -/
def State.writePart (s : State) (i : Nat) (v : W32) : State :=
  let old := s.ctl.partCtlOf i
  let cleared := if bit v.toNat 31 then put32 old 31 1 0 else old
  let new := put32 (put32 (put32 cleared 16 11 (bits v.toNat 16 11)) 4 3 (bits v.toNat 4 3)) 0 1 (bits v.toNat 0 1)
  let refuse := s.setPart i (put32 cleared 31 1 1)
  let same := bits old.toNat 16 11 == bits v.toNat 16 11 && bits old.toNat 4 3 == bits v.toNat 4 3
  let z := sizeOfCode (bits v.toNat 4 3)
  if 12 ≤ i then s
  else if bit old.toNat 0 then
    if !same then refuse
    else if bit v.toNat 0 then s.setPart i new
    else if !s.partIdle i then refuse
    else
      -- handles in the receive queue cease to exist with it (R241)
      let s0 := s.abandonAll (.queue i)
      let s1 := (s0.pairs.queue.filter (fun e => e.1 == i)).foldl (fun (a : State) e => a.tellHome i e.2.2 (.abandon e.2.2)) s0
      let s2 := s1.setPairs { s1.pairs with queue := s1.pairs.queue.filter (fun e => e.1 != i) }
      let s3 := s2.setCtl { s2.ctl with l2Cur := Store.keep s2.ctl.l2Cur (fun k _ => !(s.ctl.slicesOf i).contains (k / 1024)) }
      s3.setPart i new
  else if bit v.toNat 0 then
    if z = 0 ∨ i % z ≠ 0 ∨ (List.range z).any (fun k => (s.ctl.partOfSlice (i + k)).isSome) then refuse
    else (s.setPart i new).createPart i
  else s.setPart i new

/-- PART_ENABLE (R264). -/
def execPartEnable (slice : Nat) (v : W32) (s : State) : Host.Outcome State Fault Refusal :=
  .next (if s.running then s.writePart slice v else s)
/-- PART_DISABLE (R264). -/
def execPartDisable (slice : Nat) (v : W32) (s : State) : Host.Outcome State Fault Refusal :=
  .next (if s.running then s.writePart slice v else s)

-- virtual functions (R265-R267)

def State.setVf (s : State) (f : Nat) (v : W64) : State := s.setCtl { s.ctl with vfCfg := Store.set 0 s.ctl.vfCfg f v }
/-- ERR of a function's configuration register set (R265, R268, R270). -/
def State.vfErr (s : State) (f : Nat) : State := s.setVf f (put64 (s.ctl.vfCfgOf f) 63 1 1)

def Ctl.hbmMin (c : Ctl) (f : Nat) : Nat := bits (c.vfBwOf f).toNat 0 8
def Ctl.hbmCeil (c : Ctl) (f : Nat) : Nat := let n := bits (c.vfBwOf f).toNat 8 8; if n = 0 then 128 else n
def Ctl.linkMin (c : Ctl) (f : Nat) : Nat := bits (c.vfBwOf f).toNat 24 8
def sumOf (l : List Nat) : Nat := l.foldl (· + ·) 0

/-- The floors of a partition's functions fit its ways (R268). -/
def Ctl.floorsFit (c : Ctl) (part : Nat) : Bool := decide (sumOf ((c.functionsOf part).map c.floorOf) ≤ 24)
/-- The minimum shares of a partition's functions fit (R270). -/
def Ctl.hbmFits (c : Ctl) (part : Nat) : Bool := decide (sumOf ((c.functionsOf part).map c.hbmMin) ≤ 128)
def Ctl.linkFits (c : Ctl) : Bool := decide (sumOf ((0 :: c.vfs).map c.linkMin) ≤ 128)
def rangesMeet (a n b m : Nat) : Bool := decide (a < b + m ∧ b < a + n)

/-- VF `f` as `c` has it, already marked enabled, passes the checks of its enabling (R265). The model's choice (log 103): a MODE 1 VF with
NCORES 0 passes them, and has no core. -/
def Ctl.vfFits (c : Ctl) (f : Nat) : Bool :=
  let v := (c.vfCfgOf f).toNat
  let part := bits v 8 4
  let kb := bits v 38 11
  let kn := bits v 49 11
  let others := c.vfs.filter (· != f)
  c.partOn part && decide (kn ≠ 0 ∧ kb + kn - 1 ≤ 2047) &&
    others.all (fun g => !rangesMeet kb kn (bits (c.vfCfgOf g).toNat 38 11) (bits (c.vfCfgOf g).toNat 49 11)) &&
    (!c.vfSubset f || (decide (bits v 12 5 + bits v 17 5 ≤ 24) && others.all (fun g => !c.vfSubset g || c.vfPart g != part ||
      !rangesMeet (bits v 12 5) (bits v 17 5) (bits (c.vfCfgOf g).toNat 12 5) (bits (c.vfCfgOf g).toNat 17 5)))) &&
    decide ((c.vfs.filter (fun g => c.vfPart g == part)).length ≤ 32 * c.partSize part) &&
    c.floorsFit part && c.hbmFits part && c.linkFits && decide (c.hbmMin f ≤ c.hbmCeil f)

/-- The function's queues unmapped, as a disabled VF's are (R250); their slots are free for others. -/
def State.unmapAll (s : State) (f : Nat) : State :=
  let s1 := (s.setCtl { s.ctl with qmap := s.ctl.qmap.filterMap (fun e => if e.1 / 64 = f then
      (let v := put32 e.2 31 1 0; if v = 0 then none else some (e.1, v)) else some e) }).setQueues
    { s.queues with q := Store.keep s.queues.q (fun k _ => decide (k / 64 ≠ f)), slots := s.queues.slots.filter (fun e => e.2 / 64 != f) }
  (((s.ctl.qmap.filter (fun e => e.1 / 64 = f)).map (·.1)).foldl (fun (a : State) k => a.journalise k) s1).settleSlots

/-- A TDI leaves RUN, or a VF is disabled (R273): its queues stop, its writes to host memory not yet on a link are dropped and
its copies reach host memory no more, its teams end with ACCESS, its saved contexts are gone, its records for host rings are
discarded, and its MSI-X are refused. -/
def State.stopVf (s : State) (f : Nat) : State :=
  let s1 := s.setQueues { s.queues with q := s.queues.q.map (fun e => if e.1 / 64 = f then (e.1, { e.2 with ctl := put32 e.2.ctl 0 1 0 }) else e) }
  let s2 := s1.setMem { s1.mem with l1 := Store.keep s1.mem.l1 (fun k w =>
    !(l1Fn k == f && (match w with | some x => x.home % 2 == 1 | none => false))) }
  let s3 := (s2.eng.saved.filter (fun x => x.fn == f)).foldl (fun (a : State) x => a.dropSaved x) s2
  -- what the function has under way is known by its name
  let s4 := s3.setEng { s3.eng with cut := s3.eng.cut ++ ((s3.copies.map (·.2)).filter (fun x => x.fn == f)).map (·.id) ++
    (s3.teams.filter (fun t => (s3.gridOf t).fn == f)).map (·.uid) ++ (s3.queues.packets.filter (fun p => p.fn == f)).map (·.idx) ++
    (s3.net.requests.filter (fun x => x.fn == f)).map (·.id) }
  let s5 := s4.endTenant (fun g => g.fn == f) Code.access.num
  let s6 := s5.setWork { s5.work with
    grids := s5.work.grids.map (fun e => match e.2 with
      | some g => if g.fn = f && s.hostRing f g.part g.ring && !g.reported then (e.1, some { g with queued := true, reported := true }) else e
      | none => e) }
  s6.setQueues { s6.queues with held := (s6.queues.held.filter (fun r => !(r.fn == f && s.hostRing f r.part r.ring))).map (fun r =>
    if r.fn = f then { r with msix := none } else r) }

/-- The trigger slots of a function freed (R414), with the requests of its trigger queue that have not started (log 105). -/
def State.freeTriggers (s : State) (f : Nat) : State :=
  s.setNet { s.net with triggers := Store.set [] s.net.triggers f [], fired := s.net.fired.filter (fun x => x.1 != f) }
/-- The trigger counters of a function set to 0 (R297). -/
def State.clearCounters (s : State) (f : Nat) : State :=
  s.setNet { s.net with tc := Store.keep s.net.tc (fun k _ => decide (k / 64 ≠ f)) }

/-- A write of VF_CFG_f, or of PF_CFG (R265, R266, R268, R273). The model's choice (log 104): teams of a MODE 0 VF stay on cores that a MODE 1
VF takes when it is enabled, until they leave them by themselves. -/
def State.writeVf (s : State) (f : Nat) (v : W64) : State :=
  let old := s.ctl.vfCfgOf f
  let cleared := if bit v.toNat 63 then put64 old 63 1 0 else old
  let fields (x : W64) : List Nat :=
    [bits x.toNat 49 11, bits x.toNat 38 11, bits x.toNat 17 5, bits x.toNat 12 5, bits x.toNat 8 4, bits x.toNat 1 1]
  let new := put64 (put64 (put64 (put64 (put64 (put64 (put64 cleared 49 11 (bits v.toNat 49 11)) 38 11 (bits v.toNat 38 11))
    17 5 (bits v.toNat 17 5)) 12 5 (bits v.toNat 12 5)) 8 4 (bits v.toNat 8 4)) 1 1 (bits v.toNat 1 1)) 0 1 (bits v.toNat 0 1)
  let part := bits v.toNat 8 4
  if 384 < f then s
  else if f = 0 then s.setVf 0 cleared
  else if bit old.toNat 0 then
    if fields old ≠ fields v then s.setVf f (put64 cleared 63 1 1)
    else if bit v.toNat 0 then s.setVf f cleared
    else
      let s1 := ((s.stopVf f).unmapAll f).freeTriggers f
      -- its TDI leaves RUN or CONFIG_LOCKED, its ways are free
      let s2 := s1.setVf f (put64 new 60 2 0)
      let s3 := s2.setCtl { s2.ctl with l2Cur := Store.keep s2.ctl.l2Cur (fun k _ => decide (k % 1024 ≠ f)) }
      s3.refreshTurn part false
  else if bit v.toNat 0 then
    let s1 := s.setVf f new
    if !s1.ctl.vfFits f then s.setVf f (put64 cleared 63 1 1)
    else
      let all := s1.ctl.functionsOf part
      let c := (s1.ctl.slicesOf part).foldl (fun (a : Ctl) x => a.takeFloor x all f) s1.ctl
      ((s1.setCtl c).clearCounters f).refreshTurn part (!s1.ctl.vfSubset f)
  else s.setVf f new

/-- VF_ENABLE (R265, R266, R268). -/
def execVfEnable (f : Nat) (v : W64) (s : State) : Host.Outcome State Fault Refusal :=
  .next (if s.running then s.writeVf f v else s)
/-- VF_DISABLE (R250, R265, R268, R273). -/
def execVfDisable (f : Nat) (v : W64) (s : State) : Host.Outcome State Fault Refusal :=
  .next (if s.running then s.writeVf f v else s)

/-- Partitions whose sums a function counts in: the PF's are all of them, a disabled VF's none. -/
def Ctl.countedIn (c : Ctl) (f : Nat) : List Nat :=
  if f = 0 then (List.range 12).filter c.partOn else if c.fnOn f then [c.vfPart f] else []

/-- A write of VF_L2_f (R268). The moves of an epoch that has ended come first, under the old values (R274). -/
def State.writeVfL2 (s0 : State) (f : Nat) (v : W32) : State :=
  let s := (List.range 12).foldl (fun (a : State) x => a.l2Moves ((s0.sched.now - s0.sched.startAt) / 100000000) x) s0
  let new := put32 (put32 0 8 5 (bits v.toNat 8 5)) 0 5 (bits v.toNat 0 5)
  let c : Ctl := { s.ctl with vfL2 := Store.set 0x1801 s.ctl.vfL2 f new }
  if 384 < f then s0
  else if bits v.toNat 8 5 < bits v.toNat 0 5 ∨ 24 < bits v.toNat 8 5 then s.vfErr f
  else if !(c.countedIn f).all c.floorsFit then s.vfErr f
  else s.setCtl c
/-- VF_L2_WRITE (R268). -/
def execVfL2Write (f : Nat) (v : W32) (s : State) : Host.Outcome State Fault Refusal :=
  .next (if s.running then s.writeVfL2 f v else s)

/-- A write of VF_BW_f (R270). -/
def State.writeVfBw (s : State) (f : Nat) (v : W32) : State :=
  let new := put32 v 16 8 0
  let c : Ctl := { s.ctl with vfBw := Store.set 0x8000 s.ctl.vfBw f new }
  if 384 < f then s
  else if !(c.countedIn f).all c.hbmFits || !c.linkFits || decide (c.hbmCeil f < c.hbmMin f) then s.vfErr f
  else s.setCtl c
/-- VF_BW_WRITE (R270). -/
def execVfBwWrite (f : Nat) (v : W32) (s : State) : Host.Outcome State Fault Refusal :=
  .next (if s.running then s.writeVfBw f v else s)

/-- A write of ENG_OWN_e (R271). -/
def State.writeEngine (s : State) (e : Nat) (v : W32) : State :=
  let old := s.ctl.engOwnOf e
  let cleared := if bit v.toNat 31 then put32 old 31 1 0 else old
  let put (x : W32) : State := s.setCtl { s.ctl with engOwn := Store.set 1 s.ctl.engOwn e x }
  let changes := bits old.toNat 8 4 != bits v.toNat 8 4 || bit old.toNat 0 != bit v.toNat 0
  if 48 ≤ e then s
  else if changes && (!(s.queueOf e).isEmpty || (bit v.toNat 0 && !s.ctl.partOn (bits v.toNat 8 4))) then put (put32 cleared 31 1 1)
  else
    let s1 := put (put32 (put32 cleared 8 4 (bits v.toNat 8 4)) 0 1 (bits v.toNat 0 1))
    if changes then s1.setEng { s1.eng with taken := (e, s.sched.now / 250, cleared) :: s1.eng.taken.filter (fun y => y.1 != e) } else s1
/-- ENG_OWN_WRITE (R271). -/
def execEngOwnWrite (e : Nat) (v : W32) (s : State) : Host.Outcome State Fault Refusal :=
  .next (if s.running then s.writeEngine e v else s)

-- TDISP (R272, R273)

/-- A VF that a TDISP request can name: the PF is not a TDI. -/
def isTdi (f : Nat) : Bool := decide (1 ≤ f ∧ f ≤ 384)
def State.reply (s : State) (f code : Nat) (rejected : Bool) (v : W64) : State :=
  s.setTdisp { s.tdisp with replies := s.tdisp.replies ++ [⟨f, code, rejected, v⟩] }
/-- A request answered with contents the spec does not give (log 20). -/
def State.answerTdisp (s : State) (f code : Nat) : State :=
  if s.running then s.reply f code (!isTdi f) (if isTdi f then Config.tdisp code f else 0) else s
def State.setTdi (s : State) (f n : Nat) : State := s.setVf f (put64 (s.ctl.vfCfgOf f) 60 2 n)

/-- GET_VERSION (R272). -/
def execGetVersion (f : Nat) (s : State) : Host.Outcome State Fault Refusal := .next (s.answerTdisp f 0x81)
/-- GET_CAPABILITIES (R272). -/
def execGetCapabilities (f : Nat) (s : State) : Host.Outcome State Fault Refusal := .next (s.answerTdisp f 0x82)
/-- GET_DEVICE_INTERFACE_REPORT (R272). -/
def execGetDeviceInterfaceReport (f : Nat) (s : State) : Host.Outcome State Fault Refusal := .next (s.answerTdisp f 0x84)
/-- GET_DEVICE_INTERFACE_STATE (R272): the TDI's state. -/
def execGetDeviceInterfaceState (f : Nat) (s : State) : Host.Outcome State Fault Refusal :=
  .next (if s.running then s.reply f 0x85 (!isTdi f) (BitVec.ofNat 64 (if isTdi f then s.ctl.tdiOf f else 0)) else s)

/-- A frame's key map entry names one of the VF's keys (R272); a frame that no scrub has named has key 0. -/
def State.keysInUse (s : State) (f : Nat) : Bool :=
  s.mem.frameKey.any (fun e => s.ctl.keyOf f e.2) || (s.ctl.keyOf f 0 && decide (s.mem.frameKey.length < 12 * 2 ^ 20))

/-- LOCK_INTERFACE (R272): rejected for a VF that is off or whose keys name frames. -/
def execLockInterface (f session : Nat) (s : State) : Host.Outcome State Fault Refusal :=
  if !s.running then .next s
  else if !isTdi f || !s.ctl.fnOn f || s.ctl.tdiOf f != 0 || s.keysInUse f then .next (s.reply f 0x83 true 0)
  else
    let s1 := (s.setTdi f 1).reply f 0x83 false 0
    .next (s1.setTdisp { s1.tdisp with bound := Store.set none s1.tdisp.bound f (some session) })

/-- START_INTERFACE (R272): CONFIG_LOCKED to RUN. -/
def execStartInterface (f : Nat) (s : State) : Host.Outcome State Fault Refusal :=
  if !s.running then .next s
  else if !isTdi f || s.ctl.tdiOf f != 1 then .next (s.reply f 0x86 true 0)
  else .next ((s.setTdi f 2).reply f 0x86 false 0)

/-- STOP_INTERFACE (R273): a TDI in RUN is stopped; it is CONFIG_UNLOCKED. -/
def execStopInterface (f : Nat) (s : State) : Host.Outcome State Fault Refusal :=
  if !s.running then .next s
  else if !isTdi f then .next (s.reply f 0x87 true 0)
  else
    let s1 := if s.ctl.tdiOf f = 2 then s.stopVf f else s
    let s2 := (s1.setTdi f 0).reply f 0x87 false 0
    .next (s2.setTdisp { s2.tdisp with bound := Store.set none s2.tdisp.bound f none })

/-- SESSION_EXPIRY (R273): every TDI bound to the session goes to ERROR, with the steps of leaving RUN. One whose teams are being saved
at a switch tick waits until that save is complete (R274). -/
def execSessionExpiry (session : Nat) (s : State) : Host.Outcome State Fault Refusal :=
  let fs := (s.tdisp.bound.filter (fun e => e.2 == some session)).map (·.1)
  let saving (f : Nat) : Bool := s.work.saves.any (fun x => x.fn == f)
  let s1 := (fs.filter (fun f => !saving f)).foldl (fun (a : State) f => (a.stopVf f).setTdi f 3) s
  let s2 := s1.setTdisp { s1.tdisp with bound := s1.tdisp.bound.filter (fun e => e.2 != some session || saving e.1) }
  .next (if fs.any saving then s2.again (.sessionExpiry session) else s2)

end Sys2Proof.Machine
end

