-- ==== Sys2Proof/Machine/QueueEvents.lean ====
section
/-! DEFINITION. Queues, packets, the scheduler cores and network-triggered launches (R248-R256, R260, R261). -/

namespace Sys2Proof.Machine

-- queue registers (R248-R250)

/-- A queue stops with ERR and a code (R248, R252). -/
def State.stopQueue (s : State) (fn q code : Nat) : State :=
  let x := s.devq fn q
  s.setDevq fn q { x with ctl := put32 (put32 x.ctl 28 3 code) 31 1 1, read := false }

/-- A write of QBASE (R248). -/
def State.writeQbase (s : State) (fn q : Nat) (v : W64) : State :=
  let x := s.devq fn q
  if !s.ctl.qMapped fn q || x.en then s else s.setDevq fn q { x with base := put64 0 6 51 (bits v.toNat 6 51) }

/-- A write of QCTL (R248, R252). The model's choice (log 100): where EN becomes 1, the queue's bit of the pending-kick bitmap is cleared
with RD and k. -/
def State.writeQctl (s : State) (fn q : Nat) (v : W32) : State :=
  let x := s.devq fn q
  let old := x.ctl
  let n := v.toNat
  let c1 := if bit n 31 then put32 (put32 old 31 1 0) 28 3 0 else old
  let c2 := put32 c1 4 3 (bits n 4 3)
  let c3 := if x.en then c2
    else
      let d := if bits n 8 4 ≤ 12 then put32 c2 8 4 (bits n 8 4) else c2
      if fn = 0 then put32 d 16 1 (bits n 16 1) else d
  let c4 := put32 c3 0 1 (bits n 0 1)
  if !s.ctl.qMapped fn q then s
  else if !x.en && bit n 0 then ((s.setDevq fn q { x with ctl := c4, rd := 0, k := 0, pend := false, read := false }).journalise (fn * 64 + q)).settleSlots
  else (s.setDevq fn q { x with ctl := c4, read := x.read && bit n 0 }).settleSlots

/-- A kick (R249, R256). -/
def State.kick (s : State) (fn q : Nat) (w : W32) : State :=
  let x := s.devq fn q
  if !s.ctl.qMapped fn q || !x.en || x.err then s
  else if w = x.k then s
  else if x.size < (w - x.rd).toNat ∨ (w - x.rd).toNat < (x.k - x.rd).toNat then s.stopQueue fn q 2
  else (s.setDevq fn q { x with k := w, pend := true }).settleSlots

/-- A write of QMAP_f_q (R250). The model's choice (log 101): a queue that is unmapped loses its registers for good, and a later
mapping finds them zero. -/
def State.writeQmap (s : State) (fn q : Nat) (v : W32) : State :=
  let old := s.ctl.qmapOf fn q
  let n := v.toNat
  let put (x : W32) : State := s.setCtl { s.ctl with qmap := Store.set 0 s.ctl.qmap (fn * 64 + q) x }
  let cleared := if bit n 30 then put32 old 30 1 0 else old
  let taken := s.ctl.qmap.any (fun e => e.1 != fn * 64 + q && bit e.2.toNat 31 && bits e.2.toNat 0 12 == bits n 0 12)
  let bad := (s.devq fn q).en ||
    (bit n 31 && (taken || (if fn = 0 then !s.ctl.partOn (bits n 24 4) else !s.ctl.fnOn fn)))
  if 384 < fn ∨ 64 ≤ q then s
  else if bad then put (put32 cleared 30 1 1)
  else
    let new := put32 (put32 (put32 cleared 24 4 (bits n 24 4)) 0 12 (bits n 0 12)) 31 1 (bits n 31 1)
    let s1 := put new
    -- an unmapped queue's registers read zero; a queue mapped anew has no slot at its old command processor (R253)
    let s2 := if bit n 31 then s1 else s1.setDevq fn q Queue.zero
    ((s2.setQueues { s2.queues with slots := s2.queues.slots.filter (fun e => e.2 != fn * 64 + q) }).journalise (fn * 64 + q)).settleSlots

/-- QKICK (R249): a kick before stage 5 is not recorded (R303). -/
def execQkick (fn q : Nat) (w : W32) (s : State) : Host.Outcome State Fault Refusal := .next (if s.running then s.kick fn q w else s)
/-- QUEUE_ENABLE (R248). -/
def execQueueEnable (fn q : Nat) (v : W32) (s : State) : Host.Outcome State Fault Refusal :=
  .next (if s.running then s.writeQctl fn q v else s)
/-- QUEUE_DISABLE (R252). -/
def execQueueDisable (fn q : Nat) (v : W32) (s : State) : Host.Outcome State Fault Refusal :=
  .next (if s.running then s.writeQctl fn q v else s)
/-- QUEUE_ERR_CLEAR (R248). -/
def execQueueErrClear (fn q : Nat) (v : W32) (s : State) : Host.Outcome State Fault Refusal :=
  .next (if s.running then s.writeQctl fn q v else s)
/-- QMAP_WRITE (R250). -/
def execQmapWrite (fn q : Nat) (v : W32) (s : State) : Host.Outcome State Fault Refusal :=
  .next (if s.running then s.writeQmap fn q v else s)

-- packets (R251, R252)

/-- RD advances as a packet starts; the journal is written first (R251, R255). -/
def State.advance (s : State) (fn q : Nat) : State :=
  let x := s.devq fn q
  let s1 := s.setQueues { s.queues with startPtr := s.movePtr s.queues.startPtr (s.ctl.cpOf fn q) (fn * 64 + q) }
  (s1.setDevq fn q { x with rd := x.rd + 1, read := false }).journalise (fn * 64 + q)

/-- A packet joins those that have started and not completed. -/
def State.addPacket (s : State) (p : Packet) : State := s.setQueues { s.queues with packets := s.queues.packets ++ [p] }

def zeroFrom (bs : List Byte) (lo n : Nat) : Bool := ((bs.drop lo).take n).all (· == 0)

/-- The packet's reserved bytes and its type (R251, R252): none for a bad packet. -/
def packetType (bs : List Byte) : Option Nat :=
  let ty := field bs 56 1
  let word := bits (field bs 56 8) 9 55 == 0
  let rest := match ty with
    | 1 => true
    | 2 => zeroFrom bs 32 24
    | 3 => zeroFrom bs 52 4
    | 4 => bits (field bs 22 1) 1 7 == 0 && zeroFrom bs 23 33
    | _ => false
  if word && rest then some ty else none

/-- The next packet of a queue starts, where its turn has come and it is of a type: `f` has the partition, the packet's
bytes, and a name for it. A ring that cannot be read, or a bad packet, stops the queue. -/
def State.startPacket (s : State) (fn q ty : Nat) (f : State → Nat → List Byte → Nat → State) : State :=
  if !s.running || (s.packetAct fn q).isNone || !s.startWins fn q then s
  else match s.packetAt fn q with
    | .held => s
    | .blocked _ => s
    | .ok bs m =>
      let s1 := s.setMem m
      (match packetType bs with
      | none => s1.stopQueue fn q 1
      | some t => if t = ty then f (s1.bump 1) (s1.ctl.qPart fn q) bs s1.fresh else s1).settleSlots
    | _ => (s.stopQueue fn q 3).settleSlots

/-- PACKET_LAUNCH (R30, R32, R251): the grid is admitted at depth 0. -/
def execPacketLaunch (fn q : Nat) (s : State) : Host.Outcome State Fault Refusal :=
  .next (s.startPacket fn q 1 (fun s1 part bs idx =>
    let d := descOf bs
    let km := decide (fn = 0) && bit (s1.devq fn q).ctl.toNat 16
    match s1.launch ⟨.packet fn q idx, fn, part, km, none, 0⟩ d false with
    | .ok (s2, g) => (s2.advance fn q).addPacket ⟨fn, q, idx, 1, some g, []⟩
    | .error st =>
      if s1.ringUsable fn part d.ring then (s1.advance fn q).pushRec (mkRec fn part d.ring kindLaunchReject st d.tag 0 0)
      else s1.stopQueue fn q 4))

/-- A packet's RING that is not 0 must be usable (R251). -/
def State.ringBad (s : State) (fn part : Nat) (ring : W64) : Bool := ring != 0 && !s.ringUsable fn part ring

/-- The copy of a COPY packet fails its checks (R167, R251). -/
def State.packetCopyBad (s : State) (part src dst n : Nat) : Bool :=
  decide (dst % 4 ≠ 0 ∨ src % 4 ≠ 0 ∨ n % 4 ≠ 0) || (s.globalBad part dst).isSome || (s.globalBad part src).isSome ||
    (s.enginesOf part).isEmpty

/-- PACKET_COPY (R164, R167, R251). -/
def execPacketCopy (fn q : Nat) (s : State) : Host.Outcome State Fault Refusal :=
  .next (s.startPacket fn q 2 (fun s1 part bs idx =>
    let src := field bs 0 8
    let dst := field bs 8 8
    let ring := BitVec.ofNat 64 (field bs 16 8)
    let n := field bs 24 4
    let tag := BitVec.ofNat 32 (field bs 28 4)
    if s1.ringBad fn part ring then s1.stopQueue fn q 1
    else
      -- no core issues it: 288 names none
      let x := { mkCopy s1.fresh (.packet fn q idx) fn part 288 (.global fn part src) (.global fn part dst) n .none with tag := tag, ring := ring }
      if s1.packetCopyBad part src dst n then (s1.advance fn q).report (x.record stFaulted 0)
      else if n = 0 then (s1.advance fn q).report (x.record stOk 0)
      else match s1.engineFor part with
        | .engine e => (((s1.advance fn q).bump 1).post e x (lineVas dst n)).addPacket ⟨fn, q, idx, 2, none, []⟩
        | _ => s1))

/-- PACKET_BARRIER_AND (R251). -/
def execPacketBarrierAnd (fn q : Nat) (s : State) : Host.Outcome State Fault Refusal :=
  .next (s.startPacket fn q 3 (fun s1 part bs idx =>
    let hs := (List.range 5).map (fun i => BitVec.ofNat 64 (field bs (8 * i) 8))
    let ring := BitVec.ofNat 64 (field bs 40 8)
    let tag := BitVec.ofNat 32 (field bs 48 4)
    if s1.ringBad fn part ring then s1.stopQueue fn q 1
    else match hs.findIdx? (fun h => h != 0 && (s1.targetIn part h).isNone) with
      | some i => (s1.advance fn q).report (mkRec fn part ring kindSignal stBadDescriptor tag (BitVec.ofNat 64 i) 0)
      | none => (s1.advance fn q).addPacket ⟨fn, q, idx, 3, none, hs ++ [ring, BitVec.ofNat 64 tag.toNat]⟩))

/-- PACKET_SIGNAL (R251). -/
def execPacketSignal (fn q : Nat) (s : State) : Host.Outcome State Fault Refusal :=
  .next (s.startPacket fn q 4 (fun s1 part bs _ =>
    let ring := BitVec.ofNat 64 (field bs 0 8)
    let vec := if bit (field bs 22 1) 0 then some (field bs 20 2) else none
    if s1.ringBad fn part ring then s1.stopQueue fn q 1
    else
      let s2 := s1.advance fn q
      let r := { mkRec fn part ring kindSignal stOk (BitVec.ofNat 32 (field bs 16 4)) (BitVec.ofNat 64 (field bs 8 8)) 0 with msix := vec }
      if ring ≠ 0 then s2.pushRec r
      else match vec with
        | some v => if v < vectorsOf fn && !s2.hostShut fn then s2.emit (.msix fn v) else s2
        | none => s2))

/-- A handle of a BARRIER_AND names a grid that faulted, or a team that a fault ended (R251). -/
def State.faultBit (s : State) (h : W64) : Bool :=
  match s.target? h with
  | some (.grid g) => (match s.grid? g with | some x => x.fault.isSome | none => false)
  | some (.team g lin) => (match s.teamOf g lin with
    | some t => t.endedBy.isSome
    | none => match s.grid? g with | some x => x.lost | none => false)
  | none => false

/-- BARRIER_AND_COMPLETE (R251): the record carries the fault mask. -/
def execBarrierAndComplete (fn q : Nat) (s : State) : Host.Outcome State Fault Refusal :=
  match s.queues.packets.find? (fun p => p.fn == fn && p.q == q && p.kind == 3) with
  | none => .next s
  | some p =>
    let hs := p.words.take 5
    if s.recsHeld || !s.andDone p then .next s
    else
      let mask := sumOf ((List.range 5).map (fun i => if s.faultBit (hs.getD i 0) then 2 ^ i else 0))
      let tag := BitVec.ofNat 32 (p.words.getD 6 0).toNat
      let s1 := s.reportOf p.idx (mkRec fn (s.ctl.qPart fn q) (p.words.getD 5 0) kindSignal stOk tag (BitVec.ofNat 64 mask) 0)
      .next (s1.packetOver fn q p.idx).settleSlots

-- the scheduler cores (R255)

def State.setStatus (s : State) (v : W32) : State := s.setCtl { s.ctl with schedStat := v }

/-- FOREMAN_ERROR (R255, R306): the active scheduler core is lost. The standby takes over, records being held until it
has validated the journal; without one the scheduler is down. -/
def execForemanError (s : State) : Host.Outcome State Fault Refusal :=
  let s1 := s.countUncorr
  let v := s1.ctl.schedStat
  if bit v.toNat 31 then .next s1
  else if s1.queues.standby then
    let n := bits v.toNat 0 16
    let w := put32 (put32 (put32 v 30 1 1) 29 1 (1 - bits v.toNat 29 1)) 0 16 (if n = 65535 then n else n + 1)
    .next ((s1.setStatus w).setQueues { s1.queues with standby := false, testing := true })
  else .next ((s1.setStatus (put32 v 31 1 1)).emit (.msix 0 0))

/-- The journal replayed (R255): RD, k and the mapping stand as its entry has them, k where no kick came since. -/
def State.replayEntry (s : State) (e : Nat × W32 × W32 × Bool) : State :=
  let fn := e.1 / 64
  let q := e.1 % 64
  let x := s.devq fn q
  if x.en && s.ctl.qMapped fn q then
    let s1 := s.setDevq fn q { x with rd := e.2.1, k := if x.pend then x.k else e.2.2.1 }
    if e.2.2.2 then s1 else s1.setQueues { s1.queues with slots := s1.queues.slots.filter (fun y => y.2 != e.1) }
  else s

/-- JOURNAL_VALIDATED (R255): the journal is replayed, the kicks that the bitmap has and its snapshot has not are found,
records and packet starts go on. With no active core nothing is validated. -/
def execJournalValidated (s : State) : Host.Outcome State Fault Refusal :=
  if !s.recsHeld || bit s.ctl.schedStat.toNat 31 then .next s
  else
    let s1 := s.queues.journal.foldl State.replayEntry s
    let s2 := s1.setQueues { s1.queues with snapshot := (s1.queues.q.filter (fun e => e.2.pend)).map (·.1) }
    .next (s2.setStatus (put32 s2.ctl.schedStat 30 1 0)).settleSlots

/-- FOREMAN_TEST (R255): the core that failed is tested; if it passes it stands by. -/
def execForemanTest (pass : Bool) (s : State) : Host.Outcome State Fault Refusal :=
  .next (if s.queues.testing then s.setQueues { s.queues with testing := false, standby := s.queues.standby || pass } else s)

-- launch entries (R260, R261)

def State.setNtl (s : State) (fn e : Nat) (v : W64) : State :=
  s.setCtl { s.ctl with ntlCtl := Store.set 0 s.ctl.ntlCtl (fn * 16 + e) v }

/-- A write of NTL_CTL (R260). -/
def State.writeNtl (s : State) (fn e : Nat) (v : W64) : State :=
  let old := s.ctl.ntlCtlOf fn e
  let n := v.toNat
  let c1 := if bit n 3 then put64 old 3 1 0 else old
  let c2 := if bit n 2 then put64 c1 2 1 0 else c1
  s.setNtl fn e (put64 (put64 (put64 c2 32 32 (bits n 32 32)) 1 1 (bits n 1 1)) 0 1 (bits n 0 1))
/-- NTL_CTL_WRITE (R260). -/
def execNtlCtlWrite (fn e : Nat) (v : W64) (s : State) : Host.Outcome State Fault Refusal :=
  .next (if s.running && decide (e < 16) && s.ctl.fnOn fn then s.writeNtl fn e v else s)

/-- The entry a message fires (R261): the lowest function of the partition, then its lowest entry. -/
def State.entryFor (s : State) (part : Nat) (tag : W32) : Option (Nat × Nat) :=
  firstSome ((s.ctl.functionsOf part).map (fun f =>
    ((List.range 16).find? (fun e => bit (s.ctl.ntlCtlOf f e).toNat 0 && bits (s.ctl.ntlCtlOf f e).toNat 32 32 == tag.toNat)).map
      (fun e => (f, e))))

/-- A firing's launch that was rejected, and whose ring cannot say so (R32, R260). -/
def State.ntlReject (s : State) (f e st : Nat) : State :=
  s.setNtl f e (put64 (put64 (s.ctl.ntlCtlOf f e) 3 1 1) 8 8 st)

/-- The entry fires (R261). -/
def State.fire (s : State) (part f e : Nat) (payload : W64) : State :=
  let v := s.ctl.ntlCtlOf f e
  let w := put64 v 2 1 1
  let s1 := s.setNtl f e (if bit v.toNat 1 then put64 w 0 1 0 else w)
  let va := bits (s1.ctl.ntlDescOf f e).toNat 6 51 * 64
  match deviceRead s1.ctl s1.mem f part va 64 .read with
  | .ok bs m =>
    let s2 := s1.setMem m
    let d := descOf bs
    match s2.launch ⟨.network, f, part, false, none, 0⟩ d true with
    | .ok (s3, g) => s3.onGrid g (fun x => { x with param := x.param.writeBytes 0 (toLE 8 payload.toNat) })
    | .error st =>
      if s2.ringUsable f part d.ring then s2.pushRec (mkRec f part d.ring kindLaunchReject st d.tag 0 0) else s2.ntlReject f e st
  | _ => s1.ntlReject f e stBadDescriptor

/-- A claim or a blocked page holds back what a launch entry's firing reads (R137, R149). -/
def State.fireHeld (s : State) (part f e : Nat) : Bool :=
  match deviceRead s.ctl s.mem f part (bits (s.ctl.ntlDescOf f e).toNat 6 51 * 64) 64 .read with
  | .ok bs m => (s.setMem m).launchHeld f part (descOf bs) none
  | .held => true
  | .blocked _ => true
  | _ => false

/-- A message handled (R261): one that matches no armed entry is refused; one whose firing is held back stays, and every later one
waits behind it, which `p.2` says. -/
def State.takeMessage (p : State × Bool) (x : Nat × W32 × W64) : State × Bool :=
  let s := p.1
  let stay : State := s.setNet { s.net with inbox := s.net.inbox ++ [x] }
  if p.2 then (stay, true)
  else match s.entryFor x.1 x.2.1 with
    | none => (s.emit (.refused x.1 x.2.1), false)
    | some (f, e) => if s.fireHeld x.1 f e then (stay, true) else (s.fire x.1 f e x.2.2, false)
/-- The messages that have come, in the order of their arrival at the hub die. -/
def State.takeMessages (s : State) : State :=
  (s.net.inbox.foldl State.takeMessage (s.setNet { s.net with inbox := [] }, false)).1

/-- NETWORK_TRIGGERED_LAUNCH (R261): a tagged message comes for a partition. -/
def execNetworkTriggeredLaunch (part : Nat) (tag : W32) (payload : W64) (s : State) : Host.Outcome State Fault Refusal :=
  .next (if !s.running || !s.ctl.partOn part || !bit (s.ctl.decliaOf part).toNat 0 then s
    else (s.setNet { s.net with inbox := s.net.inbox ++ [(part, tag, payload)] }).takeMessages)

end Sys2Proof.Machine
end

