-- ==== Sys2Proof/Machine/LinkEvents.lean ====
section
/-! DEFINITION. The transport (R245-R247, R290-R299): handles between devices, lost peers, the multicast-and-reduce
aperture's results, work requests, and the accesses of peers. -/

namespace Sys2Proof.Machine

/-- The partition takes part in a Declia domain (R290). -/
def State.linked (s : State) (part : Nat) : Bool := s.running && s.ctl.partOn part && bit (s.ctl.decliaOf part).toNat 0

-- receive queues (R246)

/-- Threads of a partition parked at an HRECV for a tag, the oldest park first: team and thread. -/
def State.receivers (s : State) (part tag : Nat) : List (Nat × Nat) :=
  let all := (s.teams.filter (fun t => (s.gridOf t).part == part)).flatMap (fun t =>
    (t.indices (fun (x : Thread) => match x.st with | .parked (.hrecv g _ _) => g == tag | _ => false)).map
      (fun i => ((t.thread i).parkedAt, t.uid, i)))
  (sortBy (fun (a b : Nat × Nat × Nat) => decide (a.1 < b.1)) all).map (·.2)

/-- A handle waits in the receive queue, or is refused (R246). -/
def State.enqueueHandle (s : State) (part : Nat) (tag : W32) (h : W64) : State :=
  if 64 ≤ (s.pairs.queue.filter (fun e => e.1 == part)).length then s.emit (.refused part tag)
  else
    let s1 := s.setPairs { s.pairs with queue := s.pairs.queue ++ [(part, tag, h)] }
    (s1.heldBy part h (.queue part)).emit (.answer part 0 [])

/-- An arriving handle goes to the oldest pending HRECV: every thread that parked at it with the first goes on, those of other
batches wait for a handle of their own (R234); one whose S[d] is tagged by now faults LINEAR_COPY and is passed over (R232, R246). -/
def State.offerHandle (part : Nat) (tag : W32) (h : W64) : List (Nat × Nat) → State → State
  | [], s => s.enqueueHandle part tag h
  | (u, i) :: rest, s =>
    match s.team? u with
    | none => State.offerHandle part tag h rest s
    | some t =>
      match (t.thread i).st with
      | .parked (.hrecv _ d _) =>
        let mates := t.indices (fun (x : Thread) => x.st == (t.thread i).st && x.pos == (t.thread i).pos)
        if t.tagged d then
          State.offerHandle part tag h rest
            (s.onTeam u (fun y => mates.foldl (fun (v : Team) j => v.failPark j .linearCopy 0 (Store.get 0 t.s d)) y))
        else
          let s1 := s.giveHandle u d h
          (s1.onTeam u (fun y => mates.foldl (fun (v : Team) j => v.unpark j (some h)) y)).emit (.answer part 0 [])
      | _ => State.offerHandle part tag h rest s

/-- HANDLE_ARRIVAL (R246). -/
def execHandleArrival (part : Nat) (tag : W32) (h : W64) (s : State) : Host.Outcome State Fault Refusal :=
  .next (if s.linked part then State.offerHandle part tag h (s.receivers part tag.toNat) s else s)

-- the outcome of an HSEND (R245, R299)

/-- An HSEND's write of S[d] reaches its place under the later writes of the register (R90): none where a later write has taken
effect already. The flag tells whether the register holds it now. -/
def Team.landS (t : Team) (id d : Nat) (v : W64) : Option (Team × Bool) :=
  match t.sOlds.findIdx? (fun o => !o.isW && o.id == id && o.reg == d) with
  | none => none
  | some k =>
    match (List.range k).reverse.find? (fun j => match t.sOlds[j]? with | some o => !o.isW && o.reg == d | none => false) with
    | none => some (t.putS d v, true)
    | some j => some ({ t with sOlds := t.sOlds.mapIdx (fun n o => if n = j then { o with old := v } else o) }, false)

/-- A transfer's outcome: S[d] is written in its place, and the slot of a fill handle has its new holder. A fill handle that comes
back and finds S[d] written or tagged since exists no more (log 88). -/
def State.endTransfer (s : State) (x : Transfer) (accepted : Bool) : State :=
  let s1 := s.setPairs { s.pairs with transfers := s.pairs.transfers.filter (fun y => y.id != x.id) }
  match s1.team? x.team with
  | none => s1
  | some t =>
    let part := (s1.gridOf t).part
    let own := s1.ctl.devnum part
    let live := t.phase == .live
    let lands := if t.tagged x.d then none else t.landS x.id x.d (if accepted then 0 else x.handle)
    let back := live && (match lands with | some (_, now) => now | none => false)
    let s2 : State :=
      if !x.fill then s1
      else if accepted then (s1.heldBy part x.handle (.remote x.dest)).tellHome part x.handle (.hold x.handle x.dest)
      else if back then (s1.heldBy part x.handle (.team t.uid)).tellHome part x.handle (.hold x.handle own)
      else s1.loseFill part x.handle
    if !live then s2
    else s2.onTeam t.uid (fun y =>
      let y1 := match lands with
        | some (z, now) => let z1 : Team := { y with s := z.s, sOlds := z.sOlds }; if now && x.fill && !accepted then z1.tag x.d else z1
        | none => y
      y1.regDone x.tok)

/-- A handle comes back to its sender as a refusal; a fill handle's acceptance may still come (R299). -/
def State.returnTransfer (s : State) (x : Transfer) : State :=
  let s1 := s.endTransfer x false
  if x.fill then s1.setPairs { s1.pairs with returned := s1.pairs.returned ++ [x] } else s1
/-- The outcome of a transfer that has been returned: an acceptance is withdrawn (R299). -/
def State.lateOutcome (s : State) (x : Transfer) (accepted : Bool) : State :=
  let s1 := s.setPairs { s.pairs with returned := s.pairs.returned.filter (fun y => y.id != x.id) }
  let part := match s.team? x.team with | some t => (s.gridOf t).part | none => 0
  if accepted then (s1.bump 1).emit (.remote part x.dest s1.fresh (.withdraw x.tag x.handle (s.ctl.devnum part))) else s1

/-- HSEND_OUTCOME (R245): one that comes past the limit finds the handle returned (R299). -/
def execHsendOutcome (xfer : Nat) (accepted : Bool) (s : State) : Host.Outcome State Fault Refusal :=
  match s.pairs.transfers.find? (fun x => x.id == xfer) with
  | some x => .next (if s.sched.now < x.deadline then s.endTransfer x accepted
      else if x.fill then (s.returnTransfer x).lateOutcome x accepted else s.returnTransfer x)
  | none =>
    match s.pairs.returned.find? (fun x => x.id == xfer) with
    | none => .next s
    | some x => .next (s.lateOutcome x accepted)

/-- HSEND_TIMEOUT (R299): the handle comes back as a refusal. -/
def execHsendTimeout (xfer : Nat) (s : State) : Host.Outcome State Fault Refusal :=
  match s.pairs.transfers.find? (fun x => x.id == xfer) with
  | none => .next s
  | some x => .next (if x.deadline ≤ s.sched.now then s.returnTransfer x else s)

-- answers from other devices (R174, R247, R296)

/-- A thread's access is answered: it replays and finds the answer. A see-load goes on with an acquire at DEVICE (R240). -/
def State.answerWait (s : State) (w : RemoteWait) (code : Nat) (v : List Byte) : State :=
  let s0 := s.setNet { s.net with waits := s.net.waits.map (fun x => if x.id = w.id then { x with answer := some (code, v) } else x) }
  let s1 := match s.team? w.team with
    | some t => if w.see && t.placed then s0.acquire t.core else s0
    | none => s0
  s1.onTeam w.team (fun t => match (t.thread w.thread).st with
    | .parked (.remote _) => t.unpark w.thread none
    | _ => t)

/-- The device a copy has asked, where it waits for an answer. -/
def Copy.asking (x : Copy) : Option Nat :=
  if !x.asked then none
  else match x.shape with
    | some _ => x.ranks.head?
    | none =>
      let toDst := decide (x.count ≤ x.moved) || !x.gathered.isEmpty
      match toDst, x.dst, x.src with
      | true, .remote d _ _, _ => some d
      | false, _, .remote d _ _ => some d
      | _, _, _ => none

/-- A request's fields (R295). -/
def Request.opc (x : Request) : Nat := field x.bytes 0 1
def Request.dest (x : Request) : Nat := field x.bytes 2 2
def Request.count (x : Request) : Nat := field x.bytes 4 4
def Request.laddr (x : Request) : Nat := field x.bytes 8 8
def Request.raddr (x : Request) : Nat := field x.bytes 16 8
def Request.entry (x : Request) : Nat := field x.bytes 28 2

def State.putRequest (s : State) (x : Request) : State :=
  s.setNet { s.net with requests := s.net.requests.map (fun y => if y.id = x.id then x else y) }
/-- A request's data has moved, or it has failed; the first outcome stands. -/
def State.endRequest (s : State) (id : Nat) (how : WqEnd) : State :=
  s.setNet { s.net with requests := s.net.requests.map (fun y =>
    if y.id = id ∧ y.outcome = none then { y with outcome := some how } else y) }

/-- A peer is lost (R291). -/
def State.losePeer (s : State) (part dev : Nat) : State :=
  let s1 := s.setNet { s.net with peers := Store.set [] s.net.peers part ((s.peersOf part).filter (· != dev)) }
  let s2 := (s1.slotsWhere (fun x => x.part == part && x.holder == .remote dev && x.st == .filling)).foldl
    (fun (a : State) k => a.abandonSlot (k / 16384) (k % 16384)) s1
  let inPart (u : Nat) : Bool := match s.team? u with | some t => (s.gridOf t).part == part | none => false
  let s3 := (s2.pairs.transfers.filter (fun x => x.dest == dev && inPart x.team)).foldl State.returnTransfer s2
  let s4 := (s3.net.waits.filter (fun w => w.dev == dev && w.answer.isNone && inPart w.team)).foldl
    (fun (a : State) w => a.answerWait w Code.access.num (toLE 8 w.h.toNat)) s3
  let s5 := (s4.net.requests.filter (fun x => x.part == part && x.dest == dev && x.opc != 3)).foldl
    (fun (a : State) x => a.endRequest x.id (.faulted Code.access.num)) s4
  (s5.copies.filter (fun e => e.2.part == part && e.2.asking == some dev)).foldl (fun (a : State) e =>
    let h : W64 := e.2.farHandle.getD (match e.2.shape with | some p => p.base | none => 0)
    a.answerCopy e.1 e.2 Code.access.num (toLE 8 h.toNat)) s5

/-- PEER_LOST (R291). -/
def execPeerLost (part dev : Nat) (s : State) : Host.Outcome State Fault Refusal :=
  .next (if (s.peersOf part).contains dev then s.losePeer part dev else s)

/-- PEER_RETURN (R290, R291). -/
def execPeerReturn (part dev : Nat) (s : State) : Host.Outcome State Fault Refusal :=
  .next (if s.linked part && dev != s.ctl.devnum part && !(s.peersOf part).contains dev then
    s.setNet { s.net with peers := Store.set [] s.net.peers part (insertNat dev (s.peersOf part)) } else s)

-- writing a device's own data at the registry

/-- Bytes written at the registry, a line at a time. -/
def writeMany (c : Ctl) (fn part : Nat) (k : Kind) : Nat → Mem → Nat → List Byte → Got Unit
  | 0, m, _, _ => .ok () m
  | fuel + 1, m, va, bs =>
    if bs.isEmpty then .ok () m
    else
      let here := Nat.min bs.length (128 - va % 128)
      match writeRegistry c m fn part va k (bs.take here) with
      | .ok _ m1 => writeMany c fn part k fuel m1 (va + here) (bs.drop here)
      | x => x
def deviceWrite (c : Ctl) (m : Mem) (fn part va : Nat) (k : Kind) (bs : List Byte) : Got Unit :=
  writeMany c fn part k (bs.length / 128 + 2) m va bs

-- the aperture (R293, R294)

/-- Bytes of an element's result, and of a contribution, at an entry (R293). -/
def contribBytes (v : W64) : Nat := match tyOfCode (collType v) with | some t => t.bytes | none => 4
def resultBytes (v : W64) : Nat := if collOp v = 4 then 8 else contribBytes v

/-- A request's write of its data: what would go to host memory for a function stopped meanwhile is dropped, and completes (R273). -/
def State.requestWrite (s : State) (x : Request) (va : Nat) (bs : List Byte) : Got Unit :=
  if s.eng.cut.contains x.id then
    (lineVas va bs.length).foldl (fun (g : Got Unit) l =>
      let lo := Nat.max l va
      match g with
      | .ok _ m => if s.hostRing x.fn x.part (BitVec.ofNat 64 l) then g
          else deviceWrite s.ctl m x.fn x.part lo .write ((bs.drop (lo - va)).take (l + 128 - lo))
      | _ => g) (.ok () s.mem)
  else deviceWrite s.ctl s.mem x.fn x.part va .write bs
/-- The write of a round's result at RADDR. -/
def State.resultWrite (s : State) (x : Request) (elem : Nat) (value : W64) : Got Unit :=
  let n := resultBytes (s.ctl.collApOf x.fn x.entry)
  s.requestWrite x (x.raddr + n * elem) (toLE n value.toNat)
/-- A round's result reaches a REDUCE: its bytes go to RADDR; with the last of them the request's data has moved. -/
def State.deliverTo (s : State) (x : Request) (elem round : Nat) (value : W64) (sat : Bool) : Option State :=
  let left := x.rounds.filter (fun e => e != (elem, round))
  let y := { x with rounds := left, sat := x.sat || sat }
  match s.resultWrite x elem value with
  | .ok _ m =>
    let s1 := (s.setMem m).putRequest y
    some (if left.isEmpty then s1.endRequest x.id .ok else s1)
  | .fault c => some ((s.putRequest y).endRequest x.id (.faulted c.num))
  | .poisoned => some ((s.putRequest y).endRequest x.id (.faulted Code.uncorrectable.num))
  | _ => none

/-- SAT of an entry (R294). -/
def State.markSat (s : State) (fn entry : Nat) : State :=
  s.setCtl { s.ctl with collAp := Store.set 0 s.ctl.collAp (fn * 256 + entry) (put64 (s.ctl.collApOf fn entry) 63 1 1) }

/-- COLLECTIVE_RESULT (R293): the next round's result of an element goes to the load that waits for it, to the REDUCE
that does, or is kept for the load to come. -/
def execCollectiveResult (fn entry elem : Nat) (value : W64) (sat : Bool) (s : State) : Host.Outcome State Fault Refusal :=
  if !s.running || !bit (s.ctl.collApOf fn entry).toNat 0 then .next s
  else
    let key := elemKey fn entry elem
    let round := Store.get 0 s.net.delivered key
    let s1 := s.setNet { s.net with delivered := Store.set 0 s.net.delivered key (round + 1) }
    let s2 := if sat then s1.markSat fn entry else s1
    let here (x : Thread) : Bool := x.st == .parked (.aperture entry elem round)
    match s2.teams.find? (fun t => (s2.gridOf t).fn == fn && t.threads.any here) with
    | some t => .next (s2.onTeam t.uid (fun y => (y.indices here).foldl (fun (a : Team) i => a.unpark i (some value)) y))
    | none =>
      match s2.net.requests.find? (fun x => x.fn == fn && x.opc == 3 && x.entry == entry && x.rounds.contains (elem, round)) with
      | some x => (match s2.deliverTo x elem round value sat with
        | some t => .next t
        | none => .next ((s2.resultWrite x elem value).hold s (.collectiveResult fn entry elem value sat)))
      | none => .next (s2.setNet { s2.net with results := s2.net.results ++ [(key, round, value, sat)] })

-- work requests (R295, R296)

/-- The partition that a function's rings move data in: its own; the PF's lowest that takes part in a domain (log 27). -/
def State.netPart (s : State) (fn : Nat) : Nat :=
  if fn = 0 then
    match (List.range 12).find? s.linked with
    | some p => p
    | none => ((List.range 12).find? s.ctl.partOn).getD 0
  else s.ctl.vfPart fn

/-- The limits of a request (R295, R296). -/
def State.requestBad (s : State) (x : Request) : Bool :=
  let v := s.ctl.collApOf x.fn x.entry
  let zero := field x.bytes 30 2 == 0 && (x.bytes.drop 40).all (· == 0)
  -- a destination that is missing from the table, or this device itself, is outside the domain (R290)
  let far := (s.peersOf x.part).contains x.dest && x.dest != s.ctl.devnum x.part
  !zero || x.count % 4 != 0 ||
    (match x.opc with
     | 1 => !far
     | 2 => !far
     | 3 => decide (256 ≤ x.entry) || !bit v.toNat 0 || decide (collSize v < x.count) || x.count % contribBytes v != 0
     | 4 => !far
     | _ => true)

/-- A REDUCE takes the load round of one element (R293, R296). -/
def State.takeRound (fn entry id : Nat) (s : State) (i : Nat) : State :=
  let key := elemKey fn entry i
  let round := Store.get 0 s.net.loads key
  let s1 := s.setNet { s.net with loads := Store.set 0 s.net.loads key (round + 1) }
  match s1.net.requests.find? (fun x => x.id == id) with
  | none => s1
  | some x => s1.putRequest { x with rounds := x.rounds ++ [(i, round)] }
/-- The result of a round it has taken is there already: it is delivered. -/
def State.keptRound (fn entry id : Nat) (s : State) (i : Nat) : State :=
  match s.net.requests.find? (fun x => x.id == id) with
  | none => s
  | some x =>
    match x.rounds.find? (fun e => e.1 == i) with
    | none => s
    | some e =>
      match s.net.results.find? (fun r => r.1 == elemKey fn entry i && r.2.1 == e.2) with
      | none => s
      | some r =>
        match s.deliverTo x i e.2 r.2.2.1 r.2.2.2 with
        | some d => d.setNet { d.net with results := d.net.results.erase r }
        | none => s
/-- A REDUCE takes its load rounds; then results that are there already are delivered. -/
def State.takeRounds (s : State) (id fn entry n : Nat) : State :=
  (List.range n).foldl (State.keptRound fn entry id) ((List.range n).foldl (State.takeRound fn entry id) s)

/-- A request starts (R296): what it reads here is read, what goes out goes out. None while a page or a line holds it. -/
def State.beginRequest (s : State) (fn part : Nat) (ring : Option Nat) (bs : List Byte) : Option State :=
  let x : Request := { id := s.fresh, fn := fn, ring := ring, bytes := bs, part := part, sat := false, rounds := [], outcome := none,
                       base := match ring with | some r => s.wqBase fn r | none => 0 }
  let add (a : State) (y : Request) : State := (a.bump 1).setNet { a.net with requests := a.net.requests ++ [y] }
  let fail (a : State) (c : Code) : Option State := some (add a { x with outcome := some (.faulted c.num) })
  let source (k : List Byte → State → State) : Option State :=
    match deviceRead s.ctl s.mem fn part x.laddr x.count .read with
    | .ok data m => some (k data (add (s.setMem m) x))
    | .fault c => fail s c
    | .poisoned => fail s .uncorrectable
    | _ => none
  if s.requestBad x then fail s .access
  else match x.opc with
    | 1 => source (fun data a => a.emit (.remote part x.dest x.id (.put fn [(BitVec.ofNat 64 x.raddr, data)])))
    | 2 => some ((add s x).emit (.remote part x.dest x.id (.get fn [(BitVec.ofNat 64 x.raddr, x.count)])))
    | 3 =>
      let v := s.ctl.collApOf fn x.entry
      let w := contribBytes v
      let ty := (tyOfCode (collType v)).getD .n32
      -- results kept for its rounds are written as it starts
      if !s.net.results.isEmpty && s.readHeld fn part x.raddr (resultBytes v * (x.count / w)) then none
      else source (fun data a =>
        let sent := (List.range (x.count / w)).foldl (fun (b : State) i => b.contribute fn x.entry i ty (field data (w * i) w)) a
        let taken := sent.takeRounds x.id fn x.entry (x.count / w)
        if x.count = 0 then taken.endRequest x.id .ok else taken)
    | _ => some ((add s x).emit (.message part x.dest (BitVec.ofNat 32 (field bs 24 4)) (BitVec.ofNat 64 x.raddr)))

/-- Requests of a ring that have started and not completed. -/
def State.ringBusy (s : State) (fn ring : Nat) : Nat :=
  (s.net.requests.filter (fun x => x.fn == fn && x.ring == some ring)).length

/-- The next request of a ring starts (R295, R296); a header or a request that cannot be read clears EN. None where nothing
can start now. -/
def State.startOfRing (s : State) (fn ring : Nat) : Option State :=
  let part := s.netPart fn
  let base := s.wqBase fn ring
  if !s.wqOn fn ring then none
  else match deviceRead s.ctl s.mem fn part base 64 .read with
    | .ok hb m =>
      (match wqHead hb with
      | none => some (s.wqClear fn ring)
      | some (prod, cons, l) =>
        let n := cons + s.ringBusy fn ring
        if prod ≤ n then none
        else match deviceRead s.ctl m fn part (base + 64 + 64 * (n % 2 ^ l)) 64 .read with
          | .ok bs m1 => (s.setMem m1).beginRequest fn part (some ring) bs
          | .fault _ => some (s.wqClear fn ring)
          | .poisoned => some (s.wqClear fn ring)
          | _ => none)
    | .fault _ => some (s.wqClear fn ring)
    | .poisoned => some (s.wqClear fn ring)
    | _ => none

/-- The next request of a function's trigger queue starts (R298). -/
def State.startFired (s : State) (fn : Nat) : Option State :=
  match s.net.fired.find? (fun x => x.1 == fn) with
  | none => none
  | some x => (s.setNet { s.net with fired := s.net.fired.erase x }).beginRequest fn x.2.2 none x.2.1

/-- A ring, or the trigger queue as ring 64, has a request that can start now. -/
def State.canStart (s : State) (fn r : Nat) : Bool := if r = 64 then (s.startFired fn).isSome else (s.startOfRing fn r).isSome
/-- What the transport starts next for a function (R296): it visits the rings in ascending number, then the trigger queue, and starts
one request at each visit. -/
def State.nextVisit (s : State) (fn : Nat) : Option Nat :=
  let v := Store.get 0 s.net.visit fn
  ((List.range 65).map (fun k => (v + k) % 65)).find? (s.canStart fn)

/-- WORK_REQUEST_START (R296, R298): ring 64 stands for the function's trigger queue. A ring whose visit has not come waits. -/
def execWorkRequestStart (fn ring : Nat) (s : State) : Host.Outcome State Fault Refusal :=
  if !s.running || !s.ctl.fnOn fn || s.nextVisit fn ≠ some ring then .next s
  else
    let s1 := ((if ring = 64 then s.startFired fn else s.startOfRing fn ring)).getD s
    .next (s1.setNet { s1.net with visit := Store.set 0 s1.net.visit fn ((ring + 1) % 65) })

/-- What holds back the advance of CONS (R133, R137, R149). -/
def State.consStop (s : State) (x : Request) : Option (Option Nat) :=
  if x.ring.isSome then s.readStop x.fn x.part (x.base + 8) 8 else none

/-- CONS of a ring advances (R296). -/
def State.advanceCons (s : State) (x : Request) : State :=
  match x.ring with
  | none => s
  | some r =>
    match deviceRead s.ctl s.mem x.fn x.part (x.base + 8) 8 .read with
    | .ok bs m =>
      (match writeRegistry s.ctl m x.fn x.part (x.base + 8) .write (toLE 8 (ofLE bs + 1)) with
      | .ok _ m1 => s.setMem m1
      | _ => s.wqClear x.fn r)
    | _ => s.wqClear x.fn r

/-- WORK_REQUEST_COMPLETE (R296): a request whose data has moved, or that has failed, ends with its record. `how` counts
where no answer has given an outcome: then it can be a failure, or the acceptance of a TAGMSG. -/
def execWorkRequestComplete (req : Nat) (how : WqEnd) (s : State) : Host.Outcome State Fault Refusal :=
  match s.net.requests.find? (fun x => x.id == req) with
  | none => .next s
  | some x =>
    let good := match how with | .ok => true | .saturated => true | _ => false
    -- a failure has one of the fault codes (R207)
    let odd := match how with | .refused c => (Code.ofNum c).isNone | .faulted c => (Code.ofNum c).isNone | _ => false
    if x.outcome.isNone && ((good && x.opc != 4) || odd) then .next s
    else match s.consStop x with
    | some p => .next (s.holdFor p (.workRequestComplete req how))
    | none =>
      let n := if x.opc = 4 then 0 else x.count
      let r : Nat × W64 := match x.outcome.getD how with
        | .ok => if x.sat then (stSaturated, Config.satValue req) else (stOk, BitVec.ofNat 64 n)
        | .saturated => (stSaturated, Config.satValue req)
        | .refused c => (stFaulted, BitVec.ofNat 64 (256 + c % 256))
        | .faulted c => (stFaulted, BitVec.ofNat 64 (c % 256))
      let trig := field x.bytes 1 1
      let s1 := (s.setNet { s.net with requests := s.net.requests.filter (fun y => y.id != req) }).advanceCons x
      .next (s1.sendRec x.id
        { mkRec x.fn x.part (BitVec.ofNat 64 (field x.bytes 32 8)) kindCollective r.1 (BitVec.ofNat 32 (field x.bytes 24 4)) r.2 0 with
          trig := if bit trig 7 then some (trig % 64) else none })

/-- RANK_ACKNOWLEDGEMENT (R174, R247, R296): the answer to an access that a copy, a thread or a request sent; with a code,
the data is the fault address. -/
def execRankAcknowledgement (xfer code : Nat) (data : List Byte) (s : State) : Host.Outcome State Fault Refusal :=
  -- no device answers with a number that is no fault code (R207)
  if code ≠ 0 ∧ Code.ofNum code = none then .next s
  else match s.copyNamed xfer with
  | some (e, x) => .next (s.answerCopy e x code data)
  | none =>
    match s.net.waits.find? (fun w => w.id == xfer && w.answer.isNone) with
    | some w => .next (s.answerWait w code data)
    | none =>
      match s.net.requests.find? (fun x => x.id == xfer && x.outcome.isNone) with
      | none => .next s
      | some x =>
        if code ≠ 0 then .next (s.endRequest xfer (.refused code))
        else if x.opc = 2 then
          match s.requestWrite x x.laddr (data.take x.count) with
          | .ok _ m => .next ((s.setMem m).endRequest xfer .ok)
          | .fault c => .next (s.endRequest xfer (.faulted c.num))
          | .poisoned => .next (s.endRequest xfer (.faulted Code.uncorrectable.num))
          | g => .next (g.hold s (.rankAcknowledgement xfer code data))
        else .next (s.endRequest xfer .ok)

-- accesses of peers (R247, R296)

/-- A tile's slot as a peer's access finds it: its alignment, its range, its creator (R237, R238). -/
def tileOk (x : Slot) (off n align : Nat) : Option (Code × W64) :=
  let at_ : W64 := x.base + BitVec.ofNat 64 off
  if off % align ≠ 0 then some (.alignment, at_)
  else if x.size < off + n then some (.access, at_)
  else if x.scratch then some (.access, at_)
  else none

/-- The fill handle that a peer's access goes through, where its order among them counts (R247). -/
def fillOf : RemoteAccess → Option W64
  | .stFh h _ _ _ _ => some h
  | .ldFh h _ _ _ _ => some h
  | .drop h _ => some h
  | _ => none
/-- The page that blocks such an access. -/
def State.fillPage (s : State) (acc : RemoteAccess) : Option Nat :=
  match acc with
  | .stFh h _ off _ data => (let x := s.slot (hDie h) (hSlot h)
      (deviceWrite s.ctl s.mem x.fn x.part (x.base.toNat + off) .fillWrite data).page)
  | .ldFh h _ off n _ => (let x := s.slot (hDie h) (hSlot h)
      (deviceRead s.ctl s.mem x.fn x.part (x.base.toNat + off) n .read).page)
  | _ => none
/-- An earlier access through the same handle waits still. -/
def State.behindFill (s : State) (part : Nat) (acc : RemoteAccess) (h : W64) : Bool :=
  (s.net.fhWait.takeWhile (· != (part, acc))).any (fun e => e.1 == part && fillOf e.2 == some h)
/-- An access joins those that wait, behind them. -/
def State.fillWaits (s : State) (part : Nat) (acc : RemoteAccess) : State :=
  if s.net.fhWait.contains (part, acc) then s else s.setNet { s.net with fhWait := s.net.fhWait ++ [(part, acc)] }
/-- It is held back by its line or its page, and stays the first of them. -/
def State.fillFirst (s : State) (part : Nat) (acc : RemoteAccess) : State :=
  if (fillOf acc).isSome then s.setNet { s.net with fhWait := (part, acc) :: s.net.fhWait } else s

/-- The outcome of a registry access for a peer is answered; what holds it back brings the event again. -/
def State.answerGot {α : Type} (s : State) (part : Nat) (acc : RemoteAccess) (va : W64) (g : Got α) (bytes : α → List Byte) : State :=
  match g with
  | .ok v m => (s.setMem m).emit (.answer part 0 (bytes v))
  | .fault c => s.answerFault part c va
  | .poisoned => s.answerFault part .uncorrectable va
  | g => g.hold (s.fillFirst part acc) (.remoteAccessArrival part acc)

/-- The pieces of a PUT or of a rank's lines written in order. -/
def State.putPieces (s : State) (part : Nat) (fn : Nat) : List (W64 × List Byte) → Mem → State
  | [], m => (s.setMem m).emit (.answer part 0 [])
  | (va, bs) :: rest, m =>
    match deviceWrite s.ctl m fn part va.toNat .write bs with
    | .ok _ m1 => s.putPieces part fn rest m1
    | .fault c => (s.setMem m).answerFault part c va
    | .poisoned => (s.setMem m).answerFault part .uncorrectable va
    -- what is left comes again
    | g => g.hold (s.setMem m) (.remoteAccessArrival part (.put fn ((va, bs) :: rest)))

/-- The pieces of a GET or of a rank's elements read in order. -/
def State.getPieces (s : State) (part : Nat) (acc : RemoteAccess) (fn : Nat) : List (W64 × Nat) → Mem → List Byte → State
  | [], m, out => (s.setMem m).emit (.answer part 0 out)
  | (va, n) :: rest, m, out =>
    match deviceRead s.ctl m fn part va.toNat n .read with
    | .ok bs m1 => s.getPieces part acc fn rest m1 (out ++ bs)
    | .fault c => s.answerFault part c va
    | .poisoned => s.answerFault part .uncorrectable va
    | g => g.hold s (.remoteAccessArrival part acc)

/-- A handle of a peer's access checked at this device (R231). -/
def State.homeCheck (s : State) (part : Nat) (h : W64) (tagged : Bool) (need : Need) : Except Code (Nat × Nat) :=
  match s.checkHandle part h tagged need with
  | .ok die n => .ok (die, n)
  | .bad c => .error c
  | .remote _ => .error .access

/-- The function may be reached in the partition. -/
def State.reachable (s : State) (part fn : Nat) : Bool := fn == 0 || (s.ctl.fnOn fn && s.ctl.vfPart fn == part)

/-- A peer's access is performed (R236, R238-R242, R247, R296). A peer's team is neither the creator nor a K-mode team here. A
see-load's message carries neither class nor .NP, so that no class is checked here and no holder promoted (log 99). -/
def State.serve (part : Nat) (acc : RemoteAccess) (s : State) : Host.Outcome State Fault Refusal :=
  match acc with
    | .stFh h tg off align data =>
      (match s.homeCheck part h tg .fill with
      | .error c => .next (s.answerFault part c h)
      | .ok (die, n) =>
        let x := s.slot die n
        match tileOk x off data.length align with
        | some (c, a) => .next (s.answerFault part c a)
        | none => .next (s.answerGot part acc (x.base + BitVec.ofNat 64 off)
            (deviceWrite s.ctl s.mem x.fn x.part (x.base.toNat + off) .fillWrite data) (fun _ => [])))
    | .ldFh h tg off n align =>
      (match s.homeCheck part h tg .fill with
      | .error c => .next (s.answerFault part c h)
      | .ok (die, k) =>
        let x := s.slot die k
        match tileOk x off n align with
        | some (c, a) => .next (s.answerFault part c a)
        | none => .next (s.answerGot part acc (x.base + BitVec.ofNat 64 off)
            (deviceRead s.ctl s.mem x.fn x.part (x.base.toNat + off) n .read) id))
    | .ldsee h off n align =>
      (match s.homeCheck part h false .seeRead with
      | .error c => .next (s.answerFault part c h)
      | .ok (die, k) =>
        match tileOk (s.slot die k) off n align with
        | some (c, a) => .next (s.answerFault part c a)
        | none =>
          let w : RemoteSee := ⟨part, h, off, n, true⟩
          .next ((s.setNet { s.net with sees := s.net.sees ++ [w] }).answerSee w))
    | .drop h tg =>
      (match s.homeCheck part h tg .fill with
      | .error c => .next (s.answerFault part c h)
      | .ok (die, k) => .next ((s.sealSlot die k).emit (.answer part 0 [])))
    | .seeh h tg rights =>
      (match s.homeCheck part h tg .either with
      | .error c => .next (s.answerFault part c h)
      | .ok (die, k) =>
        let x := s.slot die k
        if x.st = .free || bit rights 2 || (!hFill h && (List.range 3).any (fun i => bit rights i && !bit (hRights h) i)) then
          .next (s.answerFault part .access 0)
        else .next (s.emit (.answer part 0 (toLE 8 (s.mkHandle false (hDevice h) die k x.gen rights).toNat))))
    | .free h =>
      (match s.homeCheck part h false .seeFree with
      | .error c => .next (s.answerFault part c h)
      | .ok _ => .next (s.answerFault part .access 0))
    | .copyTo h tg off n =>
      (match s.homeCheck part h tg .fill with
      | .error c => .next (s.answerFault part c h)
      | .ok (die, k) =>
        match tileOk (s.slot die k) off n 4 with
        | some (c, a) => .next (s.answerFault part c a)
        | none => .next (s.emit (.answer part 0 [])))
    | .copyFrom h off n =>
      (match s.homeCheck part h false .seeRead with
      | .error c => .next (s.answerFault part c h)
      | .ok (die, k) =>
        match tileOk (s.slot die k) off n 4 with
        | some (c, a) => .next (s.answerFault part c a)
        | none =>
          let w : RemoteSee := ⟨part, h, off, n, false⟩
          .next ((s.setNet { s.net with sees := s.net.sees ++ [w] }).answerSee w))
    | .pass h tg =>
      (match s.homeCheck part h tg .either with
      | .error c => .next (s.answerFault part c h)
      | .ok _ => .next (s.emit (.answer part 0 [])))
    | .hold h dev => .next (if dev = s.ctl.devnum part then s else s.heldBy part h (.remote dev))
    | .abandon h => .next (if hSeal h = Config.cmac (s.sealKey (hDie h)) (hBody h) && hDevice h == s.ctl.devnum part &&
          (s.slot (hDie h) (hSlot h)).part == part && hFill h then s.loseFill part h else s)
    | .withdraw tag h dev =>
      -- a receiving partition's queue entry is discarded; the handle is its sender's again
      .next (if s.pairs.queue.contains (part, tag, h) then
          (s.setPairs { s.pairs with queue := s.pairs.queue.erase (part, tag, h) }).heldBy part h (.remote dev)
        else s)
    | .put fn pieces => .next (if s.reachable part fn then s.putPieces part fn pieces s.mem
        else s.answerFault part .access ((pieces.map (·.1)).headD 0))
    | .get fn pieces => .next (if s.reachable part fn then s.getPieces part acc fn pieces s.mem []
        else s.answerFault part .access ((pieces.map (·.1)).headD 0))

/-- REMOTE_ACCESS_ARRIVAL (R247): accesses through one fill handle are performed in the order they arrive in, the drop after them. -/
def execRemoteAccessArrival (part : Nat) (acc : RemoteAccess) (s : State) : Host.Outcome State Fault Refusal :=
  if !s.linked part then .next s
  else match fillOf acc with
    | none => State.serve part acc s
    | some h =>
      if s.behindFill part acc h then .next ((s.fillWaits part acc).holdFor (s.fillPage acc) (.remoteAccessArrival part acc))
      else State.serve part acc (s.setNet { s.net with fhWait := s.net.fhWait.erase (part, acc) })

end Sys2Proof.Machine
end

