-- ==== Sys2Proof/Machine/HostRegs.lean ====
section
/-! DEFINITION. The register map of the control apertures (R3, R19, R248): which register stands at an offset, what it
reads, and what a write does; and the events that carry out what such writes begin: key loads, scrubs, moves, the power
arbiter (R132, R133, R137, R279). -/

namespace Sys2Proof.Machine

/-- The registers by name. -/
inductive RegName where
  | devId | devTopo
  | hoist (c : Nat) | clkRatio (c : Nat) | wave (c : Nat) | canary (c : Nat)
  | xltRoot (f h : Nat) | hostBase (f w : Nat) | hostLim (f w : Nat)
  | keyCmd | keyData (i : Nat) | scrubAddr | scrubCtl
  | progress (s : Nat) | wdog (s : Nat) | svcRing (s : Nat) | switchCtl (s : Nat) | switchStat (s : Nat)
  | ctxArea (f : Nat) | schedStat | partCtl (s : Nat) | engOwn (e : Nat)
  | vfCfg (f : Nat) | vfL2 (f : Nat) | vfBw (f : Nat) | l2Cur (s f : Nat)
  | pwrCtl | pwrStat | slicePwr (s : Nat) | declia (s : Nat)
  | bootReason | errCnt | devReset
  | qbase (f q : Nat) | qctl (f q : Nat) | qrd (f q : Nat) | qkick (f q : Nat) | qmap (f q : Nat)
  | ntlDesc (f e : Nat) | ntlCtl (f e : Nat) | collAp (f e : Nat) | wqRing (f r : Nat)
  deriving DecidableEq, Repr

/-- An offset in an array of `n` blocks of `stride` bytes from `base`: the block and the offset in it. -/
def block (off base stride n : Nat) : Option (Nat × Nat) :=
  if base ≤ off ∧ off < base + stride * n then some ((off - base) / stride, (off - base) % stride) else none

/-- Registers that every function's aperture maps (R19, R126, R248, R260, R292, R295). -/
def sharedReg (fn off : Nat) : Option RegName :=
  firstSome
    [ if off = 0 then some .devId else none,
      if off = 4 then some .devTopo else none,
      match block off 0x200 8 5 with | some (h, 0) => some (.xltRoot fn h) | _ => none,
      match block off 0x100000 0x40 64 with
        | some (q, 0) => some (.qbase fn q) | some (q, 8) => some (.qctl fn q)
        | some (q, 0x10) => some (.qrd fn q) | some (q, 0x18) => some (.qkick fn q) | _ => none,
      match block off 0x110000 0x20 16 with
        | some (e, 0) => some (.ntlDesc fn e) | some (e, 8) => some (.ntlCtl fn e) | _ => none,
      match block off 0x120000 8 256 with | some (e, 0) => some (.collAp fn e) | _ => none,
      match block off 0x130000 8 64 with | some (r, 0) => some (.wqRing fn r) | _ => none ]

/-- Registers that only the PF's aperture maps. -/
def pfReg (off : Nat) : Option RegName :=
  firstSome
    [ if off = 0x20000 then some .keyCmd else none,
      match block off 0x20040 4 16 with | some (i, 0) => some (.keyData i) | _ => none,
      if off = 0x20100 then some .scrubAddr else if off = 0x20108 then some .scrubCtl else none,
      match block off 0x30000 0x100 12 with | some (s, 0) => some (.progress s) | some (s, 8) => some (.wdog s) | _ => none,
      match block off 0x40000 0x100 12 with
        | some (s, 0) => some (.svcRing s) | some (s, 8) => some (.switchCtl s) | some (s, 0x10) => some (.switchStat s) | _ => none,
      match block off 0x50000 8 385 with | some (f, 0) => some (.ctxArea f) | _ => none,
      if off = 0x60000 then some .schedStat else none,
      match block off 0x70000 0x100 12 with | some (s, 0) => some (.partCtl s) | _ => none,
      match block off 0x78000 8 48 with | some (e, 0) => some (.engOwn e) | _ => none,
      match block off 0x80000 0x40 385 with
        | some (f, 0) => some (.vfCfg f) | some (f, 8) => some (.vfL2 f) | some (f, 0x10) => some (.vfBw f) | _ => none,
      match block off 0x90000 0x1000 12 with
        | some (s, r) => if r % 4 = 0 ∧ r / 4 ≤ 384 then some (.l2Cur s (r / 4)) else none | none => none,
      if off = 0xA0000 then some .pwrCtl else if off = 0xA0008 then some .pwrStat else none,
      match block off 0xA0100 8 12 with | some (s, 0) => some (.slicePwr s) | _ => none,
      match block off 0xB0000 0x100 12 with | some (s, 0) => some (.declia s) | _ => none,
      if off = 0xC0000 then some .bootReason else if off = 0xC0008 then some .errCnt
        else if off = 0xC0010 then some .devReset else none,
      match block off 0xD0000 0x40 385 with
        | some (f, r) => if r % 16 = 0 then some (.hostBase f (r / 16)) else if r % 16 = 8 then some (.hostLim f (r / 16)) else none
        | none => none,
      match block off 0x140000 0x200 385 with
        | some (f, r) => if r % 4 = 0 ∧ r / 4 < 64 then some (.qmap f (r / 4)) else none | none => none,
      match block off 0x1000000 0x10000 288 with
        | some (c, 0x40) => some (.hoist c) | some (c, 0x80) => some (.clkRatio c) | some (c, 0x84) => some (.wave c)
        | some (c, 0x88) => some (.canary c) | _ => none ]

/-- The register at an offset of a function's control aperture; none where the aperture maps none (R3). The model's choice
(log 85): an access is of a whole register and names its first byte; no access reaches the upper half of a 64-bit register alone,
or two registers at once. -/
def regAt (fn off : Nat) : Option RegName :=
  if 384 < fn then none
  else match sharedReg fn off with
    | some r => some r
    | none => if fn = 0 then pfReg off else none

-- reads

/-- DEV_ID (R19). -/
def devIdValue : Nat := 0x96000101
/-- DEV_TOPO (R19): the PF's covers the device; a VF's its partition, and the cores it is given. A VF with EN = 0 reads the partition
that VF_CFG.PART names, which is the model's choice (log 86). -/
def State.topo (s : State) (fn : Nat) : Nat :=
  if fn = 0 then 12 * 2 ^ 16 + 24 * 2 ^ 8 + ((List.range 48).filter (fun e => bit (s.ctl.engOwnOf e).toNat 0)).length
  else
    let p := s.ctl.vfPart fn
    let n := s.ctl.partSize p
    p * 2 ^ 20 + n * 2 ^ 16 + (if n = 0 then 0 else (s.ctl.coresOf fn p).length / n) * 2 ^ 8 + (s.ctl.enginesOf p).length

/-- A queue's register as it reads: zero while the queue is unmapped (R248). -/
def State.qRead (s : State) (f q : Nat) (v : Nat) : Nat := if s.ctl.qMapped f q then v else 0

/-- What a register reads (R3): write-only fields and unmapped queues read zero. -/
def State.regValue (s : State) (fn : Nat) (r : RegName) : Nat :=
  let c := s.ctl
  match r with
  | .devId => devIdValue
  | .devTopo => s.topo fn
  | .hoist k => (c.hoistOf k).toNat
  | .clkRatio k => (c.clkRatioOf k).toNat
  | .wave k => (c.waveOf k).toNat
  | .canary k => (c.canaryOf k).toNat
  | .xltRoot f h => (c.xltRootOf f h).toNat
  | .hostBase f w => (c.hostBaseOf f w).toNat
  | .hostLim f w => (c.hostLimOf f w).toNat
  | .keyCmd => c.keyCmd.toNat
  | .keyData _ => 0
  | .scrubAddr => c.scrubAddr.toNat
  | .scrubCtl => c.scrubCtl.toNat
  | .progress x => (c.progressOf x).toNat
  | .wdog x => (c.wdogOf x).toNat
  | .svcRing x => (c.svcRingOf x).toNat
  | .switchCtl x => (c.switchCtlOf x).toNat
  | .switchStat x => (c.switchStatOf x).toNat
  | .ctxArea f => (c.ctxAreaOf f).toNat
  | .schedStat => c.schedStat.toNat
  | .partCtl x => (c.partCtlOf x).toNat
  | .engOwn e => (c.engOwnOf e).toNat
  | .vfCfg f => (c.vfCfgOf f).toNat
  | .vfL2 f => (c.vfL2Of f).toNat
  | .vfBw f => (c.vfBwOf f).toNat
  | .l2Cur x f => (c.l2CurOf x f).toNat
  | .pwrCtl => c.pwrCtl.toNat
  | .pwrStat => c.pwrStat.toNat
  | .slicePwr x => (c.slicePwrOf x).toNat
  | .declia x => (c.decliaOf x).toNat
  | .bootReason => c.bootReason.toNat
  | .errCnt => c.errCnt.toNat
  | .devReset => 0
  | .qbase f q => s.qRead f q (s.devq f q).base.toNat
  | .qctl f q => s.qRead f q (s.devq f q).ctl.toNat
  | .qrd f q => s.qRead f q (s.devq f q).rd.toNat
  | .qkick _ _ => 0
  | .qmap f q => (c.qmapOf f q).toNat
  | .ntlDesc f e => (c.ntlDescOf f e).toNat
  | .ntlCtl f e => (c.ntlCtlOf f e).toNat
  | .collAp f e => (c.collApOf f e).toNat
  | .wqRing f x => (c.wqRingOf f x).toNat

/-- Registers that answer before stage 5 and in Lamp mode (R303, R304). -/
def RegName.early : RegName → Bool
  | .devId => true
  | .bootReason => true
  | .devReset => true
  | _ => false

/-- A register that counts what a core does is read with the core's cycles up to now (R283). -/
def State.upToDate (s : State) : RegName → State
  | .canary k => (s.catchUp k).alarmNow k
  | _ => s

/-- A read of a control aperture (R3): an offset that holds no register reads zero. -/
def State.registerRead (s : State) (fn off : Nat) : Nat :=
  match regAt fn off with
  | none => 0
  | some r => if s.running || r.early then (s.upToDate r).regValue fn r else 0

-- writes

/-- DEV_RESET (R308). -/
def State.askReset (s : State) (v : Nat) : State :=
  if bit v 0 && bits v 8 8 == 0xA5 then s.setBoot { s.boot with resetDue := true } else s

/-- KEY_CMD (R132). -/
def State.writeKeyCmd (s : State) (v : Nat) : State :=
  let c1 := if bit v 30 then put32 s.ctl.keyCmd 30 1 0 else s.ctl.keyCmd
  let c2 := put32 c1 0 11 (bits v 0 11)
  if !bit v 31 then s.setCtl { s.ctl with keyCmd := c2 }
  else if bits v 0 11 = 0 || s.mem.keyLoad.isSome then s.setCtl { s.ctl with keyCmd := put32 c2 30 1 1 }
  else (s.setCtl { s.ctl with keyCmd := put32 c2 31 1 1 }).setMem { s.mem with keyLoad := some (bits v 0 11) }

/-- Frames of a scrub lie in one stack (R133). -/
def scrubRangeOk (first n : Nat) : Bool := decide (n ≠ 0) && decide (first / 2 ^ 20 < 12) && first / 2 ^ 20 == (first + n - 1) / 2 ^ 20

/-- SCRUB_CTL (R133). -/
def State.writeScrub (s : State) (v : Nat) : State :=
  let c1 := if bit v 30 then put32 s.ctl.scrubCtl 30 1 0 else s.ctl.scrubCtl
  let c2 := put32 (put32 c1 16 11 (bits v 16 11)) 0 16 (bits v 0 16)
  let first := bits s.ctl.scrubAddr.toNat 16 36
  if !bit v 31 then s.setCtl { s.ctl with scrubCtl := c2 }
  else if s.mem.scrub.isSome || !scrubRangeOk first (bits v 0 16) then s.setCtl { s.ctl with scrubCtl := put32 c2 30 1 1 }
  else (s.setCtl { s.ctl with scrubCtl := put32 c2 31 1 1 }).setMem { s.mem with scrub := some (first, bits v 0 16, bits v 16 11) }

/-- PWR_CTL (R278). -/
def State.writePwr (s : State) (v : Nat) : State :=
  let sust := bits v 0 16
  let peak := bits v 16 16
  if sust = 0 ∨ 3000 < sust ∨ 3600 < peak ∨ peak < sust then s else s.setCtl { s.ctl with pwrCtl := BitVec.ofNat 32 v }

/-- A field written unless its value is outside `lo` … `hi`, which leaves it unchanged. -/
def keepOr (x : W32) (lo len v least most : Nat) : W32 := if least ≤ v ∧ v ≤ most then put32 x lo len v else x

/-- Threads of a function that are parked at an aperture entry replay (R300). -/
def State.unparkAperture (s : State) (fn e : Nat) : State :=
  (s.teams.filter (fun t => (s.gridOf t).fn == fn)).foldl (fun (a : State) t =>
    a.onTeam t.uid (fun y => (y.indices (fun (x : Thread) => match x.st with | .parked (.aperture k _ _) => k == e | _ => false)).foldl
      (fun (b : Team) i => b.unpark i none) y)) s

/-- An entry's round counts cleared (R292). -/
def State.clearRounds (s : State) (fn e : Nat) : State :=
  let other (key : Nat) : Bool := decide (key / 2 ^ 46 ≠ fn * 256 + e)
  s.setNet { s.net with
    stores := Store.keep s.net.stores (fun k _ => other k), loads := Store.keep s.net.loads (fun k _ => other k)
    delivered := Store.keep s.net.delivered (fun k _ => other k), results := s.net.results.filter (fun r => other r.1) }

/-- An aperture entry may be enabled (R292). -/
def apertureOk (v : Nat) : Bool :=
  let op := bits v 24 4
  let ty := bits v 20 4
  decide (1 ≤ op ∧ op ≤ 4) && [2, 8, 0xA, 0xB, 0xC].contains ty && !(op == 4 && decide (0xA ≤ ty)) && bits v 4 16 != 0

/-- COLL_AP (R292, R300). -/
def State.writeCollAp (s : State) (fn e : Nat) (w : W64) : State :=
  let v := w.toNat
  let old := s.ctl.collApOf fn e
  let c1 := if bit v 63 then put64 old 63 1 0 else old
  let put (a : State) (x : W64) : State := a.setCtl { a.ctl with collAp := Store.set 0 a.ctl.collAp (fn * 256 + e) x }
  if 384 < fn ∨ 256 ≤ e then s
  else if bit old.toNat 0 then
    if bit v 0 then put s c1
    else
      let s1 := (put s (put64 c1 0 1 0)).unparkAperture fn e
      (s1.net.requests.filter (fun x => x.fn == fn && x.opc == 3 && x.entry == e && !x.rounds.isEmpty)).foldl
        (fun (a : State) x => a.endRequest x.id (.faulted Code.access.num)) s1
  else
    let c2 := put64 (put64 (put64 (put64 c1 32 16 (bits v 32 16)) 24 4 (bits v 24 4)) 20 4 (bits v 20 4)) 4 16 (bits v 4 16)
    if bit v 0 && apertureOk c2.toNat then (put s (put64 c2 0 1 1)).clearRounds fn e else put s c2

/-- WQ_RING (R295). -/
def State.writeWqRing (s : State) (fn r : Nat) (w : W64) : State :=
  let v := w.toNat
  let old := s.ctl.wqRingOf fn r
  let c1 := if bit old.toNat 0 then old else put64 old 6 51 (bits v 6 51)
  let s1 := s.setCtl { s.ctl with wqRing := Store.set 0 s.ctl.wqRing (fn * 64 + r) (put64 c1 0 1 (bits v 0 1)) }
  if 384 < fn ∨ 64 ≤ r then s
  -- an enabled ring's indices are its header's
  else if bit v 0 && !bit old.toNat 0 then s1.setNet { s1.net with wqNext := Store.set 0 s1.net.wqNext (fn * 64 + r) 0 } else s1

/-- DECLIA_CTL (R290); `answers` are the device numbers that answer discovery with the same DOMAIN. -/
def State.writeDeclia (s : State) (x : Nat) (v : Nat) (answers : List Nat) : State :=
  let old := s.ctl.decliaOf x
  let c1 := if bit old.toNat 0 then old else put32 old 16 16 (bits v 16 16)
  let s1 := s.setCtl { s.ctl with declia := Store.set 0 s.ctl.declia x (put32 c1 0 1 (bits v 0 1)) }
  if 12 ≤ x then s
  else if bit v 0 && !bit old.toNat 0 then
    s1.setNet { s1.net with peers := Store.set [] s1.net.peers x (sortNat (answers.filter (· != s1.ctl.devnum x))) }
  else if !bit v 0 && bit old.toNat 0 then (s1.peersOf x).foldl (fun (a : State) d => a.losePeer x d) s1
  else s1

/-- The VF's translation is fixed by its TDI: CONFIG_LOCKED or RUN (R267, R421). -/
def Ctl.fixed (c : Ctl) (f : Nat) : Bool := c.tdiOf f == 1 || c.tdiOf f == 2

/-- A write of XLT_ROOT_h that is not ignored (R126). -/
def State.writeRoot (s : State) (f h v : Nat) : State :=
  s.setCtl { s.ctl with xltRoot := Store.set 0 s.ctl.xltRoot (f * 8 + h) (put64 (put64 0 15 37 (bits v 15 37)) 0 1 (bits v 0 1)) }

/-- A write of a register (R3): its fields under their access codes. -/
def State.regWrite (s : State) (r : RegName) (w : W64) : State :=
  let c := s.ctl
  let v := w.toNat
  let lo : W32 := w.setWidth 32
  match r with
  | .devId => s
  | .devTopo => s
  | .hoist k => s.setCtl { c with
        hoist := Store.set 0x40 c.hoist k
          (keepOr (put32 (c.hoistOf k) 16 1 (bits v 16 1)) 0 10 (bits v 0 10) 1 1023) }
  | .clkRatio k =>
      -- the core's cycles before the write have passed (R275)
      let s1 := s.catchUp k
      s1.setCtl { s1.ctl with
        clkRatio := Store.set 0x00888888 s1.ctl.clkRatio k
          ((List.range 6).foldl (fun (x : W32) i => keepOr x (4 * i) 4 (bits v (4 * i) 4) 1 8) (s1.ctl.clkRatioOf k)) }
  | .wave k => s.setCtl { c with
        wave := Store.set 0x1004 c.wave k
          (keepOr (put32 (c.waveOf k) 8 8 (bits v 8 8)) 0 6 (bits v 0 6) 1 32) }
  | .canary k =>
      -- the cycles before the write have been judged by the old threshold (R283)
      let s1 := s.catchUp k
      s1.setCtl { s1.ctl with canary := Store.set 0xC0 s1.ctl.canary k (put32 (s1.ctl.canaryOf k) 0 10 (bits v 0 10)) }
  | .xltRoot f h => if c.fixed f then s else s.writeRoot f h v
  | .hostBase f x => if c.fixed f then s
      else s.setCtl { c with hostBase := Store.set (hostBaseReset f x) c.hostBase (f * 4 + x) (put64 (put64 0 16 36 (bits v 16 36)) 0 1 (bits v 0 1)) }
  | .hostLim f x => if c.fixed f then s
      else s.setCtl { c with hostLim := Store.set (hostLimReset f x) c.hostLim (f * 4 + x) (put64 0 16 36 (bits v 16 36)) }
  | .keyCmd => s.writeKeyCmd v
  | .keyData i => s.setCtl { c with keyData := Store.set 0 c.keyData i lo }
  | .scrubAddr => s.setCtl { c with scrubAddr := put64 0 16 36 (bits v 16 36) }
  | .scrubCtl => s.writeScrub v
  | .progress x => s.setCtl { c with
        progress := Store.set 0x00641000 c.progress x
          (keepOr (keepOr (c.progressOf x) 16 16 (bits v 16 16) 1 65535) 0 16 (bits v 0 16) 256 65535) }
  | .wdog x => s.setCtl { c with wdog := Store.set 0x27100400 c.wdog x lo }
  | .svcRing x => s.setCtl { c with svcRing := Store.set 0 c.svcRing x (put64 (put64 0 6 51 (bits v 6 51)) 0 1 (bits v 0 1)) }
  | .switchCtl x => s.setCtl { c with
        switchCtl := Store.set 0x01F40028 c.switchCtl x
          (keepOr (keepOr (c.switchCtlOf x) 16 16 (bits v 16 16) 1 65535) 0 16 (bits v 0 16) 1 65535) }
  | .switchStat x => if bit v 31 then s.setStat x (put32 (c.switchStatOf x) 31 1 0) else s
  | .ctxArea f => s.setCtl { c with ctxArea := Store.set 0 c.ctxArea f (put64 0 0 52 (bits v 0 52)) }
  | .schedStat => s
  | .partCtl x => s.writePart x lo
  | .engOwn e => s.writeEngine e lo
  | .vfCfg f => s.writeVf f w
  | .vfL2 f => s.writeVfL2 f lo
  | .vfBw f => s.writeVfBw f lo
  | .l2Cur _ _ => s
  | .pwrCtl => s.writePwr (v % 2 ^ 32)
  | .pwrStat => s
  | .slicePwr _ => s
  | .declia x => s.writeDeclia x (v % 2 ^ 32) []
  | .bootReason => s
  | .errCnt => s
  | .devReset => s.askReset v
  | .qbase f q => s.writeQbase f q w
  | .qctl f q => s.writeQctl f q lo
  | .qrd _ _ => s
  | .qkick f q => s.kick f q lo
  | .qmap f q => s.writeQmap f q lo
  | .ntlDesc f e => s.setCtl { c with ntlDesc := Store.set 0 c.ntlDesc (f * 16 + e) (put64 0 6 51 (bits v 6 51)) }
  | .ntlCtl f e => s.writeNtl f e w
  | .collAp f e => s.writeCollAp f e w
  | .wqRing f x => s.writeWqRing f x w

/-- A write made by the function itself, or by the PF for it: only the PF changes a VF's translation roots while its TDI fixes
them (R267). -/
def State.regWriteBy (s : State) (pf : Bool) (r : RegName) (v : W64) : State :=
  match r with
  | .xltRoot f h => if pf then s.writeRoot f h v.toNat else s.regWrite r v
  | _ => s.regWrite r v

/-- REGISTER_WRITE (R3, R303, R304): an offset that holds no register ignores writes; before stage 5 and in Lamp mode only
DEV_RESET takes them. -/
def execRegisterWrite (fn : RegPort) (off : Nat) (v : W64) (s : State) : Host.Outcome State Fault Refusal :=
  match regAt fn.fn off with
  | none => .next s
  | some r => .next (if s.running || r.early then s.regWriteBy fn.pf r v else s)

/-- The Table Size field of a function's MSI-X capability, in its configuration space: one less than its vectors (R286). -/
def msixTableSize (fn : Nat) : Nat := vectorsOf fn - 1

/-- PWR_CTL_WRITE (R278). -/
def execPwrCtlWrite (v : W32) (s : State) : Host.Outcome State Fault Refusal := .next (if s.running then s.writePwr v.toNat else s)
/-- COLL_AP_ENABLE (R292). -/
def execCollApEnable (fn e : Nat) (v : W64) (s : State) : Host.Outcome State Fault Refusal :=
  .next (if s.running then s.writeCollAp fn e v else s)
/-- WQ_RING_ENABLE (R295). -/
def execWqRingEnable (fn r : Nat) (v : W64) (s : State) : Host.Outcome State Fault Refusal :=
  .next (if s.running then s.writeWqRing fn r v else s)
/-- DECLIA_ENABLE (R290). -/
def execDecliaEnable (slice : Nat) (v : W32) (answers : List Nat) (s : State) : Host.Outcome State Fault Refusal :=
  .next (if s.running then s.writeDeclia slice v.toNat answers else s)
/-- KEY_LOAD (R132). -/
def execKeyLoad (v : W32) (s : State) : Host.Outcome State Fault Refusal := .next (if s.running then s.writeKeyCmd v.toNat else s)
/-- SCRUB (R133). -/
def execScrub (v : W32) (s : State) : Host.Outcome State Fault Refusal := .next (if s.running then s.writeScrub v.toNat else s)

-- keys, scrubs and moves

/-- KEY_LOAD_DONE (R132): the slot holds another key; the key data registers are clear. -/
def execKeyLoadDone (s : State) : Host.Outcome State Fault Refusal :=
  match s.mem.keyLoad with
  | none => .next s
  | some k =>
    let s1 := s.setMem { s.mem with keyLoad := none, keyLoads := Store.set 0 s.mem.keyLoads k (Store.get 0 s.mem.keyLoads k + 1) }
    .next (s1.setCtl { s1.ctl with keyCmd := put32 s1.ctl.keyCmd 31 1 0, keyData := [] })

/-- A cached translation names a frame. -/
def namesFrame (frame : Nat) : Option TlbEntry → Bool
  | some e => !leafHost e.leaf && decide (leafFrame e.leaf ≤ frame ∧ frame < leafFrame e.leaf + (if e.big then 32 else 1))
  | none => false

/-- One frame scrubbed to a key (R133, R306). -/
def Mem.scrubFrame (m : Mem) (frame key : Nat) : Mem :=
  let here (word : Nat) : Bool := word % 2 == 0 && word / 2 * 4 / 65536 == frame
  let m0 := m.acceptHomes here
  let m1 := m0.recall true here m0.l1
  { m1 with
    hbm := Store.keep m1.hbm (fun a _ => decide (a / 65536 ≠ frame))
    frameKey := Store.set 0 m1.frameKey frame key
    frameLoad := Store.set 0 m1.frameLoad frame (Store.get 0 m1.keyLoads key)
    lineLoad := Store.keep m1.lineLoad (fun l _ => decide (l / 512 ≠ frame))
    poison := m1.poison.filter (fun l => decide (l / 512 ≠ frame))
    tlb := Store.keep m1.tlb (fun _ e => !namesFrame frame e)
    images := (m1.overImages (frame * 65536) 65536).images
    dirty := true }

/-- The lines of a scrubbed frame are allocated in its slice's L2 as the PF's (R268). -/
def Mem.sampleFrame (c : Ctl) (m : Mem) (frame : Nat) : Mem :=
  (List.range 512).foldl (fun (a : Mem) i => a.sample c 0 ⟨false, frame * 65536 + 128 * i⟩) m

/-- SCRUB_FRAME_DONE (R133): the next frame is zero under its new key; after the last, GO clears. -/
def execScrubFrameDone (s : State) : Host.Outcome State Fault Refusal :=
  match s.mem.scrub with
  | none => .next s
  | some (frame, left, key) =>
    let m := (s.mem.scrubFrame frame key).sampleFrame s.ctl frame
    if left ≤ 1 then .next ((s.setMem { m with scrub := none }).setCtl { s.ctl with scrubCtl := put32 s.ctl.scrubCtl 31 1 0 })
    else .next (s.setMem { m with scrub := some (frame + 1, left - 1, key) })

/-- A word an L1 holds lies in a moving page, by the address it is cached under. -/
def inMove (x : Migration) (key : Nat) : Bool := x.covers (l1Fn key) (l1Va key / 65536)

/-- Ownership of a page's words recalled, the owned values written to the old frame (R137). The new frame's words name no
writer, so that the cores whose threads wrote the page register what they wrote before (R145). -/
def Mem.recallPage (m : Mem) (x : Migration) (inFrame : Phys → Bool) : Mem :=
  let homes := m.l1.filterMap (fun e => match e.2 with | some w => if inMove x e.1 && w.owned then some w.home else none | none => none)
  let m1 := m.acceptHomes (fun h => homes.contains h)
  let m2 := (m1.writer.filterMap (fun e => if inFrame (physOf (e.1 / 4)) then e.2 else none)).foldl Mem.drain m1
  m2.recall false (fun h => homes.contains h) m2.l1

/-- A place lies in a moving page's frames, as the tables name them now. -/
def State.inMoving (s : State) (x : Migration) (p : Phys) : Bool :=
  match walk s.ctl s.mem x.fn (s.ctl.vfPart x.fn) (bits (x.page * 65536) 54 3) (x.page * 65536) with
  | .ok (l, big) => leafHost l == p.host && decide (leafFrame l ≤ p.pa / 65536 ∧ p.pa / 65536 < leafFrame l + (if big then 32 else 1))
  | .error _ => false

/-- MIGRATION_RECALL_DONE (R137): the old frame holds the page's latest contents. -/
def execMigrationRecallDone (fn page : Nat) (s : State) : Host.Outcome State Fault Refusal :=
  match s.mem.moves.find? (fun x => x.covers fn page && !x.recalled) with
  | none => .next s
  | some x =>
    let m := s.mem.recallPage x (s.inMoving x)
    .next (s.setMem { m with moves := m.moves.map (fun y => if y.fn = x.fn ∧ y.page = x.page then { y with recalled := true } else y) })

-- power (R279)

/-- One slice's share of what is spare: in proportion to what it lacks, none beyond its demand. -/
def spareShare (spare lack total : Nat) : Nat := if total = 0 then 0 else Nat.min lack (spare * lack / total)

/-- The next level of a slice, by its grant and its estimates. -/
def nextLevel (level grant : Nat) (est : Nat → Nat) : Nat :=
  if grant < est level ∧ level < 6 then level + 1
  else if 0 < level ∧ 10 * est (level - 1) ≤ 9 * grant then level - 1
  else level

/-- What the arbiter does at the start of an epoch (R279): with the module's measured power and that of the hub die and the HBM's refresh, in watts. A
slice's demand and estimates are its estimators' (log 25); grants are whole watts. -/
def State.powerEpoch (s0 : State) (measured fixed : Nat) : State :=
  -- every core's cycles before the epoch have passed under the old levels
  let s := (List.range 288).foldl State.catchUp s0
  let sust := bits s.ctl.pwrCtl.toNat 0 16
  let peak := bits s.ctl.pwrCtl.toNat 16 16
  let cap := (peak - sust) * 10000
  let credit := Nat.min cap (s.ctl.pwrStat.toNat + sust - measured)
  let budget := if 0 < credit then peak else sust
  let avail := budget - fixed
  let tick := s.sched.tick
  let demand (x : Nat) : Nat := Nat.min 65535 (Config.demand x tick)
  let first (x : Nat) : Nat := Nat.min (demand x) (avail / 12)
  let slices := List.range 12
  let spare := avail - sumOf (slices.map first)
  let lack := sumOf (slices.map (fun x => demand x - first x))
  let grant (x : Nat) : Nat := first x + spareShare spare (demand x - first x) lack
  let word (x : Nat) : W64 := BitVec.ofNat 64
    (grant x * 2 ^ 48 + demand x * 2 ^ 32 + nextLevel (s.ctl.level x) (grant x) (fun l => Config.estimate x l tick))
  let c : Ctl := { s.ctl with
    pwrStat := BitVec.ofNat 32 credit
    slicePwr := slices.foldl (fun (a : Store W64) x => Store.set 0x00FA000000000000 a x (word x)) s.ctl.slicePwr }
  s.setCtl c

/-- Epochs of 1 µs that have begun since the start (R17, R279). The model's choice (log 93): they are counted from the beginning of the
start. -/
def State.powerEpochs (s : State) : Nat := (s.sched.now - s.sched.startAt) / 1000000
def State.powerDue (s : State) : Bool := s.running && decide (s.sched.powered < s.powerEpochs)
/-- POWER_EPOCH (R17, R279): once in every microsecond; nothing where the epoch has had its turn. -/
def execPowerEpoch (measured fixed : Nat) (s : State) : Host.Outcome State Fault Refusal :=
  .next (if s.powerDue then
      let s1 := s.powerEpoch measured fixed
      s1.setSched { s1.sched with powered := s1.powerEpochs }
    else s)

-- the host's accesses to HBM (R287)

/-- A frame's key belongs to a VF whose TDI is CONFIG_LOCKED, RUN or ERROR. -/
def State.hostBarred (s : State) (pa : Nat) : Bool :=
  s.ctl.vfs.any (fun f => s.ctl.keyOf f (Store.get 0 s.mem.frameKey (pa / 65536)) && s.ctl.tdiOf f != 0)

/-- The frame is being scrubbed, or the line is claimed by an engine (R133, R149). -/
def State.hostHeld (s : State) (p : Phys) : Bool := s.mem.barred s.ctl 512 0 p
/-- The moving page that a frame is of (R137), by its name. -/
def State.hostMove (s : State) (p : Phys) : Option Nat :=
  (s.mem.moves.find? (fun x => s.inMoving x p)).map (fun x => moveKey x.fn x.page x.big)
/-- What holds a host access to lines back: none where it can be performed. -/
def State.hostWait (s : State) (lines : List Phys) (i : Instr) : Option State :=
  match lines.findSome? s.hostMove with
  | some k => some (s.queueEvent k i)
  | none => if lines.any s.hostHeld then some (s.again i) else none

/-- An HBM byte range there is: inside one stack (R128). -/
def hbmRange (pa n : Nat) : Bool := decide (pa / 2 ^ 36 < 12) && decide (pa / 2 ^ 36 = (pa + n - 1) / 2 ^ 36)
/-- Frames of a range. -/
def framesOf (pa n : Nat) : List Nat := (List.range ((pa % 65536 + n + 65535) / 65536)).map (fun i => (pa / 65536 + i) * 65536)
/-- Its lines. -/
def linesOf (host : Bool) (pa n : Nat) : List Phys := (List.range ((pa % 128 + n + 127) / 128)).map (fun i => ⟨host, (pa / 128 + i) * 128⟩)

/-- HOST_MEM_READ (R287): what the registries record; all ones and poison for a frame the host may not reach. -/
def execHostMemRead (pa n : Nat) (s : State) : Host.Outcome State Fault Refusal :=
  let ones := List.replicate n (255 : Byte)
  if !s.running || !hbmRange pa n then .next s
  else match s.hostWait (linesOf false pa n) (.hostMemRead pa n) with
  | some t => .next t
  | none =>
  if (framesOf pa n).any s.hostBarred then .next (s.emit (.hostRead pa ones true))
  else if (linesOf false pa n).any s.mem.poisonedAt then
    .next (s.emit (.hostRead pa ((List.range n).map (fun i => Config.poisonByte s.sched.tick (pa + i))) true))
  else .next (s.emit (.hostRead pa (s.mem.regRead ⟨false, pa⟩ n) false))

/-- Whole lines of a written range lose their poison (R306). -/
def Mem.cleanLines (m : Mem) (pa n : Nat) : Mem :=
  { m with poison := m.poison.filter (fun l => !(decide (pa ≤ l * 128) && decide (l * 128 + 128 ≤ pa + n))) }

/-- HOST_MEM_WRITE (R287): ownership is taken from every L1 first; in its own memory the host writes
what the device's reads over CXL.cache then return (R288). -/
def execHostMemWrite (at_ : HostPlace) (data : List Byte) (s : State) : Host.Outcome State Fault Refusal :=
  let n := data.length
  let pa := at_.pa
  if at_.host then
    (if 2 ^ 52 < pa + n then .next s
    else match s.hostWait (linesOf true pa n) (.hostMemWrite at_ data) with
      | some t => .next t
      | none => .next (s.setMem (s.mem.regBytes ⟨true, pa⟩ data)))
  else if !s.running || !hbmRange pa n then .next s
  else match s.hostWait (linesOf false pa n) (.hostMemWrite at_ data) with
  | some t => .next t
  | none =>
  if (framesOf pa n).any s.hostBarred then .next s
  else .next (s.setMem ((s.mem.regBytes ⟨false, pa⟩ data).cleanLines pa n))

end Sys2Proof.Machine
end

