-- ==== Sys2Proof/Machine/BootEvents.lean ====
section
/-! DEFINITION. Start-up, Lamp mode and device reset (R301-R305, R308). -/

namespace Sys2Proof.Machine

/-- BOOT_REASON as a start sets it (R305). -/
def bootWord (lamp : Bool) (fails cause stage : Nat) : W32 :=
  BitVec.ofNat 32 ((if lamp then 2 ^ 31 else 0) + Nat.min fails 15 * 2 ^ 24 + cause % 256 * 2 ^ 16 + stage % 8)

/-- Stage of the start (R305). -/
def State.stage (s : State) : Nat := bits s.ctl.bootReason.toNat 0 3
/-- A start is under way (R303). -/
def State.starting (s : State) : Bool := !s.running && !s.lamp && !s.boot.resetDue

/-- DEV_RESET (R308). -/
def execDevReset (v : W32) (s : State) : Host.Outcome State Fault Refusal := .next (s.askReset v.toNat)

/-- FUNCTION_LEVEL_RESET (R308): the PF's acts as DEV_RESET; for a VF the spec names no effect (log 28). -/
def execFunctionLevelReset (f : Nat) (s : State) : Host.Outcome State Fault Refusal :=
  .next (if f = 0 then s.setBoot { s.boot with resetDue := true } else s)

/-- The maximum time of a stage, in picoseconds (R303). -/
def stageLimit : Nat → Nat
  | 0 => 50000000000
  | 1 => 400000000000
  | 2 => 100000000000
  | 3 => 1500000000000
  | _ => 2100000000000

/-- The stage has run past its maximum, or 10 s have passed since the start began (R303). -/
def State.late (s : State) : Bool := decide (stageLimit s.stage < s.boot.stageAt) || decide (10000000000000 ≤ s.boot.began)

/-- DEVICE_START (R303, R304, R308): nothing but the flash survives; the outside world, its memory and its time go on. A
reset during a start is a failed start, one that is late already by its time; the next after three failures is Lamp mode. -/
def execDeviceStart (s : State) : Host.Outcome State Fault Refusal :=
  if !s.boot.resetDue then .next s
  else
    let broken := !s.running && !s.lamp && !s.boot.failed
    let fails := if broken then s.boot.fails + 1 else s.boot.fails
    let cause := if broken then (if s.late then 7 else 8) else s.boot.lastCause
    let b : Boot := { s.boot with fails := fails, lastCause := cause, began := 0, stageAt := 0, slot := 0, resetDue := false, failed := false }
    .next { State.reset with
      sched := { Sched.reset with agenda := s.sched.agenda, now := s.sched.now, startAt := s.sched.now, refBase := s.sched.now, fresh := s.sched.fresh, tick := s.sched.tick }
      mem := { Mem.reset with host := s.mem.host }
      ctl := { Ctl.reset with bootReason := bootWord (decide (3 ≤ fails)) fails cause 0 }
      boot := b, out := s.out, tdisp := { Tdisp.reset with replies := s.tdisp.replies } }

-- the stages (R301-R303)

/-- A slot is valid (R301). -/
def slotValid (x : FlashSlot) (counter : Nat) : Bool := x.ecdsa && x.lms && decide (counter ≤ x.svn.toNat)

/-- A slot of the flash. -/
def Boot.slotAt (b : Boot) (n : Nat) : FlashSlot := b.slots.getD n ⟨false, false, ⟨[], [], [], false⟩, [], 0⟩

/-- The slot a start uses: the valid one with the higher SVN, slot 0 on a tie (R301). -/
def Boot.choose (b : Boot) : Option Nat :=
  match slotValid (b.slotAt 0) b.antiRollback, slotValid (b.slotAt 1) b.antiRollback with
  | true, true => some (if (b.slotAt 0).svn < (b.slotAt 1).svn then 1 else 0)
  | true, false => some 0
  | false, true => some 1
  | false, false => none

/-- What a slot fails: 1 ECDSA, 2 LMS, 3 rollback (R305). -/
def slotFailure (x : FlashSlot) (counter : Nat) : Nat := if !x.ecdsa then 1 else if !x.lms then 2 else if x.svn.toNat < counter then 3 else 4

/-- The failure of the slot with the higher SVN, slot 0 on a tie (R305). -/
def Boot.failure (b : Boot) : Nat :=
  slotFailure (b.slotAt (if (b.slotAt 0).svn < (b.slotAt 1).svn then 1 else 0)) b.antiRollback

/-- A start fails (R303, R304): it is counted, and the next start follows (log 29). -/
def State.failStart (s : State) (cause : Nat) : State :=
  s.setBoot { s.boot with fails := s.boot.fails + 1, lastCause := cause, resetDue := true, failed := true }

/-- The next stage is reached (R303). -/
def State.reach (s : State) (n : Nat) : State :=
  (s.setCtl { s.ctl with bootReason := put32 s.ctl.bootReason 0 3 n }).setBoot { s.boot with stageAt := 0 }

/-- Fresh seal keys of the four dies (R230). -/
def State.sealDies (s : State) : State :=
  let ks := (List.range 4).map (fun d => (d, Config.random (s.fresh + d)))
  (s.setPairs { s.pairs with seals := ks.foldl (fun (a : Store W64) e => Store.set 0 a e.1 e.2) s.pairs.seals }).bump 4

/-- Every frame scrubbed to key 0 (R131, R303), its poison gone (R306). -/
def Mem.scrubAll (m : Mem) : Mem := { m with hbm := [], frameKey := [], frameLoad := [], lineLoad := [], poison := [], images := [] }

/-- START_STAGE_DONE (R303): the work of the stage is done and its check passes or fails; past the stage's maximum or the 10 s the
start has failed, whatever the check finds. The model's choice (log 95): the reference counter reads 0 at the end of stage 2, where the
counters of all dies are synchronised. -/
def execStartStageDone (s : State) : Host.Outcome State Fault Refusal :=
  if !s.starting then .next s
  else if s.late then .next (s.failStart 7)
  else match s.stage with
    | 0 => .next (s.reach 1)
    | 1 =>
      match s.boot.choose with
      | none => .next (s.failStart s.boot.failure)
      | some n =>
        if (s.boot.slotAt n).record.wellFormed then .next ((s.setBoot { s.boot with slot := n }).reach 2)
        else .next (s.failStart s.boot.failure)
    | 2 => .next ((s.setSched { s.sched with refBase := s.sched.now }).reach 3)
    | 3 => .next (if Config.hardwareGood s.sched.tick then s.sealDies.reach 4 else s.failStart 5)
    | _ =>
      if !Config.hardwareGood s.sched.tick then .next (s.failStart 6)
      else
        -- the PF's partition of 12 slices; running clears the failures and raises the anti-rollback counter (R302, R304)
        let s1 := ((s.setMem s.mem.scrubAll).setPart 0 0x51).createPart 0
        .next ((s1.setBoot { s1.boot with fails := 0, antiRollback := Nat.max s1.boot.antiRollback (s1.boot.slotAt s1.boot.slot).svn.toNat }).reach 5)

/-- START_STAGE_TIMEOUT (R303): the stage's maximum, or 10 s, has passed. -/
def execStartStageTimeout (s : State) : Host.Outcome State Fault Refusal :=
  .next (if s.starting && s.late then s.failStart 7 else s)

/-- LAMP_IMAGE_REPLACE (R304): a valid image takes the slot with the lower SVN, slot 1 on a tie (log 30). -/
def execLampImageReplace (img : FlashSlot) (s : State) : Host.Outcome State Fault Refusal :=
  .next (if s.lamp && !s.boot.resetDue && slotValid img s.boot.antiRollback then
      let n := if (s.boot.slotAt 0).svn < (s.boot.slotAt 1).svn then 0 else 1
      s.setBoot { s.boot with slots := listPut s.boot.slots n img, fails := 0 }
    else s)

end Sys2Proof.Machine
end

