-- ==== Sys2Proof/Machine/Tile.lean ====
section
/-! DEFINITION. Tiles, accumulators and the tile instructions (R58, R81, R82, R95-R120, R122, R404-R409). -/

namespace Sys2Proof.Machine

-- tiles as data (R95, R96)

def tcRows (w : W32) : Nat := bits w.toNat 0 7
def tcBytes (w : W32) : Nat := bits w.toNat 8 8
def tcType (w : W32) : Nat := bits w.toNat 16 4
def tcSparse (w : W32) : Bool := bit w.toNat 20
/-- The TY code of a tile's elements (R95). -/
def etypeOf : Ty → Nat
  | .i8 => 0 | .i4 => 4 | .f16 => 0xA | .bf16 => 0xB | .f32 => 0xC | .rt => 0xD
  | _ => 15
/-- The width in bits of an ETYPE code (R96). -/
def etypeBits (e : Nat) : Nat := if e = 0 then 8 else if e = 4 then 4 else if e = 0xA ∨ e = 0xB then 16 else 32
/-- Its bytes as R406 counts them for alignment. -/
def etypeBytes (e : Nat) : Nat := (etypeBits e + 7) / 8
/-- A valid TCTL word (R96). -/
def tctlOk (w : W64) : Bool :=
  let v := w.toNat
  let e := bits v 16 4
  let rows := bits v 0 7
  let rb := bits v 8 8
  decide (v < 2 ^ 21) && !bit v 7 && [0, 4, 0xA, 0xB, 0xC, 0xD].contains e && decide (1 ≤ rows ∧ rows ≤ 64) &&
    decide (1 ≤ rb ∧ rb ≤ 128) && rb % etypeBytes e == 0
/-- Elements of a row (R96). -/
def perRow (w : W32) : Nat := tcBytes w * 8 / etypeBits (tcType w)
def mkTctl (e rb rows : Nat) (sparse : Bool) : W32 :=
  BitVec.ofNat 32 (rows + rb * 2 ^ 8 + e * 2 ^ 16 + (if sparse then 2 ^ 20 else 0))

def tileAt (n r b : Nat) : Nat := n * 8192 + r * 128 + b
def Team.tileByte (t : Team) (n r b : Nat) : Byte := Store.get 0 t.tile (tileAt n r b)
/-- Element c of row r as raw bits, zero beyond the tile's rows and elements (R96). -/
def Team.elem (t : Team) (n r c : Nat) : Nat :=
  let w := t.tctlOf n
  if tcRows w ≤ r ∨ perRow w ≤ c then 0
  else
    let e := etypeBits (tcType w)
    ofLE (t.tile.bytes (tileAt n r (c * e / 8)) (etypeBytes (tcType w))) / 2 ^ (c * e % 8) % 2 ^ e
/-- An element written. -/
def putElem (m : Store Byte) (n r c e v : Nat) : Store Byte :=
  if e = 4 then
    let a := tileAt n r (c / 2)
    let old := (Store.get 0 m a).toNat
    Store.set 0 m a (BitVec.ofNat 8 (if c % 2 = 0 then old / 16 * 16 + v % 16 else old % 16 + v % 16 * 16))
  else m.writeBytes (tileAt n r (c * e / 8)) (toLE (e / 8) v)
/-- Every byte of a tile zero. -/
def Team.clearTile (t : Team) (n : Nat) : Team := { t with tile := t.tile.keep (fun k _ => !(k / 8192 == n)) }
def Team.putTctl (t : Team) (n : Nat) (w : W32) : Team := { t with tctl := Store.set 0x8040 t.tctl n w }

-- accumulators (R97)

def accAt (a i j : Nat) : Nat := a * 4096 + i * 64 + j
def Team.accEl (t : Team) (a i j : Nat) : Nat := (Store.get 0 t.acc (accAt a i j)).toNat
def Team.accMode (t : Team) (a : Nat) : Nat := (t.acstOf a).mode
def accClear : Nat := 0
def accClosed : Nat := 1
def accOpen : Nat := 2
def Team.putAcst (t : Team) (a mode bound : Nat) : Team := { t with acst := listPut t.acst a ⟨mode, bound⟩ }
/-- Every element of an accumulator zero. -/
def Team.clearAcc (t : Team) (a : Nat) : Team :=
  { (t.putAcst a accClear 0) with acc := t.acc.keep (fun k _ => !(k / 4096 == a)) }

/-- The pairs (i, j) with i < m and j < n. -/
def grid2 (m n : Nat) : List (Nat × Nat) := (List.range m).flatMap (fun i => (List.range n).map (fun j => (i, j)))
/-- Elements of an accumulator replaced, each by a value and its flags. -/
def Team.mapAcc (t : Team) (a m n : Nat) (f : Nat → Nat → Nat × Flags) : Team × Flags :=
  (grid2 m n).foldl (fun (x : Team × Flags) e =>
    let r := f e.1 e.2
    ({ x.1 with acc := Store.set 0 x.1.acc (accAt a e.1 e.2) (BitVec.ofNat 32 r.1) }, x.2 ||| r.2)) (t, 0)

-- arithmetic

/-- The scale of row or column i from a captured register (R110). -/
def scaleOf (dep : List W32) (half i : Nat) : Exact :=
  let code := (dep.getD (i % 32) 0).toNat / 256 ^ (2 * half + i / 32) % 256
  ⟨se8Man code, se8Exp code⟩

/-- The largest bound an open accumulator may carry (R108). -/
def headroom : Nat := 8388479
/-- An operation's share of it (R109). -/
def macShare (ty : Ty) (sparse : Bool) : Nat :=
  let k := if sparse then (if ty = .i8 then 96 else 128) else (if ty = .i8 then 128 else 256)
  k * (if ty = .i8 then 16129 else 49)

/-- The sum of TMMA for one element (R108). -/
def Team.sumDense (t : Team) (ty : Ty) (ta tb i j : Nat) : Int :=
  (List.range (if ty = .i8 then 128 else 256)).foldl (fun (s : Int) k =>
    s + elemVal ty (t.elem ta i k) * elemVal ty (t.elem tb j k)) 0

/-- Raw bits of a row of a 2:4 tile, whatever its TCTL (R111). -/
def Team.lineBits (t : Team) (n r lo w : Nat) : Nat :=
  ofLE (t.tile.bytes (tileAt n r (lo / 8)) 2) / 2 ^ (lo % 8) % 2 ^ w
/-- TSPM's second operand: past 128 I8 elements it goes on in the next tile (R112). -/
def Team.elemB (t : Team) (ty : Ty) (tb j k : Nat) : Nat :=
  if ty = .i8 ∧ 128 ≤ k then t.elem (tb + 1) j (k - 128) else t.elem tb j k
/-- The sum of TSPM for one element (R111, R112). -/
def Team.sumSparse (t : Team) (ty : Ty) (ta tb i j : Nat) : Int :=
  let g := if ty = .i8 then 48 else 64
  let w := if ty = .i8 then 8 else 4
  let base := if ty = .i8 then 24 * 8 else 32 * 8
  (List.range g).foldl (fun (s : Int) q =>
    let p0 := t.lineBits ta i (4 * q) 2
    let q0 := t.lineBits ta i (4 * q + 2) 2
    s + elemVal ty (t.lineBits ta i (base + w * (2 * q)) w) * elemVal ty (t.elemB ty tb j (4 * q + p0))
      + elemVal ty (t.lineBits ta i (base + w * (2 * q + 1)) w) * elemVal ty (t.elemB ty tb j (4 * q + q0))) 0

/-- old + S × sa × sb rounded once to F32 (R81). -/
def scaledAdd (rm : Rm) (old : Nat) (x : Exact) : Nat × Flags :=
  match unpack .f32 old with
  | .nan _ => (Fmt.f32.nanRaw, 0)
  | .inf n => (Fmt.f32.signed n Fmt.f32.infRaw, 0)
  | .fin n m e =>
    let zneg := rm == .rdn && !(!n && m == 0 && x.v == 0)
    roundExact .f32 rm (Exact.add (exactOf n m e) x) zneg
def scaled (s : Int) (a b : Exact) : Exact := Exact.mul ⟨s, 0⟩ (Exact.mul a b)

/-- A multiply into an accumulator, open or closed (R81, R108, R112). -/
def Team.multiply (t : Team) (opn : Bool) (inc : Nat) (rm : Rm) (ad ta tb : Nat) (half : Nat) (depA depB : List W32)
    (sum : Nat → Nat → Int) : Team × Flags :=
  let m := tcRows (t.tctlOf ta)
  let n := tcRows (t.tctlOf tb)
  if opn then
    let b := (t.acstOf ad).bound
    (t.putAcst ad accOpen (b + inc)).mapAcc ad m n (fun i j => (rtAddInt (t.accEl ad i j) (sum i j), 0))
  else
    (t.putAcst ad accClosed 0).mapAcc ad m n (fun i j =>
      scaledAdd rm (t.accEl ad i j) (scaled (sum i j) (scaleOf depA half i) (scaleOf depB half j)))

/-- TCLOSE on an accumulator (R81, R114). -/
def Team.close (t : Team) (rm : Rm) (ad half : Nat) (depA depB : List W32) : Team × Flags :=
  (t.putAcst ad accClosed 0).mapAcc ad 64 64 (fun i j =>
    roundExact .f32 rm (scaled (crtBack (t.accEl ad i j)) (scaleOf depA half i) (scaleOf depB half j)) false)

/-- One run of eight products (R82): its value and whether it is invalid. -/
def runOf (rm : Rm) (ps : List (Option FVal)) : FVal × Flags :=
  let isInf (n : Bool) (x : Option FVal) : Bool := match x with | some (.inf b) => b == n | _ => false
  if ps.any (fun x => match x with | none => true | some (.nan _) => true | _ => false) ||
      (ps.any (isInf true) && ps.any (isInf false)) then (.nan false, Flags.nv)
  else if ps.any (isInf true) then (.inf true, 0)
  else if ps.any (isInf false) then (.inf false, 0)
  else
    let x := ps.foldl (fun (a : Exact) p => match p with
      | some (.fin n m e) => Exact.add a (exactOf n m e)
      | _ => a) ⟨0, 0⟩
    let zneg := rm == .rdn || ps.all (fun p => match p with | some (.fin n m _) => n && m == 0 | _ => false)
    if x.v = 0 then (.fin zneg 0 0, 0) else (.fin (decide (x.v < 0)) x.v.natAbs x.e, 0)

/-- One element of TMMF (R82). -/
def Team.dotFloat (t : Team) (ty : Ty) (rm : Rm) (ta tb i j old : Nat) : Nat × Flags :=
  (List.range 8).foldl (fun (a : Nat × Flags) q =>
    let ps := (List.range 8).map (fun k =>
      mulVal (unpack (fmtOf ty) (t.elem ta i (8 * q + k))) (unpack (fmtOf ty) (t.elem tb j (8 * q + k))))
    let run := runOf rm ps
    let r := roundVal .f32 rm run.1
    let x := addVal .f32 rm (unpack .f32 a.1) (unpack .f32 r.1)
    (x.1, a.2 ||| run.2 ||| r.2 ||| x.2)) (old, 0)

-- the life of a tile instruction (R58, R99-R101, R404)

/-- Registers of the crew-0 threads of a batch deposited by lane (R100); a register no instruction names deposits 0. -/
def State.deposit (s : State) (c : Ctx) (gone : List Nat) (r : Option Reg) (old : List W32) : List W32 :=
  match r with
  | none => old
  | some x => (c.batch.threads.filter (fun i => i < 32 && !gone.contains i)).foldl
      (fun (l : List W32) i => listPut l i ((s.rd c.team i).lo x)) old

/-- TCTL, ACST and flags that a tile operation has changed are seen by an SGET as R73 and R98 give. -/
def Team.noteTile (old new : Team) (tok id : Nat) (fl : Flags) : Team :=
  let changed := (List.range 24).filter (fun k => old.tileSel (0x20 + k) != new.tileSel (0x20 + k))
  ({ new with sOlds := changed.map (fun k => (⟨0x20 + k, true, old.tileSel (0x20 + k), tok, id⟩ : Old W64)) ++ new.sOlds }).orFexc tok id fl

/-- An issued operation's effect on its team. -/
def State.putTile (s : State) (c : Ctx) (t : Team) (fl : Flags) : State :=
  (s.setTeam ((s.curTeam c).noteTile t c.batch.tok s.fresh fl)).bump 1

/-- A running TGEMM bars every later tile operation of the team (R118), and so does one whose set was complete before (R90). -/
def Team.tileBusy (t : Team) (b : Batch) (g : Sig) : Bool :=
  match t.gemm with
  | some x => !(x.stopped && x.pos == b.pos)
  | none => t.batches.any (fun y => y.id != b.id && (match y.sig with | some x => decide (x.order < g.order) | none => false))

/-- What the issuing batch has signed with, changed. -/
def State.onSig (s : State) (c : Ctx) (x : Option Sig) : State :=
  s.onCur c (fun t => match t.batch? c.batch.id with
    | some b => t.setBatch { b with sig := x }
    | none => t)

/-- A set that is complete: its operation issues, unless another of the team's still runs (R58, R99, R118). A fault is taken by
the completing batch's active threads and withdraws their signature. `wait`: the batch stays while the operation runs on. -/
def State.issueTile (s : State) (c : Ctx) (g : Sig) (wait : Bool) (issue : Ctx → Sig → State → Did) : State :=
  if (s.curTeam c).tileBusy (s.curBatch c) g then s.waitHere c
  else
    match issue c g s with
    | .done s1 =>
      let s2 := s1.onSig c none
      if wait then s2.waitHere c else s2.moveOn c []
    | .fault s1 e a =>
      let s2 := s1.onCur c (fun t => match t.batch? c.batch.id with
        | some b => (match b.sig with | some x => t.withdraw x | none => t).setBatch { b with sig := none }
        | none => t)
      (s2.raiseAll c e a g.act).moveOn c []
    | .park s1 _ => s1.moveOn c []
    | .held s1 => s1.waitHere c
    | .blocked s1 k => (s1.queueAt k c 0).waitHere c
    | .poisoned s1 => s1.endTeam c.team.uid (some Code.uncorrectable.num)

/-- Signing (R58, R99, R100, R404): a batch signs at once, and the operation issues with the signing that completes the set. A
batch that has completed a set whose operation could not issue yet stands at it and tries again. -/
def signTile (cv : Fin 16) (ra rb : Option Reg) (wait : Bool) (s : State)
    (issue : Ctx → Sig → State → Did) : Host.Outcome State Fault Refusal :=
  withCtx s (fun c =>
    match c.batch.sig with
    | some g => s.issueTile c g wait issue
    | none =>
      let names := (match ra with | some x => [x] | none => []) ++ (match rb with | some x => [x] | none => [])
      let bad := (activeOf c).filter (fun i => !names.all (regInBlock (c.team.kTop i) false))
      let good := (activeOf c).filter (fun i => !bad.contains i)
      let s1 := s.raiseAll c .illegalInstruction 0 bad
      let x := c.team.setFor cv.val c.batch.pos
      if good.isEmpty then s1.moveOn c []
      else if x.count ≠ 0 ∧ x.pos ≠ some c.batch.pos then (s1.raiseAll c .illegalInstruction 0 good).moveOn c []
      else
        let zero := List.replicate 32 (0 : W32)
        let y : Cv :=
          { x with
            count := x.count + good.length
            pos := if x.count = 0 then some c.batch.pos else x.pos
            depA := s.deposit c bad ra (if x.count = 0 then zero else x.depA)
            depB := s.deposit c bad rb (if x.count = 0 then zero else x.depB) }
        if y.count < y.n then (s1.onCur c (fun t => t.putSet cv.val c.batch.pos y)).moveOn c []
        else
          let g : Sig := ⟨cv.val, y.n, c.batch.pos, good, y.depA, y.depB, 0, s1.fresh, [], false, false⟩
          let s2 := s1.onCur c (fun t => t.putSet cv.val c.batch.pos { y with count := y.count - y.n })
          ((s2.onSig c (some g)).bump 1).issueTile c g wait issue)

/-- The checks of S operands at issue: none may be tagged (R404). -/
def Ctx.tagFault (c : Ctx) (ns : List SReg) : Option W64 := c.team.linear? (ns.map (·.val))
/-- S operands are read once, at issue. -/
def State.sAt (s : State) (c : Ctx) (n : SReg) : W64 := (s.rd (s.curTeam c) (c.batch.threads.headD 0)).s n

/-- The team has no accumulators (R122). -/
def State.noAcc (s : State) (c : Ctx) : Bool := (s.gridOf c.team).accGr == 0

/-- An operation on the array: it occupies the matrix slice (R119, R120). -/
def State.array (s : State) (c : Ctx) (n : Nat) (two : Bool) : State :=
  s.occupyMatrix c.team.core (if two && (s.core c.team.core).halfArray then 2 * n else n)

/-- An operation of cells only: the team changed, its writes pending under SETA (R404). -/
def State.doneTile (s : State) (c : Ctx) (x : Team × Flags) (n : Nat) (two : Bool) : Did :=
  .done ((((s.putTile c x.1 x.2)).pendRegs c).array c n two)

/-- TCFG (R105). -/
def execTcfg (cv td : Fin 16) (sa : SReg) (s : State) : Host.Outcome State Fault Refusal :=
  signTile cv none none false s (fun c _ s1 =>
    match c.tagFault [sa] with
    | some h => .fault s1 .linearCopy h
    | none =>
      let v := s1.sAt c sa
      if !tctlOk v then .fault s1 .tileShape 0
      else s1.doneTile c ((s1.curTeam c).putTctl td.val (BitVec.ofNat 32 (v.toNat % 2 ^ 20)), 0) 1 false)

/-- TZERO (R98, R105). -/
def execTzero (cv : Fin 16) (acc : Bool) (td : Fin 16) (s : State) : Host.Outcome State Fault Refusal :=
  signTile cv none none false s (fun c _ s1 =>
    if acc then
      if s1.noAcc c then .fault s1 .tileShape 0
      else s1.doneTile c ((s1.curTeam c).clearAcc td.val, 0) 1 false
    else s1.doneTile c ((s1.curTeam c).clearTile td.val, 0) 1 false)

-- TLD and TST

/-- The address of a row (R406). -/
def rowAddr (base stride : W64) (r : Nat) : Nat := (base.toNat + r * stride.toNat) % 2 ^ 64

/-- Pieces of a run of bytes that do not cross a multiple of `unit`. -/
def pieces (unit : Nat) : Nat → Nat → Nat → List (Nat × Nat)
  | 0, _, _ => []
  | fuel + 1, a, n =>
    if n = 0 then []
    else
      let k := Nat.min n (unit - a % unit)
      (a, k) :: pieces unit fuel (a + k) (n - k)

/-- Translations of pieces checked in turn (R406 order 4). -/
def checkPieces (c : Ctl) (a : Agent) (k : Kind) : Mem → List (Nat × Nat) → Except (Option Nat × Code × Nat) Mem
  | m, [] => .ok m
  | m, (va, _) :: ps =>
    match translate c m a.fn a.part va k with
    | .ok _ m1 => checkPieces c a k m1 ps
    | .fault e => .error (none, e, va)
    | .blocked i => .error (some i, .access, va)

/-- The checks of R406 for rows of `n` bytes: the state to go on in, or how the operation stops. -/
def State.checkRows (s : State) (c : Ctx) (es rows n : Nat) (base stride : W64) (scratch write : Bool) (ok : State → Did) : Did :=
  let rs := (List.range rows).map (rowAddr base stride)
  if base.toNat % es ≠ 0 then .fault s .alignment base
  else if stride.toNat % es ≠ 0 then .fault s .alignment (base + stride)
  else if scratch then
    let size := (s.gridOf c.team).spBytes
    match rs.find? (fun a => decide (size < a + n)) with
    | some a => .fault s .access (BitVec.ofNat 64 (if a < size then size else a))
    | none => ok s
  else
    match rs.find? (fun a => decide (2 ^ 57 ≤ a) || decide (5 ≤ bits a 54 3)) with
    | some a => .fault s .access (BitVec.ofNat 64 a)
    | none =>
      let ps := rs.flatMap (fun a => pieces 65536 3 a n)
      match checkPieces s.ctl (s.agent c.team) (if write then .write else .read) s.mem ps with
      | .ok m => ok (s.setMem m)
      | .error (some i, _, _) => .blocked s i
      | .error (none, e, a) => if e = .uncorrectable then .poisoned s else .fault s e (BitVec.ofNat 64 a)

/-- Bytes read piece by piece. -/
def State.readPieces (s : State) (c : Ctx) (i : Nat) : List (Where × Nat) → (List Byte → State → Did) → Did
  | [], ok => ok [] s
  | (w, n) :: ps, ok => s.readAt c i w .plain .team .i8 n 0 (fun bs t => State.readPieces t c i ps (fun r u => ok (bs ++ r) u))

/-- Where the bytes of a row lie, in pieces no longer than a line. -/
def State.rowPieces (s : State) (c : Ctx) (scratch write : Bool) (a n : Nat) : List (Where × Nat) :=
  if scratch then [(.scratch c.team.uid a, n)]
  else (pieces 128 3 a n).map (fun p => (.global (s.agent c.team) p.1 (if write then .write else .read), p.2))

/-- The rows of a tile read (R105): `ok` gets the bytes of all rows, `n` to a row. -/
def State.readRows (s : State) (c : Ctx) (i rows n : Nat) (base stride : W64) (scratch : Bool) (ok : List Byte → State → Did) : Did :=
  s.readPieces c i ((List.range rows).flatMap (fun r => s.rowPieces c scratch false (rowAddr base stride r) n)) ok
/-- They are checked, then read. -/
def State.loadRows (s : State) (c : Ctx) (i es rows n : Nat) (base stride : W64) (scratch : Bool)
    (ok : List Byte → State → Did) : Did :=
  s.checkRows c es rows n base stride scratch false (fun s1 => s1.readRows c i rows n base stride scratch ok)

/-- A tile filled from the bytes of its rows; every other byte is 0 (R105). Under .SP the tail of each row is 0. -/
def Team.fillTile (t : Team) (n rows rb : Nat) (sparse : Bool) (bs : List Byte) : Team :=
  let keep := if !sparse then 128 else if tcType (t.tctlOf n) = 0 then 120 else 96
  let w := t.tctlOf n
  let t1 := t.clearTile n
  let m := (List.range rows).foldl (fun (m : Store Byte) r =>
    m.writeBytes (tileAt n r 0) (((bs.drop (r * rb)).take rb).take keep)) t1.tile
  ({ t1 with tile := m }).putTctl n (mkTctl (tcType w) rb (tcRows w) sparse)

/-- A TLD or TST from its issue on (R99, R404, R406): its checks are made once, in their order, and its S operands are read once;
`bad`: the TILE_SHAPE test fails. `go` performs it, and may be held and tried again. -/
def State.moveTile (s : State) (c : Ctx) (g : Sig) (base stride : SReg) (bad : Bool) (es rows n : Nat) (scratch write : Bool)
    (go : Sig → W64 → W64 → State → Did) : Did :=
  if g.sure then go g (g.ops.getD 0 0) (g.ops.getD 1 0) s
  else
    match if g.ops.isEmpty then c.tagFault [base, stride] else none with
    | some h => .fault s .linearCopy h
    | none =>
      if g.ops.isEmpty && bad then .fault s .tileShape 0
      else
        let b := g.ops.getD 0 (s.sAt c base)
        let d := g.ops.getD 1 (s.sAt c stride)
        let g1 : Sig := { g with ops := [b, d], scr := scratch }
        (s.onSig c (some g1)).checkRows c es rows n b d scratch write (fun s1 =>
          let g2 : Sig := { g1 with sure := true }
          go g2 b d (s1.onSig c (some g2)))

/-- TLD (R105, R406). -/
def execTld (cv td : Fin 16) (base stride : SReg) (sparse scratch : Bool) (s : State) : Host.Outcome State Fault Refusal :=
  signTile cv none none false s (fun c g s1 =>
    let w := (s1.curTeam c).tctlOf td.val
    let e := tcType w
    let rb := tcBytes w
    s1.moveTile c g base stride (sparse && ((e != 0 && e != 4) || rb != 128)) (etypeBytes e) (tcRows w) rb scratch false (fun g b d s2 =>
      s2.readRows c (g.act.headD 0) (tcRows w) rb b d scratch (fun bs t =>
        .done ((t.putTile c ((t.curTeam c).fillTile td.val (tcRows w) rb sparse bs) 0).pendRegs c))))

/-- The bytes of one row stored, piece by piece. -/
def State.storePieces (s : State) (c : Ctx) : List (Where × Nat) → List Byte → Did
  | [], _ => .done s
  | (w, n) :: ps, bs =>
    match w with
    | .scratch u off =>
      if s.spBarred c u off n then .held s
      else State.storePieces (s.scratchWrite u off (bs.take n)) c ps (bs.drop n)
    | .global a va kd =>
      match storeGlobal s.ctl s.mem a va kd false (bs.take n) with
      | .ok _ m => State.storePieces (s.setMem m) c ps (bs.drop n)
      | .fault e => .fault s e (BitVec.ofNat 64 va)
      | .held => .held s
      | .blocked i => .blocked s i
      | .poisoned => .poisoned s
    | _ => State.storePieces s c ps (bs.drop n)

/-- Rows stored in ascending order from row `k` on, each whole or not at all (R105, R406); one that is held back leaves those before
it written, and the batch's signature remembers how many. -/
def State.storeRows (s : State) (c : Ctx) (g : Sig) : Nat → List (List (Where × Nat) × List Byte) → Did
  | _, [] => .done s
  | k, (ps, bs) :: rows =>
    let stay : State := s.onSig c (some { g with rows := k })
    match s.storePieces c ps bs with
    | .done s1 => State.storeRows s1 c g (k + 1) rows
    | .fault _ e a => .fault s e a
    | .park _ p => .park s p
    | .held _ => .held stay
    | .blocked _ i => .blocked stay i
    | .poisoned _ => .poisoned s

/-- TST (R105, R406): every check of every row, then rows in ascending order. -/
def execTst (cv td : Fin 16) (base stride : SReg) (scratch : Bool) (s : State) : Host.Outcome State Fault Refusal :=
  signTile cv none none false s (fun c g s1 =>
    let t := s1.curTeam c
    let w := t.tctlOf td.val
    let rb := tcBytes w
    s1.moveTile c g base stride false (etypeBytes (tcType w)) (tcRows w) rb scratch true (fun g b d s2 =>
      match s2.storeRows c g g.rows (((List.range (tcRows w)).drop g.rows).map (fun r =>
          (s2.rowPieces c scratch true (rowAddr b d r) rb, t.tile.bytes (tileAt td.val r 0) rb))) with
      | .done s3 => .done (s3.pendMems c)
      | x => x))

-- slices

/-- The slice index in 33 bits (R407), and whether the slice lies in the tile (R104). -/
def sliceBad (w : W32) (half col : Bool) (x : Nat) : Bool :=
  tcSparse w || (if col then decide (perRow w ≤ x) else decide (tcRows w ≤ x) || half)

/-- TLDS (R107, R407). -/
def execTlds (cv td : Fin 16) (src : Reg) (half col : Bool) (ix : SReg) (imm : BitVec 8) (s : State) :
    Host.Outcome State Fault Refusal :=
  signTile cv (some src) none false s (fun c g s1 =>
    match c.tagFault [ix] with
    | some h => .fault s1 .linearCopy h
    | none =>
      let t := s1.curTeam c
      let w := t.tctlOf td.val
      let x := (s1.sAt c ix).toNat % 2 ^ 32 + imm.toNat
      if sliceBad w half col x then .fault s1 .tileShape 0
      else
        let e := etypeBits (tcType w)
        let m := (List.range 32).foldl (fun (m : Store Byte) l =>
          let v := (g.depA.getD l 0).toNat
          if col then
            let r := (if half then 32 else 0) + l
            if r < tcRows w then putElem m td.val r x e v else m
          else m.writeBytes (tileAt td.val x (4 * l)) ((toLE 4 v).take (tcBytes w - 4 * l))) t.tile
        s1.doneTile c ({ t with tile := m }, 0) 1 false)

/-- A value written to K[kd] of each live thread of crew 0, by lane, as a long-latency write (R90, R407). -/
def Team.putCrew0 (t : Team) (tok id : Nat) (kd : Nat) (vs : Nat → W32) : Team :=
  { t with threads := t.threads.mapIdx (fun i x =>
      if i < 32 && x.live then (x.noteOlds tok id [(false, kd)]).put false kd (vs i) else x) }

/-- TSTS (R107, R407). -/
def execTsts (cv td : Fin 16) (kd : Fin 128) (half col : Bool) (ix : SReg) (imm : BitVec 8) (s : State) :
    Host.Outcome State Fault Refusal :=
  signTile cv none none false s (fun c _ s1 =>
    match c.tagFault [ix] with
    | some h => .fault s1 .linearCopy h
    | none =>
      let t := s1.curTeam c
      let w := t.tctlOf td.val
      let x := (s1.sAt c ix).toNat % 2 ^ 32 + imm.toNat
      if sliceBad w half col x then .fault s1 .tileShape 0
      else if !regInBlock (t.kTop 0) false (.k kd) then .fault s1 .illegalInstruction 0
      else
        let e := tcType w
        let v (l : Nat) : W32 :=
          if col then
            let raw := t.elem td.val ((if half then 32 else 0) + l) x
            BitVec.ofNat 32 (if e = 0 then sext 8 32 raw else if e = 4 then sext 4 32 raw else raw)
          else BitVec.ofNat 32 (ofLE ((t.tile.bytes (tileAt td.val x 0) (tcBytes w)).drop (4 * l) |>.take 4))
        .done (((((s1.onCur c (fun y => y.putCrew0 c.batch.tok s1.fresh kd.val v))).bump 1).pendRegs c).array c 1 false))

/-- TTRN (R106). -/
def execTtrn (cv td ta : Fin 16) (s : State) : Host.Outcome State Fault Refusal :=
  signTile cv none none false s (fun c _ s1 =>
    let t := s1.curTeam c
    let w := t.tctlOf ta.val
    let e := etypeBits (tcType w)
    let cols := perRow w
    let rows := tcRows w
    let rb := (rows * e + 7) / 8
    if tcSparse w || decide (64 < cols) || decide (128 < rb) then .fault s1 .tileShape 0
    else
      let m := (grid2 rows cols).foldl (fun (m : Store Byte) p => putElem m td.val p.2 p.1 e (t.elem ta.val p.1 p.2)) (t.clearTile td.val).tile
      s1.doneTile c (({ t with tile := m }).putTctl td.val (mkTctl (tcType w) rb cols false), 0) 16 false)

-- multiplies

/-- TILE_SHAPE of a multiply (R98, R104, R408); `second`: TSPM of I8 reads Tb + 1. -/
def State.mulBad (s : State) (c : Ctx) (ty : Ty) (opn sparse : Bool) (ad ta tb : Nat) : Bool :=
  let t := s.curTeam c
  let mode := t.accMode ad
  let ok (n : Nat) (sp : Bool) : Bool := tcType (t.tctlOf n) == etypeOf ty && tcSparse (t.tctlOf n) == sp
  s.noAcc c || (if opn then mode == accClosed else mode == accOpen) || !ok ta sparse || !ok tb false ||
    (sparse && ty == .i8 && !ok (tb + 1) false)

/-- TMMA and TSPM at issue (R108-R112). -/
def State.mulIssue (s : State) (c : Ctx) (opn sparse : Bool) (ty : Ty) (rm : Rm) (ad ta tb : Nat) (half : Nat)
    (depA depB : List W32) (cycles : Nat) : Did :=
  let t := s.curTeam c
  if s.mulBad c ty opn sparse ad ta tb then .fault s .tileShape 0
  else if opn && decide (headroom < (t.acstOf ad).bound + macShare ty sparse) then .fault s .accHeadroom 0
  else s.doneTile c (t.multiply opn (macShare ty sparse) rm ad ta tb half depA depB
      (fun i j => if sparse then t.sumSparse ty ta tb i j else t.sumDense ty ta tb i j)) cycles true

def scaleRegs (opn : Bool) (r : Reg) : Option Reg := if opn then none else some r
def halfOf (b : Bool) : Nat := if b then 1 else 0

/-- TMMA (R108). -/
def execTmma (cv : Fin 16) (opn : Bool) (ty : Ty) (rm : Rm) (ad : Fin 8) (ta tb : Fin 16) (sa sb : Reg) (bsel : Bool)
    (s : State) : Host.Outcome State Fault Refusal :=
  signTile cv (scaleRegs opn sa) (scaleRegs opn sb) false s (fun c g s1 =>
    s1.mulIssue c opn false ty rm ad.val ta.val tb.val (halfOf bsel) g.depA g.depB 64)

/-- TSPM (R111, R112). -/
def execTspm (cv : Fin 16) (opn : Bool) (ty : Ty) (rm : Rm) (ad : Fin 8) (ta tb : Fin 16) (sa sb : Reg) (bsel : Bool)
    (s : State) : Host.Outcome State Fault Refusal :=
  signTile cv (scaleRegs opn sa) (scaleRegs opn sb) false s (fun c g s1 =>
    s1.mulIssue c opn true ty rm ad.val ta.val tb.val (halfOf bsel) g.depA g.depB (if ty = .i8 then 48 else 32))

/-- TMMF (R82, R113). -/
def execTmmf (cv : Fin 16) (ty : Ty) (rm : Rm) (ad : Fin 8) (ta tb : Fin 16) (s : State) : Host.Outcome State Fault Refusal :=
  signTile cv none none false s (fun c _ s1 =>
    let t := s1.curTeam c
    let ok (n : Nat) : Bool := tcType (t.tctlOf n) == etypeOf ty
    if s1.noAcc c || t.accMode ad.val == accOpen || !ok ta.val || !ok tb.val then .fault s1 .tileShape 0
    else s1.doneTile c ((t.putAcst ad.val accClosed 0).mapAcc ad.val (tcRows (t.tctlOf ta.val)) (tcRows (t.tctlOf tb.val))
        (fun i j => t.dotFloat ty rm ta.val tb.val i j (t.accEl ad.val i j))) 128 true)

/-- TCLOSE (R98, R114). -/
def execTclose (cv : Fin 16) (rm : Rm) (ad : Fin 8) (sa sb : Reg) (bsel : Bool) (s : State) :
    Host.Outcome State Fault Refusal :=
  signTile cv (some sa) (some sb) false s (fun c g s1 =>
    let t := s1.curTeam c
    if s1.noAcc c || t.accMode ad.val == accClosed then .fault s1 .tileShape 0
    else s1.doneTile c (t.close rm ad.val (halfOf bsel) g.depA g.depB) 8 true)

/-- TDRAIN's shape test and element (R115): none faults. -/
def drainEl (rm : Rm) (e mode : Nat) (half : Bool) : Option (Nat → Nat × Flags) :=
  if e = 0xC then (if mode = accOpen then none else some (fun x => (x, 0)))
  else if e = 0xD then (if mode = accClosed then none else some (fun x => (x, 0)))
  else if (e = 0xA ∨ e = 0xB) ∧ !half then
    if mode = accOpen then none
    else some (fun x => floatToFloat .f32 (if e = 0xA then .f16 else .bf16) rm x)
  else none

/-- TDRAIN (R115). -/
def execTdrain (cv : Fin 16) (rm : Rm) (td : Fin 16) (aa : Fin 8) (half : Bool) (s : State) : Host.Outcome State Fault Refusal :=
  signTile cv none none false s (fun c _ s1 =>
    let t := s1.curTeam c
    let w := t.tctlOf td.val
    let e := tcType w
    if s1.noAcc c || tcBytes w != 128 then .fault s1 .tileShape 0
    else match drainEl rm e (t.accMode aa.val) half with
      | none => .fault s1 .tileShape 0
      | some f =>
        let cols := if e = 0xC ∨ e = 0xD then 32 else 64
        let x := (grid2 (tcRows w) cols).foldl (fun (x : Store Byte × Flags) p =>
          let r := f (t.accEl aa.val p.1 ((if half then 32 else 0) + p.2))
          (putElem x.1 td.val p.1 p.2 (etypeBits e) r.1, x.2 ||| r.2)) (t.tile, 0)
        s1.doneTile c ({ t with tile := x.1 }, x.2) 8 true)

/-- A block of an accumulator quantised (R77, R116). -/
def Team.accBlock (t : Team) (aa i k : Nat) (rm : Rm) (ty : Ty) : List Int × Nat × Flags :=
  quantBlock rm (elemMax ty) ((List.range 32).map (fun j => unpack .f32 (t.accEl aa i (32 * k + j))))

/-- TQNT (R116). -/
def execTqnt (cv : Fin 16) (ty : Ty) (rm : Rm) (td : Fin 16) (aa : Fin 8) (kd : Fin 128) (s : State) :
    Host.Outcome State Fault Refusal :=
  signTile cv none none false s (fun c _ s1 =>
    let t := s1.curTeam c
    let w := t.tctlOf td.val
    if s1.noAcc c || t.accMode aa.val == accOpen || tcType w != etypeOf ty || tcBytes w != (if ty = .i8 then 64 else 32) then
      .fault s1 .tileShape 0
    else if !regInBlock (t.kTop 0) false (.k kd) then .fault s1 .illegalInstruction 0
    else
      let blocks := (grid2 (tcRows w) 2).map (fun p => (p, t.accBlock aa.val p.1 p.2 rm ty))
      let tile := blocks.foldl (fun (m : Store Byte) b =>
        (b.2.1.zipIdx).foldl (fun (m : Store Byte) v =>
          putElem m td.val b.1.1 (32 * b.1.2 + v.2) (etypeBits (etypeOf ty)) (lowBits (etypeBits (etypeOf ty)) v.1)) m) t.tile
      let fl := blocks.foldl (fun (f : Flags) b => f ||| b.2.2.2) 0
      let scaleByte (l q : Nat) : Nat :=
        ((blocks.find? (fun b => b.1.1 % 32 == l && 2 * b.1.2 + b.1.1 / 32 == q)).map (fun b => b.2.2.1)).getD 0
      let v (l : Nat) : W32 := BitVec.ofNat 32 (ofLE ((List.range 4).map (fun q => BitVec.ofNat 8 (scaleByte l q))))
      s1.doneTile c (({ t with tile := tile }).putCrew0 c.batch.tok s1.fresh kd.val v, fl) 16 true)

-- TGEMM (R117, R118, R409)

/-- TGEMM's descriptor S[n] to S[n + 3]. -/
def State.gemmDesc (s : State) (c : Ctx) (sn : SReg) : List W64 :=
  (List.range 4).map (fun k => s.sAt c (sn + Fin.ofNat 64 k))

/-- TGEMM at issue: its checks, then its capture. A batch whose resumed threads have signed again goes on at the phase
that faulted. -/
def State.gemmIssue (s : State) (c : Ctx) (x : Sig) (ty : Ty) (rm : Rm) (ad ta tb : Nat) (bsel : Bool) (sn : SReg) : Did :=
  let t := s.curTeam c
  match t.gemm with
  | some g => .done (s.onCur c (fun y =>
      { y with gemm := some { g with stopped := false, tok := c.batch.tok, batch := c.batch.id, addr := c.batch.addr, cv := x.cv, n := x.n, active := x.act } }))
  | none =>
    match c.tagFault ((List.range 4).map (fun k => sn + Fin.ofNat 64 k)) with
    | some h => .fault s .linearCopy h
    | none =>
      let d := s.gemmDesc c sn
      let d2 := (d.getD 2 0).toNat
      let d3 := (d.getD 3 0).toNat
      let steps := d3 % 2 ^ 16
      let stride (x : Nat) : W64 := BitVec.ofNat 64 (sext 32 64 x)
      if s.mulBad c ty true false ad ta tb || tcBytes (t.tctlOf ta) != 128 || tcBytes (t.tctlOf tb) != 128 ||
          steps == 0 || d3 / 2 ^ 17 != 0 then .fault s .tileShape 0
      else if headroom < (t.acstOf ad).bound + steps * macShare ty false then .fault s .accHeadroom 0
      else
        let g : Gemm :=
          { s := 0, phase := 0, ty := ty, rm := rm, ad := ad, ta := ta, tb := tb, sa := x.depA, sb := x.depB, bsel := bsel
            descA := d.getD 0 0, descB := d.getD 1 0, strideA := stride (d2 % 2 ^ 32), strideB := stride (d2 / 2 ^ 32)
            steps := steps, scratch := bit d3 16, tok := c.batch.tok, batch := c.batch.id, pos := c.batch.pos, addr := c.batch.addr, cv := x.cv
            n := x.n, active := x.act, stopped := false }
        .done (s.onCur c (fun y => { y with gemm := some g }))

/-- TGEMM (R118): its batch stays at it while its phases run (log 23). -/
def execTgemm (cv : Fin 16) (ty : Ty) (rm : Rm) (ad : Fin 8) (ta tb : Fin 16) (sa sb : Reg) (bsel : Bool) (sn : SReg)
    (s : State) : Host.Outcome State Fault Refusal :=
  match s.ctx? with
  | none => .fault .noBatch
  | some c =>
    if (match c.team.gemm with | some g => !g.stopped && g.batch == c.batch.id && g.pos == c.batch.pos | none => false) then
      .next (s.waitHere c)
    else
      signTile cv (some sa) (some sb) true s (fun c x s1 => s1.gemmIssue c x ty rm ad.val ta.val tb.val bsel sn)

/-- A batch's place for an operation that runs with its batch gone: a saved and restored team's TGEMM. -/
def Batch.ghost (g : Gemm) : Batch :=
  { id := g.batch, threads := [], block := g.pos.block, clause := g.pos.clause, instr := g.pos.instr, addr := g.addr, buf := none
    passed := false, tok := g.tok, flags := [], acq := [], done := [], held := false, vslice := none, stepped := false, heirs := [], sig := none, full := false, charged := false }

/-- A thread stands again at an instruction inside a clause, to replay it (R59). -/
def Thread.backTo (x : Thread) (p : Pos) (addr : W64) : Thread :=
  { x with pos := p, at_ := addr, frame := x.frame.map (fun f => { f with passed := true }) }

/-- A phase faults (R118): the completing batch's active threads take it at the TGEMM, its signature is withdrawn, and
the macro stops at that phase. -/
def State.gemmFault (s : State) (c : Ctx) (g : Gemm) (e : Code) (a : W64) : State :=
  let s1 := s.onCur c (fun t =>
    ({ t with gemm := some { g with stopped := true } }).withdraw ⟨g.cv, g.n, g.pos, g.active, g.sa, g.sb, 0, 0, [], false, false⟩)
  match (s1.curTeam c).batch? g.batch with
  | some _ => (s1.raiseAll c e a g.active).moveOn c []
  | none => s1.onCur c (fun t => g.active.foldl (fun (t : Team) i =>
      if (t.thread i).live then (t.onThread i (fun x => x.backTo g.pos g.addr)).failPark i e 0 a else t) t)

/-- TGEMM ends (R118): its batch goes on, its writes complete under its clause. -/
def State.gemmEnd (s : State) (c : Ctx) (g : Gemm) : State :=
  let s1 := s.onCur c (fun t => { t with gemm := none })
  match (s1.curTeam c).batch? g.batch with
  | some _ => (s1.pendRegs c).moveOn c []
  | none => s1.onCur c (fun t => t.regDone g.tok)

/-- One phase of a team's TGEMM (R118-R120, R409). -/
def State.gemmPhase (s : State) (c : Ctx) (g : Gemm) : Did :=
  let t := s.curTeam c
  let load (tile : Nat) (base stride : W64) : Did :=
    let w := t.tctlOf tile
    let next : Gemm := { g with phase := g.phase + 1 }
    s.loadRows c (g.active.headD 0) (etypeBytes (tcType w)) (tcRows w) 128 (base + BitVec.ofNat 64 (128 * g.s)) stride g.scratch
      (fun bs u =>
        let y := (u.curTeam c).fillTile tile (tcRows w) 128 false bs
        .done (u.putTile c { y with gemm := some next } 0))
  if g.phase = 0 then load g.ta g.descA g.strideA
  else if g.phase = 1 then load g.tb g.descB g.strideB
  else if g.phase = 2 then
    let x := t.multiply true (macShare g.ty false) g.rm g.ad g.ta g.tb 0 [] [] (fun i j => t.sumDense g.ty g.ta g.tb i j)
    let last := g.steps ≤ g.s + 1
    let next : Gemm := { g with s := if last then g.s else g.s + 1, phase := if last then 3 else 0 }
    .done ((s.putTile c { x.1 with gemm := some next } x.2).array c 64 true)
  else
    let x := t.close g.rm g.ad (halfOf g.bsel) g.sa g.sb
    .done (((s.putTile c x.1 x.2).array c 8 true).gemmEnd c g)

/-- The place a team's TGEMM runs at. -/
def Team.gemmCtx (t : Team) (g : Gemm) : Ctx := ⟨t, (t.batch? g.batch).getD (Batch.ghost g)⟩
/-- A team's TGEMM has a phase that can go on now. -/
def State.gemmReady (s : State) (t : Team) : Bool :=
  match t.gemm with
  | none => false
  | some g => t.placed && !g.stopped && !t.leaving && (match s.gemmPhase (t.gemmCtx g) g with
    | .held _ => false
    | .blocked s1 k => !(s1.queueAct k (.event (.tgemmPhase t.uid)) 0 == s1)
    | _ => true)

/-- The next phase of a team's TGEMM: nothing unless the team is placed and its macro runs. -/
def execTgemmPhase (u : Nat) (s : State) : Host.Outcome State Fault Refusal :=
  match s.team? u with
  | none => .next s
  | some t =>
    match t.gemm with
    | none => .next s
    | some g =>
      if g.stopped || !t.placed || t.leaving then .next s
      else
        let c := t.gemmCtx g
        match s.gemmPhase c g with
        | .done s1 => .next s1
        | .fault s1 e a => .next (s1.gemmFault c g e a)
        | .park s1 _ => .next s1
        | .held s1 => .next s1
        | .blocked s1 k => .next (s1.queueAct k (.event (.tgemmPhase u)) 0)
        | .poisoned s1 => .next (s1.endTeam u (some Code.uncorrectable.num))

end Sys2Proof.Machine
end

