-- ==== Sys2Proof/Machine/Dispatch.lean ====
section
/-! DEFINITION. One arm per row of the table of operations and events. -/

namespace Sys2Proof.Machine

def exec (i : Instr) (s : State) : Host.Outcome State Fault Refusal :=
  match i with
  | .sadd ty d a b => Sys2Proof.Machine.execSadd ty d a b s
  | .ssub ty d a b => Sys2Proof.Machine.execSsub ty d a b s
  | .smul ty d a b => Sys2Proof.Machine.execSmul ty d a b s
  | .smulh ty d a b => Sys2Proof.Machine.execSmulh ty d a b s
  | .sdiv ty d a b => Sys2Proof.Machine.execSdiv ty d a b s
  | .srem ty d a b => Sys2Proof.Machine.execSrem ty d a b s
  | .smin ty d a b => Sys2Proof.Machine.execSmin ty d a b s
  | .smax ty d a b => Sys2Proof.Machine.execSmax ty d a b s
  | .sand ty d a b => Sys2Proof.Machine.execSand ty d a b s
  | .sor ty d a b => Sys2Proof.Machine.execSor ty d a b s
  | .sxor ty d a b => Sys2Proof.Machine.execSxor ty d a b s
  | .sshl ty d a b => Sys2Proof.Machine.execSshl ty d a b s
  | .sshr ty d a b => Sys2Proof.Machine.execSshr ty d a b s
  | .ssha ty d a b => Sys2Proof.Machine.execSsha ty d a b s
  | .sclz ty d a => Sys2Proof.Machine.execSclz ty d a s
  | .spopc ty d a => Sys2Proof.Machine.execSpopc ty d a s
  | .scmp rel ty d a b => Sys2Proof.Machine.execScmp rel ty d a b s
  | .ssel ty d a b c => Sys2Proof.Machine.execSsel ty d a b c s
  | .smov ty d a => Sys2Proof.Machine.execSmov ty d a s
  | .smovMv d a => Sys2Proof.Machine.execSmovMv d a s
  | .smovi ty d imm => Sys2Proof.Machine.execSmovi ty d imm s
  | .sld ord sc ty sp d a b off => Sys2Proof.Machine.execSld ord sc ty sp d a b off s
  | .sst ord sc ty sp d a b off => Sys2Proof.Machine.execSst ord sc ty sp d a b off s
  | .sprm ty d imm => Sys2Proof.Machine.execSprm ty d imm s
  | .sget q d a b => Sys2Proof.Machine.execSget q d a b s
  | .sset q a => Sys2Proof.Machine.execSset q a s
  | .add ty d a b => Sys2Proof.Machine.execAdd ty d a b s
  | .sub ty d a b => Sys2Proof.Machine.execSub ty d a b s
  | .mul ty d a b => Sys2Proof.Machine.execMul ty d a b s
  | .mulh ty d a b => Sys2Proof.Machine.execMulh ty d a b s
  | .mad ty d a b c => Sys2Proof.Machine.execMad ty d a b c s
  | .div ty d a b => Sys2Proof.Machine.execDiv ty d a b s
  | .rem ty d a b => Sys2Proof.Machine.execRem ty d a b s
  | .min ty d a b => Sys2Proof.Machine.execMin ty d a b s
  | .max ty d a b => Sys2Proof.Machine.execMax ty d a b s
  | .abs ty d a => Sys2Proof.Machine.execAbs ty d a s
  | .neg ty d a => Sys2Proof.Machine.execNeg ty d a s
  | .and ty d a b => Sys2Proof.Machine.execAnd ty d a b s
  | .or ty d a b => Sys2Proof.Machine.execOr ty d a b s
  | .xor ty d a b => Sys2Proof.Machine.execXor ty d a b s
  | .not ty d a => Sys2Proof.Machine.execNot ty d a s
  | .shl ty d a b => Sys2Proof.Machine.execShl ty d a b s
  | .shr ty d a b => Sys2Proof.Machine.execShr ty d a b s
  | .sha ty d a b => Sys2Proof.Machine.execSha ty d a b s
  | .clz ty d a => Sys2Proof.Machine.execClz ty d a s
  | .popc ty d a => Sys2Proof.Machine.execPopc ty d a s
  | .brev ty d a => Sys2Proof.Machine.execBrev ty d a s
  | .cmp rel ty push d a b => Sys2Proof.Machine.execCmp rel ty push d a b s
  | .sel ty d a b c => Sys2Proof.Machine.execSel ty d a b c s
  | .mov ty d a => Sys2Proof.Machine.execMov ty d a s
  | .movi ty d imm => Sys2Proof.Machine.execMovi ty d imm s
  | .bcst ty d a => Sys2Proof.Machine.execBcst ty d a s
  | .idx q d => Sys2Proof.Machine.execIdx q d s
  | .fadd ty rm d a b => Sys2Proof.Machine.execFadd ty rm d a b s
  | .fsub ty rm d a b => Sys2Proof.Machine.execFsub ty rm d a b s
  | .fmul ty rm d a b => Sys2Proof.Machine.execFmul ty rm d a b s
  | .fma ty rm d a b c => Sys2Proof.Machine.execFma ty rm d a b c s
  | .fmin ty d a b => Sys2Proof.Machine.execFmin ty d a b s
  | .fmax ty d a b => Sys2Proof.Machine.execFmax ty d a b s
  | .fabs ty d a => Sys2Proof.Machine.execFabs ty d a s
  | .fneg ty d a => Sys2Proof.Machine.execFneg ty d a s
  | .fcmp rel ty push d a b => Sys2Proof.Machine.execFcmp rel ty push d a b s
  | .fclass ty d a => Sys2Proof.Machine.execFclass ty d a s
  | .frcp ty rm d a => Sys2Proof.Machine.execFrcp ty rm d a s
  | .frsq ty rm d a => Sys2Proof.Machine.execFrsq ty rm d a s
  | .fsqrt ty rm d a => Sys2Proof.Machine.execFsqrt ty rm d a s
  | .fdiv ty rm d a b => Sys2Proof.Machine.execFdiv ty rm d a b s
  | .fexp2 ty rm d a => Sys2Proof.Machine.execFexp2 ty rm d a s
  | .flog2 ty rm d a => Sys2Proof.Machine.execFlog2 ty rm d a s
  | .cvt dty sty sym rm d a => Sys2Proof.Machine.execCvt dty sty sym rm d a s
  | .rfwd ty d a => Sys2Proof.Machine.execRfwd ty d a s
  | .radd d a b => Sys2Proof.Machine.execRadd d a b s
  | .rmul d a b => Sys2Proof.Machine.execRmul d a b s
  | .rmad d a b c => Sys2Proof.Machine.execRmad d a b c s
  | .rback d a => Sys2Proof.Machine.execRback d a s
  | .qnt dty sty rm d a b => Sys2Proof.Machine.execQnt dty sty rm d a b s
  | .dqnt ty d a b => Sys2Proof.Machine.execDqnt ty d a b s
  | .cmpr ty d a => Sys2Proof.Machine.execCmpr ty d a s
  | .xpnd ty d a => Sys2Proof.Machine.execXpnd ty d a s
  | .tcfg cv td sa => Sys2Proof.Machine.execTcfg cv td sa s
  | .tzero cv acc td => Sys2Proof.Machine.execTzero cv acc td s
  | .tld cv td base stride sparse scratch => Sys2Proof.Machine.execTld cv td base stride sparse scratch s
  | .tst cv td base stride scratch => Sys2Proof.Machine.execTst cv td base stride scratch s
  | .tlds cv td src half col ix imm => Sys2Proof.Machine.execTlds cv td src half col ix imm s
  | .tsts cv td kd half col ix imm => Sys2Proof.Machine.execTsts cv td kd half col ix imm s
  | .ttrn cv td ta => Sys2Proof.Machine.execTtrn cv td ta s
  | .tmma cv opn ty rm ad ta tb sa sb bsel => Sys2Proof.Machine.execTmma cv opn ty rm ad ta tb sa sb bsel s
  | .tmmf cv ty rm ad ta tb => Sys2Proof.Machine.execTmmf cv ty rm ad ta tb s
  | .tspm cv opn ty rm ad ta tb sa sb bsel => Sys2Proof.Machine.execTspm cv opn ty rm ad ta tb sa sb bsel s
  | .tclose cv rm ad sa sb bsel => Sys2Proof.Machine.execTclose cv rm ad sa sb bsel s
  | .tdrain cv rm td aa half => Sys2Proof.Machine.execTdrain cv rm td aa half s
  | .tqnt cv ty rm td aa kd => Sys2Proof.Machine.execTqnt cv ty rm td aa kd s
  | .tgemm cv ty rm ad ta tb sa sb bsel sn => Sys2Proof.Machine.execTgemm cv ty rm ad ta tb sa sb bsel sn s
  | .tgemmPhase team => Sys2Proof.Machine.execTgemmPhase team s
  | .ld ord sc ty sp d a b off => Sys2Proof.Machine.execLd ord sc ty sp d a b off s
  | .st ord sc ty sp d a b off => Sys2Proof.Machine.execSt ord sc ty sp d a b off s
  | .ldsee np ord sc ty d a b off => Sys2Proof.Machine.execLdsee np ord sc ty d a b off s
  | .ldp ty sp d a b off => Sys2Proof.Machine.execLdp ty sp d a b off s
  | .atom aop ord sc ty sp d a b off => Sys2Proof.Machine.execAtom aop ord sc ty sp d a b off s
  | .red aop ord sc ty sp a b off => Sys2Proof.Machine.execRed aop ord sc ty sp a b off s
  | .fence ord sc => Sys2Proof.Machine.execFence ord sc s
  | .pref ty sp a b off => Sys2Proof.Machine.execPref ty sp a b off s
  | .bra t => Sys2Proof.Machine.execBra t s
  | .brc t => Sys2Proof.Machine.execBrc t s
  | .bsw t a n => Sys2Proof.Machine.execBsw t a n s
  | .call t a => Sys2Proof.Machine.execCall t a s
  | .ret a => Sys2Proof.Machine.execRet a s
  | .exit => Sys2Proof.Machine.execExit s
  | .yield t => Sys2Proof.Machine.execYield t s
  | .pnot => Sys2Proof.Machine.execPnot s
  | .ppop => Sys2Proof.Machine.execPpop s
  | .bar net b t => Sys2Proof.Machine.execBar net b t s
  | .bara net b => Sys2Proof.Machine.execBara net b s
  | .barw net b t => Sys2Proof.Machine.execBarw net b t s
  | .nbmem b join => Sys2Proof.Machine.execNbmem b join s
  | .waitf np a t => Sys2Proof.Machine.execWaitf np a t s
  | .grab => Sys2Proof.Machine.execGrab s
  | .relx => Sys2Proof.Machine.execRelx s
  | .cvset cv n => Sys2Proof.Machine.execCvset cv n s
  | .bkpt tag => Sys2Proof.Machine.execBkpt tag s
  | .nop => Sys2Proof.Machine.execNop s
  | .trap code => Sys2Proof.Machine.execTrap code s
  | .cpy dsp ssp ck d a b c target => Sys2Proof.Machine.execCpy dsp ssp ck d a b c target s
  | .tcpy toScratch ck d a target => Sys2Proof.Machine.execTcpy toScratch ck d a target s
  | .bexp net a b => Sys2Proof.Machine.execBexp net a b s
  | .gstart d a => Sys2Proof.Machine.execGstart d a s
  | .gcond a b off => Sys2Proof.Machine.execGcond a b off s
  | .launch d a => Sys2Proof.Machine.execLaunch d a s
  | .ptnew scratch d a b => Sys2Proof.Machine.execPtnew scratch d a b s
  | .ptfree a => Sys2Proof.Machine.execPtfree a s
  | .seeh d a rights => Sys2Proof.Machine.execSeeh d a rights s
  | .drop a => Sys2Proof.Machine.execDrop a s
  | .hsend d a b => Sys2Proof.Machine.execHsend d a b s
  | .hrecv d a => Sys2Proof.Machine.execHrecv d a s
  | .wqpost d a ring => Sys2Proof.Machine.execWqpost d a ring s
  | .triga o d a => Sys2Proof.Machine.execTriga o d a s
  | .cntadd tc a => Sys2Proof.Machine.execCntadd tc a s
  | .sysc d a => Sys2Proof.Machine.execSysc d a s
  | .sret a b faulted => Sys2Proof.Machine.execSret a b faulted s
  | .tstamp cyc d => Sys2Proof.Machine.execTstamp cyc d s
  | .ktlbi kind a b => Sys2Proof.Machine.execKtlbi kind a b s
  | .kget q d a b n => Sys2Proof.Machine.execKget q d a b n s
  | .kset isW a b c n => Sys2Proof.Machine.execKset isW a b c n s
  | .kresumeResume a b => Sys2Proof.Machine.execKresumeResume a b s
  | .kresumeStep a b => Sys2Proof.Machine.execKresumeStep a b s
  | .kresumeKill a b => Sys2Proof.Machine.execKresumeKill a b s
  | .kresumeEngresume a b => Sys2Proof.Machine.execKresumeEngresume a b s
  | .kresumeEngend a b => Sys2Proof.Machine.execKresumeEngend a b s
  | .selection team => Sys2Proof.Machine.execSelection team s
  | .clauseStart => Sys2Proof.Machine.execClauseStart s
  | .longLatencyWriteDone team tok => Sys2Proof.Machine.execLongLatencyWriteDone team tok s
  | .writePerformed team tok => Sys2Proof.Machine.execWritePerformed team tok s
  | .trapRecordPost team thread => Sys2Proof.Machine.execTrapRecordPost team thread s
  | .registrationAccepted core => Sys2Proof.Machine.execRegistrationAccepted core s
  | .waitPoll team thread => Sys2Proof.Machine.execWaitPoll team thread s
  | .copyLine engine => Sys2Proof.Machine.execCopyLine engine s
  | .barrierWave core => Sys2Proof.Machine.execBarrierWave core s
  | .recordWrite fn ring => Sys2Proof.Machine.execRecordWrite fn ring s
  | .ringHeaderRecheck fn ring => Sys2Proof.Machine.execRingHeaderRecheck fn ring s
  | .gridRetire grid => Sys2Proof.Machine.execGridRetire grid s
  | .teamPlacement part => Sys2Proof.Machine.execTeamPlacement part s
  | .duskGraceExpiry grid lin => Sys2Proof.Machine.execDuskGraceExpiry grid lin s
  | .watchdogExpiry team => Sys2Proof.Machine.execWatchdogExpiry team s
  | .waitLimitExpiry team thread => Sys2Proof.Machine.execWaitLimitExpiry team thread s
  | .switchTick part => Sys2Proof.Machine.execSwitchTick part s
  | .saveShareComplete part die => Sys2Proof.Machine.execSaveShareComplete part die s
  | .saveDeadlineExpiry part => Sys2Proof.Machine.execSaveDeadlineExpiry part s
  | .qkick fn q w => Sys2Proof.Machine.execQkick fn q w s
  | .packetLaunch fn q => Sys2Proof.Machine.execPacketLaunch fn q s
  | .packetCopy fn q => Sys2Proof.Machine.execPacketCopy fn q s
  | .packetBarrierAnd fn q => Sys2Proof.Machine.execPacketBarrierAnd fn q s
  | .packetSignal fn q => Sys2Proof.Machine.execPacketSignal fn q s
  | .barrierAndComplete fn q => Sys2Proof.Machine.execBarrierAndComplete fn q s
  | .foremanError => Sys2Proof.Machine.execForemanError s
  | .journalValidated => Sys2Proof.Machine.execJournalValidated s
  | .networkTriggeredLaunch part tag payload => Sys2Proof.Machine.execNetworkTriggeredLaunch part tag payload s
  | .graphNodeFinish team node => Sys2Proof.Machine.execGraphNodeFinish team node s
  | .handleArrival part tag h => Sys2Proof.Machine.execHandleArrival part tag h s
  | .hsendOutcome xfer accepted => Sys2Proof.Machine.execHsendOutcome xfer accepted s
  | .hsendTimeout xfer => Sys2Proof.Machine.execHsendTimeout xfer s
  | .peerLost part dev => Sys2Proof.Machine.execPeerLost part dev s
  | .collectiveResult fn entry elem value sat => Sys2Proof.Machine.execCollectiveResult fn entry elem value sat s
  | .workRequestStart fn ring => Sys2Proof.Machine.execWorkRequestStart fn ring s
  | .workRequestComplete req how => Sys2Proof.Machine.execWorkRequestComplete req how s
  | .powerEpoch measured fixed => Sys2Proof.Machine.execPowerEpoch measured fixed s
  | .canaryAlarm core => Sys2Proof.Machine.execCanaryAlarm core s
  | .canaryStretchEnd core => Sys2Proof.Machine.execCanaryStretchEnd core s
  | .halfIssueEnd core => Sys2Proof.Machine.execHalfIssueEnd core s
  | .l1MarkClear core => Sys2Proof.Machine.execL1MarkClear core s
  | .l2WayEpoch slice => Sys2Proof.Machine.execL2WayEpoch slice s
  | .migrationRecallDone fn page => Sys2Proof.Machine.execMigrationRecallDone fn page s
  | .scrub v => Sys2Proof.Machine.execScrub v s
  | .scrubFrameDone => Sys2Proof.Machine.execScrubFrameDone s
  | .keyLoad v => Sys2Proof.Machine.execKeyLoad v s
  | .keyLoadDone => Sys2Proof.Machine.execKeyLoadDone s
  | .queueEnable fn q v => Sys2Proof.Machine.execQueueEnable fn q v s
  | .queueDisable fn q v => Sys2Proof.Machine.execQueueDisable fn q v s
  | .queueErrClear fn q v => Sys2Proof.Machine.execQueueErrClear fn q v s
  | .qmapWrite fn q v => Sys2Proof.Machine.execQmapWrite fn q v s
  | .partEnable slice v => Sys2Proof.Machine.execPartEnable slice v s
  | .partDisable slice v => Sys2Proof.Machine.execPartDisable slice v s
  | .vfEnable f v => Sys2Proof.Machine.execVfEnable f v s
  | .vfDisable f v => Sys2Proof.Machine.execVfDisable f v s
  | .vfL2Write f v => Sys2Proof.Machine.execVfL2Write f v s
  | .vfBwWrite f v => Sys2Proof.Machine.execVfBwWrite f v s
  | .engOwnWrite e v => Sys2Proof.Machine.execEngOwnWrite e v s
  | .pwrCtlWrite v => Sys2Proof.Machine.execPwrCtlWrite v s
  | .collApEnable fn e v => Sys2Proof.Machine.execCollApEnable fn e v s
  | .wqRingEnable fn r v => Sys2Proof.Machine.execWqRingEnable fn r v s
  | .ntlCtlWrite fn e v => Sys2Proof.Machine.execNtlCtlWrite fn e v s
  | .decliaEnable slice v answers => Sys2Proof.Machine.execDecliaEnable slice v answers s
  | .registerWrite fn off v => Sys2Proof.Machine.execRegisterWrite fn off v s
  | .hostMemRead pa n => Sys2Proof.Machine.execHostMemRead pa n s
  | .hostMemWrite pa data => Sys2Proof.Machine.execHostMemWrite pa data s
  | .getVersion f => Sys2Proof.Machine.execGetVersion f s
  | .getCapabilities f => Sys2Proof.Machine.execGetCapabilities f s
  | .lockInterface f session => Sys2Proof.Machine.execLockInterface f session s
  | .startInterface f => Sys2Proof.Machine.execStartInterface f s
  | .stopInterface f => Sys2Proof.Machine.execStopInterface f s
  | .getDeviceInterfaceReport f => Sys2Proof.Machine.execGetDeviceInterfaceReport f s
  | .getDeviceInterfaceState f => Sys2Proof.Machine.execGetDeviceInterfaceState f s
  | .sessionExpiry session => Sys2Proof.Machine.execSessionExpiry session s
  | .devReset v => Sys2Proof.Machine.execDevReset v s
  | .functionLevelReset f => Sys2Proof.Machine.execFunctionLevelReset f s
  | .deviceStart => Sys2Proof.Machine.execDeviceStart s
  | .startStageDone => Sys2Proof.Machine.execStartStageDone s
  | .startStageTimeout => Sys2Proof.Machine.execStartStageTimeout s
  | .lampImageReplace img => Sys2Proof.Machine.execLampImageReplace img s
  | .correctableError => Sys2Proof.Machine.execCorrectableError s
  | .uncorrectableError site => Sys2Proof.Machine.execUncorrectableError site s
  | .operandParityError team thread => Sys2Proof.Machine.execOperandParityError team thread s
  | .unassignedOpcode cls word => Sys2Proof.Machine.execUnassignedOpcode cls word s
  | .foremanTest pass => Sys2Proof.Machine.execForemanTest pass s
  | .peerReturn part dev => Sys2Proof.Machine.execPeerReturn part dev s
  | .remoteAccessArrival part acc => Sys2Proof.Machine.execRemoteAccessArrival part acc s
  | .rankAcknowledgement xfer code data => Sys2Proof.Machine.execRankAcknowledgement xfer code data s

end Sys2Proof.Machine
end

