-- ==== Sys2Proof/Machine/Turns.lean ====
section
/-! DEFINITION. The order in which the device's agents move where the agenda names none (log 2), and the next turn. -/

namespace Sys2Proof.Machine

/-- The first team, in the order of dispatch, that NIGHT teams can be evicted for: a DUSK team past its grace, or a team of an
admitted NOON grid that found none that could be saved (R189, R192). -/
def State.graceDue (s : State) (part : Nat) : Option Cand :=
  let es := s.teams.filter (fun x => s.evictable x && (s.gridOf x).part == part)
  if es.isEmpty then none
  else (sortBy candBefore (s.candidates part s.prioOf)).find? (fun c =>
    (s.pastGrace part c || c.cls == 2) && (s.planOne ⟨[], [], s.residents, es⟩ (c.uid.getD s.fresh) c.g).isSome)

/-- A release wave of the core is due (R281). -/
def State.waveDue (s : State) (k : Nat) : Bool := (s.core k).waves.any (fun w => decide (w.due ≤ s.cycNow k))
/-- Picoseconds to the end of the microsecond, where the next power epoch begins (R279). -/
def State.toEpoch (s : State) : Nat := 1000000 - (s.sched.now - s.sched.startAt) % 1000000
/-- Picoseconds up to a moment at which something falls due. -/
def State.upTo (s : State) (t : Nat) : Nat := Nat.max 1 (t - s.sched.now)
/-- Picoseconds to what falls due however quiet the device is: a power epoch, the next reading of waits and ring headers (R44, R197), the
moves of the L2 ways (R269). -/
def State.toEdge (s : State) : Nat :=
  Nat.min s.toEpoch (Nat.min (s.upTo (s.work.polled + 1000000)) (s.upTo (s.sched.startAt + 250 + 100000000 * (s.l2Epochs + 1))))
/-- The time to which nothing but a batch moves by itself: the end of the cycle where a barrier is to be tested, the next release
wave, deadline, tick or edge (R178, R222, R224, R245, R281). -/
def State.quietSpan (s : State) : Nat :=
  let waves := s.busyCores.flatMap (fun k => (s.core k).waves.map (fun w => Nat.max 250 (250 * (w.due - s.cycNow k))))
  let tests := if s.work.tests.isEmpty then [] else [250 - s.sched.now % 250]
  let saves := s.work.saves.map (fun x => s.upTo (x.start + 4 * s.saveTime x.part))
  let sends := s.pairs.transfers.map (fun x => s.upTo x.deadline)
  let turns := (s.work.turnLeft.map (·.2)).filter (fun n => decide (0 < n))
  (waves ++ tests ++ saves ++ sends ++ turns).foldl Nat.min s.toEdge

/-- What happens whenever time has passed: the busy cores' cycles too, and held batches try again. -/
def State.passed (s : State) : State := (s.busyCores.foldl State.catchUp s).rouse

/-- Of the busy cores' next issues the one whose cycle comes first, the lower core's on a tie, with its time; none where something
else falls due before it, or where it comes after the next `span` picoseconds. -/
def State.firstIssue (s : State) (span : Nat) : Option (Nat × Act) :=
  let all := s.busyCores.filterMap (fun k => (s.nextIssueOf k).map (fun e => (s.issueTime e.1 e.2, e)))
  match all with
  | [] => none
  | x :: xs =>
    let best := xs.foldl (fun (a : Nat × (Nat × Nat)) y => if y.1 < a.1 then y else a) x
    if best.1 < s.sched.now + Nat.min span s.quietSpan then some (best.1, .batch best.2.1 best.2.2) else none

/-- An epoch whose turn it is: of the module's power (R17, R279), then of the L2 ways, slice by slice (R269). They wait for no
agenda. -/
def State.epochDue (s : State) : Option Instr :=
  if s.powerDue then some (.powerEpoch (Config.modulePower s.sched.powered) (Config.fixedPower s.sched.powered))
  else if s.running then ((List.range 12).find? s.l2Due).map (fun x => .l2WayEpoch x)
  else none

/-- What is due now, at a moment that the spec fixes (R222, R224, R226, R245, R281, R283). -/
def State.dueAct (s : State) : Option Act :=
  if s.boot.resetDue || s.lamp || !s.running then none
  else
    firstSome
      [ (s.work.cores.find? (fun e => e.2.alarm)).map (fun e => .event (.canaryAlarm e.1)),
        (s.work.cores.find? (fun e => e.2.stretch == 1)).map (fun e => .event (.canaryStretchEnd e.1)),
        (s.work.cores.find? (fun e => e.2.half == 1)).map (fun e => .event (.halfIssueEnd e.1)),
        (s.busyCores.find? (fun k => s.waveDue k)).map (fun k => .event (.barrierWave k)),
        firstSome (s.teams.map (fun t => ((t.indices t.waitedOut).head?).map (fun i => .event (.waitLimitExpiry t.uid i)))),
        (s.teams.find? (fun t => t.phase == .live && t.wdogDue && t.threads.any (fun x => x.counts && !x.bitten))).map
          (fun t => .event (.watchdogExpiry t.uid)),
        (s.pairs.transfers.find? (fun x => decide (x.deadline ≤ s.sched.now))).map (fun x => .event (.hsendTimeout x.id)),
        (s.work.saves.find? (fun x => decide (x.start + 4 * s.saveTime x.part ≤ s.sched.now))).map (fun x => .event (.saveDeadlineExpiry x.part)),
        ((List.range 12).find? s.tickDue).map (fun p => .event (.switchTick p)) ]

/-- A held record is its ring's first, and can be written (R44). -/
def State.recReady (s : State) (r : Rec) : Bool :=
  s.queues.held.find? (fun x => x.fn == r.fn && x.ring == r.ring) == some r && (s.writeRec r).isSome && !(s.recsHeld && r.service.isNone)

/-- What the device does next by itself, in a fixed order; none where only time passes. -/
def State.nextAct (s : State) : Option Act :=
  if s.boot.resetDue then some (.event .deviceStart)
  else if s.lamp then none
  else if !s.running then some (.event .startStageDone)
  else
    firstSome
      [ s.dueAct,
        (s.mem.moves.find? (fun x => !x.recalled)).map (fun x => .event (.migrationRecallDone x.fn x.page)),
        if s.mem.scrub.isSome then some (.event .scrubFrameDone) else none,
        if s.mem.keyLoad.isSome then some (.event .keyLoadDone) else none,
        if s.recsHeld && !bit s.ctl.schedStat.toNat 31 then some (.event .journalValidated) else none,
        (s.mem.flights.find? s.mem.flightFree).map (fun f => .event (.registrationAccepted f.core)),
        firstSome (s.teams.map (fun t => (t.toks.find? (fun k => decide (s.reserved t k < k.regs))).map
          (fun k => .event (.longLatencyWriteDone t.uid k.id)))),
        firstSome (s.teams.map (fun t => (t.toks.find? (fun k => decide (0 < k.mems) && s.mem.coreFree t.core)).map
          (fun k => .event (.writePerformed t.uid k.id)))),
        firstSome (s.teams.map (fun t => if s.gemmReady t then some (.event (.tgemmPhase t.uid)) else none)),
        (s.eng.queues.find? (fun q => (s.engineStep q.1).isSome)).map (fun q => .event (.copyLine q.1)),
        firstSome (s.teams.map (fun t => (s.walkerNext t).map (fun n => .event (.graphNodeFinish t.uid n)))),
        firstSome (s.teams.map (fun t => if t.phase = .live then
            ((t.indices (fun x => x.st == .trapped && !x.trap.posted)).find? (fun i => !s.frameBusy t i && !s.trapBehind t i)).map
              (fun i => .event (.trapRecordPost t.uid i))
          else none)),
        (s.queues.held.find? s.recReady).map (fun r => .event (.recordWrite r.fn r.ring)),
        firstSome ((s.net.requests.filter (fun x => (s.consStop x).isNone)).map (fun x => x.outcome.map (fun o => .event (.workRequestComplete x.id o)))),
        firstSome ((sortNat (s.net.fired.map (·.1) ++ s.ctl.wqRing.map (·.1 / 64))).map (fun f =>
          if s.ctl.fnOn f then (s.nextVisit f).map (fun r => .event (.workRequestStart f r)) else none)),
        (s.queues.packets.find? (fun p => p.kind == 3 && s.andDone p && !s.recsHeld)).map (fun p => .event (.barrierAndComplete p.fn p.q)),
        firstSome (s.work.saves.map (fun x => (x.left.find? (s.shareReady x)).map (fun d => .event (.saveShareComplete x.part d)))),
        (s.grids.find? (fun g => !g.retired && decide (g.count ≤ g.gone) && s.mem.gridFree g.uid)).map (fun g => .event (.gridRetire g.uid)),
        ((List.range 12).find? (fun p => s.ctl.partOn p && s.canDispatch p)).map (fun p => .event (.teamPlacement p)),
        firstSome ((List.range 12).map (fun p => if s.ctl.partOn p then
            (s.graceDue p).map (fun c => .event (.duskGraceExpiry c.g.uid c.lin)) else none)),
        (s.teams.find? s.selectable).map (fun t => .event (.selection t.uid)),
        firstSome (s.queues.slots.map (fun e => if s.startWins (e.2 / 64) (e.2 % 64) then s.packetAct (e.2 / 64) (e.2 % 64) else none)),
        (s.firstIssue s.quietSpan).map (·.2) ]

/-- The next turn: an access to be replayed after a move (R137), an epoch, the agenda's first, or the device's own choice (log 2).
The time up to an entry of the agenda passes in spans in which nothing falls due; what falls due, and an instruction whose issue
cycle comes (R277), goes ahead of the rest. -/
def State.nextTurn (s : State) : Option Turn × State :=
  match s.mem.replays with
  | r :: rest => (some ⟨0, r⟩, s.setMem { s.mem with replays := rest })
  | [] =>
    match s.epochDue with
    | some i => (some ⟨0, .event i⟩, s)
    | none =>
      match s.sched.agenda with
      | t :: rest =>
        let later (n : Nat) : State := s.setSched { s.sched with agenda := ⟨t.dt - n, t.what⟩ :: rest }
        if t.dt = 0 then
          let s1 := s.setSched { s.sched with agenda := rest }
          match t.what with
          | .own => (s1.nextAct.map (fun a => ⟨0, a⟩), s1)
          | _ => (some t, s1)
        else match s.dueAct with
          | some a => (some ⟨0, a⟩, s)
          | none => match s.firstIssue t.dt with
            | some (at_, a) => (some ⟨0, a⟩, later (at_ - s.sched.now))
            | none =>
              let n := Nat.min t.dt s.quietSpan
              (some ⟨n, .own⟩, later n)
      | [] => (s.nextAct.map (fun a => ⟨0, a⟩), s)

end Sys2Proof.Machine
end

