-- ==== Sys2Proof/Machine/Step.lean ====
section
/-! DEFINITION. One step: the turn that comes next, a batch's next instruction or an event, with the time it takes and
what the device does by itself after it. And the placing of one instruction for the host to try. -/

namespace Sys2Proof.Machine

/-- The end of a step: what the device does by itself, and no batch issues any more. -/
def State.finish (s : State) : State := s.takeMessages.settle.markRead.clearCur

/-- An outcome with its next state changed. -/
def andThen (o : Host.Outcome State Fault Refusal) (f : State → State) : Host.Outcome State Fault Refusal :=
  match o with
  | .next s => .next (f s)
  | .fault r => .fault r
  | .refused r => .refused r

/-- The issuing batch performs the instruction word it stands at: its core's clock reaches an issue cycle, the word is
decoded and executed, and the cycles it occupies pass. -/
def runWord (s : State) (c : Ctx) (cls : Cls) (w : W64) : Host.Outcome State Fault Refusal :=
  let s1 := s.beforeIssue c cls
  let c1 := (s1.ctx?).getD c
  match decode cls w with
  | .ok i => andThen (exec i s1) (fun s2 => (s2.afterIssue c1 cls (some i)).finish)
  | .error _ => .next ((s1.badWord c1 cls).afterIssue c1 cls none).finish

/-- Held batches try again at every 64th turn of a batch too: another batch may have made room. -/
def State.stir (s : State) : State := if s.sched.tick % 64 = 0 then s.rouse else s

/-- A batch's turn: its clause starts, or its next word is performed. A batch that is not there lets the turn pass. -/
def runBatch (s : State) (u b : Nat) : Host.Outcome State Fault Refusal :=
  let s1 := s.setCur u b
  match s1.ctx? with
  | none => .next s1.finish
  | some c =>
    match c.batch.word with
    | some (cls, w) => andThen (runWord s1 c cls w) State.stir
    | none => andThen (exec .clauseStart ((s1.standBy c.team.core).atCore c.team.core)) (fun t => t.finish.stir)

/-- The row is an event of the device: no instruction of a program, and no batch's start of a clause. -/
def isEvent (i : Instr) : Bool :=
  match i with
  | .clauseStart => false
  | _ => i.cls.isNone

/-- An event's turn; batches that were held try again after it. What is no event lets the turn pass. -/
def runEvent (s : State) (i : Instr) : Host.Outcome State Fault Refusal :=
  if isEvent i then andThen (exec i s) (fun t => t.rouse.finish) else .next s.finish

/-- One step of the device. -/
def step (s : State) : Host.Outcome State Fault Refusal :=
  let n := s.nextTurn
  match n.1 with
  | none => .next (n.2.elapseTo (n.2.sched.now + n.2.quietSpan)).passed.finish
  | some t =>
    let s1 := n.2.elapseTo (n.2.sched.now + t.dt)
    match t.what with
    | .batch u b => runBatch s1 u b
    | .event i => runEvent s1 i
    | .own => .next s1.passed.finish

/-- The grid of the team that `withFetchWord` places. -/
def trialGrid : Grid :=
  { Grid.blank with uid := 1, kmode := true, threads := 32, cls := 1, gx := 1, gy := 1, gz := 1, pool := 0x00040105, blocks := 1, doff := 128
                    nextLin := 1 }

/-- Its team: placed on core 0, its one batch of 32 threads standing at the only word of its one clause. -/
def trialTeam (header word : W64) : Team :=
  let b : Batch :=
    { id := 1, threads := List.range 32, block := 0, clause := 0, instr := 0, addr := 0, buf := some ⟨header, [word]⟩
      passed := false, tok := 0, flags := [], acq := [], done := [], held := false, vslice := none, stepped := false, heirs := [], sig := none, full := false, charged := false }
  { mkTeam 1 trialGrid 0 1 with
    phase := .live, placed := true, started := true, sel := some ⟨0, [1], 0, 0⟩, batches := [b]
    threads := List.replicate 32 { Thread.blank with st := .inBatch } }

/-- The state with one instruction where the next step finds it. A batch fetches its clause whole at the clause's start
(R326), so the place is the fetched clause of a batch: the first 64 bits of `w` are its header, the next 64 its one
word. A running device, a partition, a grid and a placed team come with it, and the turn is the batch's (log 21). -/
def State.withFetchWord (s : State) (_nbits w : Nat) : State :=
  { s with
    sched := { s.sched with agenda := [⟨0, .batch 1 1⟩], cur := none }
    ctl := { s.ctl with bootReason := 5, partCtl := [(0, 0x51)] }
    work := { s.work with
      grids := [(1, some trialGrid)]
      teams := [(1, some (trialTeam (BitVec.ofNat 64 w) (BitVec.ofNat 64 (w / 2 ^ 64))))] } }

end Sys2Proof.Machine
end

