-- ==== Sys2Proof/Laws/Ints.lean ====
section
/-! SUPPORT. The integer results as operations on bit vectors (R64, R65, R378): what each raw function of Flags.lean
computes. -/

namespace Sys2Proof

/-- A type's operand as bits. -/
abbrev Ty.vec (ty : Ty) (x : Nat) : BitVec ty.bits := BitVec.ofNat ty.bits x

theorem Ty.bits_pos (ty : Ty) : 0 < ty.bits := by cases ty <;> decide

end Sys2Proof

namespace Sys2Proof.Machine

theorem two_pow_bits (ty : Ty) : 2 ^ ty.bits = 2 * 2 ^ (ty.bits - 1) := by
  rw [← Nat.pow_succ', Nat.succ_eq_add_one, Nat.sub_add_cancel ty.bits_pos]

/-- The signed reading of the low bits. -/
theorem toInt_vec (ty : Ty) (x : Nat) :
    (ty.vec x).toInt = if 2 ^ (ty.bits - 1) ≤ x % 2 ^ ty.bits then ((x % 2 ^ ty.bits : Nat) : Int) - 2 ^ ty.bits else ((x % 2 ^ ty.bits : Nat) : Int) := by
  have e := two_pow_bits ty
  rw [BitVec.toInt, BitVec.toNat_ofNat]
  by_cases h : 2 ^ (ty.bits - 1) ≤ x % 2 ^ ty.bits
  · rw [if_pos h, if_neg (by omega)]; push_cast; rfl
  · rw [if_neg h, if_pos (by omega)]
theorem intVal_signed {ty : Ty} (h : ty.isI = true) (x : Nat) : intVal ty x = (ty.vec x).toInt := by
  rw [toInt_vec]; simp [intVal, h]
theorem intVal_unsigned {ty : Ty} (h : ty.isI = false) (x : Nat) : intVal ty x = ((ty.vec x).toNat : Int) := by
  simp [intVal, h, Ty.vec]
theorem lowBits_eq (n : Nat) (v : Int) : lowBits n v = (BitVec.ofInt n v).toNat := by
  simp [lowBits, BitVec.toNat_ofInt]
theorem lowBits_toInt {n : Nat} (v : BitVec n) : lowBits n v.toInt = v.toNat := by rw [lowBits_eq, BitVec.ofInt_toInt]
theorem lowBits_toNat {n : Nat} (v : BitVec n) : lowBits n (v.toNat : Int) = v.toNat := by
  rw [lowBits_eq, BitVec.ofInt_natCast, BitVec.ofNat_toNat, BitVec.setWidth_eq]

theorem ofInt_intVal (ty : Ty) (x : Nat) : BitVec.ofInt ty.bits (intVal ty x) = ty.vec x := by
  cases h : ty.isI
  · rw [intVal_unsigned h, BitVec.ofInt_natCast, BitVec.ofNat_toNat, BitVec.setWidth_eq]
  · rw [intVal_signed h, BitVec.ofInt_toInt]

theorem addRaw_eq (ty : Ty) (x y : Nat) : addRaw ty x y = (ty.vec x + ty.vec y).toNat := by
  rw [addRaw, arith, lowBits_eq, BitVec.ofInt_add, ofInt_intVal, ofInt_intVal]
theorem subRaw_eq (ty : Ty) (x y : Nat) : subRaw ty x y = (ty.vec x - ty.vec y).toNat := by
  rw [subRaw, arith, lowBits_eq, Int.sub_eq_add_neg, BitVec.ofInt_add, BitVec.ofInt_neg, ofInt_intVal, ofInt_intVal,
    BitVec.sub_eq_add_neg]
theorem mulRaw_eq (ty : Ty) (x y : Nat) : mulRaw ty x y = (ty.vec x * ty.vec y).toNat := by
  rw [mulRaw, arith, lowBits_eq, BitVec.ofInt_mul, ofInt_intVal, ofInt_intVal]
theorem madRaw_eq (ty : Ty) (x y z : Nat) : madRaw ty x y z = (ty.vec x * ty.vec y + ty.vec z).toNat := by
  rw [madRaw, lowBits_eq, BitVec.ofInt_add, BitVec.ofInt_mul, ofInt_intVal, ofInt_intVal, ofInt_intVal]
theorem negRaw_eq (ty : Ty) (x : Nat) : negRaw ty x = (-ty.vec x).toNat := by
  rw [negRaw, lowBits_eq, BitVec.ofInt_neg, ofInt_intVal]
theorem absRaw_signed {ty : Ty} (h : ty.isI = true) (x : Nat) : absRaw ty x = (ty.vec x).abs.toNat := by
  rw [absRaw, lowBits_eq, BitVec.abs_eq, intVal_signed h]
  split
  · rename_i hm
    have : ((ty.vec x).toInt.natAbs : Int) = -(ty.vec x).toInt := by
      have := BitVec.toInt_neg_of_msb_true hm; omega
    rw [this, BitVec.ofInt_neg, BitVec.ofInt_toInt]
  · rename_i hm
    have : ((ty.vec x).toInt.natAbs : Int) = (ty.vec x).toInt := by
      have := BitVec.toInt_nonneg_of_msb_false (by simpa using hm); omega
    rw [this, BitVec.ofInt_toInt]
theorem absRaw_unsigned {ty : Ty} (h : ty.isI = false) (x : Nat) : absRaw ty x = (ty.vec x).toNat := by
  rw [absRaw, intVal_unsigned h, Int.natAbs_natCast, lowBits_toNat]

/-- The high half of a product computed modulo the square of the word's size. -/
theorem high_half (w : Nat) (p : Int) :
    lowBits w (p / 2 ^ w) = (BitVec.extractLsb' w w (BitVec.ofInt (w + w) p)).toNat := by
  rw [lowBits, BitVec.extractLsb'_toNat, BitVec.toNat_ofInt, Nat.shiftRight_eq_div_pow]
  have hp : (0 : Int) < 2 ^ w := by positivity
  have e : (((2 : Nat) ^ (w + w) : Nat) : Int) = 2 ^ w * 2 ^ w := by push_cast; exact pow_add ..
  rw [e]
  apply Int.ofNat.inj
  show (((p / 2 ^ w % 2 ^ w).toNat : Nat) : Int) = (((p % (2 ^ w * 2 ^ w)).toNat / 2 ^ w % 2 ^ w : Nat) : Int)
  push_cast
  rw [Int.toNat_of_nonneg (Int.emod_nonneg _ (ne_of_gt hp)), Int.toNat_of_nonneg (Int.emod_nonneg _ (by positivity)),
    Int.emod_def p, show p - 2 ^ w * 2 ^ w * (p / (2 ^ w * 2 ^ w)) = p + 2 ^ w * (-(2 ^ w * (p / (2 ^ w * 2 ^ w)))) by ring,
    Int.add_mul_ediv_left _ _ (ne_of_gt hp), ← mul_neg, Int.add_mul_emod_self_left]

theorem mulhRaw_signed {ty : Ty} (h : ty.isI = true) (x y : Nat) :
    mulhRaw ty x y = (BitVec.extractLsb' ty.bits ty.bits
      ((ty.vec x).signExtend (ty.bits + ty.bits) * (ty.vec y).signExtend (ty.bits + ty.bits))).toNat := by
  have hv : ∀ v : BitVec ty.bits, v.signExtend (ty.bits + ty.bits) = BitVec.ofInt _ v.toInt := fun v => rfl
  rw [mulhRaw, arith, mulHigh, intVal_signed h, intVal_signed h, hv, hv, ← BitVec.ofInt_mul, high_half]
theorem mulhRaw_unsigned {ty : Ty} (h : ty.isI = false) (x y : Nat) :
    mulhRaw ty x y = (BitVec.extractLsb' ty.bits ty.bits
      ((ty.vec x).setWidth (ty.bits + ty.bits) * (ty.vec y).setWidth (ty.bits + ty.bits))).toNat := by
  have hv : ∀ v : BitVec ty.bits, v.setWidth (ty.bits + ty.bits) = BitVec.ofInt _ (v.toNat : Int) := fun v => by
    rw [BitVec.ofInt_natCast, BitVec.ofNat_toNat]
  rw [mulhRaw, arith, mulHigh, intVal_unsigned h, intVal_unsigned h, hv, hv, ← BitVec.ofInt_mul, high_half]

theorem vec_zero_iff (ty : Ty) (x : Nat) : intVal ty x = 0 ↔ ty.vec x = 0 := by
  cases h : ty.isI
  · rw [intVal_unsigned h]
    constructor
    · intro e; apply BitVec.eq_of_toNat_eq; exact_mod_cast e
    · intro e; rw [e]; simp
  · rw [intVal_signed h]
    exact ⟨fun e => BitVec.eq_of_toInt_eq (by simpa using e), fun e => by rw [e]; simp⟩

theorem divRaw_signed {ty : Ty} (h : ty.isI = true) (x y : Nat) :
    divRaw ty x y = (if ty.vec y = 0 then (if (ty.vec x).slt 0 then 1 else BitVec.allOnes _) else (ty.vec x).sdiv (ty.vec y)).toNat := by
  rw [divRaw, arith, divInt]
  by_cases hy : ty.vec y = 0
  · rw [if_pos ((vec_zero_iff ty y).mpr hy), if_pos hy, if_pos h, intVal_signed h]
    have e : ((ty.vec x).slt 0 = true) = ((ty.vec x).toInt < 0) := by rw [BitVec.slt_eq_decide]; simp
    simp only [e]
    split
    · rw [lowBits_eq]; rfl
    · rw [lowBits_eq, ← BitVec.neg_one_eq_allOnes, BitVec.ofInt_neg]; rfl
  · rw [if_neg (fun e => hy ((vec_zero_iff ty y).mp e)), if_neg hy, intVal_signed h, intVal_signed h]
    rw [lowBits_eq]
    congr 1
    rw [← BitVec.toInt_inj, BitVec.toInt_ofInt, BitVec.toInt_sdiv]
theorem divRaw_unsigned {ty : Ty} (h : ty.isI = false) (x y : Nat) :
    divRaw ty x y = (if ty.vec y = 0 then BitVec.allOnes _ else (ty.vec x).udiv (ty.vec y)).toNat := by
  rw [divRaw, arith, divInt]
  by_cases hy : ty.vec y = 0
  · rw [if_pos ((vec_zero_iff ty y).mpr hy), if_pos hy, if_neg (by simp [h]), lowBits_eq]
    congr 1
    apply BitVec.eq_of_toNat_eq
    have : (0 : Int) < 2 ^ ty.bits := by positivity
    rw [BitVec.toNat_ofInt, BitVec.toNat_allOnes, Int.emod_eq_of_lt (by omega) (by push_cast; omega)]
    have e : ((2 ^ ty.bits - 1 : Nat) : Int) = 2 ^ ty.bits - 1 := by
      have := Nat.two_pow_pos ty.bits; push_cast [Nat.cast_sub this]; rfl
    rw [← e]; rfl
  · rw [if_neg (fun e => hy ((vec_zero_iff ty y).mp e)), if_neg hy, intVal_unsigned h, intVal_unsigned h,
      show Int.tdiv ((ty.vec x).toNat : Int) ((ty.vec y).toNat : Int) = (((ty.vec x).toNat / (ty.vec y).toNat : Nat) : Int) from rfl, lowBits_eq, BitVec.ofInt_natCast, BitVec.toNat_ofNat]
    rw [show (ty.vec x).udiv (ty.vec y) = ty.vec x / ty.vec y from rfl, BitVec.toNat_udiv]
    exact Nat.mod_eq_of_lt (lt_of_le_of_lt (Nat.div_le_self _ _) (ty.vec x).isLt)
theorem remRaw_signed {ty : Ty} (h : ty.isI = true) (x y : Nat) :
    remRaw ty x y = (if ty.vec y = 0 then ty.vec x else (ty.vec x).srem (ty.vec y)).toNat := by
  rw [remRaw, arith, remInt]
  by_cases hy : ty.vec y = 0
  · rw [if_pos ((vec_zero_iff ty y).mpr hy), if_pos hy, intVal_signed h, lowBits_toInt]
  · rw [if_neg (fun e => hy ((vec_zero_iff ty y).mp e)), if_neg hy, intVal_signed h, intVal_signed h, ← BitVec.toInt_srem,
      lowBits_toInt]
theorem remRaw_unsigned {ty : Ty} (h : ty.isI = false) (x y : Nat) :
    remRaw ty x y = (if ty.vec y = 0 then ty.vec x else (ty.vec x).umod (ty.vec y)).toNat := by
  rw [remRaw, arith, remInt]
  by_cases hy : ty.vec y = 0
  · rw [if_pos ((vec_zero_iff ty y).mpr hy), if_pos hy, intVal_unsigned h, lowBits_toNat]
  · rw [if_neg (fun e => hy ((vec_zero_iff ty y).mp e)), if_neg hy, intVal_unsigned h, intVal_unsigned h,
      show Int.tmod ((ty.vec x).toNat : Int) ((ty.vec y).toNat : Int) = (((ty.vec x).toNat % (ty.vec y).toNat : Nat) : Int) from rfl, lowBits_eq, BitVec.ofInt_natCast, BitVec.toNat_ofNat]
    rw [show (ty.vec x).umod (ty.vec y) = ty.vec x % ty.vec y from rfl, BitVec.toNat_umod]
    exact Nat.mod_eq_of_lt (lt_of_le_of_lt (Nat.mod_le _ _) (ty.vec x).isLt)

theorem lowBits_intVal (ty : Ty) (x : Nat) : lowBits ty.bits (intVal ty x) = (ty.vec x).toNat := by
  rw [lowBits_eq, ofInt_intVal]
theorem minRaw_signed {ty : Ty} (h : ty.isI = true) (x y : Nat) :
    minRaw ty x y = (if (ty.vec x).sle (ty.vec y) then ty.vec x else ty.vec y).toNat := by
  rw [minRaw, arith]
  have e : ((ty.vec x).sle (ty.vec y) = true) = (intVal ty x ≤ intVal ty y) := by
    rw [BitVec.sle_eq_decide, intVal_signed h, intVal_signed h]; simp
  simp only [e]
  split <;> exact lowBits_intVal ..
theorem minRaw_unsigned {ty : Ty} (h : ty.isI = false) (x y : Nat) :
    minRaw ty x y = (if (ty.vec x).ule (ty.vec y) then ty.vec x else ty.vec y).toNat := by
  rw [minRaw, arith]
  have e : ((ty.vec x).ule (ty.vec y) = true) = (intVal ty x ≤ intVal ty y) := by
    rw [BitVec.ule_eq_decide, intVal_unsigned h, intVal_unsigned h, decide_eq_true_eq, Int.ofNat_le]
  simp only [e]
  split <;> exact lowBits_intVal ..
theorem maxRaw_signed {ty : Ty} (h : ty.isI = true) (x y : Nat) :
    maxRaw ty x y = (if (ty.vec x).sle (ty.vec y) then ty.vec y else ty.vec x).toNat := by
  rw [maxRaw, arith]
  have e : ((ty.vec x).sle (ty.vec y) = true) = (intVal ty x ≤ intVal ty y) := by
    rw [BitVec.sle_eq_decide, intVal_signed h, intVal_signed h]; simp
  simp only [e]
  split <;> exact lowBits_intVal ..
theorem maxRaw_unsigned {ty : Ty} (h : ty.isI = false) (x y : Nat) :
    maxRaw ty x y = (if (ty.vec x).ule (ty.vec y) then ty.vec y else ty.vec x).toNat := by
  rw [maxRaw, arith]
  have e : ((ty.vec x).ule (ty.vec y) = true) = (intVal ty x ≤ intVal ty y) := by
    rw [BitVec.ule_eq_decide, intVal_unsigned h, intVal_unsigned h, decide_eq_true_eq, Int.ofNat_le]
  simp only [e]
  split <;> exact lowBits_intVal ..

theorem shlRaw_eq (ty : Ty) (x n : Nat) : shlRaw ty x n = (ty.vec x <<< n).toNat := by
  rw [shlRaw, BitVec.toNat_shiftLeft, Nat.shiftLeft_eq, BitVec.toNat_ofNat]
  split
  · rename_i h
    rw [Nat.mod_mul_mod, eq_comm]
    exact Nat.mod_eq_zero_of_dvd (Dvd.dvd.mul_left (Nat.pow_dvd_pow 2 h) x)
  · rw [Nat.mod_mul_mod]
theorem shrRaw_eq (ty : Ty) (x n : Nat) : shrRaw ty x n = (ty.vec x >>> n).toNat := by
  rw [shrRaw, BitVec.toNat_ushiftRight, Nat.shiftRight_eq_div_pow, BitVec.toNat_ofNat]
  split
  · rename_i h
    rw [eq_comm]
    exact Nat.div_eq_of_lt (lt_of_lt_of_le (Nat.mod_lt _ (by positivity)) (Nat.pow_le_pow_right (by decide) h))
  · rfl
theorem shaRaw_eq (ty : Ty) (x n : Nat) : shaRaw ty x n = ((ty.vec x).sshiftRight n).toNat := by
  rw [shaRaw, ← toInt_vec]
  have e := two_pow_bits ty
  have hlt := (ty.vec x).isLt
  have hle := BitVec.toInt_lt (x := ty.vec x)
  have hge := BitVec.le_toInt (x := ty.vec x)
  rw [← BitVec.ofInt_toInt (x := (ty.vec x).sshiftRight n), ← lowBits_eq, BitVec.toInt_sshiftRight, Int.shiftRight_eq_div_pow]
  congr 1
  split
  · rename_i h
    have hp : (2 : Int) ^ (ty.bits - 1) ≤ 2 ^ n := pow_le_pow_right₀ (by decide) (by omega)
    have hq : (0 : Int) < 2 ^ n := by positivity
    push_cast
    split
    · rename_i hv
      rw [eq_comm]
      generalize (ty.vec x).toInt = v at *
      rw [Int.ediv_eq_iff_of_pos hq]
      constructor <;> omega
    · rename_i hv
      exact (Int.ediv_eq_zero_of_lt (by omega) (by omega)).symm
  · push_cast; rfl
theorem notRaw_eq (ty : Ty) (x : Nat) : notRaw ty x = (~~~ty.vec x).toNat := by
  rw [notRaw, BitVec.toNat_not, BitVec.toNat_ofNat]
theorem andRaw_eq (ty : Ty) {x y : Nat} (h : x < 2 ^ ty.bits) (g : y < 2 ^ ty.bits) : andRaw x y = (ty.vec x &&& ty.vec y).toNat := by
  rw [andRaw, BitVec.toNat_and, BitVec.toNat_ofNat, BitVec.toNat_ofNat, Nat.mod_eq_of_lt h, Nat.mod_eq_of_lt g]
theorem orRaw_eq (ty : Ty) {x y : Nat} (h : x < 2 ^ ty.bits) (g : y < 2 ^ ty.bits) : orRaw x y = (ty.vec x ||| ty.vec y).toNat := by
  rw [orRaw, BitVec.toNat_or, BitVec.toNat_ofNat, BitVec.toNat_ofNat, Nat.mod_eq_of_lt h, Nat.mod_eq_of_lt g]
theorem xorRaw_eq (ty : Ty) {x y : Nat} (h : x < 2 ^ ty.bits) (g : y < 2 ^ ty.bits) : xorRaw x y = (ty.vec x ^^^ ty.vec y).toNat := by
  rw [xorRaw, BitVec.toNat_xor, BitVec.toNat_ofNat, BitVec.toNat_ofNat, Nat.mod_eq_of_lt h, Nat.mod_eq_of_lt g]

-- results in registers (R63, R390)

theorem ofNat_sext {n m : Nat} (hn : 0 < n) (hm : n ≤ m) (v : BitVec n) : BitVec.ofNat m (sext n m v.toNat) = v.signExtend m := by
  apply BitVec.eq_of_toNat_eq
  have hlt := v.isLt
  have e : 2 ^ n = 2 * 2 ^ (n - 1) := by rw [← Nat.pow_succ', Nat.succ_eq_add_one, Nat.sub_add_cancel hn]
  have hp : 2 ^ n ≤ 2 ^ m := Nat.pow_le_pow_right (by decide) hm
  rw [BitVec.toNat_ofNat, BitVec.toNat_signExtend, BitVec.toNat_setWidth, sext, if_neg (by omega), Nat.mod_eq_of_lt hlt,
    BitVec.msb_eq_decide]
  by_cases h : 2 ^ (n - 1) ≤ v.toNat
  · rw [if_pos h, if_pos (by simpa using h), Nat.mod_eq_of_lt (by omega), Nat.mod_eq_of_lt (by omega)]
  · rw [if_neg h, if_neg (by simpa using h), Nat.mod_eq_of_lt (by omega)]
    rfl

/-- A raw result extended to a register's width (R63). -/
theorem ofNat_widen {ty : Ty} (h : ty.isInt = true) {m : Nat} (hm : ty.bits ≤ m) (v : BitVec ty.bits) :
    BitVec.ofNat m (widen ty m v.toNat) = if ty.isI then v.signExtend m else v.setWidth m := by
  have h4 : (ty == .i4) = false := by cases ty <;> first | rfl | exact absurd h (by decide)
  cases hi : ty.isI
  · simp only [widen, hi, h4, Bool.or_false, Bool.false_eq_true, if_false, Nat.mod_eq_of_lt v.isLt, BitVec.ofNat_toNat]
  · simp only [widen, hi, Bool.true_or, if_true]
    exact ofNat_sext ty.bits_pos hm v

theorem sWiden_eq {ty : Ty} (h : ty.isInt = true) (v : BitVec ty.bits) :
    sWiden ty v.toNat = if ty.isI then v.signExtend 64 else v.setWidth 64 :=
  ofNat_widen h (by cases ty <;> decide) v

/-- A 32-bit scalar result keeps the upper half of S[a] (R390). -/
theorem sPlace_eq {ty : Ty} (h : ty.isInt = true) (a : W64) (v : BitVec ty.bits) :
    sPlace ty a v.toNat =
      if ty.bits = 32 then a.extractLsb' 32 32 ++ v.setWidth 32 else if ty.isI then v.signExtend 64 else v.setWidth 64 := by
  unfold sPlace
  split
  · apply BitVec.eq_of_toNat_eq
    have ha := a.isLt
    rw [BitVec.toNat_append, BitVec.toNat_ofNat, BitVec.extractLsb'_toNat, BitVec.toNat_setWidth, Nat.shiftRight_eq_div_pow,
      ← Nat.shiftLeft_add_eq_or_of_lt (Nat.mod_lt _ (by decide)), Nat.shiftLeft_eq]
    omega
  · exact sWiden_eq h v

end Sys2Proof.Machine
end

