-- ==== Sys2Proof/Laws/Store.lean ====
section
/-! SUPPORT. The laws of the sparse table: what a read finds after a write, and that a write keeps the canonical form. -/

namespace Sys2Proof

theorem Store.get_erase_self {α : Type} (d : α) (m : Store α) (k : Nat) : Store.get d (Store.erase m k) k = d := by
  induction m with
  | nil => rfl
  | cons e m ih =>
    obtain ⟨j, v⟩ := e
    by_cases h : j = k <;> simp [Store.erase, Store.get, h, ih]

theorem Store.get_erase_ne {α : Type} (d : α) (m : Store α) {k n : Nat} (h : n ≠ k) :
    Store.get d (Store.erase m k) n = Store.get d m n := by
  induction m with
  | nil => rfl
  | cons e m ih =>
    obtain ⟨j, v⟩ := e
    by_cases hk : j = k
    · subst hk; simp [Store.erase, Store.get, ih, Ne.symm h]
    · by_cases hn : j = n
      · subst hn; simp [Store.erase, Store.get, h]
      · simp [Store.erase, Store.get, hk, hn, ih]

theorem Store.get_place_self {α : Type} (d v : α) (m : Store α) (k : Nat) :
    Store.get d (Store.place k v (Store.erase m k)) k = v := by
  induction m with
  | nil => simp [Store.erase, Store.place, Store.get]
  | cons e m ih =>
    obtain ⟨j, u⟩ := e
    by_cases hk : j = k
    · simp [Store.erase, hk, ih]
    · by_cases hl : k < j <;> simp [Store.erase, Store.place, Store.get, hk, hl, ih]

theorem Store.get_place_ne {α : Type} (d v : α) (m : Store α) {k n : Nat} (h : n ≠ k) :
    Store.get d (Store.place k v m) n = Store.get d m n := by
  induction m with
  | nil => simp [Store.place, Store.get, Ne.symm h]
  | cons e m ih =>
    obtain ⟨j, u⟩ := e
    by_cases hl : k < j
    · simp [Store.place, Store.get, hl, Ne.symm h]
    · by_cases hn : j = n
      · subst hn; simp [Store.place, Store.get, hl]
      · simp [Store.place, Store.get, hl, hn, ih]

/-- A read of the key just written finds the value written. -/
@[simp] theorem Store.get_set_self {α : Type} [DecidableEq α] (d v : α) (m : Store α) (k : Nat) :
    Store.get d (Store.set d m k v) k = v := by
  unfold Store.set
  by_cases h : v = d
  · simp [h, Store.get_erase_self]
  · simp [h, Store.get_place_self]

/-- A read of any other key finds what it found before. -/
theorem Store.get_set_ne {α : Type} [DecidableEq α] (d v : α) (m : Store α) {k n : Nat} (h : n ≠ k) :
    Store.get d (Store.set d m k v) n = Store.get d m n := by
  unfold Store.set
  by_cases hv : v = d
  · simp [hv, Store.get_erase_ne d m h]
  · simp [hv, Store.get_place_ne d v _ h, Store.get_erase_ne d m h]

/-- Both at once. -/
theorem Store.get_set {α : Type} [DecidableEq α] (d v : α) (m : Store α) (k n : Nat) :
    Store.get d (Store.set d m k v) n = if n = k then v else Store.get d m n := by
  by_cases h : n = k
  · simp [h]
  · simp [h, Store.get_set_ne d v m h]

-- the canonical form

theorem Store.rising_mono {α : Type} {lo hi : Nat} (h : lo ≤ hi) (m : Store α) (hm : Store.rising (some hi) m = true) :
    Store.rising (some lo) m = true := by
  cases m with
  | nil => rfl
  | cons e m =>
    simp only [Store.rising, Bool.and_eq_true, decide_eq_true_eq] at hm ⊢
    exact ⟨by omega, hm.2⟩

theorem Store.rising_none {α : Type} {lo : Nat} (m : Store α) (hm : Store.rising (some lo) m = true) :
    Store.rising none m = true := by
  cases m with
  | nil => rfl
  | cons e m => simp only [Store.rising, Bool.and_eq_true] at hm ⊢; exact hm.2

theorem Store.rising_erase {α : Type} (m : Store α) (k : Nat) :
    ∀ lo, Store.rising lo m = true → Store.rising lo (Store.erase m k) = true := by
  induction m with
  | nil => intro lo h; exact h
  | cons e m ih =>
    obtain ⟨j, v⟩ := e
    intro lo h
    by_cases hk : j = k
    · simp only [Store.erase, hk, if_true]
      cases lo with
      | none => exact Store.rising_none _ (ih (some k) (by simpa [Store.rising, hk] using h))
      | some l =>
        simp only [Store.rising, Bool.and_eq_true, decide_eq_true_eq] at h
        exact ih _ (Store.rising_mono (Nat.le_of_lt h.1) _ h.2)
    · cases lo with
      | none => simpa [Store.erase, hk, Store.rising] using ih (some j) (by simpa [Store.rising] using h)
      | some l =>
        simp only [Store.rising, Bool.and_eq_true, decide_eq_true_eq] at h
        simp only [Store.erase, hk, if_false, Store.rising, Bool.and_eq_true, decide_eq_true_eq]
        exact ⟨h.1, ih _ h.2⟩

theorem Store.notin_erase {α : Type} (m : Store α) (k : Nat) : ∀ e ∈ Store.erase m k, e.1 ≠ k := by
  induction m with
  | nil => intro e h; simp [Store.erase] at h
  | cons x m ih =>
    obtain ⟨j, v⟩ := x
    intro e h
    by_cases hk : j = k
    · simp only [Store.erase, hk, if_true] at h; exact ih e h
    · simp only [Store.erase, hk, if_false, List.mem_cons] at h
      rcases h with h | h
      · subst h; exact hk
      · exact ih e h

theorem Store.rising_place {α : Type} (k : Nat) (v : α) (m : Store α) (hk : ∀ e ∈ m, e.1 ≠ k) :
    ∀ lo, Store.rising lo m = true → (∀ l, lo = some l → l < k) → Store.rising lo (Store.place k v m) = true := by
  induction m with
  | nil =>
    intro lo _ hl
    cases lo with
    | none => rfl
    | some l => simp [Store.place, Store.rising, hl l rfl]
  | cons e m ih =>
    obtain ⟨j, u⟩ := e
    intro lo h hl
    have hj : j ≠ k := hk (j, u) (by simp)
    have hm : ∀ e ∈ m, e.1 ≠ k := fun e he => hk e (by simp [he])
    by_cases hlt : k < j
    · simp only [Store.place, hlt, if_true]
      cases lo with
      | none => simpa [Store.rising, hlt] using h
      | some l =>
        simp only [Store.rising, Bool.and_eq_true, decide_eq_true_eq] at h ⊢
        exact ⟨hl l rfl, hlt, h.2⟩
    · have hjk : j < k := by omega
      simp only [Store.place, hlt, if_false]
      cases lo with
      | none => simpa [Store.rising] using ih hm (some j) (by simpa [Store.rising] using h) (by simp; omega)
      | some l =>
        simp only [Store.rising, Bool.and_eq_true, decide_eq_true_eq] at h ⊢
        exact ⟨h.1, ih hm (some j) h.2 (by simp; omega)⟩

theorem Store.mem_erase {α : Type} (m : Store α) (k : Nat) : ∀ e ∈ Store.erase m k, e ∈ m := by
  induction m with
  | nil => intro e h; simp [Store.erase] at h
  | cons x m ih =>
    obtain ⟨j, v⟩ := x
    intro e h
    by_cases hk : j = k
    · simp only [Store.erase, hk, if_true] at h; exact List.mem_cons_of_mem _ (ih e h)
    · simp only [Store.erase, hk, if_false, List.mem_cons] at h
      rcases h with h | h
      · subst h; simp
      · exact List.mem_cons_of_mem _ (ih e h)

theorem Store.mem_place {α : Type} (k : Nat) (v : α) (m : Store α) : ∀ e ∈ Store.place k v m, e = (k, v) ∨ e ∈ m := by
  induction m with
  | nil => intro e h; simpa [Store.place] using h
  | cons x m ih =>
    obtain ⟨j, u⟩ := x
    intro e h
    by_cases hl : k < j
    · simpa [Store.place, hl] using h
    · simp only [Store.place, hl, if_false, List.mem_cons] at h
      rcases h with h | h
      · subst h; simp
      · rcases ih e h with h | h
        · exact .inl h
        · exact .inr (List.mem_cons_of_mem _ h)

/-- A write keeps the canonical form. -/
theorem Store.wf_set {α : Type} [DecidableEq α] (d v : α) (m : Store α) (k : Nat) (h : Store.wf d m = true) :
    Store.wf d (Store.set d m k v) = true := by
  simp only [Store.wf, Bool.and_eq_true, List.all_eq_true, decide_eq_true_eq] at h ⊢
  have he := Store.rising_erase m k none h.1
  have hd : ∀ e ∈ Store.erase m k, e.2 ≠ d := fun e x => h.2 e (Store.mem_erase m k e x)
  unfold Store.set
  by_cases hv : v = d
  · simp only [hv, if_true]; exact ⟨he, hd⟩
  · simp only [hv, if_false]
    refine ⟨Store.rising_place k v _ (Store.notin_erase m k) none he (by simp), fun e x => ?_⟩
    rcases Store.mem_place k v _ e x with x | x
    · subst x; exact hv
    · exact hd e x

/-- Writing a run of bytes keeps the canonical form. -/
theorem Store.wf_writeBytes (bs : List Byte) : ∀ (m : Store Byte) (a : Nat), Store.wf 0 m = true →
    Store.wf 0 (Store.writeBytes m a bs) = true := by
  induction bs with
  | nil => intro m a h; exact h
  | cons b bs ih => intro m a h; exact ih _ _ (Store.wf_set 0 b m a h)

/-- A byte outside the run written reads as before. -/
theorem Store.get_writeBytes_ne (bs : List Byte) : ∀ (m : Store Byte) (a n : Nat), (n < a ∨ a + bs.length ≤ n) →
    Store.get 0 (Store.writeBytes m a bs) n = Store.get 0 m n := by
  induction bs with
  | nil => intro m a n _; rfl
  | cons b bs ih =>
    intro m a n h
    simp only [List.length_cons] at h
    rw [Store.writeBytes, ih _ _ _ (by omega), Store.get_set_ne 0 b m (by omega)]

/-- A byte of the run written reads as written. -/
theorem Store.get_writeBytes_at (bs : List Byte) : ∀ (m : Store Byte) (a i : Nat) (h : i < bs.length),
    Store.get 0 (Store.writeBytes m a bs) (a + i) = bs[i] := by
  induction bs with
  | nil => intro m a i h; simp at h
  | cons b bs ih =>
    intro m a i h
    cases i with
    | zero => rw [Store.writeBytes, Store.get_writeBytes_ne _ _ _ _ (by omega)]; simp
    | succ i =>
      have := ih (Store.set 0 m a b) (a + 1) i (by simpa using h)
      rw [Store.writeBytes, show a + (i + 1) = a + 1 + i by omega, this]; simp

end Sys2Proof
end

