-- ==== Sys2Proof/Laws/Mem.lean ====
section
/-! SUPPORT. Every operation over memory keeps the two memories in canonical form, and what a byte written at a
registry reads as afterwards. -/

namespace Sys2Proof.Machine

/-- Two states of memory whose memories are the same lists. -/
theorem Mem.wf_of_eq {m m' : Mem} (h1 : m'.hbm = m.hbm) (h2 : m'.host = m.host) (h : m.wf) : m'.wf := by
  simpa [Mem.wf, h1, h2] using h

theorem Mem.reset_wf : Mem.reset.wf := by decide

theorem Store.wf_keep {α : Type} [DecidableEq α] (d : α) (m : Store α) (p : Nat → α → Bool) (h : Store.wf d m = true) :
    Store.wf d (Store.keep m p) = true := by
  have key : ∀ (m : Store α) (lo : Option Nat), Store.rising lo m = true → Store.rising lo (Store.keep m p) = true := by
    intro m
    induction m with
    | nil => intro lo h; exact h
    | cons e m ih =>
      obtain ⟨j, v⟩ := e
      intro lo h
      by_cases hp : p j v
      · cases lo with
        | none => simpa [Store.keep, List.filter, hp, Store.rising] using ih (some j) (by simpa [Store.rising] using h)
        | some l =>
          simp only [Store.rising, Bool.and_eq_true, decide_eq_true_eq] at h
          simpa [Store.keep, List.filter, hp, Store.rising, h.1] using ih (some j) h.2
      · cases lo with
        | none =>
          simpa [Store.keep, List.filter, hp] using ih none (Store.rising_none m (by simpa [Store.rising] using h))
        | some l =>
          simp only [Store.rising, Bool.and_eq_true, decide_eq_true_eq] at h
          simpa [Store.keep, List.filter, hp] using ih (some l) (Store.rising_mono (Nat.le_of_lt h.1) m h.2)
  simp only [Store.wf, Bool.and_eq_true, List.all_eq_true, decide_eq_true_eq] at h ⊢
  exact ⟨key m none h.1, fun e he => h.2 e (List.mem_of_mem_filter he)⟩

theorem Mem.recrypt_wf (m : Mem) (line : Nat) (h : m.wf) : ∀ n, (m.recrypt line n).wf := by
  intro n
  induction n with
  | zero => exact h
  | succ n ih => exact ⟨Store.wf_set 0 _ _ _ ih.1, ih.2⟩

theorem Mem.freshen_wf (m : Mem) (pa : Nat) (h : m.wf) : (m.freshen pa).wf := by
  unfold Mem.freshen
  split
  · exact h
  · exact Mem.recrypt_wf m _ h 128

theorem Mem.writeByte_wf (m : Mem) (p : Phys) (b : Byte) (h : m.wf) : (m.writeByte p b).wf := by
  unfold Mem.writeByte
  split
  · exact ⟨h.1, Store.wf_set 0 _ _ _ h.2⟩
  · exact ⟨Store.wf_set 0 _ _ _ (Mem.freshen_wf m _ h).1, (Mem.freshen_wf m _ h).2⟩

theorem Mem.writeBytes_wf (bs : List Byte) : ∀ (m : Mem) (p : Phys), m.wf → (m.writeBytes p bs).wf := by
  induction bs with
  | nil => intro m p h; exact h
  | cons b bs ih => intro m p h; exact ih _ _ (Mem.writeByte_wf m p b h)

theorem Mem.cleanLine_wf (m : Mem) (p : Phys) (n : Nat) (h : m.wf) : (m.cleanLine p n).wf := by
  unfold Mem.cleanLine; split <;> exact h

theorem Mem.putWord_wf (m : Mem) (word : Nat) (v : W32) (h : m.wf) : (m.putWord word v).wf := Mem.writeBytes_wf _ _ _ h

theorem Mem.reclaim_wf (m : Mem) (word : Nat) (h : m.wf) : (m.reclaim word).wf := by
  unfold Mem.reclaim
  split
  · exact h
  · dsimp only
    split
    · exact Mem.putWord_wf m word _ h
    · exact h

theorem Mem.regWrite_wf (m : Mem) (word : Nat) (v : W32) (h : m.wf) : (m.regWrite word v).wf :=
  Mem.putWord_wf _ word v (Mem.reclaim_wf m word h)

theorem Mem.regBytes_wf (bs : List Byte) : ∀ (m : Mem) (p : Phys), m.wf → (m.regBytes p bs).wf := by
  induction bs with
  | nil => intro m p h; exact h
  | cons b bs ih => intro m p h; exact ih _ _ (Mem.writeByte_wf _ p b (Mem.reclaim_wf m _ h))

theorem Mem.acceptWord_wf (m : Mem) (key : Nat) (h : m.wf) : (m.acceptWord key).wf := by
  unfold Mem.acceptWord
  split
  · exact h
  · split
    · dsimp only
      split
      · split <;> exact h
      · exact h
    · exact h

theorem Mem.pushWord_wf (m : Mem) (key : Nat) (h : m.wf) : (m.pushWord key).wf := by
  unfold Mem.pushWord
  split
  · split
    · exact Mem.putWord_wf m _ _ h
    · exact h
  · exact h

theorem Mem.ite_wf {b : Prop} [Decidable b] {x y : Mem} (hx : x.wf) (hy : y.wf) : (if b then x else y).wf := by
  split
  · exact hx
  · exact hy

theorem Mem.acceptFlight_wf (m : Mem) (f : Flight) (h : m.wf) : (m.acceptFlight f).wf := by
  have h1 := Mem.acceptWord_wf m f.key h
  have h2 := Mem.ite_wf (b := f.wide = true) (Mem.acceptWord_wf _ (f.key + 1) h1) h1
  have h3 := Mem.ite_wf (b := f.sys = true) (Mem.pushWord_wf _ f.key h2) h2
  exact Mem.ite_wf (Mem.pushWord_wf _ (f.key + 1) h3) h3

theorem Mem.acceptAll_wf (fs : List Flight) : ∀ m : Mem, m.wf → (m.acceptAll fs).wf := by
  induction fs with
  | nil => intro m h; exact h
  | cons f fs ih => intro m h; exact ih _ (Mem.acceptFlight_wf m f h)

theorem Mem.acceptIf_wf (m : Mem) (p : Flight → Bool) (h : m.wf) : (m.acceptIf p).wf := Mem.acceptAll_wf _ m h

theorem Mem.drain_wf (m : Mem) (k : Nat) (h : m.wf) : (m.drain k).wf := Mem.acceptIf_wf m _ h

theorem Mem.acceptOldest_wf (m : Mem) (k : Nat) (h : m.wf) : (m.acceptOldest k).wf := by
  unfold Mem.acceptOldest
  split
  · exact h
  · exact Mem.acceptFlight_wf m _ h

theorem Mem.age_wf (m : Mem) (now t : Nat) (h : m.wf) : (m.age now t).wf := Mem.acceptIf_wf _ _ h

theorem Mem.pushHost_wf (l : Store (Option Nat)) : ∀ m : Mem, m.wf → (m.pushHost l).wf := by
  induction l with
  | nil => intro m h; exact h
  | cons e l ih =>
    obtain ⟨word, o⟩ := e
    intro m h
    refine ih _ ?_
    split
    · split
      · exact Mem.putWord_wf m _ _ h
      · exact h
    · exact h

theorem Mem.release_wf (m : Mem) (k : Nat) (sc : Scope) (h : m.wf) : (m.release k sc).wf := by
  cases sc
  · exact h
  · exact Mem.drain_wf m k h
  · exact Mem.drain_wf m k h
  · exact Mem.pushHost_wf _ _ (Mem.drain_wf m k h)

theorem Mem.refresh_wf (m : Mem) (key : Nat) (h : m.wf) : (m.refresh key).wf := by
  unfold Mem.refresh
  split
  · exact h
  · split <;> exact h

theorem Mem.refreshAll_wf (fs : List Flight) : ∀ m : Mem, m.wf → (m.refreshAll fs).wf := by
  induction fs with
  | nil => intro m h; exact h
  | cons f fs ih =>
    intro m h
    refine ih _ ?_
    split
    · exact Mem.refresh_wf _ _ (Mem.refresh_wf _ _ h)
    · exact Mem.refresh_wf _ _ h

theorem Mem.foldl_wf {α : Type} (f : Mem → α → Mem) (hf : ∀ m x, m.wf → (f m x).wf) (l : List α) : ∀ m : Mem, m.wf → (l.foldl f m).wf := by
  induction l with
  | nil => intro m h; exact h
  | cons x l ih => intro m h; exact ih _ (hf m x h)

theorem Mem.evictWord_wf (m : Mem) (key : Nat) (h : m.wf) : (m.evictWord key).wf := by
  unfold Mem.evictWord
  split
  · exact h
  · dsimp only
    split
    · exact Mem.reclaim_wf _ _ h
    · exact h

theorem Mem.joinAliases_wf (m : Mem) (k : Nat) (h : m.wf) : (m.joinAliases k).wf :=
  Mem.foldl_wf _ (fun _ _ ha => Mem.foldl_wf _ (fun a x ha => Mem.evictWord_wf a x ha) _ _ ha) _ _ (Mem.acceptIf_wf m _ h)

theorem Mem.acquire_wf (m : Mem) (k : Nat) (h : m.wf) : (m.acquire k).wf := by
  have hj := Mem.joinAliases_wf m k h
  unfold Mem.acquire
  generalize m.joinAliases k = x at hj ⊢
  exact Mem.refreshAll_wf _ _ hj

theorem Mem.sample_wf (c : Ctl) (m : Mem) (fn : Nat) (p : Phys) (h : m.wf) : (m.sample c fn p).wf := by
  unfold Mem.sample
  dsimp only
  split <;> exact h

theorem Mem.sampleWalk_wf (c : Ctl) (m : Mem) (fn home va : Nat) (big : Bool) (h : m.wf) :
    (m.sampleWalk c fn home va big).wf := Mem.foldl_wf _ (fun a _ ha => Mem.sample_wf c a 0 _ ha) _ m h

/-- A translation keeps the canonical form. -/
theorem translate_wf {c : Ctl} {m m' : Mem} {fn part va : Nat} {k : Kind} {p : Phys}
    (h : translate c m fn part va k = .ok p m') (hm : m.wf) : m'.wf := by
  unfold translate at h
  dsimp only at h
  split at h
  · cases h
  split at h
  · cases h
  split at h
  · cases h
  split at h
  · cases h
  split at h
  · cases h
  split at h
  · cases h
  · rename_i l big m1 hgot
    split at h
    · cases h
    split at h
    · cases h
    · have hw : m1.wf := by
        split at hgot
        · simp only [Except.ok.injEq, Prod.mk.injEq] at hgot
          exact hgot.2.2 ▸ hm
        · split at hgot
          · cases hgot
          · split at hgot
            · simp only [Except.ok.injEq, Prod.mk.injEq] at hgot
              exact hgot.2.2 ▸ hm
            split at hgot
            · cases hgot
            · rename_i b2 _ _ _
              have hs := Mem.sampleWalk_wf c m fn (bits va 54 3) va b2 hm
              generalize m.sampleWalk c fn (bits va 54 3) va b2 = x at hgot hs
              simp only [Except.ok.injEq, Prod.mk.injEq] at hgot
              exact hgot.2.2 ▸ hs
      simp only [Trans.ok.injEq] at h
      exact h.2 ▸ hw

theorem Mem.evictLine_wf (m : Mem) (line : Nat) (h : m.wf) : (m.evictLine line).wf :=
  Mem.foldl_wf _ (fun a _ ha => Mem.evictWord_wf a _ ha) _ _ (Mem.acceptIf_wf m _ h)

theorem Mem.makeRoom_wf {m m' : Mem} {core : Nat} {marks : List Nat} {line : Nat} (h : m.makeRoom core marks line = some m') (hm : m.wf) :
    m'.wf := by
  unfold Mem.makeRoom at h
  dsimp only at h
  split at h
  · cases h; exact hm
  · obtain ⟨v, -, rfl⟩ := Option.map_eq_some_iff.mp h
    have hv := Mem.evictLine_wf m v hm
    generalize m.evictLine v = x at hv ⊢
    exact hv

theorem Mem.pushAliases_wf {m m' : Mem} {core line : Nat} {p : Phys} (h : m.pushAliases core line p = some m') (hm : m.wf) : m'.wf := by
  unfold Mem.pushAliases at h
  dsimp only at h
  split at h
  · cases h
  · cases h; exact Mem.acceptIf_wf m _ hm

theorem Mem.fillLine_wf (m : Mem) (core fn va : Nat) (p : Phys) (h : m.wf) : ∀ n, (m.fillLine core fn va p n).wf := by
  intro n
  induction n with
  | zero => exact h
  | succ n ih =>
    unfold Mem.fillLine
    dsimp only
    split
    · split
      · exact ih
      · exact ih
    · exact ih

theorem Mem.send_wf (m : Mem) (core grid key : Nat) (wide sys : Bool) (h : m.wf) : (m.send core grid key wide sys).wf := by
  unfold Mem.send
  dsimp only
  split
  · exact h
  · split <;> exact h

theorem Mem.sendWords_wf (core grid : Nat) (sys : Bool) : ∀ (n : Nat) (m : Mem) (key : Nat), m.wf →
    (m.sendWords core grid key sys n).wf := by
  intro n
  induction n with
  | zero => intro m key h; exact h
  | succ n ih => intro m key h; exact ih _ _ (Mem.send_wf m core grid key false sys h)

theorem Mem.l1Put_wf (bs : List Byte) : ∀ (m : Mem) (core fn va : Nat) (p : Phys), m.wf → (m.l1Put core fn va p bs).wf := by
  induction bs with
  | nil => intro m core fn va p h; exact h
  | cons b bs ih => intro m core fn va p h; exact ih _ core fn _ _ h

theorem Mem.l1Write_wf (m : Mem) (a : Agent) (va : Nat) (p : Phys) (sys : Bool) (data : List Byte) (h : m.wf) :
    (m.l1Write a va p sys data).wf := by
  unfold Mem.l1Write
  dsimp only
  split
  · exact Mem.send_wf _ _ _ _ _ _ (Mem.l1Put_wf data m _ _ _ _ h)
  · exact Mem.sendWords_wf _ _ _ _ _ _ (Mem.l1Put_wf data m _ _ _ _ h)

/-- A load keeps the canonical form. -/
theorem Got.failed_ne {α : Type} {e : Code} {v : α} {m : Mem} : (Got.failed e : Got α) ≠ .ok v m := by
  unfold Got.failed; split <;> simp

theorem loadGlobal_wf {c : Ctl} {m m' : Mem} {a : Agent} {va n : Nat} {k : Kind} {v : List Byte}
    (h : loadGlobal c m a va n k = .ok v m') (hm : m.wf) : m'.wf := by
  unfold loadGlobal at h
  split at h
  · exact absurd h Got.failed_ne
  · cases h
  · rename_i p m1 ht
    have h1 := translate_wf ht hm
    split at h
    · cases h
    split at h
    · cases h; exact h1
    split at h
    · cases h
    split at h
    · cases h
    · rename_i m2 hx
      obtain ⟨m3, h3, h4⟩ := Option.bind_eq_some_iff.mp hx
      cases h
      exact Mem.fillLine_wf _ _ _ _ _ (Mem.sample_wf c m2 a.fn p (Mem.makeRoom_wf h4 (Mem.pushAliases_wf h3 h1))) 32

/-- A store keeps the canonical form. -/
theorem storeGlobal_wf {c : Ctl} {m m' : Mem} {a : Agent} {va : Nat} {k : Kind} {sys : Bool} {data : List Byte} {v : Unit}
    (h : storeGlobal c m a va k sys data = .ok v m') (hm : m.wf) : m'.wf := by
  unfold storeGlobal at h
  split at h
  · exact absurd h Got.failed_ne
  · cases h
  · rename_i p m1 ht
    have h1 := translate_wf ht hm
    split at h
    · cases h
    split at h
    · cases h
    split at h
    · cases h
    · rename_i m2 hx
      obtain ⟨m3, h3, h4⟩ := Option.bind_eq_some_iff.mp hx
      cases h; exact Mem.l1Write_wf m2 _ _ _ _ _ (Mem.makeRoom_wf h4 (Mem.pushAliases_wf h3 h1))

theorem Mem.wrote_wf (m : Mem) (p : Phys) (n core : Nat) (h : m.wf) : (m.wrote p n core).wf := h

/-- A read and write at the registry keeps the canonical form. -/
theorem atomicGlobal_wf {c : Ctl} {m m' : Mem} {a : Agent} {va n : Nat} {f : List Byte → Option (List Byte)} {v : List Byte}
    (h : atomicGlobal c m a va n f = .ok v m') (hm : m.wf) : m'.wf := by
  unfold atomicGlobal at h
  split at h
  · exact absurd h Got.failed_ne
  · cases h
  · rename_i p m1 ht
    have h1 := translate_wf ht hm
    split at h
    · cases h
    split at h
    · cases h
    split at h
    · cases h
    · rename_i m0 hx
      have h0 := Mem.pushAliases_wf hx h1
      dsimp only at h
      have hd : ∀ (x : Mem) core fn va, x.wf → (x.l1Drop core fn va).wf := fun x _ _ _ hx => hx
      have h2 := Mem.drain_wf _ a.core (Mem.sample_wf c m0 a.fn p h0)
      have h3 := Mem.reclaim_wf _ p.word h2
      generalize (m0.sample c a.fn p).drain a.core = x2 at *
      generalize x2.reclaim p.word = x3 at *
      have h4 : (if 8 ≤ n then x3.reclaim (Phys.word ⟨p.host, p.pa + 4⟩) else x3).wf := by
        split
        · exact Mem.reclaim_wf _ _ h3
        · exact h3
      generalize (if 8 ≤ n then x3.reclaim (Phys.word ⟨p.host, p.pa + 4⟩) else x3) = x4 at *
      cases h
      split
      · apply hd; apply hd
        split
        · exact Mem.wrote_wf _ _ _ _ (Mem.regBytes_wf _ _ _ h4)
        · exact h4
      · apply hd
        split
        · exact Mem.wrote_wf _ _ _ _ (Mem.regBytes_wf _ _ _ h4)
        · exact h4

/-- A read at the registry keeps the canonical form. -/
theorem readRegistry_wf {c : Ctl} {m m' : Mem} {fn part va n : Nat} {k : Kind} {v : List Byte}
    (h : readRegistry c m fn part va n k = .ok v m') (hm : m.wf) : m'.wf := by
  unfold readRegistry at h
  split at h
  · exact absurd h Got.failed_ne
  · cases h
  · rename_i p m1 ht
    split at h
    · cases h
    split at h
    · cases h
    · cases h; exact Mem.sample_wf c m1 fn p (translate_wf ht hm)

theorem readFresh_wf {c : Ctl} {m m' : Mem} {core fn part va n : Nat} {k : Kind} {v : List Byte}
    (h : readFresh c m core fn part va n k = .ok v m') (hm : m.wf) : m'.wf := by
  unfold readFresh at h
  split at h
  · exact absurd h Got.failed_ne
  · cases h
  · rename_i p m1 ht
    split at h
    · cases h
    split at h
    · cases h
    split at h
    · cases h
    · rename_i m2 hx
      cases h; exact Mem.sample_wf c m2 fn p (Mem.pushAliases_wf hx (translate_wf ht hm))

/-- A write at the registry keeps the canonical form. -/
theorem writeRegistry_wf {c : Ctl} {m m' : Mem} {fn part va : Nat} {k : Kind} {data : List Byte} {v : Unit}
    (h : writeRegistry c m fn part va k data = .ok v m') (hm : m.wf) : m'.wf := by
  unfold writeRegistry at h
  split at h
  · exact absurd h Got.failed_ne
  · cases h
  · rename_i p m1 ht
    split at h
    · cases h
    · cases h; exact Mem.regBytes_wf data _ p (Mem.sample_wf c m1 fn p (translate_wf ht hm))

theorem writeFresh_wf {c : Ctl} {m m' : Mem} {core fn part va : Nat} {k : Kind} {data : List Byte} {v : Unit}
    (h : writeFresh c m core fn part va k data = .ok v m') (hm : m.wf) : m'.wf := by
  unfold writeFresh at h
  split at h
  · exact absurd h Got.failed_ne
  · cases h
  · rename_i p m1 ht
    split at h
    · cases h
    · cases h; exact Mem.regBytes_wf data _ p (Mem.sample_wf c m1 fn p (translate_wf ht hm))

theorem readMany_wf {c : Ctl} {fn part : Nat} {k : Kind} :
    ∀ (fuel : Nat) (m : Mem) (va n : Nat) (v : List Byte) (m' : Mem), readMany c fn part k fuel m va n = .ok v m' → m.wf → m'.wf := by
  intro fuel
  induction fuel with
  | zero => intro m va n v m' h hm; cases h; exact hm
  | succ fuel ih =>
    intro m va n v m' h hm
    unfold readMany at h
    dsimp only at h
    split at h
    · cases h; exact hm
    · split at h
      · rename_i h1
        split at h
        · rename_i h2
          cases h
          exact ih _ _ _ _ _ h2 (readRegistry_wf h1 hm)
        all_goals cases h
      all_goals cases h

theorem deviceRead_wf {c : Ctl} {m m' : Mem} {fn part va n : Nat} {k : Kind} {v : List Byte}
    (h : deviceRead c m fn part va n k = .ok v m') (hm : m.wf) : m'.wf := readMany_wf _ _ _ _ _ _ h hm

theorem Mem.recall_wf (l : List (Nat × Option L1Word)) : ∀ (m : Mem) (discard : Bool) (here : Nat → Bool), m.wf →
    (m.recall discard here l).wf := by
  induction l with
  | nil => intro m d f h; exact h
  | cons e l ih =>
    obtain ⟨key, w⟩ := e
    intro m d f h
    refine ih _ d f ?_
    split
    · exact h
    · split
      · dsimp only
        split
        · exact h
        · exact Mem.putWord_wf m _ _ h
      · exact h

theorem Mem.acceptHomes_wf (m : Mem) (here : Nat → Bool) (h : m.wf) : (m.acceptHomes here).wf := Mem.acceptIf_wf m _ h
theorem Mem.overImages_wf (m : Mem) (lo n : Nat) (h : m.wf) : (m.overImages lo n).wf := h
theorem Mem.saveImage_wf (m : Mem) (team draw lo size : Nat) (h : m.wf) : (m.saveImage team draw lo size).wf :=
  Mem.recall_wf _ _ _ _ (Mem.acceptHomes_wf m _ h)
theorem Mem.unclaim_wf (m : Mem) (copy fn line : Nat) (h : m.wf) : (m.unclaim copy fn line).wf := h
theorem Mem.unclaimAll_wf (m : Mem) (copy : Nat) (h : m.wf) : (m.unclaimAll copy).wf := h

-- host memory, which has no key: a byte written reads as written, any other as before

theorem Mem.writeByte_host_read (m : Mem) (pa : Nat) (b : Byte) (n : Nat) :
    (m.writeByte ⟨true, pa⟩ b).readByte ⟨true, n⟩ = if n = pa then b else m.readByte ⟨true, n⟩ := by
  simp [Mem.writeByte, Mem.readByte, Store.get_set]

end Sys2Proof.Machine
end

