-- ==== Sys2Proof/Laws/Codec.lean ====
section
/-! SUPPORT. Decoding the parts of a word undoes encoding them: every format and every field code. -/

namespace Sys2Proof
namespace Decode

theorem gOf_g (x : G) : gOf (Encode.g x) = x := by
  obtain ⟨op, ty, rm, ax, d, a, b, c, imm⟩ := x
  simp only [gOf, Encode.g, G.mk.injEq]
  refine ⟨?_, ?_, ?_, ?_, ?_, ?_, ?_, ?_, ?_⟩ <;> (change @BitVec.extractLsb' (8+4+3+1+8+8+8+8+16) _ _ _ = _; simp (disch := omega) only [BitVec.extractLsb'_append_eq_of_le,BitVec.extractLsb'_append_eq_of_add_le,-Nat.reduceAdd]; simp)
theorem iOf_i (x : I) : iOf (Encode.i x) = x := by
  obtain ⟨op, ty, mod, d, a, imm⟩ := x
  simp only [iOf, Encode.i, I.mk.injEq]
  refine ⟨?_, ?_, ?_, ?_, ?_, ?_⟩ <;> (change @BitVec.extractLsb' (8+4+4+8+8+32) _ _ _ = _; simp (disch := omega) only [BitVec.extractLsb'_append_eq_of_le,BitVec.extractLsb'_append_eq_of_add_le,-Nat.reduceAdd]; simp)
theorem mOf_m (x : M) : mOf (Encode.m x) = x := by
  obtain ⟨op, ty, sp, ord, sc, aop, d, a, b, off⟩ := x
  simp only [mOf, Encode.m, M.mk.injEq]
  refine ⟨?_, ?_, ?_, ?_, ?_, ?_, ?_, ?_, ?_, ?_⟩ <;> (change @BitVec.extractLsb' (8+4+3+3+2+4+8+8+8+16) _ _ _ = _; simp (disch := omega) only [BitVec.extractLsb'_append_eq_of_le,BitVec.extractLsb'_append_eq_of_add_le,-Nat.reduceAdd]; simp)
theorem tOf_t (x : T) : tOf (Encode.t x) = x := by
  obtain ⟨op, ty, rm, opn, td, ta, tb, cv, sa, sb, bsel, kind, sx, imm⟩ := x
  simp only [tOf, Encode.t, T.mk.injEq]
  refine ⟨?_, ?_, ?_, ?_, ?_, ?_, ?_, ?_, ?_, ?_, ?_, ?_, ?_, ?_⟩ <;> (change @BitVec.extractLsb' (8+4+3+1+4+4+4+4+8+8+1+1+6+8) _ _ _ = _; simp (disch := omega) only [BitVec.extractLsb'_append_eq_of_le,BitVec.extractLsb'_append_eq_of_add_le,-Nat.reduceAdd]; simp)
theorem cOf_c (x : C) : cOf (Encode.c x) = x := by
  obtain ⟨op, kind, mod, target, a, imm⟩ := x
  simp only [cOf, Encode.c, C.mk.injEq]
  refine ⟨?_, ?_, ?_, ?_, ?_, ?_⟩ <;> (change @BitVec.extractLsb' (8+4+4+24+8+16) _ _ _ = _; simp (disch := omega) only [BitVec.extractLsb'_append_eq_of_le,BitVec.extractLsb'_append_eq_of_add_le,-Nat.reduceAdd]; simp)
theorem eOf_e (x : E) : eOf (Encode.e x) = x := by
  obtain ⟨op, mod, d, a, b, c, imm⟩ := x
  simp only [eOf, Encode.e, E.mk.injEq]
  refine ⟨?_, ?_, ?_, ?_, ?_, ?_, ?_⟩ <;> (change @BitVec.extractLsb' (8+8+8+8+8+8+16) _ _ _ = _; simp (disch := omega) only [BitVec.extractLsb'_append_eq_of_le,BitVec.extractLsb'_append_eq_of_add_le,-Nat.reduceAdd]; simp)

/-- The opcode stands in the same place in every format (R319). -/
theorem op_i (x : I) : (gOf (Encode.i x)).op = x.op := congrArg I.op (iOf_i x)
theorem op_m (x : M) : (gOf (Encode.m x)).op = x.op := congrArg M.op (mOf_m x)

theorem ty_ty (t : Ty) : ty (Encode.ty t) = .ok t := by cases t <;> rfl
theorem rm_rm (r : Rm) : rm (Encode.rm r) = .ok r := by cases r <;> rfl
theorem rel_rel (r : Rel) : rel (Encode.rel r) = .ok r := by cases r <;> rfl
theorem aop_aop (x : Aop) : aop (Encode.aop x) = .ok x := by cases x <;> rfl
theorem ord_ord (x : Ord) : ord (Encode.ord x) = .ok x := by cases x <;> rfl
theorem scope_scope (x : Scope) : scope (Encode.scope x) = x := by cases x <;> rfl
theorem space_space (x : Space) : space (Encode.space x) = .ok x := by cases x <;> rfl
theorem cpySpace_cpySpace (x : CpySpace) : cpySpace (Encode.cpySpace x) = .ok x := by cases x <;> rfl
theorem cpyKind_cpyKind (x : CpyKind) : cpyKind (Encode.cpyKind x) = .ok x := by cases x <;> rfl
theorem flag_flag (x : Bool) : flag (Encode.flag x) = x := by cases x <;> rfl
theorem fin16_fin16 : ∀ x : Fin 16, fin16 (Encode.fin16 x) = x := by decide
theorem acc_acc : ∀ x : Fin 8, acc (Encode.acc x) = .ok x := by intro x; revert x; decide
theorem sx_sx : ∀ x : SReg, sx (Encode.sx x) = x := by decide
theorem sreg_sreg : ∀ x : SReg, sreg (Encode.sreg x) = .ok x := by intro x; fin_cases x <;> rfl
theorem kreg_kreg : ∀ x : Fin 128, kreg (Encode.kreg x) = .ok x := by intro x; fin_cases x <;> rfl
theorem reg_w : ∀ n : Fin 64, reg (Encode.reg (.w n)) = .w n := by decide
theorem reg_s : ∀ n : Fin 64, reg (Encode.reg (.s n)) = .s n := by decide
theorem reg_k : ∀ n : Fin 128, reg (Encode.reg (.k n)) = .k n := by decide
theorem reg_reg (r : Reg) : reg (Encode.reg r) = r := by cases r; exacts [reg_w _, reg_s _, reg_k _]
theorem fin64_num64 : ∀ x : Fin 64, fin64 (Encode.num64 x) = .ok x := by intro x; fin_cases x <;> rfl
theorem optSreg_optSreg (b : Option SReg) : optSreg (Encode.optSreg b) = .ok b := by
  cases b with
  | none => rfl
  | some n =>
    have h : ∀ n : SReg, Encode.sreg n ≠ 0 := by decide
    have h1 : ¬ Encode.sreg n = 0#8 := h n
    simp [optSreg, Encode.optSreg, h1, sreg_sreg, Except.map]
theorem flag_bit4 (x : Bool) : flag ((Encode.bit4 x).extractLsb' 0 1) = x := by cases x <;> rfl
theorem bit4_high (x : Bool) : (Encode.bit4 x).extractLsb' 1 3 = 0 := by cases x <;> rfl
theorem flag_bit8 (x : Bool) : flag ((Encode.bit8 x).extractLsb' 0 1) = x := by cases x <;> rfl
theorem bit8_high (x : Bool) : (Encode.bit8 x).extractLsb' 1 7 = 0 := by cases x <;> rfl
theorem low8 (b : BitVec 8) : (0#8 ++ b).extractLsb' 0 8 = b := by revert b; decide
theorem high8 (b : BitVec 8) : (0#8 ++ b).extractLsb' 8 8 = 0 := by revert b; decide
theorem cvt_sty (x : Bool) (t : Ty) : (0#11 ++ Encode.flag x ++ Encode.ty t).extractLsb' 0 4 = Encode.ty t := by
  cases x <;> cases t <;> rfl
theorem cvt_sym (x : Bool) (t : Ty) : flag ((0#11 ++ Encode.flag x ++ Encode.ty t).extractLsb' 4 1) = x := by
  cases x <;> cases t <;> rfl
theorem cvt_high (x : Bool) (t : Ty) : (0#11 ++ Encode.flag x ++ Encode.ty t).extractLsb' 5 11 = 0 := by
  cases x <;> cases t <;> rfl
theorem qnt_sty (t : Ty) : (0#12 ++ Encode.ty t).extractLsb' 0 4 = Encode.ty t := by cases t <;> rfl
theorem qnt_high (t : Ty) : (0#12 ++ Encode.ty t).extractLsb' 4 12 = 0 := by cases t <;> rfl
theorem seeh_low (r : BitVec 3) : (0#13 ++ r).extractLsb' 0 3 = r := by revert r; decide
theorem seeh_high (r : BitVec 3) : (0#13 ++ r).extractLsb' 3 13 = 0 := by revert r; decide
/-- The mod byte of CPY (R165). -/
theorem cpy_dsp (a b : CpySpace) (k : CpyKind) :
    (Encode.cpySpace a ++ Encode.cpySpace b ++ Encode.cpyKind k ++ 0#2).extractLsb' 6 2 = Encode.cpySpace a := by
  cases a <;> cases b <;> cases k <;> rfl
theorem cpy_ssp (a b : CpySpace) (k : CpyKind) :
    (Encode.cpySpace a ++ Encode.cpySpace b ++ Encode.cpyKind k ++ 0#2).extractLsb' 4 2 = Encode.cpySpace b := by
  cases a <;> cases b <;> cases k <;> rfl
theorem cpy_ck (a b : CpySpace) (k : CpyKind) :
    (Encode.cpySpace a ++ Encode.cpySpace b ++ Encode.cpyKind k ++ 0#2).extractLsb' 2 2 = Encode.cpyKind k := by
  cases a <;> cases b <;> cases k <;> rfl
theorem cpy_low (a b : CpySpace) (k : CpyKind) :
    (Encode.cpySpace a ++ Encode.cpySpace b ++ Encode.cpyKind k ++ 0#2).extractLsb' 0 2 = 0 := by
  cases a <;> cases b <;> cases k <;> rfl
/-- The mod byte of TCPY (R165). -/
theorem tcpy_ck (p : Bool) (k : CpyKind) :
    ((if p then 4#4 else 1#4) ++ Encode.cpyKind k ++ 0#2).extractLsb' 2 2 = Encode.cpyKind k := by
  cases p <;> cases k <;> rfl
theorem tcpy_low (p : Bool) (k : CpyKind) :
    ((if p then 4#4 else 1#4) ++ Encode.cpyKind k ++ 0#2).extractLsb' 0 2 = 0 := by cases p <;> cases k <;> rfl
theorem tcpy_mod (p : Bool) (k : CpyKind) :
    ((if p then 4#4 else 1#4) ++ Encode.cpyKind k ++ 0#2).extractLsb' 4 4 = if p then 4#4 else 1#4 := by
  cases p <;> cases k <;> rfl
theorem reg_ne_zero (r : Reg) (h : r ≠ .w 0) : Encode.reg r ≠ 0 := by
  cases r with
  | w n =>
    have h' : ∀ n : Fin 64, n ≠ 0 → Encode.reg (.w n) ≠ 0 := by decide
    exact h' n (fun e => h (by rw [e]))
  | s n => exact (by decide : ∀ n : Fin 64, Encode.reg (.s n) ≠ 0) n
  | k n => exact (by decide : ∀ n : Fin 128, Encode.reg (.k n) ≠ 0) n
/-- An index is never W0, whose code says that there is none (R84). -/
theorem optReg_optReg (b : Option Reg) (h : idxOk b = true) : optReg (Encode.optReg b) = b := by
  cases b with
  | none => rfl
  | some r =>
    have hr : r ≠ .w 0 := by rintro rfl; simp [idxOk] at h
    have h1 : ¬ Encode.reg r = 0#8 := reg_ne_zero r hr
    simp [optReg, Encode.optReg, h1, reg_reg]

end Decode

end Sys2Proof
end

