-- ==== Sys2Proof/Laws/PerInstr.lean ====
section
/-! SUPPORT. What holds of every instruction, one lemma per constructor: decoding the word of a well-formed instruction
gives the instruction back. -/

namespace Sys2Proof

/-- Decoding the encoded word of a well-formed instruction, in a clause of its class, gives the instruction back. -/
def Laws.RoundTrip.Statement (i : Instr) : Prop :=
  i.wellFormed = true → ∀ c w, encode i = some (c, w) → decode c w = .ok i

/-- A word's round trip is that of its fields. -/
theorem Laws.roundTrip_word {i : Instr} {c : Cls} {w : W64} (he : encode i = some (c, w))
    (hf : i.wellFormed = true → Decode.fields c w = .ok i) : Laws.RoundTrip.Statement i := by
  intro hw c' w' he'
  obtain ⟨rfl, rfl⟩ := (by simpa using he.symm.trans he' : c = c' ∧ w = w')
  simp [decode, hf hw, hw]

/-- An event has no word. -/
theorem Laws.roundTrip_event {i : Instr} (he : encode i = none) : Laws.RoundTrip.Statement i :=
  fun _ c w h => by simp [he] at h

section
open Decode

theorem Laws.RoundTrip.sadd (ty : Ty) (d a b : SReg) : Laws.RoundTrip.Statement (.sadd ty d a b) :=
  Laws.roundTrip_word rfl fun _ => by
    simp [Decode.fields, Decode.sc, Encode.s3, Encode.gw, gOf_g, Decode.s3, gZero, need, ty_ty, sreg_sreg, bind,
      Except.bind, pure, Except.pure]
theorem Laws.RoundTrip.ssub (ty : Ty) (d a b : SReg) : Laws.RoundTrip.Statement (.ssub ty d a b) :=
  Laws.roundTrip_word rfl fun _ => by
    simp [Decode.fields, Decode.sc, Encode.s3, Encode.gw, gOf_g, Decode.s3, gZero, need, ty_ty, sreg_sreg, bind,
      Except.bind, pure, Except.pure]
theorem Laws.RoundTrip.smul (ty : Ty) (d a b : SReg) : Laws.RoundTrip.Statement (.smul ty d a b) :=
  Laws.roundTrip_word rfl fun _ => by
    simp [Decode.fields, Decode.sc, Encode.s3, Encode.gw, gOf_g, Decode.s3, gZero, need, ty_ty, sreg_sreg, bind,
      Except.bind, pure, Except.pure]
theorem Laws.RoundTrip.smulh (ty : Ty) (d a b : SReg) : Laws.RoundTrip.Statement (.smulh ty d a b) :=
  Laws.roundTrip_word rfl fun _ => by
    simp [Decode.fields, Decode.sc, Encode.s3, Encode.gw, gOf_g, Decode.s3, gZero, need, ty_ty, sreg_sreg, bind,
      Except.bind, pure, Except.pure]
theorem Laws.RoundTrip.sdiv (ty : Ty) (d a b : SReg) : Laws.RoundTrip.Statement (.sdiv ty d a b) :=
  Laws.roundTrip_word rfl fun _ => by
    simp [Decode.fields, Decode.sc, Encode.s3, Encode.gw, gOf_g, Decode.s3, gZero, need, ty_ty, sreg_sreg, bind,
      Except.bind, pure, Except.pure]
theorem Laws.RoundTrip.srem (ty : Ty) (d a b : SReg) : Laws.RoundTrip.Statement (.srem ty d a b) :=
  Laws.roundTrip_word rfl fun _ => by
    simp [Decode.fields, Decode.sc, Encode.s3, Encode.gw, gOf_g, Decode.s3, gZero, need, ty_ty, sreg_sreg, bind,
      Except.bind, pure, Except.pure]
theorem Laws.RoundTrip.smin (ty : Ty) (d a b : SReg) : Laws.RoundTrip.Statement (.smin ty d a b) :=
  Laws.roundTrip_word rfl fun _ => by
    simp [Decode.fields, Decode.sc, Encode.s3, Encode.gw, gOf_g, Decode.s3, gZero, need, ty_ty, sreg_sreg, bind,
      Except.bind, pure, Except.pure]
theorem Laws.RoundTrip.smax (ty : Ty) (d a b : SReg) : Laws.RoundTrip.Statement (.smax ty d a b) :=
  Laws.roundTrip_word rfl fun _ => by
    simp [Decode.fields, Decode.sc, Encode.s3, Encode.gw, gOf_g, Decode.s3, gZero, need, ty_ty, sreg_sreg, bind,
      Except.bind, pure, Except.pure]
theorem Laws.RoundTrip.sand (ty : Ty) (d a b : SReg) : Laws.RoundTrip.Statement (.sand ty d a b) :=
  Laws.roundTrip_word rfl fun _ => by
    simp [Decode.fields, Decode.sc, Encode.s3, Encode.gw, gOf_g, Decode.s3, gZero, need, ty_ty, sreg_sreg, bind,
      Except.bind, pure, Except.pure]
theorem Laws.RoundTrip.sor (ty : Ty) (d a b : SReg) : Laws.RoundTrip.Statement (.sor ty d a b) :=
  Laws.roundTrip_word rfl fun _ => by
    simp [Decode.fields, Decode.sc, Encode.s3, Encode.gw, gOf_g, Decode.s3, gZero, need, ty_ty, sreg_sreg, bind,
      Except.bind, pure, Except.pure]
theorem Laws.RoundTrip.sxor (ty : Ty) (d a b : SReg) : Laws.RoundTrip.Statement (.sxor ty d a b) :=
  Laws.roundTrip_word rfl fun _ => by
    simp [Decode.fields, Decode.sc, Encode.s3, Encode.gw, gOf_g, Decode.s3, gZero, need, ty_ty, sreg_sreg, bind,
      Except.bind, pure, Except.pure]
theorem Laws.RoundTrip.sshl (ty : Ty) (d a b : SReg) : Laws.RoundTrip.Statement (.sshl ty d a b) :=
  Laws.roundTrip_word rfl fun _ => by
    simp [Decode.fields, Decode.sc, Encode.s3, Encode.gw, gOf_g, Decode.s3, gZero, need, ty_ty, sreg_sreg, bind,
      Except.bind, pure, Except.pure]
theorem Laws.RoundTrip.sshr (ty : Ty) (d a b : SReg) : Laws.RoundTrip.Statement (.sshr ty d a b) :=
  Laws.roundTrip_word rfl fun _ => by
    simp [Decode.fields, Decode.sc, Encode.s3, Encode.gw, gOf_g, Decode.s3, gZero, need, ty_ty, sreg_sreg, bind,
      Except.bind, pure, Except.pure]
theorem Laws.RoundTrip.ssha (ty : Ty) (d a b : SReg) : Laws.RoundTrip.Statement (.ssha ty d a b) :=
  Laws.roundTrip_word rfl fun _ => by
    simp [Decode.fields, Decode.sc, Encode.s3, Encode.gw, gOf_g, Decode.s3, gZero, need, ty_ty, sreg_sreg, bind,
      Except.bind, pure, Except.pure]
theorem Laws.RoundTrip.sclz (ty : Ty) (d a : SReg) : Laws.RoundTrip.Statement (.sclz ty d a) :=
  Laws.roundTrip_word rfl fun _ => by
    simp [Decode.fields, Decode.sc, Encode.s2, Encode.gw, gOf_g, Decode.s2, gZero, need, ty_ty, sreg_sreg, bind,
      Except.bind, pure, Except.pure]
theorem Laws.RoundTrip.spopc (ty : Ty) (d a : SReg) : Laws.RoundTrip.Statement (.spopc ty d a) :=
  Laws.roundTrip_word rfl fun _ => by
    simp [Decode.fields, Decode.sc, Encode.s2, Encode.gw, gOf_g, Decode.s2, gZero, need, ty_ty, sreg_sreg, bind,
      Except.bind, pure, Except.pure]
theorem Laws.RoundTrip.scmp (rel : Rel) (ty : Ty) (d a b : SReg) : Laws.RoundTrip.Statement (.scmp rel ty d a b) :=
  Laws.roundTrip_word rfl fun _ => by
    simp [Decode.fields, Decode.sc, Encode.gw, gOf_g, gZero, need, ty_ty, rel_rel, sreg_sreg, bind, Except.bind,
      pure, Except.pure]
theorem Laws.RoundTrip.ssel (ty : Ty) (d a b c : SReg) : Laws.RoundTrip.Statement (.ssel ty d a b c) :=
  Laws.roundTrip_word rfl fun _ => by
    simp [Decode.fields, Decode.sc, Encode.gw, gOf_g, gZero, need, ty_ty, sreg_sreg, bind, Except.bind, pure,
      Except.pure]
theorem Laws.RoundTrip.smov (ty : Ty) (d a : SReg) : Laws.RoundTrip.Statement (.smov ty d a) :=
  Laws.roundTrip_word rfl fun _ => by
    simp [Decode.fields, Decode.sc, Encode.s2, Encode.gw, gOf_g, need, ty_ty, sreg_sreg, bind, Except.bind, pure,
      Except.pure]
theorem Laws.RoundTrip.smovMv (d a : SReg) : Laws.RoundTrip.Statement (.smovMv d a) :=
  Laws.roundTrip_word rfl fun _ => by
    simp [Decode.fields, Decode.sc, Encode.gw, gOf_g, need, sreg_sreg, bind, Except.bind, pure, Except.pure]
theorem Laws.RoundTrip.smovi (ty : Ty) (d : SReg) (imm : W32) : Laws.RoundTrip.Statement (.smovi ty d imm) :=
  Laws.roundTrip_word rfl fun _ => by
    simp [Decode.fields, Decode.sc, iOf_i, op_i, need, ty_ty, sreg_sreg, bind, Except.bind, pure, Except.pure]
theorem Laws.RoundTrip.sld (ord : Ord) (sc : Scope) (ty : Ty) (sp : Space) (d a : SReg) (b : Option SReg) (off : BitVec 16)
    : Laws.RoundTrip.Statement (.sld ord sc ty sp d a b off) :=
  Laws.roundTrip_word rfl fun _ => by
    simp [Decode.fields, Decode.sc, Encode.mw, mOf_m, op_m, need, sreg_sreg, optSreg_optSreg, ty_ty, ord_ord,
      scope_scope, space_space, bind, Except.bind, pure, Except.pure]
theorem Laws.RoundTrip.sst (ord : Ord) (sc : Scope) (ty : Ty) (sp : Space) (d a : SReg) (b : Option SReg) (off : BitVec 16)
    : Laws.RoundTrip.Statement (.sst ord sc ty sp d a b off) :=
  Laws.roundTrip_word rfl fun _ => by
    simp [Decode.fields, Decode.sc, Encode.mw, mOf_m, op_m, need, sreg_sreg, optSreg_optSreg, ty_ty, ord_ord,
      scope_scope, space_space, bind, Except.bind, pure, Except.pure]
theorem Laws.RoundTrip.sprm (ty : Ty) (d : SReg) (imm : W32) : Laws.RoundTrip.Statement (.sprm ty d imm) :=
  Laws.roundTrip_word rfl fun _ => by
    simp [Decode.fields, Decode.sc, iOf_i, op_i, need, ty_ty, sreg_sreg, bind, Except.bind, pure, Except.pure]
theorem Laws.RoundTrip.sget (q : BitVec 16) (d : SReg) (a b : Option SReg)
    : Laws.RoundTrip.Statement (.sget q d a b) :=
  Laws.roundTrip_word rfl fun _ => by
    simp [Decode.fields, Decode.sc, Encode.gw, gOf_g, gZero, need, sreg_sreg, optSreg_optSreg, bind, Except.bind,
      pure, Except.pure]
theorem Laws.RoundTrip.sset (q : BitVec 16) (a : SReg) : Laws.RoundTrip.Statement (.sset q a) :=
  Laws.roundTrip_word rfl fun _ => by
    simp [Decode.fields, Decode.sc, Encode.gw, gOf_g, gZero, need, sreg_sreg, bind, Except.bind, pure, Except.pure]
theorem Laws.RoundTrip.add (ty : Ty) (d a b : Reg) : Laws.RoundTrip.Statement (.add ty d a b) :=
  Laws.roundTrip_word rfl fun _ => by
    simp [Decode.fields, Decode.vx, Encode.v3, Encode.gw, gOf_g, Decode.v3, gZero, need, ty_ty, reg_reg, bind,
      Except.bind, pure, Except.pure]
theorem Laws.RoundTrip.sub (ty : Ty) (d a b : Reg) : Laws.RoundTrip.Statement (.sub ty d a b) :=
  Laws.roundTrip_word rfl fun _ => by
    simp [Decode.fields, Decode.vx, Encode.v3, Encode.gw, gOf_g, Decode.v3, gZero, need, ty_ty, reg_reg, bind,
      Except.bind, pure, Except.pure]
theorem Laws.RoundTrip.mul (ty : Ty) (d a b : Reg) : Laws.RoundTrip.Statement (.mul ty d a b) :=
  Laws.roundTrip_word rfl fun _ => by
    simp [Decode.fields, Decode.vx, Encode.v3, Encode.gw, gOf_g, Decode.v3, gZero, need, ty_ty, reg_reg, bind,
      Except.bind, pure, Except.pure]
theorem Laws.RoundTrip.mulh (ty : Ty) (d a b : Reg) : Laws.RoundTrip.Statement (.mulh ty d a b) :=
  Laws.roundTrip_word rfl fun _ => by
    simp [Decode.fields, Decode.vx, Encode.v3, Encode.gw, gOf_g, Decode.v3, gZero, need, ty_ty, reg_reg, bind,
      Except.bind, pure, Except.pure]
theorem Laws.RoundTrip.mad (ty : Ty) (d a b c : Reg) : Laws.RoundTrip.Statement (.mad ty d a b c) :=
  Laws.roundTrip_word rfl fun _ => by
    simp [Decode.fields, Decode.vx, Encode.gw, gOf_g, Decode.v4, gZero, need, ty_ty, reg_reg, bind, Except.bind,
      pure, Except.pure]
theorem Laws.RoundTrip.div (ty : Ty) (d a b : Reg) : Laws.RoundTrip.Statement (.div ty d a b) :=
  Laws.roundTrip_word rfl fun _ => by
    simp [Decode.fields, Decode.vx, Encode.v3, Encode.gw, gOf_g, Decode.v3, gZero, need, ty_ty, reg_reg, bind,
      Except.bind, pure, Except.pure]
theorem Laws.RoundTrip.rem (ty : Ty) (d a b : Reg) : Laws.RoundTrip.Statement (.rem ty d a b) :=
  Laws.roundTrip_word rfl fun _ => by
    simp [Decode.fields, Decode.vx, Encode.v3, Encode.gw, gOf_g, Decode.v3, gZero, need, ty_ty, reg_reg, bind,
      Except.bind, pure, Except.pure]
theorem Laws.RoundTrip.min (ty : Ty) (d a b : Reg) : Laws.RoundTrip.Statement (.min ty d a b) :=
  Laws.roundTrip_word rfl fun _ => by
    simp [Decode.fields, Decode.vx, Encode.v3, Encode.gw, gOf_g, Decode.v3, gZero, need, ty_ty, reg_reg, bind,
      Except.bind, pure, Except.pure]
theorem Laws.RoundTrip.max (ty : Ty) (d a b : Reg) : Laws.RoundTrip.Statement (.max ty d a b) :=
  Laws.roundTrip_word rfl fun _ => by
    simp [Decode.fields, Decode.vx, Encode.v3, Encode.gw, gOf_g, Decode.v3, gZero, need, ty_ty, reg_reg, bind,
      Except.bind, pure, Except.pure]
theorem Laws.RoundTrip.abs (ty : Ty) (d a : Reg) : Laws.RoundTrip.Statement (.abs ty d a) :=
  Laws.roundTrip_word rfl fun _ => by
    simp [Decode.fields, Decode.vx, Encode.v2, Encode.gw, gOf_g, Decode.v2, gZero, need, ty_ty, reg_reg, bind,
      Except.bind, pure, Except.pure]
theorem Laws.RoundTrip.neg (ty : Ty) (d a : Reg) : Laws.RoundTrip.Statement (.neg ty d a) :=
  Laws.roundTrip_word rfl fun _ => by
    simp [Decode.fields, Decode.vx, Encode.v2, Encode.gw, gOf_g, Decode.v2, gZero, need, ty_ty, reg_reg, bind,
      Except.bind, pure, Except.pure]
theorem Laws.RoundTrip.and (ty : Ty) (d a b : Reg) : Laws.RoundTrip.Statement (.and ty d a b) :=
  Laws.roundTrip_word rfl fun _ => by
    simp [Decode.fields, Decode.vx, Encode.v3, Encode.gw, gOf_g, Decode.v3, gZero, need, ty_ty, reg_reg, bind,
      Except.bind, pure, Except.pure]
theorem Laws.RoundTrip.or (ty : Ty) (d a b : Reg) : Laws.RoundTrip.Statement (.or ty d a b) :=
  Laws.roundTrip_word rfl fun _ => by
    simp [Decode.fields, Decode.vx, Encode.v3, Encode.gw, gOf_g, Decode.v3, gZero, need, ty_ty, reg_reg, bind,
      Except.bind, pure, Except.pure]
theorem Laws.RoundTrip.xor (ty : Ty) (d a b : Reg) : Laws.RoundTrip.Statement (.xor ty d a b) :=
  Laws.roundTrip_word rfl fun _ => by
    simp [Decode.fields, Decode.vx, Encode.v3, Encode.gw, gOf_g, Decode.v3, gZero, need, ty_ty, reg_reg, bind,
      Except.bind, pure, Except.pure]
theorem Laws.RoundTrip.not (ty : Ty) (d a : Reg) : Laws.RoundTrip.Statement (.not ty d a) :=
  Laws.roundTrip_word rfl fun _ => by
    simp [Decode.fields, Decode.vx, Encode.v2, Encode.gw, gOf_g, Decode.v2, gZero, need, ty_ty, reg_reg, bind,
      Except.bind, pure, Except.pure]
theorem Laws.RoundTrip.shl (ty : Ty) (d a b : Reg) : Laws.RoundTrip.Statement (.shl ty d a b) :=
  Laws.roundTrip_word rfl fun _ => by
    simp [Decode.fields, Decode.vx, Encode.v3, Encode.gw, gOf_g, Decode.v3, gZero, need, ty_ty, reg_reg, bind,
      Except.bind, pure, Except.pure]
theorem Laws.RoundTrip.shr (ty : Ty) (d a b : Reg) : Laws.RoundTrip.Statement (.shr ty d a b) :=
  Laws.roundTrip_word rfl fun _ => by
    simp [Decode.fields, Decode.vx, Encode.v3, Encode.gw, gOf_g, Decode.v3, gZero, need, ty_ty, reg_reg, bind,
      Except.bind, pure, Except.pure]
theorem Laws.RoundTrip.sha (ty : Ty) (d a b : Reg) : Laws.RoundTrip.Statement (.sha ty d a b) :=
  Laws.roundTrip_word rfl fun _ => by
    simp [Decode.fields, Decode.vx, Encode.v3, Encode.gw, gOf_g, Decode.v3, gZero, need, ty_ty, reg_reg, bind,
      Except.bind, pure, Except.pure]
theorem Laws.RoundTrip.clz (ty : Ty) (d a : Reg) : Laws.RoundTrip.Statement (.clz ty d a) :=
  Laws.roundTrip_word rfl fun _ => by
    simp [Decode.fields, Decode.vx, Encode.v2, Encode.gw, gOf_g, Decode.v2, gZero, need, ty_ty, reg_reg, bind,
      Except.bind, pure, Except.pure]
theorem Laws.RoundTrip.popc (ty : Ty) (d a : Reg) : Laws.RoundTrip.Statement (.popc ty d a) :=
  Laws.roundTrip_word rfl fun _ => by
    simp [Decode.fields, Decode.vx, Encode.v2, Encode.gw, gOf_g, Decode.v2, gZero, need, ty_ty, reg_reg, bind,
      Except.bind, pure, Except.pure]
theorem Laws.RoundTrip.brev (ty : Ty) (d a : Reg) : Laws.RoundTrip.Statement (.brev ty d a) :=
  Laws.roundTrip_word rfl fun _ => by
    simp [Decode.fields, Decode.vx, Encode.v2, Encode.gw, gOf_g, Decode.v2, gZero, need, ty_ty, reg_reg, bind,
      Except.bind, pure, Except.pure]
theorem Laws.RoundTrip.cmp (rel : Rel) (ty : Ty) (push : Bool) (d a b : Reg)
    : Laws.RoundTrip.Statement (.cmp rel ty push d a b) :=
  Laws.roundTrip_word rfl fun _ => by
    simp [Decode.fields, Decode.vx, Encode.gw, gOf_g, need, ty_ty, rel_rel, flag_flag, reg_reg, bind, Except.bind,
      pure, Except.pure]
theorem Laws.RoundTrip.sel (ty : Ty) (d a b c : Reg) : Laws.RoundTrip.Statement (.sel ty d a b c) :=
  Laws.roundTrip_word rfl fun _ => by
    simp [Decode.fields, Decode.vx, Encode.gw, gOf_g, Decode.v4, gZero, need, ty_ty, reg_reg, bind, Except.bind,
      pure, Except.pure]
theorem Laws.RoundTrip.mov (ty : Ty) (d a : Reg) : Laws.RoundTrip.Statement (.mov ty d a) :=
  Laws.roundTrip_word rfl fun _ => by
    simp [Decode.fields, Decode.vx, Encode.v2, Encode.gw, gOf_g, Decode.v2, gZero, need, ty_ty, reg_reg, bind,
      Except.bind, pure, Except.pure]
theorem Laws.RoundTrip.movi (ty : Ty) (d : Reg) (imm : W32) : Laws.RoundTrip.Statement (.movi ty d imm) :=
  Laws.roundTrip_word rfl fun _ => by
    simp [Decode.fields, Decode.vx, iOf_i, op_i, need, ty_ty, reg_reg, bind, Except.bind, pure, Except.pure]
theorem Laws.RoundTrip.bcst (ty : Ty) (d : Reg) (a : SReg) : Laws.RoundTrip.Statement (.bcst ty d a) :=
  Laws.roundTrip_word rfl fun _ => by
    simp [Decode.fields, Decode.vx, Encode.gw, gOf_g, gZero, need, ty_ty, sreg_sreg, reg_reg, bind, Except.bind,
      pure, Except.pure]
theorem Laws.RoundTrip.idx (q : BitVec 16) (d : Reg) : Laws.RoundTrip.Statement (.idx q d) :=
  Laws.roundTrip_word rfl fun _ => by
    simp [Decode.fields, Decode.vx, Encode.gw, gOf_g, gZero, need, reg_reg, bind, Except.bind, pure, Except.pure]
theorem Laws.RoundTrip.fadd (ty : Ty) (rm : Rm) (d a b : Reg) : Laws.RoundTrip.Statement (.fadd ty rm d a b) :=
  Laws.roundTrip_word rfl fun _ => by
    simp [Decode.fields, Decode.vx, Encode.f3, Encode.gw, gOf_g, Decode.f3, need, ty_ty, reg_reg, rm_rm, bind,
      Except.bind, pure, Except.pure]
theorem Laws.RoundTrip.fsub (ty : Ty) (rm : Rm) (d a b : Reg) : Laws.RoundTrip.Statement (.fsub ty rm d a b) :=
  Laws.roundTrip_word rfl fun _ => by
    simp [Decode.fields, Decode.vx, Encode.f3, Encode.gw, gOf_g, Decode.f3, need, ty_ty, reg_reg, rm_rm, bind,
      Except.bind, pure, Except.pure]
theorem Laws.RoundTrip.fmul (ty : Ty) (rm : Rm) (d a b : Reg) : Laws.RoundTrip.Statement (.fmul ty rm d a b) :=
  Laws.roundTrip_word rfl fun _ => by
    simp [Decode.fields, Decode.vx, Encode.f3, Encode.gw, gOf_g, Decode.f3, need, ty_ty, reg_reg, rm_rm, bind,
      Except.bind, pure, Except.pure]
theorem Laws.RoundTrip.fma (ty : Ty) (rm : Rm) (d a b c : Reg) : Laws.RoundTrip.Statement (.fma ty rm d a b c) :=
  Laws.roundTrip_word rfl fun _ => by
    simp [Decode.fields, Decode.vx, Encode.gw, gOf_g, need, ty_ty, rm_rm, reg_reg, bind, Except.bind, pure,
      Except.pure]
theorem Laws.RoundTrip.fmin (ty : Ty) (d a b : Reg) : Laws.RoundTrip.Statement (.fmin ty d a b) :=
  Laws.roundTrip_word rfl fun _ => by
    simp [Decode.fields, Decode.vx, Encode.v3, Encode.gw, gOf_g, Decode.v3, gZero, need, ty_ty, reg_reg, bind,
      Except.bind, pure, Except.pure]
theorem Laws.RoundTrip.fmax (ty : Ty) (d a b : Reg) : Laws.RoundTrip.Statement (.fmax ty d a b) :=
  Laws.roundTrip_word rfl fun _ => by
    simp [Decode.fields, Decode.vx, Encode.v3, Encode.gw, gOf_g, Decode.v3, gZero, need, ty_ty, reg_reg, bind,
      Except.bind, pure, Except.pure]
theorem Laws.RoundTrip.fabs (ty : Ty) (d a : Reg) : Laws.RoundTrip.Statement (.fabs ty d a) :=
  Laws.roundTrip_word rfl fun _ => by
    simp [Decode.fields, Decode.vx, Encode.v2, Encode.gw, gOf_g, Decode.v2, gZero, need, ty_ty, reg_reg, bind,
      Except.bind, pure, Except.pure]
theorem Laws.RoundTrip.fneg (ty : Ty) (d a : Reg) : Laws.RoundTrip.Statement (.fneg ty d a) :=
  Laws.roundTrip_word rfl fun _ => by
    simp [Decode.fields, Decode.vx, Encode.v2, Encode.gw, gOf_g, Decode.v2, gZero, need, ty_ty, reg_reg, bind,
      Except.bind, pure, Except.pure]
theorem Laws.RoundTrip.fcmp (rel : Rel) (ty : Ty) (push : Bool) (d a b : Reg)
    : Laws.RoundTrip.Statement (.fcmp rel ty push d a b) :=
  Laws.roundTrip_word rfl fun _ => by
    simp [Decode.fields, Decode.vx, Encode.gw, gOf_g, need, ty_ty, rel_rel, flag_flag, reg_reg, bind, Except.bind,
      pure, Except.pure]
theorem Laws.RoundTrip.fclass (ty : Ty) (d a : Reg) : Laws.RoundTrip.Statement (.fclass ty d a) :=
  Laws.roundTrip_word rfl fun _ => by
    simp [Decode.fields, Decode.vx, Encode.v2, Encode.gw, gOf_g, Decode.v2, gZero, need, ty_ty, reg_reg, bind,
      Except.bind, pure, Except.pure]
theorem Laws.RoundTrip.frcp (ty : Ty) (rm : Rm) (d a : Reg) : Laws.RoundTrip.Statement (.frcp ty rm d a) :=
  Laws.roundTrip_word rfl fun _ => by
    simp [Decode.fields, Decode.vx, Encode.f2, Encode.gw, gOf_g, Decode.f2, need, ty_ty, reg_reg, rm_rm, bind,
      Except.bind, pure, Except.pure]
theorem Laws.RoundTrip.frsq (ty : Ty) (rm : Rm) (d a : Reg) : Laws.RoundTrip.Statement (.frsq ty rm d a) :=
  Laws.roundTrip_word rfl fun _ => by
    simp [Decode.fields, Decode.vx, Encode.f2, Encode.gw, gOf_g, Decode.f2, need, ty_ty, reg_reg, rm_rm, bind,
      Except.bind, pure, Except.pure]
theorem Laws.RoundTrip.fsqrt (ty : Ty) (rm : Rm) (d a : Reg) : Laws.RoundTrip.Statement (.fsqrt ty rm d a) :=
  Laws.roundTrip_word rfl fun _ => by
    simp [Decode.fields, Decode.vx, Encode.f2, Encode.gw, gOf_g, Decode.f2, need, ty_ty, reg_reg, rm_rm, bind,
      Except.bind, pure, Except.pure]
theorem Laws.RoundTrip.fdiv (ty : Ty) (rm : Rm) (d a b : Reg) : Laws.RoundTrip.Statement (.fdiv ty rm d a b) :=
  Laws.roundTrip_word rfl fun _ => by
    simp [Decode.fields, Decode.vx, Encode.f3, Encode.gw, gOf_g, Decode.f3, need, ty_ty, reg_reg, rm_rm, bind,
      Except.bind, pure, Except.pure]
theorem Laws.RoundTrip.fexp2 (ty : Ty) (rm : Rm) (d a : Reg) : Laws.RoundTrip.Statement (.fexp2 ty rm d a) :=
  Laws.roundTrip_word rfl fun _ => by
    simp [Decode.fields, Decode.vx, Encode.f2, Encode.gw, gOf_g, Decode.f2, need, ty_ty, reg_reg, rm_rm, bind,
      Except.bind, pure, Except.pure]
theorem Laws.RoundTrip.flog2 (ty : Ty) (rm : Rm) (d a : Reg) : Laws.RoundTrip.Statement (.flog2 ty rm d a) :=
  Laws.roundTrip_word rfl fun _ => by
    simp [Decode.fields, Decode.vx, Encode.f2, Encode.gw, gOf_g, Decode.f2, need, ty_ty, reg_reg, rm_rm, bind,
      Except.bind, pure, Except.pure]
theorem Laws.RoundTrip.cvt (dty sty : Ty) (sym : Bool) (rm : Rm) (d a : Reg)
    : Laws.RoundTrip.Statement (.cvt dty sty sym rm d a) :=
  Laws.roundTrip_word rfl fun _ => by
    simp [Decode.fields, Decode.vx, Encode.gw, gOf_g, need, ty_ty, rm_rm, reg_reg, cvt_sty, cvt_sym,
      cvt_high, bind, Except.bind, pure, Except.pure]
theorem Laws.RoundTrip.rfwd (ty : Ty) (d a : Reg) : Laws.RoundTrip.Statement (.rfwd ty d a) :=
  Laws.roundTrip_word rfl fun _ => by
    simp [Decode.fields, Decode.vx, Encode.v2, Encode.gw, gOf_g, Decode.v2, gZero, need, ty_ty, reg_reg, bind,
      Except.bind, pure, Except.pure]
theorem Laws.RoundTrip.radd (d a b : Reg) : Laws.RoundTrip.Statement (.radd d a b) :=
  Laws.roundTrip_word rfl fun _ => by
    simp [Decode.fields, Decode.vx, Encode.v3, Encode.gw, gOf_g, Decode.r3, gZero, need, reg_reg, Encode.ty,
      bind, Except.bind, pure, Except.pure]
theorem Laws.RoundTrip.rmul (d a b : Reg) : Laws.RoundTrip.Statement (.rmul d a b) :=
  Laws.roundTrip_word rfl fun _ => by
    simp [Decode.fields, Decode.vx, Encode.v3, Encode.gw, gOf_g, Decode.r3, gZero, need, reg_reg, Encode.ty,
      bind, Except.bind, pure, Except.pure]
theorem Laws.RoundTrip.rmad (d a b c : Reg) : Laws.RoundTrip.Statement (.rmad d a b c) :=
  Laws.roundTrip_word rfl fun _ => by
    simp [Decode.fields, Decode.vx, Encode.gw, gOf_g, gZero, need, reg_reg, bind, Except.bind, pure, Except.pure]
theorem Laws.RoundTrip.rback (d a : Reg) : Laws.RoundTrip.Statement (.rback d a) :=
  Laws.roundTrip_word rfl fun _ => by
    simp [Decode.fields, Decode.vx, Encode.v2, Encode.gw, gOf_g, Decode.r2, gZero, need, reg_reg, Encode.ty,
      bind, Except.bind, pure, Except.pure]
theorem Laws.RoundTrip.qnt (dty sty : Ty) (rm : Rm) (d a b : Reg) : Laws.RoundTrip.Statement (.qnt dty sty rm d a b) :=
  Laws.roundTrip_word rfl fun _ => by
    simp [Decode.fields, Decode.vx, Encode.gw, gOf_g, need, ty_ty, rm_rm, reg_reg, qnt_sty, qnt_high, bind,
      Except.bind, pure, Except.pure]
theorem Laws.RoundTrip.dqnt (ty : Ty) (d a b : Reg) : Laws.RoundTrip.Statement (.dqnt ty d a b) :=
  Laws.roundTrip_word rfl fun _ => by
    simp [Decode.fields, Decode.vx, Encode.v3, Encode.gw, gOf_g, Decode.v3, gZero, need, ty_ty, reg_reg, bind,
      Except.bind, pure, Except.pure]
theorem Laws.RoundTrip.cmpr (ty : Ty) (d a : Reg) : Laws.RoundTrip.Statement (.cmpr ty d a) :=
  Laws.roundTrip_word rfl fun _ => by
    simp [Decode.fields, Decode.vx, Encode.v2, Encode.gw, gOf_g, Decode.v2, gZero, need, ty_ty, reg_reg, bind,
      Except.bind, pure, Except.pure]
theorem Laws.RoundTrip.xpnd (ty : Ty) (d a : Reg) : Laws.RoundTrip.Statement (.xpnd ty d a) :=
  Laws.roundTrip_word rfl fun _ => by
    simp [Decode.fields, Decode.vx, Encode.v2, Encode.gw, gOf_g, Decode.v2, gZero, need, ty_ty, reg_reg, bind,
      Except.bind, pure, Except.pure]
theorem Laws.RoundTrip.tcfg (cv td : Fin 16) (sa : SReg) : Laws.RoundTrip.Statement (.tcfg cv td sa) :=
  Laws.roundTrip_word rfl fun _ => by
    simp [Decode.fields, Decode.tx, Encode.tw, tOf_t, tZero, need, fin16_fin16, sreg_sreg, bind, Except.bind, pure,
      Except.pure]
theorem Laws.RoundTrip.tzero (cv : Fin 16) (acc : Bool) (td : Fin 16) : Laws.RoundTrip.Statement (.tzero cv acc td) :=
  Laws.roundTrip_word rfl fun _ => by
    simp [Decode.fields, Decode.tx, Encode.tw, tOf_t, tZero, need, flag_flag, fin16_fin16, bind, Except.bind, pure,
      Except.pure]
theorem Laws.RoundTrip.tld (cv td : Fin 16) (base stride : SReg) (sparse scratch : Bool)
    : Laws.RoundTrip.Statement (.tld cv td base stride sparse scratch) :=
  Laws.roundTrip_word rfl fun _ => by
    simp [Decode.fields, Decode.tx, Encode.tw, tOf_t, tZero, need, flag_flag, fin16_fin16, sreg_sreg, bind,
      Except.bind, pure, Except.pure]
theorem Laws.RoundTrip.tst (cv td : Fin 16) (base stride : SReg) (scratch : Bool)
    : Laws.RoundTrip.Statement (.tst cv td base stride scratch) :=
  Laws.roundTrip_word rfl fun _ => by
    simp [Decode.fields, Decode.tx, Encode.tw, tOf_t, tZero, need, flag_flag, fin16_fin16, sreg_sreg, bind,
      Except.bind, pure, Except.pure]
theorem Laws.RoundTrip.tlds (cv td : Fin 16) (src : Reg) (half col : Bool) (ix : SReg) (imm : BitVec 8)
    : Laws.RoundTrip.Statement (.tlds cv td src half col ix imm) :=
  Laws.roundTrip_word rfl fun _ => by
    simp [Decode.fields, Decode.tx, Encode.tw, tOf_t, tZero, need, flag_flag, fin16_fin16, sx_sx, reg_reg, bind,
      Except.bind, pure, Except.pure]
theorem Laws.RoundTrip.tsts (cv td : Fin 16) (kd : Fin 128) (half col : Bool) (ix : SReg) (imm : BitVec 8)
    : Laws.RoundTrip.Statement (.tsts cv td kd half col ix imm) :=
  Laws.roundTrip_word rfl fun _ => by
    simp [Decode.fields, Decode.tx, Encode.tw, tOf_t, tZero, need, flag_flag, fin16_fin16, sx_sx, kreg_kreg, bind,
      Except.bind, pure, Except.pure]
theorem Laws.RoundTrip.ttrn (cv td ta : Fin 16) : Laws.RoundTrip.Statement (.ttrn cv td ta) :=
  Laws.roundTrip_word rfl fun _ => by
    simp [Decode.fields, Decode.tx, Encode.tw, tOf_t, tZero, need, fin16_fin16, bind, Except.bind, pure, Except.pure]
theorem Laws.RoundTrip.tmma (cv : Fin 16) (opn : Bool) (ty : Ty) (rm : Rm) (ad : Fin 8) (ta tb : Fin 16) (sa sb : Reg) (bsel : Bool)
    : Laws.RoundTrip.Statement (.tmma cv opn ty rm ad ta tb sa sb bsel) :=
  Laws.roundTrip_word rfl fun _ => by
    simp [Decode.fields, Decode.tx, Encode.tw, tOf_t, tZero, need, ty_ty, rm_rm, flag_flag, fin16_fin16, acc_acc,
      reg_reg, bind, Except.bind, pure, Except.pure]
theorem Laws.RoundTrip.tmmf (cv : Fin 16) (ty : Ty) (rm : Rm) (ad : Fin 8) (ta tb : Fin 16)
    : Laws.RoundTrip.Statement (.tmmf cv ty rm ad ta tb) :=
  Laws.roundTrip_word rfl fun _ => by
    simp [Decode.fields, Decode.tx, Encode.tw, tOf_t, tZero, need, ty_ty, rm_rm, fin16_fin16, acc_acc, bind,
      Except.bind, pure, Except.pure]
theorem Laws.RoundTrip.tspm (cv : Fin 16) (opn : Bool) (ty : Ty) (rm : Rm) (ad : Fin 8) (ta tb : Fin 16) (sa sb : Reg) (bsel : Bool)
    : Laws.RoundTrip.Statement (.tspm cv opn ty rm ad ta tb sa sb bsel) :=
  Laws.roundTrip_word rfl fun _ => by
    simp [Decode.fields, Decode.tx, Encode.tw, tOf_t, tZero, need, ty_ty, rm_rm, flag_flag, fin16_fin16, acc_acc,
      reg_reg, bind, Except.bind, pure, Except.pure]
theorem Laws.RoundTrip.tclose (cv : Fin 16) (rm : Rm) (ad : Fin 8) (sa sb : Reg) (bsel : Bool)
    : Laws.RoundTrip.Statement (.tclose cv rm ad sa sb bsel) :=
  Laws.roundTrip_word rfl fun _ => by
    simp [Decode.fields, Decode.tx, Encode.tw, tOf_t, tZero, need, rm_rm, flag_flag, fin16_fin16, acc_acc, reg_reg,
      bind, Except.bind, pure, Except.pure]
theorem Laws.RoundTrip.tdrain (cv : Fin 16) (rm : Rm) (td : Fin 16) (aa : Fin 8) (half : Bool)
    : Laws.RoundTrip.Statement (.tdrain cv rm td aa half) :=
  Laws.roundTrip_word rfl fun _ => by
    simp [Decode.fields, Decode.tx, Encode.tw, tOf_t, tZero, need, rm_rm, flag_flag, fin16_fin16, acc_acc, bind,
      Except.bind, pure, Except.pure]
theorem Laws.RoundTrip.tqnt (cv : Fin 16) (ty : Ty) (rm : Rm) (td : Fin 16) (aa : Fin 8) (kd : Fin 128)
    : Laws.RoundTrip.Statement (.tqnt cv ty rm td aa kd) :=
  Laws.roundTrip_word rfl fun _ => by
    simp [Decode.fields, Decode.tx, Encode.tw, tOf_t, tZero, need, ty_ty, rm_rm, fin16_fin16, acc_acc, kreg_kreg,
      bind, Except.bind, pure, Except.pure]
theorem Laws.RoundTrip.tgemm (cv : Fin 16) (ty : Ty) (rm : Rm) (ad : Fin 8) (ta tb : Fin 16) (sa sb : Reg) (bsel : Bool) (sn : SReg)
    : Laws.RoundTrip.Statement (.tgemm cv ty rm ad ta tb sa sb bsel sn) :=
  Laws.roundTrip_word rfl fun _ => by
    simp [Decode.fields, Decode.tx, Encode.tw, tOf_t, tZero, need, ty_ty, rm_rm, flag_flag, fin16_fin16, acc_acc,
      sx_sx, reg_reg, bind, Except.bind, pure, Except.pure]
theorem Laws.RoundTrip.tgemmPhase (team : Nat) : Laws.RoundTrip.Statement (.tgemmPhase team) := Laws.roundTrip_event rfl
theorem Laws.RoundTrip.ld (ord : Ord) (sc : Scope) (ty : Ty) (sp : Space) (d a : Reg) (b : Option Reg) (off : BitVec 16)
    : Laws.RoundTrip.Statement (.ld ord sc ty sp d a b off) :=
  Laws.roundTrip_word rfl fun hw => by
    have hb : idxOk b = true := by
      simp only [Instr.wellFormed, Bool.and_eq_true] at hw
      exact hw.2
    simp [Decode.fields, Decode.mx, Encode.mw, mOf_m, need, reg_reg, ty_ty, ord_ord, scope_scope, space_space,
      optReg_optReg _ hb, bind, Except.bind, pure, Except.pure]
theorem Laws.RoundTrip.st (ord : Ord) (sc : Scope) (ty : Ty) (sp : Space) (d a : Reg) (b : Option Reg) (off : BitVec 16)
    : Laws.RoundTrip.Statement (.st ord sc ty sp d a b off) :=
  Laws.roundTrip_word rfl fun hw => by
    have hb : idxOk b = true := by
      simp only [Instr.wellFormed, Bool.and_eq_true] at hw
      exact hw.2
    simp [Decode.fields, Decode.mx, Encode.mw, mOf_m, need, reg_reg, ty_ty, ord_ord, scope_scope, space_space,
      optReg_optReg _ hb, bind, Except.bind, pure, Except.pure]
theorem Laws.RoundTrip.ldsee (np : Bool) (ord : Ord) (sc : Scope) (ty : Ty) (d : Reg) (a : SReg) (b : Option Reg) (off : BitVec 16)
    : Laws.RoundTrip.Statement (.ldsee np ord sc ty d a b off) :=
  Laws.roundTrip_word rfl fun hw => by
    have hb : idxOk b = true := by
      simp only [Instr.wellFormed, Bool.and_eq_true] at hw
      exact hw.2
    simp [Decode.fields, Decode.mx, Encode.mw, mOf_m, need, sreg_sreg, reg_reg, ty_ty, ord_ord, scope_scope,
      optReg_optReg _ hb, flag_bit4, bit4_high, Encode.space, bind, Except.bind, pure, Except.pure]
theorem Laws.RoundTrip.ldp (ty : Ty) (sp : Space) (d a : Reg) (b : Option Reg) (off : BitVec 16)
    : Laws.RoundTrip.Statement (.ldp ty sp d a b off) :=
  Laws.roundTrip_word rfl fun hw => by
    have hb : idxOk b = true := by
      simp only [Instr.wellFormed, Bool.and_eq_true] at hw
      exact hw.2
    simp [Decode.fields, Decode.mx, Encode.mw, mOf_m, need, reg_reg, ty_ty, space_space,
      optReg_optReg _ hb, Encode.ord, Encode.scope, bind, Except.bind, pure, Except.pure]
theorem Laws.RoundTrip.atom (aop : Aop) (ord : Ord) (sc : Scope) (ty : Ty) (sp : Space) (d a b : Reg) (off : BitVec 16)
    : Laws.RoundTrip.Statement (.atom aop ord sc ty sp d a b off) :=
  Laws.roundTrip_word rfl fun _ => by
    simp [Decode.fields, Decode.mx, Encode.mw, mOf_m, aop_aop, reg_reg, ty_ty, ord_ord, scope_scope,
      space_space, bind, Except.bind, pure, Except.pure]
theorem Laws.RoundTrip.red (aop : Aop) (ord : Ord) (sc : Scope) (ty : Ty) (sp : Space) (a b : Reg) (off : BitVec 16)
    : Laws.RoundTrip.Statement (.red aop ord sc ty sp a b off) :=
  Laws.roundTrip_word rfl fun _ => by
    simp [Decode.fields, Decode.mx, Encode.mw, mOf_m, need, aop_aop, reg_reg, ty_ty, ord_ord, scope_scope,
      space_space, bind, Except.bind, pure, Except.pure]
theorem Laws.RoundTrip.fence (ord : Ord) (sc : Scope) : Laws.RoundTrip.Statement (.fence ord sc) :=
  Laws.roundTrip_word rfl fun _ => by
    simp [Decode.fields, Decode.mx, Encode.mw, mOf_m, need, ord_ord, scope_scope,
      Encode.space, Encode.ty, bind, Except.bind, pure, Except.pure]
theorem Laws.RoundTrip.pref (ty : Ty) (sp : Space) (a : Reg) (b : Option Reg) (off : BitVec 16)
    : Laws.RoundTrip.Statement (.pref ty sp a b off) :=
  Laws.roundTrip_word rfl fun hw => by
    have hb : idxOk b = true := by
      simp only [Instr.wellFormed, Bool.and_eq_true] at hw
      exact hw.2
    simp [Decode.fields, Decode.mx, Encode.mw, mOf_m, need, reg_reg, ty_ty, space_space,
      optReg_optReg _ hb, Encode.ord, Encode.scope, bind, Except.bind, pure, Except.pure]
theorem Laws.RoundTrip.bra (t : BitVec 24) : Laws.RoundTrip.Statement (.bra t) :=
  Laws.roundTrip_word rfl fun _ => by
    simp [Decode.fields, Decode.cf, Encode.cw, cOf_c, cZero, need, bind, Except.bind, pure, Except.pure]
theorem Laws.RoundTrip.brc (t : BitVec 24) : Laws.RoundTrip.Statement (.brc t) :=
  Laws.roundTrip_word rfl fun _ => by
    simp [Decode.fields, Decode.cf, Encode.cw, cOf_c, cZero, need, bind, Except.bind, pure, Except.pure]
theorem Laws.RoundTrip.bsw (t : BitVec 24) (a : Reg) (n : BitVec 16) : Laws.RoundTrip.Statement (.bsw t a n) :=
  Laws.roundTrip_word rfl fun _ => by
    simp [Decode.fields, Decode.cf, Encode.cw, cOf_c, cZero, need, reg_reg, bind, Except.bind, pure, Except.pure]
theorem Laws.RoundTrip.call (t : BitVec 24) (a : Fin 128) : Laws.RoundTrip.Statement (.call t a) :=
  Laws.roundTrip_word rfl fun _ => by
    simp [Decode.fields, Decode.cf, Encode.cw, cOf_c, cZero, need, kreg_kreg, bind, Except.bind, pure, Except.pure]
theorem Laws.RoundTrip.ret (a : Reg) : Laws.RoundTrip.Statement (.ret a) :=
  Laws.roundTrip_word rfl fun _ => by
    simp [Decode.fields, Decode.cf, Encode.cw, cOf_c, cZero, need, reg_reg, bind, Except.bind, pure, Except.pure]
theorem Laws.RoundTrip.exit : Laws.RoundTrip.Statement (.exit) :=
  Laws.roundTrip_word rfl fun _ => by
    simp [Decode.fields, Decode.cf, Encode.cw, cOf_c, cZero, Decode.bare, need, bind, Except.bind, pure, Except.pure]
theorem Laws.RoundTrip.yield (t : BitVec 24) : Laws.RoundTrip.Statement (.yield t) :=
  Laws.roundTrip_word rfl fun _ => by
    simp [Decode.fields, Decode.cf, Encode.cw, cOf_c, cZero, need, bind, Except.bind, pure, Except.pure]
theorem Laws.RoundTrip.pnot : Laws.RoundTrip.Statement (.pnot) :=
  Laws.roundTrip_word rfl fun _ => by
    simp [Decode.fields, Decode.cf, Encode.cw, cOf_c, cZero, Decode.bare, need, bind, Except.bind, pure, Except.pure]
theorem Laws.RoundTrip.ppop : Laws.RoundTrip.Statement (.ppop) :=
  Laws.roundTrip_word rfl fun _ => by
    simp [Decode.fields, Decode.cf, Encode.cw, cOf_c, cZero, Decode.bare, need, bind, Except.bind, pure, Except.pure]
theorem Laws.RoundTrip.bar (net : Bool) (b : BitVec 8) (t : BitVec 24) : Laws.RoundTrip.Statement (.bar net b t) :=
  Laws.roundTrip_word rfl fun _ => by
    simp [Decode.fields, Decode.cf, Encode.cw, cOf_c, cZero, Decode.barrier, need, flag_bit4, bit4_high, low8, high8,
      bind, Except.bind, pure, Except.pure]
theorem Laws.RoundTrip.bara (net : Bool) (b : BitVec 8) : Laws.RoundTrip.Statement (.bara net b) :=
  Laws.roundTrip_word rfl fun _ => by
    simp [Decode.fields, Decode.cf, Encode.cw, cOf_c, cZero, Decode.barrier, need, flag_bit4, bit4_high, low8, high8,
      bind, Except.bind, pure, Except.pure]
theorem Laws.RoundTrip.barw (net : Bool) (b : BitVec 8) (t : BitVec 24) : Laws.RoundTrip.Statement (.barw net b t) :=
  Laws.roundTrip_word rfl fun _ => by
    simp [Decode.fields, Decode.cf, Encode.cw, cOf_c, cZero, Decode.barrier, need, flag_bit4, bit4_high, low8, high8,
      bind, Except.bind, pure, Except.pure]
theorem Laws.RoundTrip.nbmem (b : BitVec 8) (join : Bool) : Laws.RoundTrip.Statement (.nbmem b join) :=
  Laws.roundTrip_word rfl fun _ => by
    simp [Decode.fields, Decode.cf, Encode.cw, cOf_c, cZero, need, flag_bit4, bit4_high, low8, high8, bind,
      Except.bind, pure, Except.pure]
theorem Laws.RoundTrip.waitf (np : Bool) (a : Reg) (t : BitVec 24) : Laws.RoundTrip.Statement (.waitf np a t) :=
  Laws.roundTrip_word rfl fun _ => by
    simp [Decode.fields, Decode.cf, Encode.cw, cOf_c, cZero, need, reg_reg, flag_bit4, bit4_high, bind, Except.bind,
      pure, Except.pure]
theorem Laws.RoundTrip.grab : Laws.RoundTrip.Statement (.grab) :=
  Laws.roundTrip_word rfl fun _ => by
    simp [Decode.fields, Decode.cf, Encode.cw, cOf_c, cZero, Decode.bare, need, bind, Except.bind, pure, Except.pure]
theorem Laws.RoundTrip.relx : Laws.RoundTrip.Statement (.relx) :=
  Laws.roundTrip_word rfl fun _ => by
    simp [Decode.fields, Decode.cf, Encode.cw, cOf_c, cZero, Decode.bare, need, bind, Except.bind, pure, Except.pure]
theorem Laws.RoundTrip.cvset (cv : Fin 16) (n : BitVec 16) : Laws.RoundTrip.Statement (.cvset cv n) :=
  Laws.roundTrip_word rfl fun _ => by
    simp [Decode.fields, Decode.cf, Encode.cw, cOf_c, cZero, need, fin16_fin16, bind, Except.bind, pure, Except.pure]
theorem Laws.RoundTrip.bkpt (tag : BitVec 16) : Laws.RoundTrip.Statement (.bkpt tag) :=
  Laws.roundTrip_word rfl fun _ => by
    simp [Decode.fields, Decode.cf, Encode.cw, cOf_c, cZero, need, bind, Except.bind, pure, Except.pure]
theorem Laws.RoundTrip.nop : Laws.RoundTrip.Statement (.nop) :=
  Laws.roundTrip_word rfl fun _ => by
    simp [Decode.fields, Decode.cf, Encode.cw, cOf_c, cZero, Decode.bare, need, bind, Except.bind, pure, Except.pure]
theorem Laws.RoundTrip.trap (code : BitVec 16) : Laws.RoundTrip.Statement (.trap code) :=
  Laws.roundTrip_word rfl fun _ => by
    simp [Decode.fields, Decode.cf, Encode.cw, cOf_c, cZero, need, bind, Except.bind, pure, Except.pure]
theorem Laws.RoundTrip.cpy (dsp ssp : CpySpace) (ck : CpyKind) (d a : Reg) (b : Option Reg) (c : Reg) (target : BitVec 16)
    : Laws.RoundTrip.Statement (.cpy dsp ssp ck d a b c target) :=
  Laws.roundTrip_word rfl fun hw => by
    have hb : idxOk b = true := by
      simp only [Instr.wellFormed, Bool.and_eq_true] at hw
      exact hw.1.2
    simp [Decode.fields, Decode.ex, Encode.ew, eOf_e, need, cpySpace_cpySpace, cpyKind_cpyKind, reg_reg,
      optReg_optReg _ hb, cpy_dsp, cpy_ssp, cpy_ck, cpy_low, bind, Except.bind, pure, Except.pure]
theorem Laws.RoundTrip.tcpy (toScratch : Bool) (ck : CpyKind) (d : Reg) (a : SReg) (target : BitVec 16)
    : Laws.RoundTrip.Statement (.tcpy toScratch ck d a target) :=
  Laws.roundTrip_word rfl fun _ => by
    have h := tcpy_low toScratch ck
    have h1 := tcpy_mod toScratch ck
    have h2 := tcpy_ck toScratch ck
    cases toScratch <;> simp only [if_true, if_false, Bool.false_eq_true] at h h1 h2 <;>
    simp [Decode.fields, Decode.ex, Encode.ew, eOf_e, eZero, need, cpyKind_cpyKind, sreg_sreg, reg_reg, h, h1, h2,
      bind, Except.bind, pure, Except.pure]
theorem Laws.RoundTrip.bexp (net : Bool) (a : Reg) (b : BitVec 8) : Laws.RoundTrip.Statement (.bexp net a b) :=
  Laws.roundTrip_word rfl fun _ => by
    simp [Decode.fields, Decode.ex, Encode.ew, eOf_e, eZero, need, reg_reg, flag_bit8, bit8_high, low8, high8, bind,
      Except.bind, pure, Except.pure]
theorem Laws.RoundTrip.gstart (d : Reg) (a : SReg) : Laws.RoundTrip.Statement (.gstart d a) :=
  Laws.roundTrip_word rfl fun _ => by
    simp [Decode.fields, Decode.ex, Encode.ew, eOf_e, eZero, need, sreg_sreg, reg_reg, bind, Except.bind, pure,
      Except.pure]
theorem Laws.RoundTrip.gcond (a : SReg) (b : Reg) (off : BitVec 16) : Laws.RoundTrip.Statement (.gcond a b off) :=
  Laws.roundTrip_word rfl fun _ => by
    simp [Decode.fields, Decode.ex, Encode.ew, eOf_e, eZero, need, sreg_sreg, reg_reg, bind, Except.bind, pure,
      Except.pure]
theorem Laws.RoundTrip.launch (d a : SReg) : Laws.RoundTrip.Statement (.launch d a) :=
  Laws.roundTrip_word rfl fun _ => by
    simp [Decode.fields, Decode.ex, Encode.ew, eOf_e, eZero, need, sreg_sreg, bind, Except.bind, pure, Except.pure]
theorem Laws.RoundTrip.ptnew (scratch : Bool) (d a b : SReg) : Laws.RoundTrip.Statement (.ptnew scratch d a b) :=
  Laws.roundTrip_word rfl fun _ => by
    simp [Decode.fields, Decode.ex, Encode.ew, eOf_e, eZero, need, sreg_sreg, flag_bit8, bit8_high, bind,
      Except.bind, pure, Except.pure]
theorem Laws.RoundTrip.ptfree (a : SReg) : Laws.RoundTrip.Statement (.ptfree a) :=
  Laws.roundTrip_word rfl fun _ => by
    simp [Decode.fields, Decode.ex, Encode.ew, eOf_e, eZero, need, sreg_sreg, bind, Except.bind, pure, Except.pure]
theorem Laws.RoundTrip.seeh (d a : SReg) (rights : BitVec 3) : Laws.RoundTrip.Statement (.seeh d a rights) :=
  Laws.roundTrip_word rfl fun _ => by
    simp [Decode.fields, Decode.ex, Encode.ew, eOf_e, eZero, need, sreg_sreg, seeh_low, seeh_high, bind, Except.bind,
      pure, Except.pure]
theorem Laws.RoundTrip.drop (a : SReg) : Laws.RoundTrip.Statement (.drop a) :=
  Laws.roundTrip_word rfl fun _ => by
    simp [Decode.fields, Decode.ex, Encode.ew, eOf_e, eZero, need, sreg_sreg, bind, Except.bind, pure, Except.pure]
theorem Laws.RoundTrip.hsend (d a b : SReg) : Laws.RoundTrip.Statement (.hsend d a b) :=
  Laws.roundTrip_word rfl fun _ => by
    simp [Decode.fields, Decode.ex, Encode.ew, eOf_e, eZero, need, sreg_sreg, bind, Except.bind, pure, Except.pure]
theorem Laws.RoundTrip.hrecv (d a : SReg) : Laws.RoundTrip.Statement (.hrecv d a) :=
  Laws.roundTrip_word rfl fun _ => by
    simp [Decode.fields, Decode.ex, Encode.ew, eOf_e, eZero, need, sreg_sreg, bind, Except.bind, pure, Except.pure]
theorem Laws.RoundTrip.wqpost (d a : SReg) (ring : Fin 64) : Laws.RoundTrip.Statement (.wqpost d a ring) :=
  Laws.roundTrip_word rfl fun _ => by
    simp [Decode.fields, Decode.ex, Encode.ew, eOf_e, eZero, need, sreg_sreg, fin64_num64, bind, Except.bind, pure,
      Except.pure]
theorem Laws.RoundTrip.triga (o : Bool) (d a : SReg) : Laws.RoundTrip.Statement (.triga o d a) :=
  Laws.roundTrip_word rfl fun _ => by
    simp [Decode.fields, Decode.ex, Encode.ew, eOf_e, eZero, need, sreg_sreg, flag_bit8, bit8_high, bind,
      Except.bind, pure, Except.pure]
theorem Laws.RoundTrip.cntadd (tc : Fin 64) (a : Reg) : Laws.RoundTrip.Statement (.cntadd tc a) :=
  Laws.roundTrip_word rfl fun _ => by
    simp [Decode.fields, Decode.ex, Encode.ew, eOf_e, eZero, need, reg_reg, fin64_num64, bind, Except.bind, pure,
      Except.pure]
theorem Laws.RoundTrip.sysc (d : SReg) (a : Reg) : Laws.RoundTrip.Statement (.sysc d a) :=
  Laws.roundTrip_word rfl fun _ => by
    simp [Decode.fields, Decode.ex, Encode.ew, eOf_e, eZero, need, sreg_sreg, reg_reg, bind, Except.bind, pure,
      Except.pure]
theorem Laws.RoundTrip.sret (a b : SReg) (faulted : Bool) : Laws.RoundTrip.Statement (.sret a b faulted) :=
  Laws.roundTrip_word rfl fun _ => by
    cases faulted <;>
    simp [Decode.fields, Decode.ex, Encode.ew, eOf_e, eZero, need, sreg_sreg, bind, Except.bind, pure, Except.pure]
theorem Laws.RoundTrip.tstamp (cyc : Bool) (d : SReg) : Laws.RoundTrip.Statement (.tstamp cyc d) :=
  Laws.roundTrip_word rfl fun _ => by
    simp [Decode.fields, Decode.ex, Encode.ew, eOf_e, eZero, need, sreg_sreg, flag_bit8, bit8_high, bind,
      Except.bind, pure, Except.pure]
theorem Laws.RoundTrip.ktlbi (kind : Fin 4) (a : Option SReg) (b : Reg) : Laws.RoundTrip.Statement (.ktlbi kind a b) :=
  Laws.roundTrip_word rfl fun hw => by
    simp only [Instr.wellFormed] at hw
    cases a with
    | none =>
      obtain rfl : kind = 3 := by revert hw; revert kind; decide
      simp [Decode.fields, Decode.ex, Encode.ew, eOf_e, eZero, need, reg_reg, Encode.optSreg, bind, Except.bind,
        pure, Except.pure]
    | some a =>
      have hk : kind ≠ 3 := by rintro rfl; simp at hw
      fin_cases kind <;> first
        | exact absurd rfl hk
        | simp [Decode.fields, Decode.ex, Encode.ew, eOf_e, eZero, need, reg_reg, Encode.optSreg, sreg_sreg, bind,
            Except.bind, pure, Except.pure]
theorem Laws.RoundTrip.kget (q : Fin 4) (d a : SReg) (b : Reg) (n : BitVec 16)
    : Laws.RoundTrip.Statement (.kget q d a b n) :=
  Laws.roundTrip_word rfl fun _ => by
    fin_cases q <;>
    simp [Decode.fields, Decode.ex, Encode.ew, eOf_e, eZero, need, sreg_sreg, reg_reg, bind, Except.bind, pure,
      Except.pure]
theorem Laws.RoundTrip.kset (isW : Bool) (a : SReg) (b c : Reg) (n : BitVec 16)
    : Laws.RoundTrip.Statement (.kset isW a b c n) :=
  Laws.roundTrip_word rfl fun _ => by
    cases isW <;>
    simp [Decode.fields, Decode.ex, Encode.ew, eOf_e, eZero, need, sreg_sreg, reg_reg, bind, Except.bind, pure,
      Except.pure]
theorem Laws.RoundTrip.kresumeResume (a : SReg) (b : Reg) : Laws.RoundTrip.Statement (.kresumeResume a b) :=
  Laws.roundTrip_word rfl fun _ => by
    simp [Decode.fields, Decode.ex, Encode.ew, eOf_e, eZero, need, sreg_sreg, reg_reg, bind, Except.bind, pure,
      Except.pure]
theorem Laws.RoundTrip.kresumeStep (a : SReg) (b : Reg) : Laws.RoundTrip.Statement (.kresumeStep a b) :=
  Laws.roundTrip_word rfl fun _ => by
    simp [Decode.fields, Decode.ex, Encode.ew, eOf_e, eZero, need, sreg_sreg, reg_reg, bind, Except.bind, pure,
      Except.pure]
theorem Laws.RoundTrip.kresumeKill (a : SReg) (b : Reg) : Laws.RoundTrip.Statement (.kresumeKill a b) :=
  Laws.roundTrip_word rfl fun _ => by
    simp [Decode.fields, Decode.ex, Encode.ew, eOf_e, eZero, need, sreg_sreg, reg_reg, bind, Except.bind, pure,
      Except.pure]
theorem Laws.RoundTrip.kresumeEngresume (a b : Reg) : Laws.RoundTrip.Statement (.kresumeEngresume a b) :=
  Laws.roundTrip_word rfl fun _ => by
    simp [Decode.fields, Decode.ex, Encode.ew, eOf_e, eZero, need, reg_reg, bind, Except.bind, pure, Except.pure]
theorem Laws.RoundTrip.kresumeEngend (a b : Reg) : Laws.RoundTrip.Statement (.kresumeEngend a b) :=
  Laws.roundTrip_word rfl fun _ => by
    simp [Decode.fields, Decode.ex, Encode.ew, eOf_e, eZero, need, reg_reg, bind, Except.bind, pure, Except.pure]
theorem Laws.RoundTrip.selection (team : Nat) : Laws.RoundTrip.Statement (.selection team) := Laws.roundTrip_event rfl
theorem Laws.RoundTrip.clauseStart : Laws.RoundTrip.Statement (.clauseStart) := Laws.roundTrip_event rfl
theorem Laws.RoundTrip.longLatencyWriteDone (team tok : Nat)
    : Laws.RoundTrip.Statement (.longLatencyWriteDone team tok) := Laws.roundTrip_event rfl
theorem Laws.RoundTrip.writePerformed (team tok : Nat) : Laws.RoundTrip.Statement (.writePerformed team tok) := Laws.roundTrip_event rfl
theorem Laws.RoundTrip.trapRecordPost (team thread : Nat) : Laws.RoundTrip.Statement (.trapRecordPost team thread) := Laws.roundTrip_event rfl
theorem Laws.RoundTrip.registrationAccepted (core : Nat) : Laws.RoundTrip.Statement (.registrationAccepted core) := Laws.roundTrip_event rfl
theorem Laws.RoundTrip.waitPoll (team thread : Nat) : Laws.RoundTrip.Statement (.waitPoll team thread) := Laws.roundTrip_event rfl
theorem Laws.RoundTrip.copyLine (engine : Nat) : Laws.RoundTrip.Statement (.copyLine engine) := Laws.roundTrip_event rfl
theorem Laws.RoundTrip.barrierWave (core : Nat) : Laws.RoundTrip.Statement (.barrierWave core) := Laws.roundTrip_event rfl
theorem Laws.RoundTrip.recordWrite (fn : Nat) (ring : W64) : Laws.RoundTrip.Statement (.recordWrite fn ring) := Laws.roundTrip_event rfl
theorem Laws.RoundTrip.ringHeaderRecheck (fn : Nat) (ring : W64)
    : Laws.RoundTrip.Statement (.ringHeaderRecheck fn ring) := Laws.roundTrip_event rfl
theorem Laws.RoundTrip.gridRetire (grid : Nat) : Laws.RoundTrip.Statement (.gridRetire grid) := Laws.roundTrip_event rfl
theorem Laws.RoundTrip.teamPlacement (part : Nat) : Laws.RoundTrip.Statement (.teamPlacement part) := Laws.roundTrip_event rfl
theorem Laws.RoundTrip.duskGraceExpiry (grid lin : Nat) : Laws.RoundTrip.Statement (.duskGraceExpiry grid lin) := Laws.roundTrip_event rfl
theorem Laws.RoundTrip.watchdogExpiry (team : Nat) : Laws.RoundTrip.Statement (.watchdogExpiry team) := Laws.roundTrip_event rfl
theorem Laws.RoundTrip.waitLimitExpiry (team thread : Nat) : Laws.RoundTrip.Statement (.waitLimitExpiry team thread) := Laws.roundTrip_event rfl
theorem Laws.RoundTrip.switchTick (part : Nat) : Laws.RoundTrip.Statement (.switchTick part) := Laws.roundTrip_event rfl
theorem Laws.RoundTrip.saveShareComplete (part die : Nat) : Laws.RoundTrip.Statement (.saveShareComplete part die) := Laws.roundTrip_event rfl
theorem Laws.RoundTrip.saveDeadlineExpiry (part : Nat) : Laws.RoundTrip.Statement (.saveDeadlineExpiry part) := Laws.roundTrip_event rfl
theorem Laws.RoundTrip.qkick (fn q : Nat) (w : W32) : Laws.RoundTrip.Statement (.qkick fn q w) := Laws.roundTrip_event rfl
theorem Laws.RoundTrip.packetLaunch (fn q : Nat) : Laws.RoundTrip.Statement (.packetLaunch fn q) := Laws.roundTrip_event rfl
theorem Laws.RoundTrip.packetCopy (fn q : Nat) : Laws.RoundTrip.Statement (.packetCopy fn q) := Laws.roundTrip_event rfl
theorem Laws.RoundTrip.packetBarrierAnd (fn q : Nat) : Laws.RoundTrip.Statement (.packetBarrierAnd fn q) := Laws.roundTrip_event rfl
theorem Laws.RoundTrip.packetSignal (fn q : Nat) : Laws.RoundTrip.Statement (.packetSignal fn q) := Laws.roundTrip_event rfl
theorem Laws.RoundTrip.barrierAndComplete (fn q : Nat) : Laws.RoundTrip.Statement (.barrierAndComplete fn q) := Laws.roundTrip_event rfl
theorem Laws.RoundTrip.foremanError : Laws.RoundTrip.Statement (.foremanError) := Laws.roundTrip_event rfl
theorem Laws.RoundTrip.journalValidated : Laws.RoundTrip.Statement (.journalValidated) := Laws.roundTrip_event rfl
theorem Laws.RoundTrip.networkTriggeredLaunch (part : Nat) (tag : W32) (payload : W64)
    : Laws.RoundTrip.Statement (.networkTriggeredLaunch part tag payload) := Laws.roundTrip_event rfl
theorem Laws.RoundTrip.graphNodeFinish (team node : Nat) : Laws.RoundTrip.Statement (.graphNodeFinish team node) := Laws.roundTrip_event rfl
theorem Laws.RoundTrip.handleArrival (part : Nat) (tag : W32) (h : W64)
    : Laws.RoundTrip.Statement (.handleArrival part tag h) := Laws.roundTrip_event rfl
theorem Laws.RoundTrip.hsendOutcome (xfer : Nat) (accepted : Bool)
    : Laws.RoundTrip.Statement (.hsendOutcome xfer accepted) := Laws.roundTrip_event rfl
theorem Laws.RoundTrip.hsendTimeout (xfer : Nat) : Laws.RoundTrip.Statement (.hsendTimeout xfer) := Laws.roundTrip_event rfl
theorem Laws.RoundTrip.peerLost (part dev : Nat) : Laws.RoundTrip.Statement (.peerLost part dev) := Laws.roundTrip_event rfl
theorem Laws.RoundTrip.collectiveResult (fn entry elem : Nat) (value : W64) (sat : Bool)
    : Laws.RoundTrip.Statement (.collectiveResult fn entry elem value sat) := Laws.roundTrip_event rfl
theorem Laws.RoundTrip.workRequestStart (fn ring : Nat) : Laws.RoundTrip.Statement (.workRequestStart fn ring) := Laws.roundTrip_event rfl
theorem Laws.RoundTrip.workRequestComplete (req : Nat) (how : WqEnd)
    : Laws.RoundTrip.Statement (.workRequestComplete req how) := Laws.roundTrip_event rfl
theorem Laws.RoundTrip.powerEpoch (measured fixed : Nat) : Laws.RoundTrip.Statement (.powerEpoch measured fixed) := Laws.roundTrip_event rfl
theorem Laws.RoundTrip.canaryAlarm (core : Nat) : Laws.RoundTrip.Statement (.canaryAlarm core) := Laws.roundTrip_event rfl
theorem Laws.RoundTrip.canaryStretchEnd (core : Nat) : Laws.RoundTrip.Statement (.canaryStretchEnd core) := Laws.roundTrip_event rfl
theorem Laws.RoundTrip.halfIssueEnd (core : Nat) : Laws.RoundTrip.Statement (.halfIssueEnd core) := Laws.roundTrip_event rfl
theorem Laws.RoundTrip.l1MarkClear (core : Nat) : Laws.RoundTrip.Statement (.l1MarkClear core) := Laws.roundTrip_event rfl
theorem Laws.RoundTrip.l2WayEpoch (slice : Nat) : Laws.RoundTrip.Statement (.l2WayEpoch slice) := Laws.roundTrip_event rfl
theorem Laws.RoundTrip.migrationRecallDone (fn page : Nat) : Laws.RoundTrip.Statement (.migrationRecallDone fn page) := Laws.roundTrip_event rfl
theorem Laws.RoundTrip.scrub (v : W32) : Laws.RoundTrip.Statement (.scrub v) := Laws.roundTrip_event rfl
theorem Laws.RoundTrip.scrubFrameDone : Laws.RoundTrip.Statement (.scrubFrameDone) := Laws.roundTrip_event rfl
theorem Laws.RoundTrip.keyLoad (v : W32) : Laws.RoundTrip.Statement (.keyLoad v) := Laws.roundTrip_event rfl
theorem Laws.RoundTrip.keyLoadDone : Laws.RoundTrip.Statement (.keyLoadDone) := Laws.roundTrip_event rfl
theorem Laws.RoundTrip.queueEnable (fn q : Nat) (v : W32) : Laws.RoundTrip.Statement (.queueEnable fn q v) := Laws.roundTrip_event rfl
theorem Laws.RoundTrip.queueDisable (fn q : Nat) (v : W32) : Laws.RoundTrip.Statement (.queueDisable fn q v) := Laws.roundTrip_event rfl
theorem Laws.RoundTrip.queueErrClear (fn q : Nat) (v : W32) : Laws.RoundTrip.Statement (.queueErrClear fn q v) := Laws.roundTrip_event rfl
theorem Laws.RoundTrip.qmapWrite (fn q : Nat) (v : W32) : Laws.RoundTrip.Statement (.qmapWrite fn q v) := Laws.roundTrip_event rfl
theorem Laws.RoundTrip.partEnable (slice : Nat) (v : W32) : Laws.RoundTrip.Statement (.partEnable slice v) := Laws.roundTrip_event rfl
theorem Laws.RoundTrip.partDisable (slice : Nat) (v : W32) : Laws.RoundTrip.Statement (.partDisable slice v) := Laws.roundTrip_event rfl
theorem Laws.RoundTrip.vfEnable (f : Nat) (v : W64) : Laws.RoundTrip.Statement (.vfEnable f v) := Laws.roundTrip_event rfl
theorem Laws.RoundTrip.vfDisable (f : Nat) (v : W64) : Laws.RoundTrip.Statement (.vfDisable f v) := Laws.roundTrip_event rfl
theorem Laws.RoundTrip.vfL2Write (f : Nat) (v : W32) : Laws.RoundTrip.Statement (.vfL2Write f v) := Laws.roundTrip_event rfl
theorem Laws.RoundTrip.vfBwWrite (f : Nat) (v : W32) : Laws.RoundTrip.Statement (.vfBwWrite f v) := Laws.roundTrip_event rfl
theorem Laws.RoundTrip.engOwnWrite (e : Nat) (v : W32) : Laws.RoundTrip.Statement (.engOwnWrite e v) := Laws.roundTrip_event rfl
theorem Laws.RoundTrip.pwrCtlWrite (v : W32) : Laws.RoundTrip.Statement (.pwrCtlWrite v) := Laws.roundTrip_event rfl
theorem Laws.RoundTrip.collApEnable (fn e : Nat) (v : W64) : Laws.RoundTrip.Statement (.collApEnable fn e v) := Laws.roundTrip_event rfl
theorem Laws.RoundTrip.wqRingEnable (fn r : Nat) (v : W64) : Laws.RoundTrip.Statement (.wqRingEnable fn r v) := Laws.roundTrip_event rfl
theorem Laws.RoundTrip.ntlCtlWrite (fn e : Nat) (v : W64) : Laws.RoundTrip.Statement (.ntlCtlWrite fn e v) := Laws.roundTrip_event rfl
theorem Laws.RoundTrip.decliaEnable (slice : Nat) (v : W32) (answers : List Nat)
    : Laws.RoundTrip.Statement (.decliaEnable slice v answers) := Laws.roundTrip_event rfl
theorem Laws.RoundTrip.registerWrite (fn : RegPort) (off : Nat) (v : W64) : Laws.RoundTrip.Statement (.registerWrite fn off v) := Laws.roundTrip_event rfl
theorem Laws.RoundTrip.hostMemRead (pa n : Nat) : Laws.RoundTrip.Statement (.hostMemRead pa n) := Laws.roundTrip_event rfl
theorem Laws.RoundTrip.hostMemWrite (pa : HostPlace) (data : List Byte) : Laws.RoundTrip.Statement (.hostMemWrite pa data) := Laws.roundTrip_event rfl
theorem Laws.RoundTrip.getVersion (f : Nat) : Laws.RoundTrip.Statement (.getVersion f) := Laws.roundTrip_event rfl
theorem Laws.RoundTrip.getCapabilities (f : Nat) : Laws.RoundTrip.Statement (.getCapabilities f) := Laws.roundTrip_event rfl
theorem Laws.RoundTrip.lockInterface (f session : Nat) : Laws.RoundTrip.Statement (.lockInterface f session) := Laws.roundTrip_event rfl
theorem Laws.RoundTrip.startInterface (f : Nat) : Laws.RoundTrip.Statement (.startInterface f) := Laws.roundTrip_event rfl
theorem Laws.RoundTrip.stopInterface (f : Nat) : Laws.RoundTrip.Statement (.stopInterface f) := Laws.roundTrip_event rfl
theorem Laws.RoundTrip.getDeviceInterfaceReport (f : Nat) : Laws.RoundTrip.Statement (.getDeviceInterfaceReport f) := Laws.roundTrip_event rfl
theorem Laws.RoundTrip.getDeviceInterfaceState (f : Nat) : Laws.RoundTrip.Statement (.getDeviceInterfaceState f) := Laws.roundTrip_event rfl
theorem Laws.RoundTrip.sessionExpiry (session : Nat) : Laws.RoundTrip.Statement (.sessionExpiry session) := Laws.roundTrip_event rfl
theorem Laws.RoundTrip.devReset (v : W32) : Laws.RoundTrip.Statement (.devReset v) := Laws.roundTrip_event rfl
theorem Laws.RoundTrip.functionLevelReset (f : Nat) : Laws.RoundTrip.Statement (.functionLevelReset f) := Laws.roundTrip_event rfl
theorem Laws.RoundTrip.deviceStart : Laws.RoundTrip.Statement (.deviceStart) := Laws.roundTrip_event rfl
theorem Laws.RoundTrip.startStageDone : Laws.RoundTrip.Statement (.startStageDone) := Laws.roundTrip_event rfl
theorem Laws.RoundTrip.startStageTimeout : Laws.RoundTrip.Statement (.startStageTimeout) := Laws.roundTrip_event rfl
theorem Laws.RoundTrip.lampImageReplace (img : FlashSlot) : Laws.RoundTrip.Statement (.lampImageReplace img) := Laws.roundTrip_event rfl
theorem Laws.RoundTrip.correctableError : Laws.RoundTrip.Statement (.correctableError) := Laws.roundTrip_event rfl
theorem Laws.RoundTrip.uncorrectableError (site : ErrorSite) : Laws.RoundTrip.Statement (.uncorrectableError site) := Laws.roundTrip_event rfl
theorem Laws.RoundTrip.operandParityError (team thread : Nat)
    : Laws.RoundTrip.Statement (.operandParityError team thread) := Laws.roundTrip_event rfl
/-- An opcode that its class does not assign falls through the whole map (R324). -/
theorem Laws.RoundTrip.unassignedOpcode (cls : Cls) (word : W64) :
    Laws.RoundTrip.Statement (.unassignedOpcode cls word) :=
  Laws.roundTrip_word rfl fun hw => by
    cases cls <;> simp only [Instr.wellFormed, Cls.opcodes] at hw
    · simp only [Decode.fields, sc]; split <;> first | (rename_i h; exact absurd hw (by simp only [gOf] at h; rw [h]; decide)) | rfl
    · simp only [Decode.fields, vx]; split <;> first | (rename_i h; exact absurd hw (by simp only [gOf] at h; rw [h]; decide)) | rfl
    · simp only [Decode.fields, tx]; split <;> first | (rename_i h; exact absurd hw (by simp only [tOf] at h; rw [h]; decide)) | rfl
    · simp only [Decode.fields, mx]; split <;> first | (rename_i h; exact absurd hw (by simp only [mOf] at h; rw [h]; decide)) | rfl
    · simp only [Decode.fields, cf]; split <;> first | (rename_i h; exact absurd hw (by simp only [cOf] at h; rw [h]; decide)) | rfl
    · simp only [Decode.fields, ex]; split <;> first | (rename_i h; exact absurd hw (by simp only [eOf] at h; rw [h]; decide)) | rfl
theorem Laws.RoundTrip.foremanTest (pass : Bool) : Laws.RoundTrip.Statement (.foremanTest pass) := Laws.roundTrip_event rfl
theorem Laws.RoundTrip.peerReturn (part dev : Nat) : Laws.RoundTrip.Statement (.peerReturn part dev) := Laws.roundTrip_event rfl
theorem Laws.RoundTrip.remoteAccessArrival (part : Nat) (acc : RemoteAccess)
    : Laws.RoundTrip.Statement (.remoteAccessArrival part acc) := Laws.roundTrip_event rfl
theorem Laws.RoundTrip.rankAcknowledgement (xfer code : Nat) (data : List Byte)
    : Laws.RoundTrip.Statement (.rankAcknowledgement xfer code data) := Laws.roundTrip_event rfl
end

end Sys2Proof
end

