-- ==== Sys2Proof/Laws/State.lean ====
section
/-! SUPPORT. What each named update of the state leaves in each field, so that no proof unfolds a record update; and what
a look-up of a team, a grid or a core finds after an update. -/

namespace Sys2Proof.Machine

@[simp] theorem State.setSched_sched (s : State) (x : Sched) : (s.setSched x).sched = x := rfl
@[simp] theorem State.setSched_work (s : State) (x : Sched) : (s.setSched x).work = s.work := rfl
@[simp] theorem State.setSched_mem (s : State) (x : Sched) : (s.setSched x).mem = s.mem := rfl
@[simp] theorem State.setSched_pairs (s : State) (x : Sched) : (s.setSched x).pairs = s.pairs := rfl
@[simp] theorem State.setSched_eng (s : State) (x : Sched) : (s.setSched x).eng = s.eng := rfl
@[simp] theorem State.setSched_ctl (s : State) (x : Sched) : (s.setSched x).ctl = s.ctl := rfl
@[simp] theorem State.setSched_queues (s : State) (x : Sched) : (s.setSched x).queues = s.queues := rfl
@[simp] theorem State.setSched_net (s : State) (x : Sched) : (s.setSched x).net = s.net := rfl
@[simp] theorem State.setSched_boot (s : State) (x : Sched) : (s.setSched x).boot = s.boot := rfl
@[simp] theorem State.setSched_tdisp (s : State) (x : Sched) : (s.setSched x).tdisp = s.tdisp := rfl
@[simp] theorem State.setSched_out (s : State) (x : Sched) : (s.setSched x).out = s.out := rfl

@[simp] theorem State.setWork_sched (s : State) (x : Work) : (s.setWork x).sched = s.sched := rfl
@[simp] theorem State.setWork_work (s : State) (x : Work) : (s.setWork x).work = x := rfl
@[simp] theorem State.setWork_mem (s : State) (x : Work) : (s.setWork x).mem = s.mem := rfl
@[simp] theorem State.setWork_pairs (s : State) (x : Work) : (s.setWork x).pairs = s.pairs := rfl
@[simp] theorem State.setWork_eng (s : State) (x : Work) : (s.setWork x).eng = s.eng := rfl
@[simp] theorem State.setWork_ctl (s : State) (x : Work) : (s.setWork x).ctl = s.ctl := rfl
@[simp] theorem State.setWork_queues (s : State) (x : Work) : (s.setWork x).queues = s.queues := rfl
@[simp] theorem State.setWork_net (s : State) (x : Work) : (s.setWork x).net = s.net := rfl
@[simp] theorem State.setWork_boot (s : State) (x : Work) : (s.setWork x).boot = s.boot := rfl
@[simp] theorem State.setWork_tdisp (s : State) (x : Work) : (s.setWork x).tdisp = s.tdisp := rfl
@[simp] theorem State.setWork_out (s : State) (x : Work) : (s.setWork x).out = s.out := rfl

@[simp] theorem State.setMem_sched (s : State) (x : Mem) : (s.setMem x).sched = s.sched := rfl
@[simp] theorem State.setMem_work (s : State) (x : Mem) : (s.setMem x).work = s.work := rfl
@[simp] theorem State.setMem_mem (s : State) (x : Mem) : (s.setMem x).mem = x := rfl
@[simp] theorem State.setMem_pairs (s : State) (x : Mem) : (s.setMem x).pairs = s.pairs := rfl
@[simp] theorem State.setMem_eng (s : State) (x : Mem) : (s.setMem x).eng = s.eng := rfl
@[simp] theorem State.setMem_ctl (s : State) (x : Mem) : (s.setMem x).ctl = s.ctl := rfl
@[simp] theorem State.setMem_queues (s : State) (x : Mem) : (s.setMem x).queues = s.queues := rfl
@[simp] theorem State.setMem_net (s : State) (x : Mem) : (s.setMem x).net = s.net := rfl
@[simp] theorem State.setMem_boot (s : State) (x : Mem) : (s.setMem x).boot = s.boot := rfl
@[simp] theorem State.setMem_tdisp (s : State) (x : Mem) : (s.setMem x).tdisp = s.tdisp := rfl
@[simp] theorem State.setMem_out (s : State) (x : Mem) : (s.setMem x).out = s.out := rfl

@[simp] theorem State.setPairs_sched (s : State) (x : Pairs) : (s.setPairs x).sched = s.sched := rfl
@[simp] theorem State.setPairs_work (s : State) (x : Pairs) : (s.setPairs x).work = s.work := rfl
@[simp] theorem State.setPairs_mem (s : State) (x : Pairs) : (s.setPairs x).mem = s.mem := rfl
@[simp] theorem State.setPairs_pairs (s : State) (x : Pairs) : (s.setPairs x).pairs = x := rfl
@[simp] theorem State.setPairs_eng (s : State) (x : Pairs) : (s.setPairs x).eng = s.eng := rfl
@[simp] theorem State.setPairs_ctl (s : State) (x : Pairs) : (s.setPairs x).ctl = s.ctl := rfl
@[simp] theorem State.setPairs_queues (s : State) (x : Pairs) : (s.setPairs x).queues = s.queues := rfl
@[simp] theorem State.setPairs_net (s : State) (x : Pairs) : (s.setPairs x).net = s.net := rfl
@[simp] theorem State.setPairs_boot (s : State) (x : Pairs) : (s.setPairs x).boot = s.boot := rfl
@[simp] theorem State.setPairs_tdisp (s : State) (x : Pairs) : (s.setPairs x).tdisp = s.tdisp := rfl
@[simp] theorem State.setPairs_out (s : State) (x : Pairs) : (s.setPairs x).out = s.out := rfl

@[simp] theorem State.setEng_sched (s : State) (x : Engines) : (s.setEng x).sched = s.sched := rfl
@[simp] theorem State.setEng_work (s : State) (x : Engines) : (s.setEng x).work = s.work := rfl
@[simp] theorem State.setEng_mem (s : State) (x : Engines) : (s.setEng x).mem = s.mem := rfl
@[simp] theorem State.setEng_pairs (s : State) (x : Engines) : (s.setEng x).pairs = s.pairs := rfl
@[simp] theorem State.setEng_eng (s : State) (x : Engines) : (s.setEng x).eng = x := rfl
@[simp] theorem State.setEng_ctl (s : State) (x : Engines) : (s.setEng x).ctl = s.ctl := rfl
@[simp] theorem State.setEng_queues (s : State) (x : Engines) : (s.setEng x).queues = s.queues := rfl
@[simp] theorem State.setEng_net (s : State) (x : Engines) : (s.setEng x).net = s.net := rfl
@[simp] theorem State.setEng_boot (s : State) (x : Engines) : (s.setEng x).boot = s.boot := rfl
@[simp] theorem State.setEng_tdisp (s : State) (x : Engines) : (s.setEng x).tdisp = s.tdisp := rfl
@[simp] theorem State.setEng_out (s : State) (x : Engines) : (s.setEng x).out = s.out := rfl

@[simp] theorem State.setCtl_sched (s : State) (x : Ctl) : (s.setCtl x).sched = s.sched := rfl
@[simp] theorem State.setCtl_work (s : State) (x : Ctl) : (s.setCtl x).work = s.work := rfl
@[simp] theorem State.setCtl_mem (s : State) (x : Ctl) : (s.setCtl x).mem = s.mem := rfl
@[simp] theorem State.setCtl_pairs (s : State) (x : Ctl) : (s.setCtl x).pairs = s.pairs := rfl
@[simp] theorem State.setCtl_eng (s : State) (x : Ctl) : (s.setCtl x).eng = s.eng := rfl
@[simp] theorem State.setCtl_ctl (s : State) (x : Ctl) : (s.setCtl x).ctl = x := rfl
@[simp] theorem State.setCtl_queues (s : State) (x : Ctl) : (s.setCtl x).queues = s.queues := rfl
@[simp] theorem State.setCtl_net (s : State) (x : Ctl) : (s.setCtl x).net = s.net := rfl
@[simp] theorem State.setCtl_boot (s : State) (x : Ctl) : (s.setCtl x).boot = s.boot := rfl
@[simp] theorem State.setCtl_tdisp (s : State) (x : Ctl) : (s.setCtl x).tdisp = s.tdisp := rfl
@[simp] theorem State.setCtl_out (s : State) (x : Ctl) : (s.setCtl x).out = s.out := rfl

@[simp] theorem State.setQueues_sched (s : State) (x : Queues) : (s.setQueues x).sched = s.sched := rfl
@[simp] theorem State.setQueues_work (s : State) (x : Queues) : (s.setQueues x).work = s.work := rfl
@[simp] theorem State.setQueues_mem (s : State) (x : Queues) : (s.setQueues x).mem = s.mem := rfl
@[simp] theorem State.setQueues_pairs (s : State) (x : Queues) : (s.setQueues x).pairs = s.pairs := rfl
@[simp] theorem State.setQueues_eng (s : State) (x : Queues) : (s.setQueues x).eng = s.eng := rfl
@[simp] theorem State.setQueues_ctl (s : State) (x : Queues) : (s.setQueues x).ctl = s.ctl := rfl
@[simp] theorem State.setQueues_queues (s : State) (x : Queues) : (s.setQueues x).queues = x := rfl
@[simp] theorem State.setQueues_net (s : State) (x : Queues) : (s.setQueues x).net = s.net := rfl
@[simp] theorem State.setQueues_boot (s : State) (x : Queues) : (s.setQueues x).boot = s.boot := rfl
@[simp] theorem State.setQueues_tdisp (s : State) (x : Queues) : (s.setQueues x).tdisp = s.tdisp := rfl
@[simp] theorem State.setQueues_out (s : State) (x : Queues) : (s.setQueues x).out = s.out := rfl

@[simp] theorem State.setNet_sched (s : State) (x : Net) : (s.setNet x).sched = s.sched := rfl
@[simp] theorem State.setNet_work (s : State) (x : Net) : (s.setNet x).work = s.work := rfl
@[simp] theorem State.setNet_mem (s : State) (x : Net) : (s.setNet x).mem = s.mem := rfl
@[simp] theorem State.setNet_pairs (s : State) (x : Net) : (s.setNet x).pairs = s.pairs := rfl
@[simp] theorem State.setNet_eng (s : State) (x : Net) : (s.setNet x).eng = s.eng := rfl
@[simp] theorem State.setNet_ctl (s : State) (x : Net) : (s.setNet x).ctl = s.ctl := rfl
@[simp] theorem State.setNet_queues (s : State) (x : Net) : (s.setNet x).queues = s.queues := rfl
@[simp] theorem State.setNet_net (s : State) (x : Net) : (s.setNet x).net = x := rfl
@[simp] theorem State.setNet_boot (s : State) (x : Net) : (s.setNet x).boot = s.boot := rfl
@[simp] theorem State.setNet_tdisp (s : State) (x : Net) : (s.setNet x).tdisp = s.tdisp := rfl
@[simp] theorem State.setNet_out (s : State) (x : Net) : (s.setNet x).out = s.out := rfl

@[simp] theorem State.setBoot_sched (s : State) (x : Boot) : (s.setBoot x).sched = s.sched := rfl
@[simp] theorem State.setBoot_work (s : State) (x : Boot) : (s.setBoot x).work = s.work := rfl
@[simp] theorem State.setBoot_mem (s : State) (x : Boot) : (s.setBoot x).mem = s.mem := rfl
@[simp] theorem State.setBoot_pairs (s : State) (x : Boot) : (s.setBoot x).pairs = s.pairs := rfl
@[simp] theorem State.setBoot_eng (s : State) (x : Boot) : (s.setBoot x).eng = s.eng := rfl
@[simp] theorem State.setBoot_ctl (s : State) (x : Boot) : (s.setBoot x).ctl = s.ctl := rfl
@[simp] theorem State.setBoot_queues (s : State) (x : Boot) : (s.setBoot x).queues = s.queues := rfl
@[simp] theorem State.setBoot_net (s : State) (x : Boot) : (s.setBoot x).net = s.net := rfl
@[simp] theorem State.setBoot_boot (s : State) (x : Boot) : (s.setBoot x).boot = x := rfl
@[simp] theorem State.setBoot_tdisp (s : State) (x : Boot) : (s.setBoot x).tdisp = s.tdisp := rfl
@[simp] theorem State.setBoot_out (s : State) (x : Boot) : (s.setBoot x).out = s.out := rfl

@[simp] theorem State.setTdisp_sched (s : State) (x : Tdisp) : (s.setTdisp x).sched = s.sched := rfl
@[simp] theorem State.setTdisp_work (s : State) (x : Tdisp) : (s.setTdisp x).work = s.work := rfl
@[simp] theorem State.setTdisp_mem (s : State) (x : Tdisp) : (s.setTdisp x).mem = s.mem := rfl
@[simp] theorem State.setTdisp_pairs (s : State) (x : Tdisp) : (s.setTdisp x).pairs = s.pairs := rfl
@[simp] theorem State.setTdisp_eng (s : State) (x : Tdisp) : (s.setTdisp x).eng = s.eng := rfl
@[simp] theorem State.setTdisp_ctl (s : State) (x : Tdisp) : (s.setTdisp x).ctl = s.ctl := rfl
@[simp] theorem State.setTdisp_queues (s : State) (x : Tdisp) : (s.setTdisp x).queues = s.queues := rfl
@[simp] theorem State.setTdisp_net (s : State) (x : Tdisp) : (s.setTdisp x).net = s.net := rfl
@[simp] theorem State.setTdisp_boot (s : State) (x : Tdisp) : (s.setTdisp x).boot = s.boot := rfl
@[simp] theorem State.setTdisp_tdisp (s : State) (x : Tdisp) : (s.setTdisp x).tdisp = x := rfl
@[simp] theorem State.setTdisp_out (s : State) (x : Tdisp) : (s.setTdisp x).out = s.out := rfl

@[simp] theorem State.emit_sched (s : State) (x : Out) : (s.emit x).sched = s.sched := rfl
@[simp] theorem State.emit_work (s : State) (x : Out) : (s.emit x).work = s.work := rfl
@[simp] theorem State.emit_mem (s : State) (x : Out) : (s.emit x).mem = s.mem := rfl
@[simp] theorem State.emit_pairs (s : State) (x : Out) : (s.emit x).pairs = s.pairs := rfl
@[simp] theorem State.emit_eng (s : State) (x : Out) : (s.emit x).eng = s.eng := rfl
@[simp] theorem State.emit_ctl (s : State) (x : Out) : (s.emit x).ctl = s.ctl := rfl
@[simp] theorem State.emit_queues (s : State) (x : Out) : (s.emit x).queues = s.queues := rfl
@[simp] theorem State.emit_net (s : State) (x : Out) : (s.emit x).net = s.net := rfl
@[simp] theorem State.emit_boot (s : State) (x : Out) : (s.emit x).boot = s.boot := rfl
@[simp] theorem State.emit_tdisp (s : State) (x : Out) : (s.emit x).tdisp = s.tdisp := rfl
@[simp] theorem State.emit_out (s : State) (x : Out) : (s.emit x).out = s.out ++ [x] := rfl

@[simp] theorem State.bump_work (s : State) (n : Nat) : (s.bump n).work = s.work := rfl
@[simp] theorem State.bump_mem (s : State) (n : Nat) : (s.bump n).mem = s.mem := rfl
@[simp] theorem State.bump_pairs (s : State) (n : Nat) : (s.bump n).pairs = s.pairs := rfl
@[simp] theorem State.bump_eng (s : State) (n : Nat) : (s.bump n).eng = s.eng := rfl
@[simp] theorem State.bump_ctl (s : State) (n : Nat) : (s.bump n).ctl = s.ctl := rfl
@[simp] theorem State.bump_queues (s : State) (n : Nat) : (s.bump n).queues = s.queues := rfl
@[simp] theorem State.bump_net (s : State) (n : Nat) : (s.bump n).net = s.net := rfl
@[simp] theorem State.bump_boot (s : State) (n : Nat) : (s.bump n).boot = s.boot := rfl
@[simp] theorem State.bump_tdisp (s : State) (n : Nat) : (s.bump n).tdisp = s.tdisp := rfl
@[simp] theorem State.bump_out (s : State) (n : Nat) : (s.bump n).out = s.out := rfl
@[simp] theorem State.setTeam_sched (s : State) (t : Team) : (s.setTeam t).sched = s.sched := rfl
@[simp] theorem State.setTeam_mem (s : State) (t : Team) : (s.setTeam t).mem = s.mem := rfl
@[simp] theorem State.setTeam_pairs (s : State) (t : Team) : (s.setTeam t).pairs = s.pairs := rfl
@[simp] theorem State.setTeam_eng (s : State) (t : Team) : (s.setTeam t).eng = s.eng := rfl
@[simp] theorem State.setTeam_ctl (s : State) (t : Team) : (s.setTeam t).ctl = s.ctl := rfl
@[simp] theorem State.setTeam_queues (s : State) (t : Team) : (s.setTeam t).queues = s.queues := rfl
@[simp] theorem State.setTeam_net (s : State) (t : Team) : (s.setTeam t).net = s.net := rfl
@[simp] theorem State.setTeam_boot (s : State) (t : Team) : (s.setTeam t).boot = s.boot := rfl
@[simp] theorem State.setTeam_tdisp (s : State) (t : Team) : (s.setTeam t).tdisp = s.tdisp := rfl
@[simp] theorem State.setTeam_out (s : State) (t : Team) : (s.setTeam t).out = s.out := rfl
@[simp] theorem State.dropTeam_sched (s : State) (u : Nat) : (s.dropTeam u).sched = s.sched := rfl
@[simp] theorem State.dropTeam_mem (s : State) (u : Nat) : (s.dropTeam u).mem = s.mem := rfl
@[simp] theorem State.dropTeam_pairs (s : State) (u : Nat) : (s.dropTeam u).pairs = s.pairs := rfl
@[simp] theorem State.dropTeam_eng (s : State) (u : Nat) : (s.dropTeam u).eng = s.eng := rfl
@[simp] theorem State.dropTeam_ctl (s : State) (u : Nat) : (s.dropTeam u).ctl = s.ctl := rfl
@[simp] theorem State.dropTeam_queues (s : State) (u : Nat) : (s.dropTeam u).queues = s.queues := rfl
@[simp] theorem State.dropTeam_net (s : State) (u : Nat) : (s.dropTeam u).net = s.net := rfl
@[simp] theorem State.dropTeam_boot (s : State) (u : Nat) : (s.dropTeam u).boot = s.boot := rfl
@[simp] theorem State.dropTeam_tdisp (s : State) (u : Nat) : (s.dropTeam u).tdisp = s.tdisp := rfl
@[simp] theorem State.dropTeam_out (s : State) (u : Nat) : (s.dropTeam u).out = s.out := rfl
@[simp] theorem State.setGrid_sched (s : State) (g : Grid) : (s.setGrid g).sched = s.sched := rfl
@[simp] theorem State.setGrid_mem (s : State) (g : Grid) : (s.setGrid g).mem = s.mem := rfl
@[simp] theorem State.setGrid_pairs (s : State) (g : Grid) : (s.setGrid g).pairs = s.pairs := rfl
@[simp] theorem State.setGrid_eng (s : State) (g : Grid) : (s.setGrid g).eng = s.eng := rfl
@[simp] theorem State.setGrid_ctl (s : State) (g : Grid) : (s.setGrid g).ctl = s.ctl := rfl
@[simp] theorem State.setGrid_queues (s : State) (g : Grid) : (s.setGrid g).queues = s.queues := rfl
@[simp] theorem State.setGrid_net (s : State) (g : Grid) : (s.setGrid g).net = s.net := rfl
@[simp] theorem State.setGrid_boot (s : State) (g : Grid) : (s.setGrid g).boot = s.boot := rfl
@[simp] theorem State.setGrid_tdisp (s : State) (g : Grid) : (s.setGrid g).tdisp = s.tdisp := rfl
@[simp] theorem State.setGrid_out (s : State) (g : Grid) : (s.setGrid g).out = s.out := rfl
@[simp] theorem State.setCore_sched (s : State) (k : Nat) (c : Core) : (s.setCore k c).sched = s.sched := rfl
@[simp] theorem State.setCore_mem (s : State) (k : Nat) (c : Core) : (s.setCore k c).mem = s.mem := rfl
@[simp] theorem State.setCore_pairs (s : State) (k : Nat) (c : Core) : (s.setCore k c).pairs = s.pairs := rfl
@[simp] theorem State.setCore_eng (s : State) (k : Nat) (c : Core) : (s.setCore k c).eng = s.eng := rfl
@[simp] theorem State.setCore_ctl (s : State) (k : Nat) (c : Core) : (s.setCore k c).ctl = s.ctl := rfl
@[simp] theorem State.setCore_queues (s : State) (k : Nat) (c : Core) : (s.setCore k c).queues = s.queues := rfl
@[simp] theorem State.setCore_net (s : State) (k : Nat) (c : Core) : (s.setCore k c).net = s.net := rfl
@[simp] theorem State.setCore_boot (s : State) (k : Nat) (c : Core) : (s.setCore k c).boot = s.boot := rfl
@[simp] theorem State.setCore_tdisp (s : State) (k : Nat) (c : Core) : (s.setCore k c).tdisp = s.tdisp := rfl
@[simp] theorem State.setCore_out (s : State) (k : Nat) (c : Core) : (s.setCore k c).out = s.out := rfl

@[simp] theorem State.onTeam_sched (s : State) (u : Nat) (f : Team → Team) : (s.onTeam u f).sched = s.sched := by
  unfold State.onTeam; split <;> rfl
@[simp] theorem State.onTeam_mem (s : State) (u : Nat) (f : Team → Team) : (s.onTeam u f).mem = s.mem := by
  unfold State.onTeam; split <;> rfl
@[simp] theorem State.onTeam_pairs (s : State) (u : Nat) (f : Team → Team) : (s.onTeam u f).pairs = s.pairs := by
  unfold State.onTeam; split <;> rfl
@[simp] theorem State.onTeam_eng (s : State) (u : Nat) (f : Team → Team) : (s.onTeam u f).eng = s.eng := by
  unfold State.onTeam; split <;> rfl
@[simp] theorem State.onTeam_ctl (s : State) (u : Nat) (f : Team → Team) : (s.onTeam u f).ctl = s.ctl := by
  unfold State.onTeam; split <;> rfl
@[simp] theorem State.onTeam_queues (s : State) (u : Nat) (f : Team → Team) : (s.onTeam u f).queues = s.queues := by
  unfold State.onTeam; split <;> rfl
@[simp] theorem State.onTeam_net (s : State) (u : Nat) (f : Team → Team) : (s.onTeam u f).net = s.net := by
  unfold State.onTeam; split <;> rfl
@[simp] theorem State.onTeam_boot (s : State) (u : Nat) (f : Team → Team) : (s.onTeam u f).boot = s.boot := by
  unfold State.onTeam; split <;> rfl
@[simp] theorem State.onTeam_tdisp (s : State) (u : Nat) (f : Team → Team) : (s.onTeam u f).tdisp = s.tdisp := by
  unfold State.onTeam; split <;> rfl
@[simp] theorem State.onTeam_out (s : State) (u : Nat) (f : Team → Team) : (s.onTeam u f).out = s.out := by
  unfold State.onTeam; split <;> rfl
@[simp] theorem State.onGrid_sched (s : State) (u : Nat) (f : Grid → Grid) : (s.onGrid u f).sched = s.sched := by
  unfold State.onGrid; split <;> rfl
@[simp] theorem State.onGrid_mem (s : State) (u : Nat) (f : Grid → Grid) : (s.onGrid u f).mem = s.mem := by
  unfold State.onGrid; split <;> rfl
@[simp] theorem State.onGrid_pairs (s : State) (u : Nat) (f : Grid → Grid) : (s.onGrid u f).pairs = s.pairs := by
  unfold State.onGrid; split <;> rfl
@[simp] theorem State.onGrid_eng (s : State) (u : Nat) (f : Grid → Grid) : (s.onGrid u f).eng = s.eng := by
  unfold State.onGrid; split <;> rfl
@[simp] theorem State.onGrid_ctl (s : State) (u : Nat) (f : Grid → Grid) : (s.onGrid u f).ctl = s.ctl := by
  unfold State.onGrid; split <;> rfl
@[simp] theorem State.onGrid_queues (s : State) (u : Nat) (f : Grid → Grid) : (s.onGrid u f).queues = s.queues := by
  unfold State.onGrid; split <;> rfl
@[simp] theorem State.onGrid_net (s : State) (u : Nat) (f : Grid → Grid) : (s.onGrid u f).net = s.net := by
  unfold State.onGrid; split <;> rfl
@[simp] theorem State.onGrid_boot (s : State) (u : Nat) (f : Grid → Grid) : (s.onGrid u f).boot = s.boot := by
  unfold State.onGrid; split <;> rfl
@[simp] theorem State.onGrid_tdisp (s : State) (u : Nat) (f : Grid → Grid) : (s.onGrid u f).tdisp = s.tdisp := by
  unfold State.onGrid; split <;> rfl
@[simp] theorem State.onGrid_out (s : State) (u : Nat) (f : Grid → Grid) : (s.onGrid u f).out = s.out := by
  unfold State.onGrid; split <;> rfl

-- look-ups

theorem State.team?_setTeam (s : State) (t : Team) (u : Nat) :
    (s.setTeam t).team? u = if u = t.uid then some t else s.team? u := Store.get_set none (some t) s.work.teams t.uid u
@[simp] theorem State.team?_setTeam_self (s : State) (t : Team) : (s.setTeam t).team? t.uid = some t := by
  simp [State.team?_setTeam]
theorem State.team?_setTeam_ne (s : State) (t : Team) {u : Nat} (h : u ≠ t.uid) : (s.setTeam t).team? u = s.team? u := by
  simp [State.team?_setTeam, h]
/-- A team changed by `f` is found changed; any other as it was. -/
theorem State.team?_onTeam (s : State) (u v : Nat) (f : Team → Team) :
    (s.onTeam u f).team? v = if v = u then (s.team? u).map (fun t => { f t with uid := u }) else s.team? v := by
  unfold State.onTeam
  cases h : s.team? u with
  | none => by_cases hv : v = u <;> simp_all
  | some t => by_cases hv : v = u <;> simp [State.team?_setTeam, hv]
@[simp] theorem State.team?_bump (s : State) (n u : Nat) : (s.bump n).team? u = s.team? u := rfl
@[simp] theorem State.team?_setMem (s : State) (m : Mem) (u : Nat) : (s.setMem m).team? u = s.team? u := rfl
@[simp] theorem State.team?_setCore (s : State) (k : Nat) (c : Core) (u : Nat) : (s.setCore k c).team? u = s.team? u := rfl
@[simp] theorem State.team?_setGrid (s : State) (g : Grid) (u : Nat) : (s.setGrid g).team? u = s.team? u := rfl

theorem State.core_setCore (s : State) (k n : Nat) (c : Core) :
    (s.setCore k c).core n = if n = k then c else s.core n := Store.get_set Core.zero c s.work.cores k n
@[simp] theorem State.core_setTeam (s : State) (t : Team) (n : Nat) : (s.setTeam t).core n = s.core n := rfl
theorem State.grid?_setGrid (s : State) (g : Grid) (u : Nat) :
    (s.setGrid g).grid? u = if u = g.uid then some g else s.grid? u := Store.get_set none (some g) s.work.grids g.uid u
@[simp] theorem State.grid?_setTeam (s : State) (t : Team) (u : Nat) : (s.setTeam t).grid? u = s.grid? u := rfl
@[simp] theorem State.grid?_onTeam (s : State) (u v : Nat) (f : Team → Team) : (s.onTeam u f).grid? v = s.grid? v := by
  unfold State.onTeam; split <;> rfl

-- threads and batches of a team

theorem listPut_length {α : Type} (v : α) : ∀ (l : List α) (i : Nat), (listPut l i v).length = l.length := by
  intro l
  induction l with
  | nil => intro i; rfl
  | cons x l ih => intro i; cases i <;> simp [listPut, ih]

theorem listPut_getD {α : Type} (d v : α) : ∀ (l : List α) (i n : Nat),
    (listPut l i v).getD n d = if n = i ∧ i < l.length then v else l.getD n d := by
  intro l
  induction l with
  | nil => intro i n; simp [listPut]
  | cons x l ih =>
    intro i n
    cases i with
    | zero => cases n <;> simp [listPut]
    | succ i =>
      cases n with
      | zero => simp [listPut]
      | succ n => simpa [listPut] using ih i n

/-- A thread's replacement is found at its place, every other thread as it was. -/
theorem Team.thread_setThread (t : Team) (i n : Nat) (x : Thread) :
    (t.setThread i x).thread n = if n = i ∧ i < t.threads.length then x else t.thread n :=
  listPut_getD Thread.blank x t.threads i n
theorem Team.thread_onThread (t : Team) (i n : Nat) (f : Thread → Thread) :
    (t.onThread i f).thread n = if n = i ∧ i < t.threads.length then f (t.thread i) else t.thread n :=
  Team.thread_setThread t i n _
@[simp] theorem Team.length_onThread (t : Team) (i : Nat) (f : Thread → Thread) :
    (t.onThread i f).threads.length = t.threads.length := listPut_length _ _ _
@[simp] theorem Team.uid_onThread (t : Team) (i : Nat) (f : Thread → Thread) : (t.onThread i f).uid = t.uid := rfl
@[simp] theorem Team.thread_setBatch (t : Team) (b : Batch) (n : Nat) : (t.setBatch b).thread n = t.thread n := rfl
@[simp] theorem Team.uid_setBatch (t : Team) (b : Batch) : (t.setBatch b).uid = t.uid := rfl

end Sys2Proof.Machine
end

