-- ==== Sys2Proof/Safety.lean ====
section
/-! DEFINITION. What a safe run is, in the terms claims use: the memories keep their canonical form, and no step stops.
And the relations that say what an instruction changes and what it leaves alone. -/

namespace Sys2Proof.Machine

/-- The invariant that every step keeps: both memories are in canonical form. -/
abbrev State.Inv (s : State) : Prop := s.mem.wf

/-- A step from the state answers a next state. -/
def State.goes (s : State) : Prop := ∃ t, step s = .next t

-- where an instruction is performed

/-- The issuing batch is that of a team which is stored under its own name. -/
structure State.Issuing (s : State) (c : Ctx) : Prop where
  ctx : s.ctx? = some c
  home : s.team? c.team.uid = some c.team

-- what it leaves alone

/-- Every exception flag the team has raised and not cleared, the ones an SGET may not see yet among them (R73). -/
def Team.fexcAll (t : Team) : BitVec 5 := t.allFexc.fexc

/-- What belongs to a team as a whole stands in both teams alike: S registers and their tags, scratchpad, tiles,
accumulators, barriers, extended blocks, graph, TGEMM, class and priority. -/
structure Team.Same (t t' : Team) : Prop where
  uid : t'.uid = t.uid
  grid : t'.grid = t.grid
  len : t'.threads.length = t.threads.length
  s : t'.s = t.s
  tags : t'.tags = t.tags
  scratch : t'.scratch = t.scratch
  tile : t'.tile = t.tile
  acc : t'.acc = t.acc
  tctl : t'.tctl = t.tctl
  acst : t'.acst = t.acst
  cv : t'.cv = t.cv
  bars : t'.bars = t.bars
  netMask : t'.netMask = t.netMask
  holders : t'.holders = t.holders
  walker : t'.walker = t.walker
  gemm : t'.gemm = t.gemm
  cls : t'.cls = t.cls
  prio : t'.prio = t.prio

/-- Everything a program computes with stands in both teams alike. -/
structure Team.Kept (t t' : Team) : Prop extends Team.Same t t' where
  k : ∀ n, (t'.thread n).k = (t.thread n).k
  w : ∀ n, (t'.thread n).w = (t.thread n).w
  preds : ∀ n, (t'.thread n).preds = (t.thread n).preds
  trap : ∀ n, (t'.thread n).trap = (t.thread n).trap
  fexc : t'.fexcAll = t.fexcAll

/-- The same, but for the trap state of one thread. -/
structure Team.KeptBut (t t' : Team) (i : Nat) : Prop extends Team.Same t t' where
  k : ∀ n, (t'.thread n).k = (t.thread n).k
  w : ∀ n, (t'.thread n).w = (t.thread n).w
  preds : ∀ n, (t'.thread n).preds = (t.thread n).preds
  trap : ∀ n, n ≠ i → (t'.thread n).trap = (t.thread n).trap
  fexc : t'.fexcAll = t.fexcAll

/-- Outside team `u` nothing has changed but names: memory, links, registers, other teams, grids, cores. -/
structure State.Apart (s s' : State) (u : Nat) : Prop where
  mem : s'.mem = s.mem
  pairs : s'.pairs = s.pairs
  eng : s'.eng = s.eng
  ctl : s'.ctl = s.ctl
  queues : s'.queues = s.queues
  net : s'.net = s.net
  boot : s'.boot = s.boot
  tdisp : s'.tdisp = s.tdisp
  out : s'.out = s.out
  cores : s'.work.cores = s.work.cores
  grids : s'.work.grids = s.work.grids
  teams : ∀ v, v ≠ u → s'.team? v = s.team? v

-- what it writes

/-- A team after one thread's registers have been written and flags raised. -/
structure Team.Wrote (t t' : Team) (i : Nat) (ws : List (Reg × Ty × Nat)) (fl : Flags) : Prop extends Team.Same t t' where
  here : i < t.threads.length → (t'.thread i).k = ((t.thread i).writeAll ws).k ∧ (t'.thread i).w = ((t.thread i).writeAll ws).w
  k : ∀ n, n ≠ i → (t'.thread n).k = (t.thread n).k
  w : ∀ n, n ≠ i → (t'.thread n).w = (t.thread n).w
  preds : ∀ n, (t'.thread n).preds = (t.thread n).preds
  trap : ∀ n, (t'.thread n).trap = (t.thread n).trap
  fexc : t'.fexcAll = t.fexcAll ||| fl

/-- The trap record of a thread that traps at the instruction its batch stands at (R209, R211). -/
def Ctx.trapOf (c : Ctx) (code : Code) (addr : W64) : Trap :=
  ⟨code.num, c.batch.block, c.batch.clause, c.batch.instr, 0, addr, false, 0⟩

/-- What the threads of a vector instruction have done, `P` being the threads done. -/
structure VecDone (c : Ctx) (ps : List Posn) (f : Nat → VRes) (t t' : Team) (P : List Nat) : Prop extends Team.Same t t' where
  here : ∀ i ∈ P, i < t.threads.length → c.regFault i ps = none →
    (t'.thread i).k = ((t.thread i).writeAll (f i).writes).k ∧ (t'.thread i).w = ((t.thread i).writeAll (f i).writes).w
  rest : ∀ i, (i ∉ P ∨ c.regFault i ps ≠ none) → (t'.thread i).k = (t.thread i).k ∧ (t'.thread i).w = (t.thread i).w
  preds : ∀ n, (t'.thread n).preds = (t.thread n).preds
  trap : ∀ i, (i ∉ P ∨ c.regFault i ps = none) → (t'.thread i).trap = (t.thread i).trap
  hit : ∀ i ∈ P, i < t.threads.length → ∀ e, c.regFault i ps = some e → (t'.thread i).trap = c.trapOf e.1 e.2
  fexc : t'.fexcAll = P.foldr (fun i a => if c.regFault i ps = none then a ||| (f i).flags else a) t.fexcAll

-- one thread after another

/-- One part after another: each of a list takes the state on. -/
def Each {α : Type} (R : State → α → State → Prop) : List α → State → State → Prop
  | [], s, t => t = s
  | i :: is, s, t => ∃ u, R s i u ∧ Each R is u t

/-- The threads that still have an instruction to perform, of those it is for. -/
def Ctx.todo (c : Ctx) (who : List Nat) : List Nat := who.filter (fun i => !c.batch.done.contains i)

/-- The batch has gone on: what a program computes with stands as the instruction has left it. -/
structure State.Onward (t s' : State) (u : Nat) : Prop where
  team : ∀ a, t.team? u = some a → ∃ b, s'.team? u = some b ∧ a.Kept b
  apart : t.Apart s' u

/-- One thread's registers written: the state before and after. -/
structure State.WroteIn (x y : State) (u i : Nat) (ws : List (Reg × Ty × Nat)) (fl : Flags) : Prop where
  team : ∀ a, x.team? u = some a → ∃ b, y.team? u = some b ∧ a.Wrote b i ws fl
  apart : x.Apart y u

/-- A thread has trapped: its code, the fault point, the detail 0 and the address stand in its trap state, all else a
program computes with as it was (R59, R209, R211). -/
structure State.Trapped (x y : State) (c : Ctx) (i : Nat) (code : Code) (addr : W64) : Prop where
  team : ∀ a, x.team? c.team.uid = some a → ∃ b, y.team? c.team.uid = some b ∧ a.KeptBut b i ∧
    (i < a.threads.length → (a.batch? c.batch.id).isSome → (b.thread i).st = .trapped ∧ (b.thread i).trap = c.trapOf code addr)
  apart : x.Apart y c.team.uid

end Sys2Proof.Machine
end

