-- ==== Sys2Proof/Laws/Moves.lean ====
section
/-! SUPPORT. What moving a batch on, parking and trapping leave alone: the registers, predicate stacks, tiles and
scratchpad of the whole team. -/

namespace Sys2Proof.Machine

theorem Team.Same.rfl' (t : Team) : t.Same t :=
  ⟨rfl, rfl, rfl, rfl, rfl, rfl, rfl, rfl, rfl, rfl, rfl, rfl, rfl, rfl, rfl, rfl, rfl, rfl⟩
theorem Team.Same.trans {a b c : Team} (h : a.Same b) (g : b.Same c) : a.Same c :=
  ⟨g.uid.trans h.uid, g.grid.trans h.grid, g.len.trans h.len, g.s.trans h.s, g.tags.trans h.tags, g.scratch.trans h.scratch,
    g.tile.trans h.tile, g.acc.trans h.acc, g.tctl.trans h.tctl, g.acst.trans h.acst, g.cv.trans h.cv, g.bars.trans h.bars,
    g.netMask.trans h.netMask, g.holders.trans h.holders, g.walker.trans h.walker, g.gemm.trans h.gemm, g.cls.trans h.cls,
    g.prio.trans h.prio⟩

theorem Team.Kept.rfl' (t : Team) : t.Kept t :=
  ⟨.rfl' t, fun _ => rfl, fun _ => rfl, fun _ => rfl, fun _ => rfl, rfl⟩

theorem Team.Kept.trans {a b c : Team} (h : a.Kept b) (g : b.Kept c) : a.Kept c where
  toSame := h.toSame.trans g.toSame
  k n := (g.k n).trans (h.k n)
  w n := (g.w n).trans (h.w n)
  preds n := (g.preds n).trans (h.preds n)
  trap n := (g.trap n).trans (h.trap n)
  fexc := g.fexc.trans h.fexc

/-- The part of a team that batches and tokens live in is no part of what a program computes with. -/
theorem Team.kept_inner (t : Team) (sel : Option Sel) (bs : List Batch) (fl : Store Nat) (ts : List Tok) (so : List (Old W64)) (wd : Nat) :
    t.Kept { t with sel := sel, batches := bs, flags := fl, toks := ts, sOlds := so, wdog := wd } :=
  ⟨⟨rfl, rfl, rfl, rfl, rfl, rfl, rfl, rfl, rfl, rfl, rfl, rfl, rfl, rfl, rfl, rfl, rfl, rfl⟩, fun _ => rfl, fun _ => rfl, fun _ => rfl,
    fun _ => rfl, rfl⟩

/-- Flags gathered one by one. -/
theorem fexc_foldl (l : List FexcNote) : ∀ a : BitVec 5, l.foldl (fun f n => f ||| n.flags) a = a ||| l.foldl (fun f n => f ||| n.flags) 0 := by
  induction l with
  | nil => intro a; simp
  | cons n l ih =>
    intro a
    simp only [List.foldl_cons]
    rw [ih (a ||| n.flags), ih (0 ||| n.flags)]
    simp [BitVec.or_assoc]

theorem fexc_filter (l : List FexcNote) (p : FexcNote → Bool) (a : BitVec 5) :
    (l.filter (fun n => !p n)).foldl (fun f n => f ||| n.flags) ((l.filter p).foldl (fun f n => f ||| n.flags) a) =
      l.foldl (fun f n => f ||| n.flags) a := by
  induction l generalizing a with
  | nil => rfl
  | cons n l ih =>
    by_cases h : p n
    · simp only [List.filter_cons, h, Bool.not_true, Bool.false_eq_true, if_false, if_true, List.foldl_cons]
      exact ih _
    · have h' : p n = false := by simpa using h
      simp only [List.filter_cons, h', Bool.not_false, Bool.false_eq_true, if_false, if_true, List.foldl_cons]
      rw [← ih]
      congr 1
      rw [fexc_foldl, fexc_foldl (l.filter p) (a ||| n.flags)]
      rw [BitVec.or_assoc, BitVec.or_comm _ n.flags, ← BitVec.or_assoc]

/-- A change to a thread that leaves its registers, its predicates and its trap state alone. -/
theorem Team.kept_onThread (t : Team) (i : Nat) (f : Thread → Thread)
    (h : ∀ x, (f x).k = x.k ∧ (f x).w = x.w ∧ (f x).preds = x.preds ∧ (f x).trap = x.trap) : t.Kept (t.onThread i f) := by
  refine ⟨⟨rfl, rfl, Team.length_onThread t i f, rfl, rfl, rfl, rfl, rfl, rfl, rfl, rfl, rfl, rfl, rfl, rfl, rfl, rfl, rfl⟩,
    fun n => ?_, fun n => ?_, fun n => ?_, fun n => ?_, rfl⟩ <;> (rw [Team.thread_onThread]; split)
  · rename_i hc; rw [(h _).1, hc.1]
  · rfl
  · rename_i hc; rw [(h _).2.1, hc.1]
  · rfl
  · rename_i hc; rw [(h _).2.2.1, hc.1]
  · rfl
  · rename_i hc; rw [(h _).2.2.2, hc.1]
  · rfl

theorem Team.kept_mapIdx (t : Team) (f : Nat → Thread → Thread)
    (h : ∀ i x, (f i x).k = x.k ∧ (f i x).w = x.w ∧ (f i x).preds = x.preds ∧ (f i x).trap = x.trap) :
    t.Kept { t with threads := t.threads.mapIdx f } := by
  have key : ∀ n, ((Team.thread { t with threads := t.threads.mapIdx f } n).k = (t.thread n).k ∧
      (Team.thread { t with threads := t.threads.mapIdx f } n).w = (t.thread n).w ∧
      (Team.thread { t with threads := t.threads.mapIdx f } n).preds = (t.thread n).preds ∧
      (Team.thread { t with threads := t.threads.mapIdx f } n).trap = (t.thread n).trap) := by
    intro n
    simp only [Team.thread, List.getD_eq_getElem?_getD, List.getElem?_mapIdx]
    cases t.threads[n]? with
    | none => exact ⟨rfl, rfl, rfl, rfl⟩
    | some x => exact h n x
  exact ⟨⟨rfl, rfl, by simp, rfl, rfl, rfl, rfl, rfl, rfl, rfl, rfl, rfl, rfl, rfl, rfl, rfl, rfl, rfl⟩,
    fun n => (key n).1, fun n => (key n).2.1, fun n => (key n).2.2.1, fun n => (key n).2.2.2, rfl⟩

theorem Team.kept_setBatch (t : Team) (b : Batch) : t.Kept (t.setBatch b) :=
  ⟨⟨rfl, rfl, rfl, rfl, rfl, rfl, rfl, rfl, rfl, rfl, rfl, rfl, rfl, rfl, rfl, rfl, rfl, rfl⟩,
    fun _ => rfl, fun _ => rfl, fun _ => rfl, fun _ => rfl, rfl⟩
theorem Team.kept_setTok (t : Team) (x : Tok) : t.Kept (t.setTok x) :=
  ⟨⟨rfl, rfl, rfl, rfl, rfl, rfl, rfl, rfl, rfl, rfl, rfl, rfl, rfl, rfl, rfl, rfl, rfl, rfl⟩,
    fun _ => rfl, fun _ => rfl, fun _ => rfl, fun _ => rfl, rfl⟩
theorem Team.kept_promise (t : Team) (k : Nat) : t.Kept (t.promise k) :=
  ⟨⟨rfl, rfl, rfl, rfl, rfl, rfl, rfl, rfl, rfl, rfl, rfl, rfl, rfl, rfl, rfl, rfl, rfl, rfl⟩,
    fun _ => rfl, fun _ => rfl, fun _ => rfl, fun _ => rfl, fexc_filter t.fexcLate (fun n => n.tok == k) t.fexc⟩

theorem Team.kept_lowerFlag (t : Team) (b f : Nat) : t.Kept (t.lowerFlag b f) := by
  unfold Team.lowerFlag
  split <;> exact ⟨⟨rfl, rfl, rfl, rfl, rfl, rfl, rfl, rfl, rfl, rfl, rfl, rfl, rfl, rfl, rfl, rfl, rfl, rfl⟩,
    fun _ => rfl, fun _ => rfl, fun _ => rfl, fun _ => rfl, rfl⟩

theorem Team.kept_settleTok (t : Team) (k : Nat) : t.Kept (t.settleTok k) := by
  unfold Team.settleTok
  split
  · exact .rfl' t
  · rename_i x hx
    dsimp only
    have h1 : t.Kept (if (x.issued && x.regs == 0 && !x.aDone) = true then
        (match x.seta with
          | some f => (if 8 ≤ f then t.promise k else t).lowerFlag x.batch f
          | none => t) else t) := by
      split
      · split
        · split
          · exact (Team.kept_promise t k).trans (Team.kept_lowerFlag _ _ _)
          · exact Team.kept_lowerFlag _ _ _
        · exact .rfl' t
      · exact .rfl' t
    generalize (if (x.issued && x.regs == 0 && !x.aDone) = true then
        (match x.seta with
          | some f => (if 8 ≤ f then t.promise k else t).lowerFlag x.batch f
          | none => t) else t) = t1 at h1 ⊢
    have h2 : t1.Kept (if (x.issued && x.mems == 0 && x.posts == 0 && !x.bDone) = true then
        (match x.setb with | some f => t1.lowerFlag x.batch f | none => t1) else t1) := by
      split
      · split
        · exact Team.kept_lowerFlag _ _ _
        · exact .rfl' t1
      · exact .rfl' t1
    generalize (if (x.issued && x.mems == 0 && x.posts == 0 && !x.bDone) = true then
        (match x.setb with | some f => t1.lowerFlag x.batch f | none => t1) else t1) = t2 at h2 ⊢
    refine h1.trans (h2.trans ?_)
    split
    · exact ⟨⟨rfl, rfl, rfl, rfl, rfl, rfl, rfl, rfl, rfl, rfl, rfl, rfl, rfl, rfl, rfl, rfl, rfl, rfl⟩,
    fun _ => rfl, fun _ => rfl, fun _ => rfl, fun _ => rfl, rfl⟩
    · exact Team.kept_setTok _ _

theorem Team.kept_addPending (t : Team) (k a b : Nat) : t.Kept (t.addPending k a b) := by
  unfold Team.addPending
  split
  · exact .rfl' t
  · exact Team.kept_setTok _ _

theorem Team.kept_closeTok (t : Team) (b : Batch) : t.Kept (t.closeTok b) := by
  unfold Team.closeTok
  split
  · exact (Team.kept_setTok _ _).trans (Team.kept_settleTok _ _)
  · exact .rfl' t

theorem Team.kept_endBatch (t : Team) (b : Batch) : t.Kept (t.endBatch b) :=
  (Team.kept_closeTok t b).trans ⟨⟨rfl, rfl, rfl, rfl, rfl, rfl, rfl, rfl, rfl, rfl, rfl, rfl, rfl, rfl, rfl, rfl, rfl, rfl⟩,
    fun _ => rfl, fun _ => rfl, fun _ => rfl, fun _ => rfl, rfl⟩

theorem Team.kept_leave (t : Team) (b : Batch) (i : Nat) (st : TState) (pos : Pos) (fr : Option Frame) :
    t.Kept (t.leave b i st pos fr) := by
  unfold Team.leave
  dsimp only
  have h := Team.kept_onThread t i (fun x => { x with st := st, pos := pos, at_ := b.addrOf pos, frame := fr, olds := [] })
    (fun _ => ⟨rfl, rfl, rfl, rfl⟩)
  split
  · exact h.trans (Team.kept_setBatch _ _)
  · exact h

theorem Team.kept_foldl {α : Type} (f : Team → α → Team) (hf : ∀ (t : Team) (x : α), t.Kept (f t x)) :
    ∀ (l : List α) (t : Team), t.Kept (l.foldl f t) := by
  intro l
  induction l with
  | nil => intro t; exact .rfl' t
  | cons x l ih => intro t; exact (hf t x).trans (ih _)

theorem Team.kept_clearFrames (t : Team) (b : Batch) : t.Kept (t.clearFrames b) :=
  Team.kept_mapIdx t _ (fun i x => by split <;> exact ⟨rfl, rfl, rfl, rfl⟩)

theorem Team.kept_holdBatch (t : Team) (b : Batch) (ws : Batch → Nat → Nat → List Nat) : t.Kept (t.holdBatch b ws) := by
  unfold Team.holdBatch
  have h := Team.kept_foldl (fun (a : Team) i =>
    a.leave b i .held b.pos (some ⟨none, (ws b 0 i).map (fun n => (n, Store.get 0 (a.thread i).w n)), false, none, [], t.unfinished i⟩))
    (fun t' i => Team.kept_leave t' b i _ _ _) b.threads t
  dsimp only
  split
  · exact h.trans (Team.kept_endBatch _ _)
  · exact h

theorem Team.kept_stepOut (t : Team) (b : Batch) (ws : Batch → Nat → Nat → List Nat) : t.Kept (t.stepOut b ws) := by
  unfold Team.stepOut
  have h := Team.kept_foldl (fun (a : Team) i =>
    a.leave b i .held (if b.last then ⟨b.block, b.clause + 1, 0⟩ else ⟨b.block, b.clause, b.instr + 1⟩)
      (some ⟨none, (ws b (b.instr + 1) i).map (fun n => (n, Store.get 0 (a.thread i).w n)), !b.last, none, [], t.unfinished i⟩))
    (fun t' i => Team.kept_leave t' b i _ _ _) b.threads t
  dsimp only
  split
  · exact h.trans (Team.kept_endBatch _ _)
  · exact h

theorem Team.kept_wdogReset (t : Team) : t.Kept t.wdogReset :=
  ⟨⟨rfl, rfl, rfl, rfl, rfl, rfl, rfl, rfl, rfl, rfl, rfl, rfl, rfl, rfl, rfl, rfl, rfl, rfl⟩,
    fun _ => rfl, fun _ => rfl, fun _ => rfl, fun _ => rfl, rfl⟩

theorem Team.kept_nextClause (t : Team) (b : Batch) (ws : Batch → Nat → Nat → List Nat) : t.Kept (t.nextClause b ws) := by
  unfold Team.nextClause
  refine (Team.kept_closeTok t b).trans ?_
  generalize t.closeTok b = t1
  dsimp only
  have h : ∀ b2 : Batch, t1.Kept (t1.setBatch b2).wdogReset := fun b2 => (Team.kept_setBatch t1 b2).trans (Team.kept_wdogReset _)
  split
  · exact (h _).trans (Team.kept_holdBatch _ _ ws)
  · exact h _

/-- Moving a batch on leaves every register of the team alone (R52). -/
theorem Team.kept_moveOn (t : Team) (bid : Nat) (back : List Nat) (ws : Batch → Nat → Nat → List Nat) :
    t.Kept (t.moveOn bid back ws) := by
  unfold Team.moveOn
  split
  · exact .rfl' t
  · rename_i b hb
    have h1 := Team.kept_clearFrames t b
    split
    · exact Team.kept_endBatch t b
    split
    · exact Team.kept_setBatch _ _
    split
    · exact h1.trans (Team.kept_stepOut _ _ ws)
    split
    · exact h1.trans (Team.kept_nextClause _ _ ws)
    · exact h1.trans (Team.kept_setBatch _ _)

/-- The team that moving its issuing batch on makes of one. -/
theorem State.kept_moved (s : State) (t : Team) (c : Ctx) (back : List Nat) : t.Kept (s.moved t c back) := by
  unfold State.moved
  split
  · exact (Team.kept_wdogReset t).trans (Team.kept_moveOn _ _ _ _)
  · exact Team.kept_moveOn _ _ _ _

theorem State.Apart.rfl' (s : State) (u : Nat) : s.Apart s u :=
  ⟨rfl, rfl, rfl, rfl, rfl, rfl, rfl, rfl, rfl, rfl, rfl, fun _ _ => rfl⟩
theorem State.Apart.trans {a b c : State} {u : Nat} (h : a.Apart b u) (g : b.Apart c u) : a.Apart c u :=
  ⟨g.mem.trans h.mem, g.pairs.trans h.pairs, g.eng.trans h.eng, g.ctl.trans h.ctl, g.queues.trans h.queues, g.net.trans h.net,
    g.boot.trans h.boot, g.tdisp.trans h.tdisp, g.out.trans h.out, g.cores.trans h.cores, g.grids.trans h.grids,
    fun v hv => (g.teams v hv).trans (h.teams v hv)⟩
theorem State.apart_bump (s : State) (n u : Nat) : s.Apart (s.bump n) u :=
  ⟨rfl, rfl, rfl, rfl, rfl, rfl, rfl, rfl, rfl, rfl, rfl, fun _ _ => rfl⟩
theorem State.apart_setTeam (s : State) (t : Team) (u : Nat) (h : t.uid = u) : s.Apart (s.setTeam t) u :=
  ⟨rfl, rfl, rfl, rfl, rfl, rfl, rfl, rfl, rfl, rfl, rfl, fun _ hv => State.team?_setTeam_ne s t (by rw [h]; exact hv)⟩
theorem State.apart_onTeam (s : State) (u : Nat) (f : Team → Team) : s.Apart (s.onTeam u f) u := by
  unfold State.onTeam
  split
  · exact State.apart_setTeam s _ u rfl
  · exact .rfl' s u

/-- A fault, and a park, change the faulting thread's team alone (R59). -/
theorem State.apart_raise {s : State} {c : Ctx} {t : Team} (h : s.team? c.team.uid = some t) (hu : t.uid = c.team.uid)
    (i : Nat) (code : Code) (addr : W64) : s.Apart (s.raise c i code addr) c.team.uid := by
  unfold State.raise State.trapThread
  rw [h]
  dsimp only
  split
  · exact .rfl' s _
  · rename_i b hb
    refine State.apart_setTeam s _ _ ?_
    rw [Team.uid_onThread]
    exact (Team.kept_leave t b i .trapped c.batch.pos _).uid.trans hu

end Sys2Proof.Machine
end

