-- ==== Sys2Proof/Laws/Vector.lean ====
section
/-! SUPPORT. What a vector instruction does, once for all of them: it answers a next state, in which each of its active
threads has its result and everything else a program computes with stands as it was. -/

namespace Sys2Proof.Machine

theorem sortNat_mem (x : Nat) : ∀ l : List Nat, x ∈ sortNat l ↔ x ∈ l := by
  have ins : ∀ (y : Nat) (l : List Nat), x ∈ insertNat y l ↔ x = y ∨ x ∈ l := by
    intro y l
    induction l with
    | nil => simp [insertNat]
    | cons z l ih =>
      simp only [insertNat]
      split
      · simp
      · split
        · rename_i h; subst h; simp
        · simp only [List.mem_cons, ih]; tauto
  intro l
  induction l with
  | nil => simp [sortNat]
  | cons y l ih => simp [sortNat, ins, ih]

theorem sortNat_pairwise (l : List Nat) : (sortNat l).Pairwise (· < ·) := by
  have ins : ∀ (y : Nat) (l : List Nat), l.Pairwise (· < ·) → (insertNat y l).Pairwise (· < ·) := by
    intro y l
    induction l with
    | nil => intro _; simp [insertNat]
    | cons z l ih =>
      intro h
      simp only [insertNat]
      split
      · rename_i hlt
        rw [List.pairwise_cons] at h ⊢
        refine ⟨?_, List.pairwise_cons.mpr h⟩
        intro a ha
        rcases List.mem_cons.mp ha with rfl | ha
        · exact hlt
        · exact Nat.lt_trans hlt (h.1 a ha)
      · split
        · exact h
        · rename_i h1 h2
          rw [List.pairwise_cons] at h ⊢
          refine ⟨?_, ih h.2⟩
          intro a ha
          have : a = y ∨ a ∈ l := by
            clear ih
            induction l with
            | nil => simpa [insertNat] using ha
            | cons b l ih2 =>
              simp only [insertNat] at ha
              split at ha
              · simpa using ha
              · split at ha
                · simp at ha ⊢; tauto
                · simp only [List.mem_cons] at ha ⊢
                  rcases ha with ha | ha
                  · exact .inr (.inl ha)
                  · have hb := h.2
                    rw [List.pairwise_cons] at hb
                    rcases ih2 ⟨fun x hx => h.1 x (List.mem_cons_of_mem _ hx), hb.2⟩ ha with r | r
                    · exact .inl r
                    · exact .inr (.inr r)
          rcases this with rfl | ha
          · omega
          · exact h.1 a ha
  induction l with
  | nil => exact List.Pairwise.nil
  | cons y l ih => exact ins y _ ih

theorem sortNat_nodup (l : List Nat) : (sortNat l).Nodup := (sortNat_pairwise l).imp (fun h => Nat.ne_of_lt h)

-- writing registers

theorem Thread.put_congr {x y : Thread} (hk : x.k = y.k) (hw : x.w = y.w) (isW : Bool) (n : Nat) (v : W32) :
    (x.put isW n v).k = (y.put isW n v).k ∧ (x.put isW n v).w = (y.put isW n v).w := by
  unfold Thread.put; split <;> simp [hk, hw]

theorem Thread.put_preds (x : Thread) (isW : Bool) (n : Nat) (v : W32) : (x.put isW n v).preds = x.preds := by
  unfold Thread.put; split <;> rfl

theorem Thread.write_congr {x y : Thread} (hk : x.k = y.k) (hw : x.w = y.w) (d : Reg) (ty : Ty) (v : Nat) :
    (x.write d ty v).k = (y.write d ty v).k ∧ (x.write d ty v).w = (y.write d ty v).w := by
  cases d with
  | s n => exact ⟨hk, hw⟩
  | w n =>
    simp only [Thread.write]
    split
    · exact Thread.put_congr (Thread.put_congr hk hw _ _ _).1 (Thread.put_congr hk hw _ _ _).2 _ _ _
    · exact Thread.put_congr hk hw _ _ _
  | k n =>
    simp only [Thread.write]
    split
    · exact Thread.put_congr (Thread.put_congr hk hw _ _ _).1 (Thread.put_congr hk hw _ _ _).2 _ _ _
    · exact Thread.put_congr hk hw _ _ _

theorem Thread.write_preds (x : Thread) (d : Reg) (ty : Ty) (v : Nat) : (x.write d ty v).preds = x.preds := by
  cases d with
  | s n => rfl
  | w n => simp only [Thread.write]; split <;> simp [Thread.put_preds]
  | k n => simp only [Thread.write]; split <;> simp [Thread.put_preds]

theorem Thread.writeAll_congr (ws : List (Reg × Ty × Nat)) : ∀ {x y : Thread}, x.k = y.k → x.w = y.w →
    (x.writeAll ws).k = (y.writeAll ws).k ∧ (x.writeAll ws).w = (y.writeAll ws).w := by
  induction ws with
  | nil => intro x y hk hw; exact ⟨hk, hw⟩
  | cons e ws ih =>
    obtain ⟨d, ty, v⟩ := e
    intro x y hk hw
    exact ih (Thread.write_congr hk hw d ty v).1 (Thread.write_congr hk hw d ty v).2

theorem Thread.writeAll_preds (ws : List (Reg × Ty × Nat)) : ∀ x : Thread, (x.writeAll ws).preds = x.preds := by
  induction ws with
  | nil => intro x; rfl
  | cons e ws ih =>
    obtain ⟨d, ty, v⟩ := e
    intro x
    exact (ih _).trans (Thread.write_preds x d ty v)

theorem Thread.put_trap (x : Thread) (isW : Bool) (n : Nat) (v : W32) : (x.put isW n v).trap = x.trap := by
  unfold Thread.put; split <;> rfl
theorem Thread.write_trap (x : Thread) (d : Reg) (ty : Ty) (v : Nat) : (x.write d ty v).trap = x.trap := by
  cases d with
  | s n => rfl
  | w n => simp only [Thread.write]; split <;> simp [Thread.put_trap]
  | k n => simp only [Thread.write]; split <;> simp [Thread.put_trap]
theorem Thread.writeAll_trap (ws : List (Reg × Ty × Nat)) : ∀ x : Thread, (x.writeAll ws).trap = x.trap := by
  induction ws with
  | nil => intro x; rfl
  | cons e ws ih =>
    obtain ⟨d, ty, v⟩ := e
    intro x
    exact (ih _).trans (Thread.write_trap x d ty v)

theorem Thread.noteOlds_same (tok id : Nat) (rs : List (Bool × Nat)) : ∀ x : Thread,
    (x.noteOlds tok id rs).k = x.k ∧ (x.noteOlds tok id rs).w = x.w ∧ (x.noteOlds tok id rs).preds = x.preds ∧
      (x.noteOlds tok id rs).trap = x.trap := by
  induction rs with
  | nil => intro x; exact ⟨rfl, rfl, rfl, rfl⟩
  | cons r rs ih =>
    obtain ⟨isW, n⟩ := r
    intro x
    exact ih _

-- one thread's part

theorem Team.Wrote.trans_kept {a b c : Team} {i : Nat} {ws : List (Reg × Ty × Nat)} {fl : Flags} (h : a.Wrote b i ws fl)
    (g : b.Kept c) : a.Wrote c i ws fl where
  toSame := h.toSame.trans g.toSame
  here hi := ⟨(g.k i).trans (h.here hi).1, (g.w i).trans (h.here hi).2⟩
  k n hn := (g.k n).trans (h.k n hn)
  w n hn := (g.w n).trans (h.w n hn)
  preds n := (g.preds n).trans (h.preds n)
  trap n := (g.trap n).trans (h.trap n)
  fexc := g.fexc.trans h.fexc

/-- Raising flags: what has been raised is the old and the new together. -/
theorem Team.orFexc_all (t : Team) (tok id : Nat) (f : Flags) : (t.orFexc tok id f).fexcAll = t.fexcAll ||| f := by
  unfold Team.orFexc
  split
  · rename_i h
    simp only [Team.fexcAll, Team.allFexc]
    rw [fexc_foldl, BitVec.or_assoc, BitVec.or_comm _ f, ← BitVec.or_assoc, h]
  · simp only [Team.fexcAll, Team.allFexc, List.foldl_cons]
    rw [fexc_foldl _ (t.fexc ||| f), fexc_foldl _ t.fexc, BitVec.or_assoc, BitVec.or_comm f, ← BitVec.or_assoc]

theorem Team.wrote_orFexc {a b : Team} {i : Nat} {ws : List (Reg × Ty × Nat)} (h : a.Wrote b i ws 0) (tok id : Nat) (f : Flags) :
    a.Wrote (b.orFexc tok id f) i ws f := by
  have hs : b.Same (b.orFexc tok id f) := by
    unfold Team.orFexc; split
    · exact .rfl' b
    · exact ⟨rfl, rfl, rfl, rfl, rfl, rfl, rfl, rfl, rfl, rfl, rfl, rfl, rfl, rfl, rfl, rfl, rfl, rfl⟩
  have ht : ∀ n, (b.orFexc tok id f).thread n = b.thread n := by
    intro n; unfold Team.orFexc; split <;> rfl
  refine ⟨h.toSame.trans hs, fun hi => ?_, fun n hn => ?_, fun n hn => ?_, fun n => ?_, fun n => ?_, ?_⟩
  · rw [ht]; exact h.here hi
  · rw [ht]; exact h.k n hn
  · rw [ht]; exact h.w n hn
  · rw [ht]; exact h.preds n
  · rw [ht]; exact h.trap n
  · have e : b.fexcAll = a.fexcAll := by simpa using h.fexc
    rw [Team.orFexc_all, e]

theorem Team.wrote_onThread (t : Team) (i : Nat) (ws : List (Reg × Ty × Nat)) (g : Thread → Thread)
    (hg : ∀ x, (g x).k = x.k ∧ (g x).w = x.w ∧ (g x).preds = x.preds ∧ (g x).trap = x.trap) :
    t.Wrote (t.onThread i (fun x => (g x).writeAll ws)) i ws 0 := by
  refine ⟨⟨rfl, rfl, Team.length_onThread _ _ _, rfl, rfl, rfl, rfl, rfl, rfl, rfl, rfl, rfl, rfl, rfl, rfl, rfl, rfl, rfl⟩,
    fun hi => ?_, fun n hn => ?_, fun n hn => ?_, fun n => ?_, fun n => ?_, (show _ = t.fexcAll ||| 0#5 by simp; rfl)⟩
  · rw [Team.thread_onThread, if_pos ⟨rfl, hi⟩]
    exact Thread.writeAll_congr ws (hg _).1 (hg _).2.1
  · rw [Team.thread_onThread, if_neg (fun h => hn h.1)]
  · rw [Team.thread_onThread, if_neg (fun h => hn h.1)]
  · rw [Team.thread_onThread]
    split
    · rename_i h; rw [Thread.writeAll_preds, (hg _).2.2.1, h.1]
    · rfl
  · rw [Team.thread_onThread]
    split
    · rename_i h; rw [Thread.writeAll_trap, (hg _).2.2.2, h.1]
    · rfl

/-- A state whose team `u` is stored under its own name stays so through a change of it. -/
theorem State.team?_onTeam_self {s : State} {u : Nat} {t : Team} (h : s.team? u = some t) (f : Team → Team) :
    (s.onTeam u f).team? u = some { f t with uid := u } := by
  simp [State.team?_onTeam, h]

theorem Team.kept_uid (t : Team) (u : Nat) (h : t.uid = u) : t.Kept { t with uid := u } := by
  subst h; exact .rfl' t

theorem Team.batches_addPending (t : Team) (k a b : Nat) : (t.addPending k a b).batches = t.batches := by
  unfold Team.addPending
  split <;> rfl
theorem Team.batches_orFexc (t : Team) (k id : Nat) (f : Flags) : (t.orFexc k id f).batches = t.batches := by
  unfold Team.orFexc
  split <;> rfl

theorem State.putV_wrote {s : State} {c : Ctx} {t : Team} (h : s.team? c.team.uid = some t) (hu : t.uid = c.team.uid)
    (i : Nat) (late : Bool) (v : VRes) :
    ∃ t', (s.putV c i late v).team? c.team.uid = some t' ∧ t.Wrote t' i v.writes v.flags ∧ t'.batches = t.batches := by
  unfold State.putV State.onCur
  rw [State.team?_bump, State.team?_onTeam_self h]
  refine ⟨_, rfl, ?_, Team.batches_orFexc _ _ _ _⟩
  have h1 := Team.wrote_onThread t i v.writes
    (fun x => if late then x.noteOlds c.batch.tok s.fresh (regsOf v.writes) else x.settle (regsOf v.writes))
    (fun x => by split <;> [exact Thread.noteOlds_same _ _ _ x; exact ⟨rfl, rfl, rfl, rfl⟩])
  have h2 := Team.wrote_orFexc h1 c.batch.tok s.fresh v.flags
  exact h2.trans_kept (Team.kept_uid _ _ (h2.uid.trans hu))

theorem State.pendRegs_kept {s : State} {c : Ctx} {t : Team} (h : s.team? c.team.uid = some t) (hu : t.uid = c.team.uid) :
    ∃ t', (s.pendRegs c).team? c.team.uid = some t' ∧ t.Kept t' ∧ t'.batches = t.batches := by
  refine ⟨_, State.team?_onTeam_self h _, ?_, Team.batches_addPending _ _ _ _⟩
  have h1 := Team.kept_addPending t c.batch.tok 1 0
  exact h1.trans (Team.kept_uid _ _ (h1.uid.trans hu))

theorem Team.KeptBut.of_kept {a b : Team} (h : a.Kept b) (i : Nat) : a.KeptBut b i :=
  ⟨h.toSame, h.k, h.w, h.preds, fun n _ => h.trap n, h.fexc⟩
theorem Team.KeptBut.trans {a b c : Team} {i : Nat} (h : a.KeptBut b i) (g : b.KeptBut c i) : a.KeptBut c i where
  toSame := h.toSame.trans g.toSame
  k n := (g.k n).trans (h.k n)
  w n := (g.w n).trans (h.w n)
  preds n := (g.preds n).trans (h.preds n)
  trap n hn := (g.trap n hn).trans (h.trap n hn)
  fexc := g.fexc.trans h.fexc
theorem Team.keptBut_trap (t : Team) (i : Nat) (tr : Trap) : t.KeptBut (t.onThread i (fun x => { x with trap := tr })) i := by
  refine ⟨⟨rfl, rfl, Team.length_onThread _ _ _, rfl, rfl, rfl, rfl, rfl, rfl, rfl, rfl, rfl, rfl, rfl, rfl, rfl, rfl, rfl⟩,
    fun n => ?_, fun n => ?_, fun n => ?_, fun n hn => ?_, rfl⟩ <;> rw [Team.thread_onThread] <;> split <;> rename_i h
  · rw [h.1]
  · rfl
  · rw [h.1]
  · rfl
  · rw [h.1]
  · rfl
  · exact absurd h.1 hn
  · rfl

/-- A thread that traps keeps its registers (R59), and so does every other. -/
theorem State.raise_kept {s : State} {c : Ctx} {t : Team} (h : s.team? c.team.uid = some t) (hu : t.uid = c.team.uid)
    (i : Nat) (code : Code) (addr : W64) :
    ∃ t', (s.raise c i code addr).team? c.team.uid = some t' ∧ t.KeptBut t' i := by
  unfold State.raise State.trapThread
  rw [h]
  dsimp only
  split
  · exact ⟨t, h, .of_kept (.rfl' t) i⟩
  · rename_i b hb
    generalize t.frameAt i _ _ _ = fr
    have h1 := Team.KeptBut.of_kept (Team.kept_leave t b i .trapped c.batch.pos (some fr)) i
    have h2 := h1.trans (Team.keptBut_trap _ i ⟨code.num, c.batch.pos.block, c.batch.pos.clause, c.batch.pos.instr, 0, addr, false, 0⟩)
    refine ⟨_, ?_, h2⟩
    rw [State.team?_setTeam, if_pos]
    exact (h2.uid.trans hu).symm

/-- A batch keeps its name through a change of it. -/
theorem Team.batch?_setBatch (t : Team) (y : Batch) (b : Nat) : ((t.setBatch y).batch? b).isSome = (t.batch? b).isSome := by
  rw [Bool.eq_iff_iff]
  simp only [Team.batch?, Team.setBatch, List.find?_isSome, List.mem_map, beq_iff_eq]
  constructor
  · rintro ⟨x, ⟨z, hz, rfl⟩, hx⟩
    refine ⟨z, hz, ?_⟩
    split at hx <;> simp_all
  · rintro ⟨x, hx, hb⟩
    refine ⟨_, ⟨x, hx, rfl⟩, ?_⟩
    split <;> simp_all
theorem Team.batch?_leave (t : Team) (b : Batch) (i : Nat) (st : TState) (pos : Pos) (fr : Option Frame) (n : Nat) :
    ((t.leave b i st pos fr).batch? n).isSome = (t.batch? n).isSome := by
  unfold Team.leave
  dsimp only
  split
  · rw [Team.batch?_setBatch]; rfl
  · rfl

theorem Team.thread_leave (t : Team) (b : Batch) (i n : Nat) (st : TState) (pos : Pos) (fr : Option Frame) :
    (t.leave b i st pos fr).thread n =
      if n = i ∧ n < t.threads.length then { t.thread n with st := st, pos := pos, at_ := b.addrOf pos, frame := fr, olds := [] }
      else t.thread n := by
  have e := Team.thread_onThread t i n (fun x => { x with st := st, pos := pos, at_ := b.addrOf pos, frame := fr, olds := [] })
  have h : (t.leave b i st pos fr).thread n =
      (t.onThread i (fun x => { x with st := st, pos := pos, at_ := b.addrOf pos, frame := fr, olds := [] })).thread n := by
    unfold Team.leave
    dsimp only
    split <;> rfl
  rw [h, e]
  split
  · rename_i hc
    rw [if_pos ⟨hc.1, hc.1 ▸ hc.2⟩, hc.1]
  · rename_i hc
    rw [if_neg (fun (x : n = i ∧ n < t.threads.length) => hc ⟨x.1, x.1 ▸ x.2⟩)]

/-- What a trap writes, where the thread's batch is there (R59, R209, R211). -/
theorem State.raise_hits {s : State} {c : Ctx} {t : Team} (h : s.team? c.team.uid = some t) (hu : t.uid = c.team.uid)
    (hb : (t.batch? c.batch.id).isSome) (i : Nat) (code : Code) (addr : W64) :
    ∃ t', (s.raise c i code addr).team? c.team.uid = some t' ∧ t.KeptBut t' i ∧ (t'.batch? c.batch.id).isSome ∧
      (i < t.threads.length → (t'.thread i).st = .trapped ∧ (t'.thread i).trap = c.trapOf code addr) := by
  obtain ⟨b, hb⟩ := Option.isSome_iff_exists.mp hb
  unfold State.raise State.trapThread
  rw [h]
  dsimp only
  rw [hb]
  dsimp only
  generalize t.frameAt i _ _ _ = fr
  have h1 := Team.KeptBut.of_kept (Team.kept_leave t b i .trapped c.batch.pos (some fr)) i
  have h2 := h1.trans (Team.keptBut_trap _ i ⟨code.num, c.batch.pos.block, c.batch.pos.clause, c.batch.pos.instr, 0, addr, false, 0⟩)
  refine ⟨_, ?_, h2, ?_, fun hi => ?_⟩
  · rw [State.team?_setTeam, if_pos]
    exact (h2.uid.trans hu).symm
  · have e := Team.batch?_leave t b i .trapped c.batch.pos (some fr) c.batch.id
    rw [hb] at e
    exact e
  · have hl := h1.len
    rw [Team.thread_onThread, if_pos ⟨rfl, by rw [hl]; exact hi⟩, Team.thread_leave, if_pos ⟨rfl, hi⟩]
    exact ⟨rfl, rfl⟩

-- all the threads

theorem VecDone.start (c : Ctx) (ps : List Posn) (f : Nat → VRes) (t : Team) : VecDone c ps f t t [] :=
  ⟨.rfl' t, fun i h => by simp at h, fun _ _ => ⟨rfl, rfl⟩, fun _ => rfl, fun _ _ => rfl, fun i h => by simp at h, rfl⟩

theorem VecDone.kept {c : Ctx} {ps : List Posn} {f : Nat → VRes} {t t1 t2 : Team} {P : List Nat}
    (h : VecDone c ps f t t1 P) (g : t1.Kept t2) : VecDone c ps f t t2 P where
  toSame := h.toSame.trans g.toSame
  here i hi hl hf := ⟨(g.k i).trans (h.here i hi hl hf).1, (g.w i).trans (h.here i hi hl hf).2⟩
  rest i hi := ⟨(g.k i).trans (h.rest i hi).1, (g.w i).trans (h.rest i hi).2⟩
  preds n := (g.preds n).trans (h.preds n)
  trap n hn := (g.trap n).trans (h.trap n hn)
  hit i hi hl e he := (g.trap i).trans (h.hit i hi hl e he)
  fexc := g.fexc.trans h.fexc

theorem VecDone.fault {c : Ctx} {ps : List Posn} {f : Nat → VRes} {t t1 t2 : Team} {P : List Nat} {i : Nat}
    (h : VecDone c ps f t t1 P) {x : Code × W64} (hx : c.regFault i ps = some x) (g : t1.KeptBut t2 i)
    (gx : i < t1.threads.length → (t2.thread i).trap = c.trapOf x.1 x.2) : VecDone c ps f t t2 (i :: P) where
  toSame := h.toSame.trans g.toSame
  here j hj hl hn := by
    rcases List.mem_cons.mp hj with rfl | hj
    · rw [hx] at hn; cases hn
    · exact ⟨(g.k j).trans (h.here j hj hl hn).1, (g.w j).trans (h.here j hj hl hn).2⟩
  rest j hj := by
    have r := h.rest j (by
      rcases hj with hj | hj
      · exact .inl (fun x => hj (List.mem_cons_of_mem _ x))
      · exact .inr hj)
    exact ⟨(g.k j).trans r.1, (g.w j).trans r.2⟩
  preds n := (g.preds n).trans (h.preds n)
  trap n hn := by
    have hi : n ≠ i := by
      rintro rfl
      rcases hn with hn | hn
      · exact hn (List.mem_cons_self ..)
      · rw [hx] at hn; cases hn
    exact (g.trap n hi).trans (h.trap n (by
      rcases hn with hn | hn
      · exact .inl (fun x => hn (List.mem_cons_of_mem _ x))
      · exact .inr hn))
  hit j hj hl e he := by
    by_cases hji : j = i
    · subst hji
      rw [hx] at he
      cases he
      exact gx (by rw [h.len]; exact hl)
    · rcases List.mem_cons.mp hj with rfl | hj
      · exact absurd rfl hji
      · exact (g.trap j hji).trans (h.hit j hj hl e he)
  fexc := by rw [List.foldr_cons, if_neg (by rw [hx]; simp)]; exact g.fexc.trans h.fexc

theorem VecDone.wrote {c : Ctx} {ps : List Posn} {f : Nat → VRes} {t t1 t2 : Team} {P : List Nat} {i : Nat}
    (h : VecDone c ps f t t1 P) (hi : i ∉ P) (hn : c.regFault i ps = none) (g : t1.Wrote t2 i (f i).writes (f i).flags) :
    VecDone c ps f t t2 (i :: P) where
  toSame := h.toSame.trans g.toSame
  here j hj hl hn := by
    rcases List.mem_cons.mp hj with rfl | hj
    · have e := g.here (by rw [h.len]; exact hl)
      have r := h.rest j (.inl hi)
      exact ⟨e.1.trans (Thread.writeAll_congr _ r.1 r.2).1, e.2.trans (Thread.writeAll_congr _ r.1 r.2).2⟩
    · have hji : j ≠ i := fun x => hi (x ▸ hj)
      exact ⟨(g.k j hji).trans (h.here j hj hl hn).1, (g.w j hji).trans (h.here j hj hl hn).2⟩
  rest j hj := by
    have r := h.rest j (by
      rcases hj with hj | hj
      · exact .inl (fun x => hj (List.mem_cons_of_mem _ x))
      · exact .inr hj)
    by_cases hji : j = i
    · subst hji
      rcases hj with hj | hj
      · exact absurd (List.mem_cons_self ..) hj
      · exact absurd hn hj
    · exact ⟨(g.k j hji).trans r.1, (g.w j hji).trans r.2⟩
  preds n := (g.preds n).trans (h.preds n)
  trap n hn' := (g.trap n).trans (h.trap n (by
    rcases hn' with hn' | hn'
    · exact .inl (fun x => hn' (List.mem_cons_of_mem _ x))
    · exact .inr hn'))
  hit j hj hl e he := by
    rcases List.mem_cons.mp hj with rfl | hj
    · rw [hn] at he; cases he
    · exact (g.trap j).trans (h.hit j hj hl e he)
  fexc := by rw [List.foldr_cons, if_pos hn, g.fexc, h.fexc]

/-- One thread's part, done or trapped, as a move of the state. -/
theorem eachThread_vec (late : Bool) (ps : List Posn) (f : Rd → VRes) (s0 : State) (c : Ctx) :
    ∀ (is : List Nat) (s : State) (t0 t : Team) (P : List Nat),
      s.team? c.team.uid = some t → t0.uid = c.team.uid → (t.batch? c.batch.id).isSome → is.Nodup → (∀ i ∈ is, i ∉ P) →
      VecDone c ps (fun i => f (s0.rd c.team i)) t0 t P →
      ∃ s1 t1, eachThread c (vecPart late ps f s0 c) is s = (s1, [], false) ∧ s1.team? c.team.uid = some t1 ∧ s.Apart s1 c.team.uid ∧
        VecDone c ps (fun i => f (s0.rd c.team i)) t0 t1 (is.reverse ++ P) := by
  intro is
  induction is with
  | nil => intro s t0 t P h _ _ _ _ hd; exact ⟨s, t, rfl, h, .rfl' s _, by simpa using hd⟩
  | cons i is ih =>
    intro s t0 t P h hu hb hnd hP hd
    have hi : i ∉ P := hP i (by simp)
    have hnd' := List.nodup_cons.mp hnd
    have hP' : ∀ j ∈ is, j ∉ i :: P := by
      intro j hj hm
      rcases List.mem_cons.mp hm with rfl | hm
      · exact hnd'.1 hj
      · exact hP j (by simp [hj]) hm
    have htu : t.uid = c.team.uid := hd.uid.trans hu
    cases hf : c.regFault i ps with
    | some e =>
      obtain ⟨t1, h1, k1, hb1, x1⟩ := State.raise_hits h htu hb i e.1 e.2
      obtain ⟨s2, t2, e2, h2, a2, d2⟩ := ih _ t0 t1 (i :: P) h1 hu hb1 hnd'.2 hP' (hd.fault hf k1 (fun hi => (x1 hi).2))
      refine ⟨s2, t2, ?_, h2, (State.apart_raise h htu i e.1 e.2).trans a2, by simpa using d2⟩
      simpa [eachThread, vecPart, hf] using e2
    | none =>
      obtain ⟨t1, h1, w1, hb1⟩ := State.putV_wrote h htu i late (f (s0.rd c.team i))
      have hb1' : (t1.batch? c.batch.id).isSome := by unfold Team.batch? at hb ⊢; rw [hb1]; exact hb
      have hd1 := hd.wrote hi hf w1
      have ap : s.Apart (s.putV c i late (f (s0.rd c.team i))) c.team.uid :=
        (State.apart_onTeam s c.team.uid _).trans (State.apart_bump _ 1 _)
      cases late with
      | false =>
        obtain ⟨s2, t2, e2, h2, a2, d2⟩ := ih _ t0 t1 (i :: P) h1 hu hb1' hnd'.2 hP' hd1
        refine ⟨s2, t2, ?_, h2, ap.trans a2, by simpa using d2⟩
        simpa [eachThread, vecPart, hf] using e2
      | true =>
        obtain ⟨t1', h1', k1', hb2⟩ := State.pendRegs_kept h1 (w1.uid.trans htu)
        have hb2' : (t1'.batch? c.batch.id).isSome := by unfold Team.batch? at hb1' ⊢; rw [hb2]; exact hb1'
        obtain ⟨s2, t2, e2, h2, a2, d2⟩ := ih _ t0 t1' (i :: P) h1' hu hb2' hnd'.2 hP' (hd1.kept k1')
        refine ⟨s2, t2, ?_, h2, (ap.trans (State.apart_onTeam _ c.team.uid _)).trans a2, by simpa using d2⟩
        simpa [eachThread, vecPart, hf] using e2

/-- The issuing batch is one of its team's. -/
theorem State.Issuing.there {s : State} {c : Ctx} (h : s.Issuing c) : (c.team.batch? c.batch.id).isSome := by
  have e := h.ctx
  unfold State.ctx? at e
  split at e
  · cases e
  · rename_i u b _
    split at e
    · cases e
    · rename_i t _
      split at e
      · cases e
      · rename_i x hx
        cases e
        have hid : x.id = b := by
          have := List.find?_some hx
          simpa using this
        rw [hid, hx]
        rfl

/-- A vector instruction answers a next state in which each active thread that has not performed it yet, and whose
register positions pass their checks, has its result in its registers, and everything else a program computes with
stands as it was. -/
theorem vecOp_next {s : State} {c : Ctx} (h : s.Issuing c) (late : Bool) (ps : List Posn) (f : Rd → VRes) :
    ∃ s' t', vecOp late ps f s = .next s' ∧ s'.team? c.team.uid = some t' ∧ s.Apart s' c.team.uid ∧
      VecDone c ps (fun i => f (s.rd c.team i)) c.team t' (((activeOf c).filter (fun i => !c.batch.done.contains i)).reverse) := by
  obtain ⟨s1, t1, e1, h1, a1, d1⟩ := eachThread_vec late ps f s c ((activeOf c).filter (fun i => !c.batch.done.contains i)) s c.team
    c.team [] h.home rfl h.there ((sortNat_nodup _).filter _) (by simp) (VecDone.start c ps _ c.team)
  have hm := State.kept_moved s1 t1 c []
  refine ⟨s1.moveOn c [], { s1.moved t1 c [] with uid := c.team.uid }, ?_, ?_, a1.trans (State.apart_onTeam _ _ _), ?_⟩
  · unfold vecOp perThread withCtx
    rw [h.ctx]
    dsimp only
    rw [e1]
  · unfold State.moveOn
    exact State.team?_onTeam_self h1 _
  · have k : t1.Kept { s1.moved t1 c [] with uid := c.team.uid } :=
      hm.trans (Team.kept_uid _ _ (hm.uid.trans d1.uid))
    simpa using d1.kept k

end Sys2Proof.Machine
end

