-- ==== Sys2Proof/Laws/Scalar.lean ====
section
/-! SUPPORT. What a scalar instruction does, once for all of them: S[d] has its result and all else stands, or a tagged
register makes every thread of the batch trap. -/

namespace Sys2Proof.Machine

/-- A value written to S[n] of a team, all else kept. -/
theorem Team.kept_putSNow (t : Team) (n : Nat) (v : W64) : (t.putS n v).Kept (t.putSNow n v) :=
  ⟨⟨rfl, rfl, rfl, rfl, rfl, rfl, rfl, rfl, rfl, rfl, rfl, rfl, rfl, rfl, rfl, rfl, rfl, rfl⟩,
    fun _ => rfl, fun _ => rfl, fun _ => rfl, fun _ => rfl, rfl⟩

theorem Team.kept_putSLate (t : Team) (tok id n k : Nat) (v : W64) :
    (t.putS n v).Kept (((t.noteOldS tok id n).putS n v).addPending k 1 0) :=
  (⟨⟨rfl, rfl, rfl, rfl, rfl, rfl, rfl, rfl, rfl, rfl, rfl, rfl, rfl, rfl, rfl, rfl, rfl, rfl⟩,
    fun _ => rfl, fun _ => rfl, fun _ => rfl, fun _ => rfl, rfl⟩ :
    (t.putS n v).Kept ((t.noteOldS tok id n).putS n v)).trans (Team.kept_addPending _ _ _ _)

/-- The state after a batch that performed its instruction at once has moved on. -/
theorem State.moveOn_kept {s : State} {c : Ctx} {t : Team} (h : s.team? c.team.uid = some t) (hu : t.uid = c.team.uid)
    (back : List Nat) : ∃ t', (s.moveOn c back).team? c.team.uid = some t' ∧ t.Kept t' := by
  refine ⟨_, State.team?_onTeam_self h _, ?_⟩
  have h1 := State.kept_moved s t c back
  exact h1.trans (Team.kept_uid _ _ (h1.uid.trans hu))

/-- A scalar instruction none of whose registers is tagged answers a next state in which S[d] has its result and
everything else a program computes with stands as it was. -/
theorem scalarOp_next {s : State} {c : Ctx} (h : s.Issuing c) (d : SReg) (srcs : List SReg) (late : Bool) (f : Rd → W64)
    (hl : c.team.linear? (d.val :: srcs.map (·.val)) = none) :
    ∃ s' t', scalarOp d srcs late f s = .next s' ∧ s'.team? c.team.uid = some t' ∧ s.Apart s' c.team.uid ∧
      (c.team.putS d.val (f (s.sRd c))).Kept t' := by
  have put : ∀ g : Team → Team, (c.team.putS d.val (f (s.sRd c))).Kept (g c.team) →
      ∃ t', ((s.onCur c g).moveOn c []).team? c.team.uid = some t' ∧ s.Apart ((s.onCur c g).moveOn c []) c.team.uid ∧
        (c.team.putS d.val (f (s.sRd c))).Kept t' := by
    intro g hg
    have h1 := State.team?_onTeam_self h.home g
    have k1 := hg.trans (Team.kept_uid _ c.team.uid hg.uid)
    obtain ⟨t', h2, k2⟩ := State.moveOn_kept h1 rfl []
    exact ⟨t', h2, (State.apart_onTeam _ _ _).trans (State.apart_onTeam _ _ _), k1.trans k2⟩
  cases late with
  | false =>
    obtain ⟨t', h2, a2, k2⟩ := put (fun t => t.putSNow d.val (f (s.sRd c))) (Team.kept_putSNow c.team d.val (f (s.sRd c)))
    refine ⟨_, t', ?_, h2, a2, k2⟩
    simp only [scalarOp, scalarEffect, withCtx, h.ctx, hl, State.putS]
    rfl
  | true =>
    have hk := Team.kept_putSLate c.team c.batch.tok s.fresh d.val c.batch.tok (f (s.sRd c))
    have h1 : ((s.putSLate c d (f (s.sRd c)))).team? c.team.uid = some { (((c.team.noteOldS c.batch.tok s.fresh d.val).putS d.val (f (s.sRd c))).addPending c.batch.tok 1 0) with uid := c.team.uid } := by
      unfold State.putSLate State.onCur
      rw [State.team?_bump, State.team?_onTeam_self h.home]
    have k1 := hk.trans (Team.kept_uid _ c.team.uid hk.uid)
    obtain ⟨t', h2, k2⟩ := State.moveOn_kept h1 rfl []
    refine ⟨_, t', ?_, h2, ?_, k1.trans k2⟩
    · simp only [scalarOp, scalarEffect, withCtx, h.ctx, hl]
      rfl
    · exact ((State.apart_onTeam s _ _).trans (State.apart_bump _ 1 _)).trans (State.apart_onTeam _ _ _)

end Sys2Proof.Machine
end

