-- ==== Sys2Proof/Laws/Shared.lean ====
section
/-! SUPPORT. What the operations that every meaning shares can do, once for all of them: one thread after another, once
per batch, once for its lowest active thread. -/

namespace Sys2Proof.Machine

theorem State.Onward.of_moveOn (s : State) (c : Ctx) (back : List Nat) (h : ∀ a, s.team? c.team.uid = some a → a.uid = c.team.uid) :
    s.Onward (s.moveOn c back) c.team.uid where
  team a ha := State.moveOn_kept ha (h a ha) back
  apart := State.apart_onTeam _ _ _

/-- How one thread's part, as an instruction's meaning gives it, takes the state on. -/
def Did.takes (c : Ctx) (i : Nat) (y : State) : Did → Prop
  | .done s => y = s
  | .fault s code addr => y = s.raise c i code addr
  | .park s p => y = s.park c i p
  | _ => False

theorem eachThread_each {c : Ctx} {f : State → Nat → Did} :
    ∀ {is : List Nat} {s t : State}, Each (fun x i y => (f x i).takes c i y) is s t → eachThread c f is s = (t, [], false) := by
  intro is
  induction is with
  | nil => intro s t h; rw [show t = s from h]; rfl
  | cons i is ih =>
    rintro s t ⟨u, hu, h⟩
    have e := ih h
    unfold eachThread
    generalize f s i = d at hu ⊢
    cases d <;> simp only [Did.takes] at hu <;> first | contradiction | (subst hu; exact e)

theorem Each.imp {α : Type} {R S : State → α → State → Prop} :
    ∀ {is : List α} {s t : State}, (∀ x i y, i ∈ is → R x i y → S x i y) → Each R is s t → Each S is s t := by
  intro is
  induction is with
  | nil => intro s t _ h; exact h
  | cons i is ih =>
    rintro s t hi ⟨u, hu, h⟩
    exact ⟨u, hi _ _ _ (by simp) hu, ih (fun x j y hj => hi x j y (by simp [hj])) h⟩

/-- An instruction of which every thread's part completes, traps or parks answers a next state. -/
theorem perThread_each {s t : State} {c : Ctx} (h : s.ctx? = some c) (who : Ctx → List Nat) (f : Ctx → State → Nat → Did)
    (e : Each (fun x i y => (f c x i).takes c i y) (c.todo (who c)) s t) : perThread s who f = .next (t.moveOn c []) := by
  unfold perThread withCtx
  rw [h]
  dsimp only
  have e1 := eachThread_each e
  unfold Ctx.todo at e1
  rw [e1]

theorem scalarEffect_done {s t : State} {c : Ctx} (h : s.ctx? = some c) (f : Ctx → Did) (e : f c = .done t) :
    scalarEffect s f = .next (t.moveOn c []) := by
  simp only [scalarEffect, withCtx, h, e]
theorem scalarEffect_fault {s t : State} {c : Ctx} {code : Code} {addr : W64} (h : s.ctx? = some c) (f : Ctx → Did)
    (e : f c = .fault t code addr) : scalarEffect s f = .next ((t.raiseAll c code addr (everyOf c)).moveOn c []) := by
  simp only [scalarEffect, withCtx, h, e, everyOf]

/-- Once for the lowest active thread. -/
theorem onceEffect_done {s t : State} {c : Ctx} (h : s.ctx? = some c) (f : Ctx → Nat → Did) {i : Nat} {is : List Nat}
    (ha : activeOf c = i :: is) (e : f c i = .done t) : onceEffect s f = .next (t.moveOn c []) := by
  unfold activeOf at ha
  simp only [onceEffect, oncePerBatch, withCtx, h, ha, e]
theorem onceEffect_fault {s t : State} {c : Ctx} {code : Code} {addr : W64} (h : s.ctx? = some c) (f : Ctx → Nat → Did) {i : Nat}
    {is : List Nat} (ha : activeOf c = i :: is) (e : f c i = .fault t code addr) :
    onceEffect s f = .next ((t.raiseAll c code addr (activeOf c)).moveOn c []) := by
  have ha' := ha
  unfold activeOf at ha'
  simp only [onceEffect, oncePerBatch, withCtx, h, ha', e, ha]
theorem onceEffect_park {s t : State} {c : Ctx} {p : Park} (h : s.ctx? = some c) (f : Ctx → Nat → Did) {i : Nat}
    {is : List Nat} (ha : activeOf c = i :: is) (e : f c i = .park t p) :
    onceEffect s f = .next ((t.parkAll c p (activeOf c)).moveOn c []) := by
  have ha' := ha
  unfold activeOf at ha'
  simp only [onceEffect, oncePerBatch, withCtx, h, ha', e, ha]
theorem onceEffect_none {s : State} {c : Ctx} (h : s.ctx? = some c) (f : Ctx → Nat → Did) (ha : activeOf c = []) :
    onceEffect s f = .next (s.moveOn c []) := by
  unfold activeOf at ha
  simp only [onceEffect, oncePerBatch, withCtx, h, ha]

/-- What a trap writes (R59, R209, R211). -/
theorem State.raise_trapped {s : State} {c : Ctx} (h : ∀ a, s.team? c.team.uid = some a → a.uid = c.team.uid) (i : Nat) (code : Code)
    (addr : W64) : s.Trapped (s.raise c i code addr) c i code addr where
  team a ha := by
    obtain ⟨b, hb, kb⟩ := State.raise_kept ha (h a ha) i code addr
    refine ⟨b, hb, kb, fun hi hbatch => ?_⟩
    obtain ⟨b', hb', _, _, x⟩ := State.raise_hits ha (h a ha) hbatch i code addr
    rw [hb] at hb'
    cases hb'
    exact x hi
  apart := by
    cases ha : s.team? c.team.uid with
    | some a => exact State.apart_raise ha (h a ha) i code addr
    | none =>
      unfold State.raise State.trapThread
      rw [ha]
      exact .rfl' s _

end Sys2Proof.Machine
end

