-- ==== Sys2Proof/Certificates/Slice0/Obligations.lean ====
section
/-! DEFINITION. The statements for the provers, with the words they are made of: each family's rules stated once, over
every state and every operand. -/

section
open Sys2Proof Sys2Proof.Machine

-- encoding

/-- R311, R312: a well-formed instruction of a program has one word, in a clause of its own class, and that word decodes
to it with every operand; no event has a word. -/
def Obligations.EncodedWordDecodesToItsInstruction : Prop :=
  ∀ i : Instr, i.wellFormed = true →
    match i.cls with
    | some c => ∃ w, encode i = some (c, w) ∧ decode c w = .ok i
    | none => encode i = none

/-- R311, R324: what decodes is well-formed, and an opcode byte that the map of the class does not assign is no other
instruction's. -/
def Claims.DecodingAnswersWellFormed : Prop :=
  (∀ c w i, decode c w = .ok i → i.wellFormed = true) ∧
  (∀ c w, (w : W64).extractLsb' 56 8 ∉ (c : Cls).opcodes.map (BitVec.ofNat 8) → decode c w = .ok (.unassignedOpcode c w))

/-- R309: a clause header whose CLASS code is 6 to 15 names no class; codes 0 to 5 name SC, VX, TX, MX, CF, EX. -/
def Claims.HeaderClassCodes : Prop :=
  (∀ w : W64, 6 ≤ (w.extractLsb' 60 4).toNat → (Header.ofWord w).clause = none) ∧
  (Header.ofWord 0x0000000000000000).clause = some .sc ∧ (Header.ofWord 0x1000000000000000).clause = some .vx ∧
  (Header.ofWord 0x2000000000000000).clause = some .tx ∧ (Header.ofWord 0x3000000000000000).clause = some .mx ∧
  (Header.ofWord 0x4000000000000000).clause = some .cf ∧ (Header.ofWord 0x5000000000000000).clause = some .ex

/-- Words written out from the encodings decode to the instructions they stand for. -/
def Obligations.WordsDecode : Prop :=
  decode .vx 0x58A283010000000C = .ok (.cvt .f16 .f32 false .rne (.k 3) (.w 1)) ∧
  decode .sc 0x2220484400000000 = .ok (.smov .i32 8 4) ∧
  decode .sc 0x2320490000000080 = .ok (.smovi .i32 9 0x80) ∧
  decode .vx 0x2220A88300000000 = .ok (.mov .i32 (.k 40) (.k 3)) ∧
  decode .cf 0x3E00000000000000 = .ok .nop

-- one step

/-- The turn of a batch whose next word decodes to a well-formed instruction runs that instruction: the core's clock
reaches an issue cycle, the instruction is executed, the cycles it occupies pass, what the device does by itself
follows, and every 64th turn held batches try again (R311, R276; the order of turns is the model's, log 2). -/
def Claims.StepRunsDecodedInstruction : Prop :=
  ∀ (s s0 s1 : State) (dt u b : Nat) (c : Ctx) (cls : Cls) (w : W64) (i : Instr),
    s.nextTurn = (some ⟨dt, .batch u b⟩, s0) →
    s1 = (s0.elapseTo (s0.sched.now + dt)).setCur u b →
    s1.ctx? = some c →
    c.batch.word = some (cls, w) → decode cls w = .ok i →
    ∀ t, exec i (s1.beforeIssue c cls) = .next t →
      step s = .next (((t.afterIssue (((s1.beforeIssue c cls).ctx?).getD c) cls (some i)).finish).stir)

/-- The turn of a batch that stands before a clause start starts its clause once its core's earlier cycles have passed, and the turn of an event is that event
(the order of turns is the model's, log 2). -/
def Claims.StepRunsEvents : Prop :=
  (∀ (s s0 s1 : State) (dt u b : Nat) (c : Ctx) (t : State),
    s.nextTurn = (some ⟨dt, .batch u b⟩, s0) → s1 = (s0.elapseTo (s0.sched.now + dt)).setCur u b →
    s1.ctx? = some c → c.batch.buf = none → exec .clauseStart ((s1.standBy c.team.core).atCore c.team.core) = .next t →
    step s = .next t.finish.stir) ∧
  (∀ (s s0 t : State) (dt : Nat) (i : Instr),
    s.nextTurn = (some ⟨dt, .event i⟩, s0) → i.cls = none → i ≠ .clauseStart → exec i (s0.elapseTo (s0.sched.now + dt)) = .next t →
    step s = .next t.rouse.finish)

/-- No instruction of a program and no event ever ends a run: wherever a batch is issuing, or the row is an event,
`exec` answers a next state. -/
def Claims.EveryInstructionAnswers : Prop :=
  ∀ (i : Instr) (s : State), (i.cls = none ∧ i ≠ .clauseStart) ∨ s.ctx?.isSome = true → ∃ t, exec i s = .next t

/-- The device never stops: from every state whatever, the step answers a next state. -/
def Claims.StepNeverStops : Prop := ∀ s : State, ∃ t, step s = .next t


-- values

/-- The operand of a type in a 64-bit register. -/
def Claims.low (ty : Ty) (v : W64) : BitVec ty.bits := v.setWidth ty.bits

/-- The quotient of R65: a divisor of zero and the most negative value by −1 have a result. -/
def Claims.quot (ty : Ty) (x y : BitVec ty.bits) : BitVec ty.bits :=
  if y = 0 then (if ty.isI && x.slt 0 then 1 else BitVec.allOnes _)
  else if ty.isI then x.sdiv y else x.udiv y
/-- The remainder of R65: it has the sign of the dividend, and of a division by zero it is the dividend. -/
def Claims.rest (ty : Ty) (x y : BitVec ty.bits) : BitVec ty.bits :=
  if y = 0 then x else if ty.isI then x.srem y else x.umod y
/-- The high half of the exact double-width product (R64). -/
def Claims.high (ty : Ty) (x y : BitVec ty.bits) : BitVec ty.bits :=
  BitVec.extractLsb' ty.bits ty.bits
    (if ty.isI then x.signExtend (ty.bits + ty.bits) * y.signExtend (ty.bits + ty.bits)
     else x.setWidth (ty.bits + ty.bits) * y.setWidth (ty.bits + ty.bits))
/-- Less or equal, signed by the type. -/
def Claims.le (ty : Ty) (x y : BitVec ty.bits) : Bool := if ty.isI then x.sle y else x.ule y
/-- A relation, signed by the type (R317). -/
def Claims.rel (r : Rel) (ty : Ty) (x y : BitVec ty.bits) : Bool :=
  match r with
  | .eq => x == y
  | .ne => x != y
  | .lt => !Claims.le ty y x
  | .le => Claims.le ty x y
  | .gt => !Claims.le ty x y
  | .ge => Claims.le ty y x
/-- Set bits counted. -/
def Claims.ones {w : Nat} (x : BitVec w) : Nat := (List.finRange w).countP (fun i => x.getLsbD i.val)
/-- Zero bits above the highest set bit: the width, of zero. -/
def Claims.zeros {w : Nat} (x : BitVec w) : Nat := (List.range (w + 1)).countP (fun k => k ≠ 0 && (x >>> (w - k)) == 0)

/-- A result of an integer type as S[d] receives it (R390): of width 32 the upper half is that of S[a], otherwise it is
extended by the signedness of the type. -/
def Claims.sKeep (ty : Ty) (a : W64) (v : BitVec ty.bits) : W64 :=
  if ty.bits = 32 then a.extractLsb' 32 32 ++ v.setWidth 32 else if ty.isI then v.signExtend 64 else v.setWidth 64

-- taking an exception, and returning

/-- R59, R209, R211: a thread that faults becomes trapped where its instruction is to be replayed; its trap state holds
the code, the fault point, the detail 0 and the fault address; its registers, its predicates, every other thread and
everything else stand as they were. -/
def Claims.FaultTrapsTheThread : Prop :=
  ∀ (s : State) (c : Ctx) (t : Team) (i : Nat) (code : Code) (addr : W64),
    s.team? c.team.uid = some t → t.uid = c.team.uid → t.batch? c.batch.id = some c.batch → i < t.threads.length →
    ∃ t', (s.raise c i code addr).team? c.team.uid = some t' ∧ t.KeptBut t' i ∧ s.Apart (s.raise c i code addr) c.team.uid ∧
      (t'.thread i).st = .trapped ∧ (t'.thread i).pos = c.batch.pos ∧ (t'.thread i).trap = c.trapOf code addr ∧
      (∃ f, (t'.thread i).frame = some f ∧ f.log = some (t.logOf i)) ∧
      ∃ b, t'.batch? c.batch.id = some b ∧ b.threads = c.batch.threads.filter (· != i)

/-- Every thread of a list traps, in turn, and no register of any thread changes (R59). -/
def Claims.EveryThreadOfAListTraps : Prop :=
  ∀ (s : State) (c : Ctx) (code : Code) (addr : W64) (is : List Nat), s.Issuing c → is.Nodup → (∀ i ∈ is, i < c.team.threads.length) →
    ∃ t', (s.raiseAll c code addr is).team? c.team.uid = some t' ∧ c.team.Same t' ∧ t'.fexcAll = c.team.fexcAll ∧
      s.Apart (s.raiseAll c code addr is) c.team.uid ∧
      (∀ n, (t'.thread n).k = (c.team.thread n).k ∧ (t'.thread n).w = (c.team.thread n).w ∧ (t'.thread n).preds = (c.team.thread n).preds) ∧
      (∀ i ∈ is, (t'.thread i).st = .trapped ∧ (t'.thread i).trap = c.trapOf code addr) ∧
      (∀ n, n ∉ is → t'.thread n = c.team.thread n)

/-- R215: a trapped or held thread that is resumed becomes resuming at its resume point with its frame and registers as
service has left them, and its trap state has code 0; any other thread is left alone. -/
def Claims.ResumedThreadReplays : Prop :=
  ∀ x : Thread,
    (x.st = .trapped ∨ x.st = .held →
      x.resume.st = .resuming ∧ x.resume.trap.cause = 0 ∧ x.resume.pos = x.pos ∧ x.resume.frame = x.frame ∧
        x.resume.k = x.k ∧ x.resume.w = x.w ∧ x.resume.preds = x.preds ∧ x.resume.trapWord = 0 ∧ x.resume.faultAddr = 0) ∧
    (x.st ≠ .trapped → x.st ≠ .held → x.resume = x)

/-- The batch that has performed an instruction moves on: no register, flag, predicate, trap state or memory byte
changes by that, only where its threads stand (R52). -/
def Claims.MovingOnChangesNoRegister : Prop :=
  ∀ (s : State) (c : Ctx) (t : Team) (back : List Nat), s.team? c.team.uid = some t → t.uid = c.team.uid →
    ∃ t', (s.moveOn c back).team? c.team.uid = some t' ∧ t.Kept t' ∧ s.Apart (s.moveOn c back) c.team.uid

/-- One thread's result: the destination registers of that thread and the exception flags the instruction raises change,
no other register of any thread, no S register, predicate, tile, accumulator or byte of scratchpad or memory. -/
def Claims.ResultWritesItsRegistersOnly : Prop :=
  ∀ (s : State) (c : Ctx) (t : Team) (i : Nat) (late : Bool) (v : VRes), s.team? c.team.uid = some t → t.uid = c.team.uid →
    ∃ t', (s.putV c i late v).team? c.team.uid = some t' ∧ t.Wrote t' i v.writes v.flags ∧ s.Apart (s.putV c i late v) c.team.uid

-- scalar instructions

/-- The scalar instructions of R389, R393, R396 and R397 that refuse a tagged source: destination, sources, and the value
of S[d] from the values of the sources. -/
def Claims.scalarRule : Instr → Option (SReg × List SReg × (Rd → W64))
  | .sadd ty d a b => some (d, [a, b], fun r => Claims.sKeep ty (r.s a) (Claims.low ty (r.s a) + Claims.low ty (r.s b)))
  | .ssub ty d a b => some (d, [a, b], fun r => Claims.sKeep ty (r.s a) (Claims.low ty (r.s a) - Claims.low ty (r.s b)))
  | .smul ty d a b => some (d, [a, b], fun r => Claims.sKeep ty (r.s a) (Claims.low ty (r.s a) * Claims.low ty (r.s b)))
  | .smulh ty d a b => some (d, [a, b], fun r => Claims.sKeep ty (r.s a) (Claims.high ty (Claims.low ty (r.s a)) (Claims.low ty (r.s b))))
  | .sdiv ty d a b => some (d, [a, b], fun r => Claims.sKeep ty (r.s a) (Claims.quot ty (Claims.low ty (r.s a)) (Claims.low ty (r.s b))))
  | .srem ty d a b => some (d, [a, b], fun r => Claims.sKeep ty (r.s a) (Claims.rest ty (Claims.low ty (r.s a)) (Claims.low ty (r.s b))))
  | .smin ty d a b => some (d, [a, b], fun r => Claims.sKeep ty (r.s a)
      (if Claims.le ty (Claims.low ty (r.s a)) (Claims.low ty (r.s b)) then Claims.low ty (r.s a) else Claims.low ty (r.s b)))
  | .smax ty d a b => some (d, [a, b], fun r => Claims.sKeep ty (r.s a)
      (if Claims.le ty (Claims.low ty (r.s a)) (Claims.low ty (r.s b)) then Claims.low ty (r.s b) else Claims.low ty (r.s a)))
  | .sand ty d a b => some (d, [a, b], fun r => Claims.sKeep ty (r.s a) (Claims.low ty (r.s a) &&& Claims.low ty (r.s b)))
  | .sor ty d a b => some (d, [a, b], fun r => Claims.sKeep ty (r.s a) (Claims.low ty (r.s a) ||| Claims.low ty (r.s b)))
  | .sxor ty d a b => some (d, [a, b], fun r => Claims.sKeep ty (r.s a) (Claims.low ty (r.s a) ^^^ Claims.low ty (r.s b)))
  | .sshl ty d a b => some (d, [a, b], fun r => Claims.sKeep ty (r.s a) (Claims.low ty (r.s a) <<< ((r.s b).extractLsb' 0 32).toNat))
  | .sshr ty d a b => some (d, [a, b], fun r => Claims.sKeep ty (r.s a) (Claims.low ty (r.s a) >>> ((r.s b).extractLsb' 0 32).toNat))
  | .ssha ty d a b => some (d, [a, b], fun r => Claims.sKeep ty (r.s a) ((Claims.low ty (r.s a)).sshiftRight ((r.s b).extractLsb' 0 32).toNat))
  | .sclz ty d a => some (d, [a], fun r => BitVec.ofNat 64 (Claims.zeros (Claims.low ty (r.s a))))
  | .spopc ty d a => some (d, [a], fun r => BitVec.ofNat 64 (Claims.ones (Claims.low ty (r.s a))))
  | .ssel ty d a b x => some (d, [a, b, x], fun r =>
      let v := if r.s x = 0 then r.s b else r.s a
      Claims.sKeep ty v (Claims.low ty v))
  | .smov ty d a => some (d, [a], fun r => Claims.sKeep ty (r.s a) (Claims.low ty (r.s a)))
  | .smovi ty d imm => some (d, [], fun _ => if ty.isI then (imm.setWidth (min 32 ty.bits)).signExtend 64 else (imm.setWidth (min 32 ty.bits)).setWidth 64)
  | _ => none

/-- R389, R390, R393, R396, R397 (with R64, R65, R378): a scalar instruction none of whose registers is tagged completes
whatever its values; S[d] has the result and no other S register, no K or W register, flag, tag or byte of scratchpad or
memory has changed. -/
def Claims.ScalarResults : Prop :=
  ∀ (i : Instr) (d : SReg) (srcs : List SReg) (f : Rd → W64) (s : State) (c : Ctx),
    i.wellFormed = true → Claims.scalarRule i = some (d, srcs, f) → s.Issuing c → (∀ x ∈ d :: srcs, c.team.tagged x.val = false) →
    ∃ s' t', exec i s = .next s' ∧ s'.team? c.team.uid = some t' ∧ s.Apart s' c.team.uid ∧ (c.team.putS d.val (f (s.sRd c))).Kept t'

/-- R232, R389: a scalar instruction with a tagged destination or source: every thread of the batch takes LINEAR_COPY, the
fault address the handle of the first such register; no S register changes. -/
def Claims.TaggedScalarTraps : Prop :=
  ∀ (i : Instr) (d : SReg) (srcs : List SReg) (f : Rd → W64) (s : State) (c : Ctx) (x : SReg),
    Claims.scalarRule i = some (d, srcs, f) → s.Issuing c → (d :: srcs).find? (fun y => c.team.tagged y.val) = some x →
    exec i s = .next ((s.raiseAll c .linearCopy (Store.get 0 c.team.s x.val) (everyOf c)).moveOn c [])


-- vector instructions

/-- The operand of a type in a thread, as bits (R331). -/
def Claims.v (ty : Ty) (r : Rd) (x : Reg) : BitVec ty.bits := BitVec.ofNat ty.bits (r.val ty x)
/-- One integer result of a type. -/
def Claims.int (ty : Ty) (d : Reg) (x : BitVec ty.bits) : VRes := ⟨[(d, ty, x.toNat)], 0⟩
/-- One floating result with the flags it raises. -/
def Claims.flt (ty : Ty) (d : Reg) (x : Nat × Flags) : VRes := ⟨[(d, ty, x.1)], x.2⟩

/-- The integer, move and index instructions of R332, R337, R364, R373 to R375, R377, R378, R393 and R418: their register
positions (with the 64-bit ones marked), and what they write in a thread. -/
def Claims.intRule : Instr → Option (List Posn × (Rd → VRes))
  | .add ty d a b => some ([atTy ty d, atTy ty a, atTy ty b], fun r => Claims.int ty d (Claims.v ty r a + Claims.v ty r b))
  | .sub ty d a b => some ([atTy ty d, atTy ty a, atTy ty b], fun r => Claims.int ty d (Claims.v ty r a - Claims.v ty r b))
  | .mul ty d a b => some ([atTy ty d, atTy ty a, atTy ty b], fun r => Claims.int ty d (Claims.v ty r a * Claims.v ty r b))
  | .mulh ty d a b => some ([atTy ty d, atTy ty a, atTy ty b], fun r => Claims.int ty d (Claims.high ty (Claims.v ty r a) (Claims.v ty r b)))
  | .mad ty d a b x => some ([atTy ty d, atTy ty a, atTy ty b, atTy ty x], fun r =>
      Claims.int ty d (Claims.v ty r a * Claims.v ty r b + Claims.v ty r x))
  | .div ty d a b => some ([atTy ty d, atTy ty a, atTy ty b], fun r => Claims.int ty d (Claims.quot ty (Claims.v ty r a) (Claims.v ty r b)))
  | .rem ty d a b => some ([atTy ty d, atTy ty a, atTy ty b], fun r => Claims.int ty d (Claims.rest ty (Claims.v ty r a) (Claims.v ty r b)))
  | .min ty d a b => some ([atTy ty d, atTy ty a, atTy ty b], fun r =>
      Claims.int ty d (if Claims.le ty (Claims.v ty r a) (Claims.v ty r b) then Claims.v ty r a else Claims.v ty r b))
  | .max ty d a b => some ([atTy ty d, atTy ty a, atTy ty b], fun r =>
      Claims.int ty d (if Claims.le ty (Claims.v ty r a) (Claims.v ty r b) then Claims.v ty r b else Claims.v ty r a))
  | .abs ty d a => some ([atTy ty d, atTy ty a], fun r => Claims.int ty d (Claims.v ty r a).abs)
  | .neg ty d a => some ([atTy ty d, atTy ty a], fun r => Claims.int ty d (-Claims.v ty r a))
  | .and ty d a b => some ([atTy ty d, atTy ty a, atTy ty b], fun r => Claims.int ty d (Claims.v ty r a &&& Claims.v ty r b))
  | .or ty d a b => some ([atTy ty d, atTy ty a, atTy ty b], fun r => Claims.int ty d (Claims.v ty r a ||| Claims.v ty r b))
  | .xor ty d a b => some ([atTy ty d, atTy ty a, atTy ty b], fun r => Claims.int ty d (Claims.v ty r a ^^^ Claims.v ty r b))
  | .not ty d a => some ([atTy ty d, atTy ty a], fun r => Claims.int ty d (~~~Claims.v ty r a))
  | .shl ty d a b => some ([atTy ty d, atTy ty a, at32 b], fun r => Claims.int ty d (Claims.v ty r a <<< (r.lo b).toNat))
  | .shr ty d a b => some ([atTy ty d, atTy ty a, at32 b], fun r => Claims.int ty d (Claims.v ty r a >>> (r.lo b).toNat))
  | .sha ty d a b => some ([atTy ty d, atTy ty a, at32 b], fun r => Claims.int ty d ((Claims.v ty r a).sshiftRight (r.lo b).toNat))
  | .clz ty d a => some ([at32 d, atTy ty a], fun r => ⟨[(d, .n32, Claims.zeros (Claims.v ty r a))], 0⟩)
  | .popc ty d a => some ([at32 d, atTy ty a], fun r => ⟨[(d, .n32, Claims.ones (Claims.v ty r a))], 0⟩)
  | .brev ty d a => some ([atTy ty d, atTy ty a], fun r => Claims.int ty d (Claims.v ty r a).reverse)
  | .sel ty d a b x => some ([atTy ty d, atTy ty a, atTy ty b, at32 x], fun r =>
      Claims.int ty d (if r.lo x = 0 then Claims.v ty r b else Claims.v ty r a))
  | .mov ty d a => some ([atTy ty d, atTy ty a], fun r => Claims.int ty d (Claims.v ty r a))
  | .movi ty d imm => some ([atTy ty d], fun _ => Claims.int ty d (if ty = .i64 then imm.signExtend _ else imm.setWidth _))
  | .bcst ty d a => some ([atTy ty d, atTy ty (.s a)], fun r => Claims.int ty d (Claims.v ty r (.s a)))
  | .idx q d => some ([at32 d], fun r => ⟨[(d, .n32, if q = 0 then r.i else if q = 1 then r.i / 32 else r.i % 32)], 0⟩)
  | _ => none

/-- The floating, converting, residue, quantising and compressing instructions of R343, R349, R350, R353 to R357, R383 to
R385 and R419: their register positions, and what they write and which flags they raise in a thread. -/
def Claims.fltRule : Instr → Option (List Posn × (Rd → VRes))
  | .fadd ty rm d a b => some ([at32 d, at32 a, at32 b], fun r => Claims.flt ty d (fAdd (fmtOf ty) rm (r.val ty a) (r.val ty b)))
  | .fsub ty rm d a b => some ([at32 d, at32 a, at32 b], fun r => Claims.flt ty d (fSub (fmtOf ty) rm (r.val ty a) (r.val ty b)))
  | .fmul ty rm d a b => some ([at32 d, at32 a, at32 b], fun r => Claims.flt ty d (fMul (fmtOf ty) rm (r.val ty a) (r.val ty b)))
  | .fma ty rm d a b x => some ([at32 d, at32 a, at32 b, at32 x], fun r =>
      Claims.flt ty d (fMad (fmtOf ty) rm (r.val ty a) (r.val ty b) (r.val ty x)))
  | .fmin ty d a b => some ([at32 d, at32 a, at32 b], fun r => Claims.flt ty d (fMinMax (fmtOf ty) false (r.val ty a) (r.val ty b)))
  | .fmax ty d a b => some ([at32 d, at32 a, at32 b], fun r => Claims.flt ty d (fMinMax (fmtOf ty) true (r.val ty a) (r.val ty b)))
  | .fabs ty d a => some ([at32 d, at32 a], fun r => Claims.int ty d (Claims.v ty r a &&& ~~~BitVec.ofNat _ (2 ^ (ty.bits - 1))))
  | .fneg ty d a => some ([at32 d, at32 a], fun r => Claims.int ty d (Claims.v ty r a ^^^ BitVec.ofNat _ (2 ^ (ty.bits - 1))))
  | .fclass ty d a => some ([at32 d, at32 a], fun r => ⟨[(d, .n32, fClass (fmtOf ty) (r.val ty a))], 0⟩)
  | .frcp ty rm d a => some ([at32 d, at32 a], fun r => Claims.flt ty d (fRcp (fmtOf ty) rm (r.val ty a)))
  | .frsq ty rm d a => some ([at32 d, at32 a], fun r => Claims.flt ty d (fRsq (fmtOf ty) rm (r.val ty a)))
  | .fsqrt ty rm d a => some ([at32 d, at32 a], fun r => Claims.flt ty d (fSqrt (fmtOf ty) rm (r.val ty a)))
  | .fdiv ty rm d a b => some ([at32 d, at32 a, at32 b], fun r => Claims.flt ty d (fDiv (fmtOf ty) rm (r.val ty a) (r.val ty b)))
  | .fexp2 ty rm d a => some ([at32 d, at32 a], fun r => Claims.flt ty d (fExp2 (fmtOf ty) rm (r.val ty a)))
  | .flog2 ty rm d a => some ([at32 d, at32 a], fun r => Claims.flt ty d (fLog2 (fmtOf ty) rm (r.val ty a)))
  | .cvt dty sty sym rm d a => some ([atTy dty d, atTy sty a], fun r => Claims.flt dty d (cvtRaw dty sty sym rm (r.val sty a)))
  | .rfwd ty d a => some ([at32 d, atTy ty a], fun r => ⟨[(d, .rt, residueOf (intVal ty (r.val ty a)))], 0⟩)
  | .radd d a b => some ([at32 d, at32 a, at32 b], fun r => ⟨[(d, .rt, rtAdd (r.lo a).toNat (r.lo b).toNat)], 0⟩)
  | .rmul d a b => some ([at32 d, at32 a, at32 b], fun r => ⟨[(d, .rt, rtMul (r.lo a).toNat (r.lo b).toNat)], 0⟩)
  | .rmad d a b x => some ([at32 d, at32 a, at32 b, at32 x], fun r =>
      ⟨[(d, .rt, rtAdd (rtMul (r.lo a).toNat (r.lo b).toNat) (r.lo x).toNat)], 0⟩)
  | .rback d a => some ([at32 d, at32 a], fun r => Claims.int .i32 d (BitVec.ofInt 32 (crtBack (r.lo a).toNat)))
  | .qnt dty sty rm d a b => some (regRun d (qntCodes dty) ++ regRun a (qntSources sty) ++ [at32 b], fun r =>
      let x := quantBlock rm (elemMax dty) (qntBlock sty r a)
      let codes := if dty = .i4 then packCodes 4 8 4 x.1 else packCodes 8 4 8 x.1
      ⟨codes.mapIdx (fun i v => (regPlus d i, Ty.n32, v)) ++ [(b, .n32, x.2.1)], x.2.2⟩)
  | .dqnt ty d a b => some ([at32 d, at32 a, at32 b], fun r => ⟨[(d, .f32, dqntRaw ty (r.lo a).toNat (r.lo b).toNat)], 0⟩)
  | .cmpr ty d a => some ((d, ty != .i8) :: regRun a (groupRegs ty), fun r =>
      let x := cmprOf ty (group ty (r.lo a).toNat (r.lo (regPlus a 1)).toNat)
      if ty = .i8 then ⟨[(d, .n32, x.1 + 256 * x.2.1 + 65536 * x.2.2)], 0⟩
      else ⟨[(d, .n64, x.1 + 65536 * x.2.1 + 2 ^ 32 * x.2.2)], 0⟩)
  | .xpnd ty d a => some ((d, ty != .i8) :: regRun a (groupRegs ty), fun r =>
      let w := if ty = .i8 then 8 else 16
      let x := xpndOf ((r.lo a).toNat % 2 ^ w) ((r.lo a).toNat / 2 ^ w % 2 ^ w)
        ((if ty = .i8 then (r.lo a).toNat / 65536 else (r.lo (regPlus a 1)).toNat) % 16)
      ⟨[(d, if ty = .i8 then .n32 else .n64, x.1.foldr (fun e acc => e + 2 ^ w * acc) 0)], if x.2 then 0 else Flags.nv⟩)
  | _ => none

/-- What a vector instruction does: in each active thread that has not performed it, a K register beyond the crew's block
raises ILLEGAL_INSTRUCTION and a tagged S register LINEAR_COPY; any other has its result; nothing else changes. -/
def Claims.VecDoes (i : Instr) (ps : List Posn) (f : Rd → VRes) (s : State) (c : Ctx) : Prop :=
  ∃ s' t', exec i s = .next s' ∧ s'.team? c.team.uid = some t' ∧ s.Apart s' c.team.uid ∧
    VecDone c ps (fun j => f (s.rd c.team j)) c.team t' (c.todo (activeOf c)).reverse

/-- R332, R337, R364, R373 to R375, R377, R378, R393, R418 (with R63 to R65, R90, R331). -/
def Obligations.VectorIntegerResults : Prop :=
  ∀ (i : Instr) (ps : List Posn) (f : Rd → VRes) (s : State) (c : Ctx),
    i.wellFormed = true → Claims.intRule i = some (ps, f) → s.Issuing c → Claims.VecDoes i ps f s c

/-- R343, R349, R350, R353 to R357, R383 to R385, R419: flags are raised only by the threads that perform it. -/
def Obligations.VectorFloatingResults : Prop :=
  ∀ (i : Instr) (ps : List Posn) (f : Rd → VRes) (s : State) (c : Ctx),
    i.wellFormed = true → Claims.fltRule i = some (ps, f) → s.Issuing c → Claims.VecDoes i ps f s c

/-- One thread's part of a compare: its faults in order, the result of an active thread, and the push (R56, R342, R356). -/
def Claims.Compares (s : State) (c : Ctx) (push : Bool) (ps : List Posn) (d : Reg) (f : Rd → Bool × Flags) (x : State) (i : Nat)
    (y : State) : Prop :=
  let top := (c.team.thread i).top
  let deep := push = true ∧ 8 ≤ (c.team.thread i).preds.length
  let bad := if top then c.regFault i ps else none
  (∀ e, bad = some e → y = x.raise c i e.1 e.2) ∧
  (bad = none → deep → y = x.raise c i .predOverflow 0) ∧
  (bad = none → ¬deep →
    let r := f (s.rd c.team i)
    let z := if top then x.putV c i false ⟨[(d, .n32, if r.1 then 1 else 0)], r.2⟩ else x
    y = if push then z.onCur c (fun t => t.onThread i (fun h => { h with preds := (top && r.1) :: h.preds })) else z)

/-- R56, R342, R356: CMP and FCMP write 1 or 0 in the active threads; with .PUSH every thread of the batch pushes its
result, false where its top is false, and a push at depth 8 raises PRED_OVERFLOW in that thread. -/
def Claims.CompareResults : Prop :=
  (∀ (rel : Rel) (ty : Ty) (push : Bool) (d a b : Reg) (s : State) (c : Ctx), ty.isInt = true → s.Issuing c →
    ∃ t, Each (Claims.Compares s c push [at32 d, atTy ty a, atTy ty b] d (fun r => (Claims.rel rel ty (Claims.v ty r a) (Claims.v ty r b), 0)))
      (c.todo (if push then everyOf c else activeOf c)) s t ∧
    exec (.cmp rel ty push d a b) s = .next (t.moveOn c [])) ∧
  (∀ (rel : Rel) (ty : Ty) (push : Bool) (d a b : Reg) (s : State) (c : Ctx), s.Issuing c →
    ∃ t, Each (Claims.Compares s c push [at32 d, at32 a, at32 b] d (fun r => fRel (fmtOf ty) rel (r.val ty a) (r.val ty b)))
      (c.todo (if push then everyOf c else activeOf c)) s t ∧
    exec (.fcmp rel ty push d a b) s = .next (t.moveOn c []))

/-- R378: a shift by the width of the type or more gives 0, and SHA gives copies of the top bit, for every type. -/
def Claims.ShiftsPastTheWidth : Prop :=
  ∀ (ty : Ty) (x n : Nat), ty.isInt = true → x < 2 ^ ty.bits → ty.bits ≤ n →
    shlRaw ty x n = 0 ∧ shrRaw ty x n = 0 ∧ shaRaw ty x n = if 2 ^ (ty.bits - 1) ≤ x then 2 ^ ty.bits - 1 else 0

/-- R70, R71: what the special values give, in every format: a NaN operand gives the canonical NaN, with NV for a
signalling one; ∞ − ∞, 0 × ∞, 0 / 0, ∞ / ∞ and the root of a negative number are invalid; a finite number over zero gives
∞ and DZ; a zero that is the sum of opposite numbers is +0, and −0 only when rounding down. -/
def Claims.FloatingSpecialValues : Prop :=
  ∀ f ∈ [Fmt.f32, Fmt.f16, Fmt.bf16], ∀ (rm : Rm) (x y : Nat),
    ((unpack f x).isNan ∨ (unpack f y).isNan →
      fAdd f rm x y = (f.nanRaw, if (unpack f x).isSnan || (unpack f y).isSnan then Flags.nv else 0) ∧
      fMul f rm x y = (f.nanRaw, if (unpack f x).isSnan || (unpack f y).isSnan then Flags.nv else 0) ∧
      fDiv f rm x y = (f.nanRaw, if (unpack f x).isSnan || (unpack f y).isSnan then Flags.nv else 0)) ∧
    (∀ a b, a ≠ b → unpack f x = .inf a → unpack f y = .inf b → fAdd f rm x y = (f.nanRaw, Flags.nv)) ∧
    (∀ a, (unpack f x).isZero → unpack f y = .inf a → fMul f rm x y = (f.nanRaw, Flags.nv)) ∧
    ((unpack f x).isZero → (unpack f y).isZero → fDiv f rm x y = (f.nanRaw, Flags.nv)) ∧
    (∀ a b, unpack f x = .inf a → unpack f y = .inf b → fDiv f rm x y = (f.nanRaw, Flags.nv)) ∧
    (∀ m e, m ≠ 0 → unpack f x = .fin true m e → fSqrt f rm x = (f.nanRaw, Flags.nv)) ∧
    (∀ a m e, m ≠ 0 → unpack f x = .fin a m e → (unpack f y).isZero →
      fDiv f rm x y = (f.signed (a != (unpack f y).neg?) f.infRaw, Flags.dz)) ∧
    (∀ a m e, m ≠ 0 → unpack f x = .fin a m e → fSub f rm x x = (f.signed (rm == .rdn) 0, 0))

/-- R67, R68: residues are a ring homomorphism, and CrtBack inverts ResidueOf on the range it has. -/
def Claims.ResidueArithmetic : Prop :=
  (∀ x y : Int, rtAdd (residueOf x) (residueOf y) = residueOf (x + y)) ∧
  (∀ x y : Int, rtMul (residueOf x) (residueOf y) = residueOf (x * y)) ∧
  (∀ x : Int, -8388480 ≤ x → x ≤ 8388479 → crtBack (residueOf x) = x)


-- SPRM, SGET, SSET

/-- A scalar instruction answers a next state in which S[d] has a value and all else a program computes with is as it was. -/
def Claims.ScalarDone (i : Instr) (s : State) (c : Ctx) (d : SReg) (v : W64) : Prop :=
  ∃ s' t', exec i s = .next s' ∧ s'.team? c.team.uid = some t' ∧ s.Apart s' c.team.uid ∧ (c.team.putS d.val v).Kept t'
/-- A scalar instruction traps every thread of the batch. -/
def Claims.ScalarTraps (i : Instr) (s : State) (c : Ctx) (code : Code) (addr : W64) : Prop :=
  exec i s = .next ((s.raiseAll c code addr (everyOf c)).moveOn c [])

/-- Bytes of a number, least significant first, as a number (R2). -/
def Claims.number (bs : List Byte) : Nat := bs.foldr (fun b n => b.toNat + 256 * n) 0

/-- R398: SPRM reads the grid's parameter copy: I32 sign-extended, N32 zero-extended, the 64-bit types whole; a tagged
destination, an offset that is not a multiple of the width, and one past PSIZE fault in that order. -/
def Claims.SprmReadsTheParameterCopy : Prop :=
  ∀ (ty : Ty) (d : SReg) (imm : W32) (s : State) (c : Ctx),
    Instr.wellFormed (.sprm ty d imm) = true → s.Issuing c →
    let n := ty.bits / 8
    let g := s.gridOf c.team
    let x := Claims.number ((List.range n).map (fun k => Store.get 0 g.param (imm.toNat + k)))
    if c.team.tagged d.val then Claims.ScalarTraps (.sprm ty d imm) s c .linearCopy (Store.get 0 c.team.s d.val)
    else if imm.toNat % n ≠ 0 then Claims.ScalarTraps (.sprm ty d imm) s c .alignment (imm.setWidth 64)
    else if g.psize < imm.toNat + n then Claims.ScalarTraps (.sprm ty d imm) s c .access (imm.setWidth 64)
    else Claims.ScalarDone (.sprm ty d imm) s c d
      (if ty = .i32 then (BitVec.ofNat 32 x).signExtend 64 else BitVec.ofNat 64 x)

/-- The value of an SGET selector that names no handle and no network barrier (R33, R394). -/
def Claims.sgetValue (s : State) (c : Ctx) (n : Nat) : Nat → Prop := fun v =>
  let t := c.team
  let g := s.gridOf t
  (n = 0x03 → v = g.gx) ∧ (n = 0x04 → v = g.gy) ∧ (n = 0x05 → v = g.gz) ∧ (n = 0x06 → v = t.lin) ∧ (n = 0x07 → v = g.threads) ∧
  (n = 0x08 → v = g.depth) ∧ (n = 0x09 → v = t.cls) ∧ (n = 0x0A → v = g.cls) ∧ (n = 0x0B → v = t.prio) ∧ (n = 0x0E → v = g.psize) ∧
  (n = 0x0F → v = g.tag.toNat) ∧
  (n = 0x11 → t.fexcLate = [] → v = t.fexc.toNat) ∧
  (∀ k, k < 16 → n = 0x20 + k → t.sOlds = [] → v = (t.tctlOf k).toNat) ∧
  (∀ k, k < 8 → n = 0x30 + k → t.sOlds = [] → v = (t.acstOf k).mode * 2 ^ 24 + (t.acstOf k).bound) ∧
  (∀ k, k < 16 → n = 0x40 + k → v = (t.bar k).state.toNat) ∧
  (∀ k, k < 64 → n = 0x60 + k → v = (s.counter g.fn k).toNat) ∧
  -- the team's coordinates (R28): x varies fastest
  (0 < g.gx → 0 < g.gy → n = 0x00 → v < g.gx ∧ (t.lin - v) % g.gx = 0 ∧ v ≤ t.lin) ∧
  (n = 0x01 → v = t.lin / g.gx % g.gy) ∧ (n = 0x02 → v = t.lin / (g.gx * g.gy))

/-- R33, R73, R98, R394: SGET reads the selected value, zero-extended; 0x50 reads the network barrier that S[a] names;
the handles of the grid and of the team are those given out before, or fresh; a tagged register faults. -/
def Claims.SgetReadsSelectors : Prop :=
  ∀ (q : BitVec 16) (d : SReg) (a b : Option SReg) (s : State) (c : Ctx),
    Instr.wellFormed (.sget q d a b) = true → s.Issuing c →
    (∀ x ∈ d :: (a.toList ++ b.toList), c.team.tagged x.val = false) →
    (q ≠ 0x0C → q ≠ 0x0D → q ≠ 0x10 → q ≠ 0x50 → ∃ v : W64, Claims.ScalarDone (.sget q d a b) s c d v ∧
      ((∀ g, s.grid? c.team.grid = some g → g.gx < 2 ^ 64 ∧ g.gy < 2 ^ 64 ∧ g.gz < 2 ^ 64 ∧ g.threads < 2 ^ 64 ∧ g.depth < 2 ^ 64 ∧
          g.cls < 2 ^ 64 ∧ g.psize < 2 ^ 64) → c.team.lin < 2 ^ 64 → c.team.cls < 2 ^ 64 → c.team.prio < 2 ^ 64 →
        (∀ k, (c.team.acstOf k).mode * 2 ^ 24 + (c.team.acstOf k).bound < 2 ^ 64) → Claims.sgetValue s c q.toNat v.toNat)) ∧
    (∀ x, a = some x → q = 0x50 → Claims.ScalarDone (.sget q d a b) s c d
      (s.netBar (s.gridOf c.team).part (((s.sRd c).s x).toNat % 256)).state) ∧
    (q = 0x0C → Claims.ScalarDone (.sget q d a b) s c d (s.handleFor (.grid (s.gridOf c.team).uid)).1) ∧
    (q = 0x0D → Claims.ScalarDone (.sget q d a b) s c d (s.handleFor (.team (s.gridOf c.team).uid c.team.lin)).1)

/-- R34, R394: selector 0x10 gives the handle of the team with the linear index in S[b] of the grid that S[a] names, and
faults ACCESS where S[a] is no grid handle of the partition or the index is past the grid's teams. -/
def Claims.SgetTeamHandle : Prop :=
  ∀ (d a b : SReg) (s : State) (c : Ctx), s.Issuing c → (∀ x ∈ [d, a, b], c.team.tagged x.val = false) →
    (∀ u g, s.targetIn (s.gridOf c.team).part ((s.sRd c).s a) = some (.grid u) → s.grid? u = some g → ((s.sRd c).s b).toNat < g.count →
      Claims.ScalarDone (.sget 0x10 d (some a) (some b)) s c d (s.handleFor (.team u ((s.sRd c).s b).toNat)).1) ∧
    (∀ u g, s.targetIn (s.gridOf c.team).part ((s.sRd c).s a) = some (.grid u) → s.grid? u = some g → g.count ≤ ((s.sRd c).s b).toNat →
      Claims.ScalarTraps (.sget 0x10 d (some a) (some b)) s c .access ((s.sRd c).s a)) ∧
    ((∀ u, s.targetIn (s.gridOf c.team).part ((s.sRd c).s a) ≠ some (.grid u)) →
      Claims.ScalarTraps (.sget 0x10 d (some a) (some b)) s c .access ((s.sRd c).s a))

/-- R72, R73, R400: SSET of FEXC clears the flags whose bits are set and no other, in any mode; PRIO and the trigger
counters are K-mode's; outside K-mode every other selector raises PRIVILEGE; in K-mode an unassigned selector raises
ILLEGAL_INSTRUCTION, and a PRIO above 7 ACCESS. -/
def Claims.SsetWritesSelectors : Prop :=
  ∀ (q : BitVec 16) (a : SReg) (s : State) (c : Ctx), s.Issuing c →
    let g := s.gridOf c.team
    let v := (s.sRd c).s a
    (q ≠ 0x11 → g.kmode = false → Claims.ScalarTraps (.sset q a) s c .privilege 0) ∧
    (g.kmode = true → q ≠ 0x11 → q ≠ 0x0B → (q.toNat < 0x60 ∨ 0x9F < q.toNat) → Claims.ScalarTraps (.sset q a) s c .illegalInstruction 0) ∧
    (c.team.tagged a.val = false →
      (q = 0x11 → ∃ s' t', exec (.sset q a) s = .next s' ∧ s'.team? c.team.uid = some t' ∧ s.Apart s' c.team.uid ∧ c.team.Same t' ∧
        (∀ n, (t'.thread n).k = (c.team.thread n).k ∧ (t'.thread n).w = (c.team.thread n).w ∧ (t'.thread n).preds = (c.team.thread n).preds) ∧
        t'.fexcAll &&& ~~~(v.setWidth 5) = c.team.fexcAll &&& ~~~(v.setWidth 5) ∧
        (c.team.fexcLate = [] → t'.fexcAll = c.team.fexc &&& ~~~(v.setWidth 5))) ∧
      (q = 0x0B → g.kmode = true → 8 ≤ v.toNat → Claims.ScalarTraps (.sset q a) s c .access 0) ∧
      (q = 0x0B → g.kmode = true → v.toNat < 8 → ∃ s' t', exec (.sset q a) s = .next s' ∧ s'.team? c.team.uid = some t' ∧
        s.Apart s' c.team.uid ∧ Team.Kept { c.team with prio := v.toNat } t') ∧
      (∀ n : Nat, n < 64 → q.toNat = 0x60 + n → g.kmode = true →
        exec (.sset q a) s = .next ((s.setCounter g.fn n (v.setWidth 32)).moveOn c [])))

/-- R297, R298: a counter change gives the counter its value and leaves every other as it was; each armed slot of the
function whose predicate holds then fires once: its request joins the trigger queue and the slot is free. -/
def Claims.CounterChangeFiresSlots : Prop :=
  ∀ (s : State) (fn n : Nat) (v : W32), n < 64 →
    let s' := s.setCounter fn n v
    s'.counter fn n = v ∧ (∀ f m, m < 64 → (f, m) ≠ (fn, n) → s'.counter f m = s.counter f m) ∧
    (∀ x, x ∈ s'.armed fn ↔ x ∈ s.armed fn ∧ s'.holds fn x = false) ∧
    (∀ f, f ≠ fn → s'.armed f = s.armed f) ∧
    s'.net.fired = s.net.fired ++ ((s.armed fn).filter (s'.holds fn)).map (fun x => (fn, x.bytes, x.part))

-- one thread's part

/-- One thread's part of an instruction: the fault of its registers (R232, R313, R331), or what `go` says. -/
def Claims.Part (c : Ctx) (ps : List Posn) (go : State → Nat → State → Prop) (x : State) (i : Nat) (y : State) : Prop :=
  match c.regFault i ps with
  | some e => y = x.raise c i e.1 e.2
  | none => go x i y

/-- A step inside one thread's part that completes, and the state it leaves; that traps the thread; or that parks it. -/
def Claims.Takes (c : Ctx) (i : Nat) (d : Did) (f : State → State) (y : State) : Prop :=
  match d with
  | .done t => y = f t
  | .fault t code addr => y = t.raise c i code addr
  | .park t p => y = t.park c i p
  | _ => False

/-- An address: its fault (R84, R124, R237, R370), or the access at the place it names. -/
def Claims.Placed (c : Ctx) (x : State) (i : Nat) (w : Except (Code × W64) Where) (go : Where → Prop) (y : State) : Prop :=
  match w with
  | .error e => y = x.raise c i e.1 e.2
  | .ok p => go p

/-- A read that answers bytes, traps or parks, and what is done with the bytes. -/
def Claims.Loaded (c : Ctx) (i : Nat) (rd : (List Byte → State → Did) → Did) (f : List Byte → State → State) (y : State) : Prop :=
  (∃ bs t, (∀ ok, rd ok = ok bs t) ∧ y = f bs t) ∨
  (∃ code addr t, (∀ ok, rd ok = .fault t code addr) ∧ y = t.raise c i code addr) ∨
  (∃ p t, (∀ ok, rd ok = .park t p) ∧ y = t.park c i p)

-- loads and stores

/-- The value written to d and, for a pair, to the register after it (R371); the write is long-latency (R90). -/
def Claims.put (c : Ctx) (i : Nat) (ws : List (Reg × Ty × Nat)) (t : State) : State := (t.putV c i true ⟨ws, 0⟩).pendRegs c

/-- R370: one thread's load. -/
def Claims.Loads (s : State) (c : Ctx) (ord : Ord) (sc : Scope) (ty : Ty) (sp : Space) (d a : Reg) (b : Option Reg) (off : BitVec 16)
    (x : State) (i : Nat) (y : State) : Prop :=
  let r := s.rd c.team i
  Claims.Placed c x i (x.whereOf c r sp a b off ty.bytes false) (fun w =>
    Claims.Loaded c i (x.readAt c i w ord sc ty ty.bytes (r.vaOf sp a b off)) (fun bs => Claims.put c i [(d, ty, ofLE bs)]) y) y

/-- R371: one thread's load of a pair; it may not reach the aperture. -/
def Claims.LoadsPair (s : State) (c : Ctx) (ty : Ty) (sp : Space) (d a : Reg) (b : Option Reg) (off : BitVec 16)
    (x : State) (i : Nat) (y : State) : Prop :=
  let r := s.rd c.team i
  let n := ty.bytes
  let d2 := regPlus d (if n = 8 then 2 else 1)
  Claims.Placed c x i (x.whereOf c r sp a b off (2 * n) false) (fun w =>
    match w with
    | .aperture _ _ => y = x.raise c i .access (r.vaOf sp a b off)
    | .remote dev h tg o => Claims.Loaded c i (x.remoteAccess c i dev h (.ldFh h tg o (2 * n) (2 * n)) false)
        (fun bs => Claims.put c i [(d, ty, ofLE (bs.take n)), (d2, ty, ofLE ((bs.drop n).take n))]) y
    | w => Claims.Loaded c i (x.readAt c i w .plain .team ty (2 * n) 0)
        (fun bs => Claims.put c i [(d, ty, ofLE (bs.take n)), (d2, ty, ofLE (bs.drop n))]) y) y

/-- R150, R238, R239, R372: one thread's see-load: a sealed tile is read, a filling one parks the thread once its class
check passes, an abandoned one and every access outside the tile fault. -/
def Claims.SeeLoads (s : State) (c : Ctx) (np : Bool) (ord : Ord) (sc : Scope) (ty : Ty) (d : Reg) (a : SReg) (b : Option Reg)
    (off : BitVec 16) (x : State) (i : Nat) (y : State) : Prop :=
  let r := s.rd c.team i
  let h := r.s a
  let o := r.tileOffset b off
  let n := ty.bytes
  let put := fun (bs : List Byte) (t : State) =>
    Claims.put c i [(d, ty, ofLE bs)] (if ord = .acq then t.acquireAt c.team.core sc else t)
  match x.checkHandle (x.gridOf c.team).part h (c.team.tagged a.val) .seeRead with
  | .bad e => y = x.raise c i e h
  | .remote dev => Claims.Loaded c i (fun ok => x.remoteAccess c i dev h (.ldsee h (addr64 o).toNat n n) true (fun v t => ok (toLE n (ofLE v)) t)) put y
  | .ok die k =>
    let z := x.slot die k
    let at_ := addr64 ((z.base.toNat : Int) + o)
    if o % n ≠ 0 then y = x.raise c i .alignment at_
    else if ¬(0 ≤ o ∧ o + n ≤ z.size) then y = x.raise c i .access at_
    else if z.scratch = true ∧ z.team ≠ (x.curTeam c).uid then y = x.raise c i .access at_
    else if z.st = .abandoned then y = x.raise c i .abandonedFill 0
    else if z.st = .filling then
      if z.holder = .team (x.curTeam c).uid then y = x.raise c i .progressClass 0
      else match x.classCheck (x.curTeam c) (x.parkOn (x.curTeam c) (.see die k z.gen np)) np with
        | .error e => y = x.raise c i e 0
        | .ok x1 => y = x1.park c i (.see die k z.gen np)
    else (z.scratch && x.spBarred c z.team (z.base.toNat + o.toNat) n) = false ∧
      ((∃ bs m, x.tileRead (some c.team.core) z o.toNat n = .ok bs m ∧ y = put bs (x.setMem m)) ∨
       (∃ code, x.tileRead (some c.team.core) z o.toNat n = .fault code ∧ y = x.raise c i code at_))

/-- R150, R238, R370 to R372, R395: where each thread's access completes, traps or parks, LD, LDP, LDSEE and SLD complete:
the destination has the little-endian value of the bytes read. -/
def Claims.LoadResults : Prop :=
  (∀ (ord : Ord) (sc : Scope) (ty : Ty) (sp : Space) (d a : Reg) (b : Option Reg) (off : BitVec 16) (s t : State) (c : Ctx), s.Issuing c →
    Each (Claims.Part c (atTy ty d :: basePosn sp a b) (Claims.Loads s c ord sc ty sp d a b off)) (c.todo (activeOf c)) s t →
    exec (.ld ord sc ty sp d a b off) s = .next (t.moveOn c [])) ∧
  (∀ (ty : Ty) (sp : Space) (d a : Reg) (b : Option Reg) (off : BitVec 16) (s t : State) (c : Ctx), s.Issuing c →
    (ty.bytes = 4 ∨ ty.bytes = 8) →
    Each (Claims.Part c ([atTy ty d, atTy ty (regPlus d (if ty.bytes = 8 then 2 else 1))] ++ basePosn sp a b)
      (Claims.LoadsPair s c ty sp d a b off)) (c.todo (activeOf c)) s t →
    exec (.ldp ty sp d a b off) s = .next (t.moveOn c [])) ∧
  (∀ (np : Bool) (ord : Ord) (sc : Scope) (ty : Ty) (d : Reg) (a : SReg) (b : Option Reg) (off : BitVec 16) (s t : State) (c : Ctx), s.Issuing c →
    Each (Claims.Part c (atTy ty d :: basePosn .see (.s a) b ++ [at32 (.s a)]) (Claims.SeeLoads s c np ord sc ty d a b off)) (c.todo (activeOf c)) s t →
    exec (.ldsee np ord sc ty d a b off) s = .next (t.moveOn c [])) ∧
  (∀ (ord : Ord) (sc : Scope) (ty : Ty) (sp : Space) (d a : SReg) (b : Option SReg) (off : BitVec 16) (s t : State) (c : Ctx) (w : Where)
    (bs : List Byte), s.Issuing c → (∀ x ∈ [d, a] ++ b.toList, c.team.tagged x.val = false) →
    let r := s.sRd c
    s.whereOf c r sp (.s a) (b.map .s) off ty.bytes false = .ok w →
    (∀ ok, s.readAt c ((sortNat c.batch.threads).headD 0) w ord sc ty ty.bytes (r.vaOf sp (.s a) (b.map .s) off) ok = ok bs t) →
    exec (.sld ord sc ty sp d a b off) s = .next ((t.putSLate c d (if ty.isI then (BitVec.ofNat ty.bits (ofLE bs)).signExtend 64
      else (BitVec.ofNat ty.bits (ofLE bs)).setWidth 64)).moveOn c []))

/-- R401: one thread's store. -/
def Claims.Stores (s : State) (c : Ctx) (ord : Ord) (sc : Scope) (ty : Ty) (sp : Space) (d a : Reg) (b : Option Reg) (off : BitVec 16)
    (x : State) (i : Nat) (y : State) : Prop :=
  let r := s.rd c.team i
  Claims.Placed c x i (x.whereOf c r sp a b off ty.bytes true) (fun w =>
    Claims.Takes c i (x.writeAt c i w ord sc ty (r.val ty d) (r.vaOf sp a b off)) (fun z => z.pendMems c) y) y

/-- R401, R402, R395: ST writes the low bytes of its source register at the place its address names, in each active
thread; SST once; the write is pending under the clause's token. -/
def Claims.StoreResults : Prop :=
  (∀ (ord : Ord) (sc : Scope) (ty : Ty) (sp : Space) (d a : Reg) (b : Option Reg) (off : BitVec 16) (s t : State) (c : Ctx), s.Issuing c →
    Each (Claims.Part c (atTy ty d :: basePosn sp a b) (Claims.Stores s c ord sc ty sp d a b off)) (c.todo (activeOf c)) s t →
    exec (.st ord sc ty sp d a b off) s = .next (t.moveOn c [])) ∧
  (∀ (ord : Ord) (sc : Scope) (ty : Ty) (sp : Space) (d a : SReg) (b : Option SReg) (off : BitVec 16) (s t : State) (c : Ctx) (w : Where),
    s.Issuing c → (∀ x ∈ [d, a] ++ b.toList, c.team.tagged x.val = false) →
    let r := s.sRd c
    s.whereOf c r sp (.s a) (b.map .s) off ty.bytes true = .ok w →
    s.writeAt c ((sortNat c.batch.threads).headD 0) w ord sc ty ((r.s d).setWidth ty.bits).toNat (r.vaOf sp (.s a) (b.map .s) off) = .done t →
    exec (.sst ord sc ty sp d a b off) s = .next ((t.pendMems c).moveOn c []))

/-- The value an atomic writes from the old value, its operand and CAS's compare value (R334); none writes nothing. -/
def Claims.atomic (aop : Aop) (ty : Ty) (old v cmp : BitVec ty.bits) : Option (BitVec ty.bits) :=
  match aop with
  | .add => some (old + v)
  | .min => some (if Claims.le ty old v then old else v)
  | .max => some (if Claims.le ty old v then v else old)
  | .and => some (old &&& v)
  | .or => some (old ||| v)
  | .xor => some (old ^^^ v)
  | .xchg => some v
  | .cas => if old = cmp then some v else none
  | .fadd => some (BitVec.ofNat _ (fAdd .f32 .rne old.toNat v.toNat).1)

/-- No registration of the core is blocked (R134). -/
def Claims.NoneBlocked (s : State) (k : Nat) : Prop := ∀ f ∈ s.mem.flights, f.core = k → s.mem.flightFree f = true
/-- The state in which an access is made once its order has been kept (R142, R145, R146): it has not been made to wait. -/
def Claims.Ordered (x : State) (c : Ctx) (ord : Ord) (sc : Scope) (spot : Option (Agent × Nat × Nat)) (x1 : State) : Prop :=
  ∀ f : State → Did, x.inOrder c.team.core ord sc spot f = f x1

/-- R147, R334, R386: one thread's atomic access; `f` has the old value. In scratchpad its ordering acts at TEAM; a CAS that fails
makes no release. -/
def Claims.Atomic (s : State) (c : Ctx) (aop : Aop) (ord : Ord) (sc : Scope) (ty : Ty) (sp : Space) (a b : Reg) (off : BitVec 16)
    (f : Nat → BitVec ty.bits → State → State) (x : State) (i : Nat) (y : State) : Prop :=
  let r := s.rd c.team i
  let cmp := if aop = .cas then Claims.v ty r b else 0
  let v := if aop = .cas then Claims.v ty r (casRegs ty b).2 else Claims.v ty r b
  let n := ty.bytes
  Claims.Placed c x i (x.whereOf c r sp a none off n true) (fun w =>
    match w with
    | .scratch u o =>
      let old := BitVec.ofNat ty.bits (ofLE (x.scratchRead u o n))
      x.spBarred c u o n = false ∧
      y = f i old (match Claims.atomic aop ty old v cmp with | some q => x.scratchWrite u o (toLE n q.toNat) | none => x)
    | .global ag va _ =>
      let fails := ∃ bs m, atomicGlobal x.ctl x.mem ag va n (fun _ => none) = .ok bs m ∧ Claims.atomic aop ty (BitVec.ofNat ty.bits (ofLE bs)) v cmp = none
      ∃ o x1, (fails → o = acquireOnly ord) ∧ (¬fails → o = ord) ∧ Claims.Ordered x c o sc (some (ag, va, n)) x1 ∧
      let g := atomicGlobal x1.ctl x1.mem ag va n (fun bs =>
        (Claims.atomic aop ty (BitVec.ofNat ty.bits (ofLE bs)) v cmp).map (fun q => toLE n q.toNat))
      ((∃ bs m, g = .ok bs m ∧ y = f i (BitVec.ofNat ty.bits (ofLE bs)) (x1.setMem m)) ∨
       (∃ code, g = .fault code ∧ y = x.raise c i code (BitVec.ofNat 64 va)))
    | _ => y = x.raise c i .access (r.vaOf sp a none off)) y

/-- R333, R334, R386: ATOM writes the old value to d, RED writes none; an atomic reaches scratchpad and global memory
only, and any other place faults. -/
def Claims.AtomicResults : Prop :=
  ∀ (aop : Aop) (ord : Ord) (sc : Scope) (ty : Ty) (sp : Space) (d a b : Reg) (off : BitVec 16) (s t : State) (c : Ctx), s.Issuing c →
    (Instr.wellFormed (.atom aop ord sc ty sp d a b off) = true →
      Each (Claims.Part c (atTy ty d :: basePosn sp a none ++ atomPosn aop ty b) (Claims.Atomic s c aop ord sc ty sp a b off
        (fun i old z => (Claims.put c i [(d, ty, old.toNat)] z).pendMems c))) (c.todo (activeOf c)) s t →
      exec (.atom aop ord sc ty sp d a b off) s = .next (t.moveOn c [])) ∧
    (Instr.wellFormed (.red aop ord sc ty sp a b off) = true →
      Each (Claims.Part c (basePosn sp a none ++ atomPosn aop ty b) (Claims.Atomic s c aop ord sc ty sp a b off
        (fun _ _ z => z.pendMems c))) (c.todo (activeOf c)) s t →
      exec (.red aop ord sc ty sp a b off) s = .next (t.moveOn c []))

/-- R381: one thread's prefetch of a global line; at the aperture it does nothing. -/
def Claims.Prefetches (s : State) (c : Ctx) (a : Reg) (b : Option Reg) (off : BitVec 16) (x : State) (i : Nat) (y : State) : Prop :=
  let va := ((s.rd c.team i).globalAddr a b off).toNat / 128 * 128
  if isAperture va then y = x
  else match loadGlobal x.ctl x.mem (x.agent c.team) va 128 .read with
    | .ok _ m => y = x.setMem m
    | .fault _ => y = x
    | .poisoned => y = x
    | _ => False

/-- R142, R146, R358: FENCE for every active thread: an acquire drops the core's unowned words and its clause cache, a
release accepts the core's registrations, none of which is blocked, SC and AR do both, at every scope but TEAM; and R381: PREF
brings the line of a global address into the L1 as a plain read does; a translation that would fault, the aperture and every
other space do nothing; its registers are checked as ever. -/
def Claims.FenceAndPrefetch : Prop :=
  (∀ (ord : Ord) (sc : Scope) (s : State) (c : Ctx), s.Issuing c → Instr.wellFormed (.fence ord sc) = true →
    (ord = .acq ∨ sc = .team ∨ Claims.NoneBlocked s c.team.core) →
    ∃ t, Each (fun (x : State) (_ : Nat) y =>
      let r := x.setMem (x.mem.release c.team.core sc)
      y = (if ord = .acq then x.acquireAt c.team.core sc else if ord = .rel then r else r.acquireAt c.team.core sc).pendMems c)
      (c.todo (activeOf c)) s t ∧
    exec (.fence ord sc) s = .next (t.moveOn c [])) ∧
  (∀ (ty : Ty) (sp : Space) (a : Reg) (b : Option Reg) (off : BitVec 16) (s t : State) (c : Ctx), s.Issuing c →
    (sp = .g → Each (Claims.Part c ((a, true) :: b.toList.map at32) (Claims.Prefetches s c a b off)) (c.todo (activeOf c)) s t →
      exec (.pref ty sp a b off) s = .next (t.moveOn c [])) ∧
    (sp ≠ .g → ∃ t, Each (fun (x : State) i y =>
      if (a :: b.toList).all (regInBlock (c.team.kTop i) false) then y = x else y = x.raise c i .illegalInstruction 0) (c.todo (activeOf c)) s t ∧
      exec (.pref ty sp a b off) s = .next (t.moveOn c [])))

/-- R84, R124, R125, R370, R402: where an address leads. Global: base, index and offset modulo 2⁶⁴, a multiple of the
size, the aperture where its home field is 5. Scratchpad and parameter: 32-bit base and index and the signed offset,
added exactly; a multiple of the size, then inside the space. -/
def Claims.AddressRules : Prop :=
  ∀ (s : State) (c : Ctx) (i : Nat) (a : Reg) (b : Option Reg) (off : BitVec 16) (n : Nat) (wr : Bool), 0 < n →
    let r := s.rd c.team i
    let idx := match b with | some x => r.lo x | none => 0
    let va := r.quad a + idx.setWidth 64 + off.signExtend 64
    let o : Int := (r.lo a).toNat + idx.toNat + off.toInt
    let size (sp : Space) := if sp = .s then (s.gridOf c.team).spBytes else (s.gridOf c.team).psize
    (va.toNat % n ≠ 0 → s.whereOf c r .g a b off n wr = .error (.alignment, va)) ∧
    (va.toNat % n = 0 → va.toNat < 2 ^ 57 → va.toNat / 2 ^ 54 = 5 →
      s.whereOf c r .g a b off n wr = .ok (.aperture (va.toNat / 2 ^ 46 % 256) (va.toNat % 2 ^ 46))) ∧
    (va.toNat % n = 0 → (2 ^ 57 ≤ va.toNat ∨ va.toNat / 2 ^ 54 ≠ 5) →
      s.whereOf c r .g a b off n wr = .ok (.global (s.agent c.team) va.toNat (if wr then .write else .read))) ∧
    ∀ sp ∈ [Space.s, Space.p],
      (o % n ≠ 0 → s.whereOf c r sp a b off n wr = .error (.alignment, BitVec.ofInt 64 o)) ∧
      (o % n = 0 → (o < 0 ∨ (size sp : Int) < o + n) → s.whereOf c r sp a b off n wr = .error (.access, BitVec.ofInt 64 o)) ∧
      (o % n = 0 → 0 ≤ o → o + n ≤ size sp →
        s.whereOf c r sp a b off n wr = .ok (if sp = .s then .scratch c.team.uid o.toNat else .param o.toNat))

/-- R237: a fill handle's tile: a multiple of the size, then inside the tile, then, in scratchpad, the team's own; the
access is made as the tile's own function and partition. -/
def Claims.FillHandlePlaces : Prop :=
  ∀ (s : State) (c : Ctx) (i : Nat) (sp : Space) (a : SReg) (b : Option Reg) (off : BitVec 16) (n : Nat) (wr : Bool), 0 < n →
    sp ≠ .g → sp ≠ .s → sp ≠ .p →
    let r := s.rd c.team i
    let h := r.s a
    let o : Int := (match b with | some x => ((r.lo x).toNat : Int) | none => 0) + off.toInt
    let got := s.checkHandle (s.gridOf c.team).part h (c.team.tagged a.val) .fill
    (∀ e, got = .bad e → s.whereOf c r sp (.s a) b off n wr = .error (e, h)) ∧
    (∀ dev, got = .remote dev → s.whereOf c r sp (.s a) b off n wr = .ok (.remote dev h (c.team.tagged a.val) (BitVec.ofInt 64 o).toNat)) ∧
    (∀ die k, got = .ok die k →
      let z := s.slot die k
      let at_ := BitVec.ofInt 64 (z.base.toNat + o)
      (o % n ≠ 0 → s.whereOf c r sp (.s a) b off n wr = .error (.alignment, at_)) ∧
      (o % n = 0 → (o < 0 ∨ (z.size : Int) < o + n) → s.whereOf c r sp (.s a) b off n wr = .error (.access, at_)) ∧
      (o % n = 0 → 0 ≤ o → o + n ≤ z.size → z.scratch = true → z.team ≠ c.team.uid → s.whereOf c r sp (.s a) b off n wr = .error (.access, at_)) ∧
      (o % n = 0 → 0 ≤ o → o + n ≤ z.size → z.scratch = true → z.team = c.team.uid →
        s.whereOf c r sp (.s a) b off n wr = .ok (.scratch z.team (z.base.toNat + o.toNat))) ∧
      (o % n = 0 → 0 ≤ o → o + n ≤ z.size → z.scratch = false →
        s.whereOf c r sp (.s a) b off n wr = .ok (.global ⟨c.team.core, z.fn, z.part, c.team.grid, (s.core c.team.core).marks⟩ (z.base.toNat + o.toNat) (if wr then .fillWrite else .read))))

-- what memory holds

/-- The byte at a physical place as an access at its registry finds it (R134). -/
def Claims.byte (m : Mem) (p : Phys) : Byte := (m.regRead p 1).headD 0
/-- The places of n bytes. -/
def Claims.places (p : Phys) (n : Nat) : List Phys := (List.range n).map (fun k => ⟨p.host, p.pa + k⟩)
/-- Each recorded owner holds the word, and holds it for that word. -/
def Claims.Homes (m : Mem) : Prop :=
  ∀ word key, Store.get none m.owner word = some key → ∃ w, Store.get none m.l1 key = some w ∧ w.owned = true ∧ w.home = word
/-- The L1 copy at a virtual address, where there is an owned one, is of this word. -/
def Claims.Fits (m : Mem) (a : Agent) (va n : Nat) (p : Phys) : Prop :=
  ∀ k, k < n → ∀ w, Store.get none m.l1 (l1Key a.core a.fn (va + k)) = some w → w.owned = true → w.home = Phys.word ⟨p.host, p.pa + k⟩
/-- The core has no store in flight to the line of a place through another address (R136). -/
def Claims.Lone (m : Mem) (a : Agent) (va : Nat) (p : Phys) : Prop :=
  ∀ f ∈ m.flights, f.core = a.core → f.key / 32 = l1Key a.core a.fn va / 32 ∨ ∀ home, m.homeOf f = some home → (physOf home).line ≠ p.line
/-- The core's L1 has room for the line of an address, or holds it (R11, R134). -/
def Claims.Roomy (m : Mem) (a : Agent) (va : Nat) : Prop :=
  let line := l1Key a.core a.fn va / 32
  (m.l1Lines a.core).length < 2048 ∨ line ∈ m.l1Lines a.core

/-- R2, R40: scratchpad keeps what is written to it: a write of n bytes is read back as written, every other byte of
the team's scratchpad, every other team's scratchpad, and memory are as they were. -/
def Claims.ScratchpadHoldsWhatIsWritten : Prop :=
  ∀ (s : State) (u off : Nat) (bs : List Byte) (t : Team), s.team? u = some t → t.uid = u →
    let s' := s.scratchWrite u off bs
    s'.scratchRead u off bs.length = bs ∧
    (∀ a, a < off ∨ off + bs.length ≤ a → s'.scratchRead u a 1 = s.scratchRead u a 1) ∧
    (∀ v a, v ≠ u → s'.scratchRead v a 1 = s.scratchRead v a 1) ∧
    (∀ p, Claims.byte s'.mem p = Claims.byte s.mem p)

/-- R134, R143: a store of n bytes to global memory, where the L1 need not evict a line for it and the core has no store to that line
in flight through another address (R136), changes, of all L1 words, only those of the stored bytes: the new words are owned and a
registration of each is in flight, one for the two words of a 64-bit store. Until it is accepted HBM, host memory, the registries'
owners and every byte a registry answers are as they were; a load by the same core and function of the same bytes, where it may
read, finds what was stored. That an L1 makes room only when it holds 2048 lines, and then by a line of its own that it need not wait
for, is the model's choice (logs 9, 81; the spec gives the capacity); R258: a marked line goes only where every line is marked. -/
def Claims.GlobalStoreThenLoad : Prop :=
  (∀ (ctl : Ctl) (m m1 m' : Mem) (a : Agent) (va : Nat) (k : Kind) (sys : Bool) (data : List Byte) (n : Nat) (p : Phys),
    data.length = n → n ∈ [1, 2, 4, 8, 16] → va % n = 0 → Claims.Roomy m a va → translate ctl m a.fn a.part va k = .ok p m1 →
    Claims.Lone m a va p → storeGlobal ctl m a va k sys data = .ok () m' →
    (m'.hbm = m.hbm ∧ m'.host = m.host ∧ m'.owner = m.owner ∧ m'.poison = m.poison ∧ m'.claims = m.claims) ∧
    (∀ key, (∀ j, j < n → key ≠ l1Key a.core a.fn (va + j)) → Store.get none m'.l1 key = Store.get none m.l1 key) ∧
    (∀ j, j < n → ∃ w, Store.get none m'.l1 (l1Key a.core a.fn (va + j)) = some w ∧ w.owned = true ∧
      ∃ f ∈ m'.flights, f.core = a.core ∧ (f.key = l1Key a.core a.fn (va + j) ∨ (f.wide = true ∧ f.key + 1 = l1Key a.core a.fn (va + j)))) ∧
    (n = 8 → ∃ f ∈ m'.flights, f.core = a.core ∧ f.key = l1Key a.core a.fn va ∧ f.wide = true) ∧
    (Claims.Homes m → ∀ q, Claims.byte m' q = Claims.byte m q) ∧
    (∀ k2 bs m2, loadGlobal ctl m' a va n k2 = .ok bs m2 → bs = data)) ∧
  (∀ (m m' : Mem) (core line : Nat) (marks : List Nat), m.makeRoom core marks line = some m' →
    (((m.l1Lines core).length < 2048 ∨ line ∈ m.l1Lines core) → m' = m) ∧
    (2048 ≤ (m.l1Lines core).length → line ∉ m.l1Lines core → ∃ v ∈ m.l1Lines core, m' = { m.evictLine v with evicts := m.evicts + 1 } ∧
      m.lineFree v = true ∧ (32 * v ∈ marks → ∀ l ∈ m.l1Lines core, 32 * l ∈ marks)))

/-- R135, R136, R147: an atomic reads and writes at the registry, after the core's own registrations, through whatever address: what it read is what it
answers; where it writes, its bytes then read as written; every other byte reads as it did. -/
def Claims.AtomicAtTheRegistry : Prop :=
  ∀ (ctl : Ctl) (m m' m1 : Mem) (a : Agent) (va n : Nat) (f : List Byte → Option (List Byte)) (old : List Byte) (p : Phys),
    n ∈ [4, 8] → va % n = 0 → (∀ bs, f old = some bs → bs.length = n) →
    translate ctl m a.fn a.part va .write = .ok p m1 → atomicGlobal ctl m a va n f = .ok old m' →
    ∃ m0, m1.pushAliases a.core (l1Key a.core a.fn va / 32) p = some m0 ∧
    let d := (m0.sample ctl a.fn p).drain a.core
    old = d.regRead p n ∧
    (Claims.Homes d → Claims.Fits d a va n p →
      (∀ bs, f old = some bs → m'.regRead p n = bs) ∧ (f old = none → m'.regRead p n = old) ∧
      (∀ q, q ∉ Claims.places p n → Claims.byte m' q = Claims.byte d q) ∧
      (∀ j, j < n → Store.get none m'.l1 (l1Key a.core a.fn (va + j)) = none ∧ Store.get none m'.owner (Phys.word ⟨p.host, p.pa + j⟩) = none))

/-- No store of the core in flight is to a word that it holds registered under another address (R136). -/
def Claims.NoAlias (m : Mem) (core : Nat) : Prop := ∀ f ∈ m.flights, f.core = core → m.aliased core f = []

/-- R134, R142, R143, R135: a registration accepted makes the bytes the core has stored the registry's, and the registry's own the rest
of the word, and makes the core the word's owner; a release accepts every registration of the core that is not blocked; an acquire
leaves the core no unowned word, and, where the core has no store in flight to a word it holds registered under another address
(R136), takes no owned word of any core: of a word whose registration is in flight the bytes that the core has not stored are then the
registry's. No such store that is not blocked is in flight after an acquire. -/
def Claims.ReleaseAndAcquire : Prop :=
  (∀ (m : Mem) (key : Nat) (w : L1Word), Store.get none m.l1 key = some w → w.owned = true →
    (m.acceptWord key).word w.home = mergeBytes w.mask w.val (m.word w.home) ∧ Store.get none (m.acceptWord key).owner w.home = some key) ∧
  (∀ (m : Mem) (core : Nat), ∀ f ∈ (m.drain core).flights, f.core = core → m.flightFree f = false) ∧
  (∀ (m : Mem) (core : Nat), ∀ f ∈ (m.acquire core).flights, f.core = core → m.flightFree f = true → m.aliased core f = []) ∧
  (∀ (m : Mem) (core key : Nat) (w : L1Word), Store.wf none m.l1 = true → Claims.NoAlias m core → Store.get none (m.acquire core).l1 key = some w →
    ∃ w0, Store.get none m.l1 key = some w0 ∧ w.owned = w0.owned ∧ w.home = w0.home ∧ w.pub = w0.pub ∧ w.mask = w0.mask ∧
      (l1Core key = core → w.owned = true) ∧
      (w.val = w0.val ∨ (w.owned = true ∧ w.val = mergeBytes w0.mask w0.val ((m.acquire core).word w0.home)))) ∧
  (∀ (m : Mem) (core key : Nat) (w : L1Word), Store.wf none m.l1 = true → Claims.NoAlias m core → Store.get none m.l1 key = some w →
    (l1Core key ≠ core ∨ w.owned = true) → (Store.get none (m.acquire core).l1 key).isSome = true)

/-- R125 to R129, R137, R264, R421: what a translation refuses, in the order of the checks, and that what it allows keeps
the offset in the page, lies in a stack of the partition or in a host frame, which a walk has found granted to the function, and
changes no byte of memory: the home's cache of translations only, and the sampled counts. A page in that cache is used as it stands
there, whatever the windows have become, while its root's EN is 1. -/
def Claims.TranslationChecks : Prop :=
  ∀ (ctl : Ctl) (m : Mem) (fn part va : Nat) (k : Kind),
    let cached := Store.get none m.tlb (tlbKey (va / 2 ^ 54 % 8) fn (va / 65536 % 2 ^ 38))
    (2 ^ 57 ≤ va → translate ctl m fn part va k = .fault .access) ∧
    (va < 2 ^ 57 → 5 ≤ va / 2 ^ 54 → translate ctl m fn part va k = .fault .access) ∧
    (va < 2 ^ 56 → ctl.onDie part (va / 2 ^ 54) = false → translate ctl m fn part va k = .fault .outOfPartition) ∧
    -- an access with a home faults while EN of its root is 0 (R126)
    (va < 5 * 2 ^ 54 → (va < 2 ^ 56 → ctl.onDie part (va / 2 ^ 54) = true) → bit (ctl.xltRootOf fn (va / 2 ^ 54)).toNat 0 = false →
      translate ctl m fn part va k = .fault .pageFault) ∧
    (∀ p m', translate ctl m fn part va k = .ok p m' →
      bit (ctl.xltRootOf fn (va / 2 ^ 54)).toNat 0 = true ∧
      p.pa % 65536 = va % 65536 ∧ m'.hbm = m.hbm ∧ m'.host = m.host ∧ m'.owner = m.owner ∧ m'.l1 = m.l1 ∧ m'.flights = m.flights ∧
      (p.host = false → ∃ frame, frame ≤ p.pa / 65536 ∧ p.pa / 65536 < frame + 32 ∧ ctl.ownsStack part (frame * 65536) = true) ∧
      (∀ e, cached = some e → p.host = leafHost e.leaf ∧ m' = m) ∧
      (p.host = true → ctl.tdiOf fn ≠ 3 ∧ (cached = none → ctl.hostGranted fn (p.pa / 65536) = true)))

-- control flow

/-- Moving to a block whose number the image does not have faults (R46, R341); otherwise the thread stands there. -/
def Claims.Jumps (s : State) (c : Ctx) (st : TState) (target : Nat) (x : State) (i : Nat) (y : State) : Prop :=
  y = if (s.gridOf c.team).blocks ≤ target then x.raise c i .illegalInstruction 0 else x.goTo c i st target

/-- The terminators of R53, R54, R340, R388 and R420 that only move their threads: positions read, where a thread goes,
and as what. -/
def Claims.jumpRule (s : State) (c : Ctx) : Instr → Option (List Posn × (Nat → Nat) × TState)
  | .bra t => some ([], fun _ => t.toNat, .waiting)
  | .brc t => some ([], fun i => if (c.team.thread i).top then t.toNat else c.batch.block + 1, .waiting)
  | .bsw t a n => some ([at32 a], fun i => t.toNat + Nat.min ((s.rd c.team i).lo a).toNat n.toNat, .waiting)
  | .ret a => some ([at32 a], fun i => ((s.rd c.team i).lo a).toNat, .waiting)
  | .yield t => some ([], fun _ => t.toNat, .yielded)
  | _ => none

/-- R53, R54, R90, R169, R340, R341, R388, R420: a terminator waits for the block's long-latency register writes and for
the copies naming its flags; then every thread of the batch goes where its operands say, CALL writing the number of
the next block to K[a] before its target is tested. -/
def Claims.TransfersMoveEveryThread : Prop :=
  (∀ (ins : Instr) (ps : List Posn) (f : Nat → Nat) (st : TState) (s : State) (c : Ctx), s.Issuing c →
    Claims.jumpRule s c ins = some (ps, f, st) →
    (s.mayEnd c = false → exec ins s = .next (s.waitHere c)) ∧
    (s.mayEnd c = true → ∃ t, Each (Claims.Part c ps (fun x i y => Claims.Jumps s c st (f i) x i y)) (c.todo (everyOf c)) s t ∧
      exec ins s = .next (t.moveOn c []))) ∧
  (∀ (b : BitVec 24) (a : Fin 128) (s : State) (c : Ctx), s.Issuing c →
    (s.mayEnd c = false → exec (.call b a) s = .next (s.waitHere c)) ∧
    (s.mayEnd c = true → ∃ t, Each (Claims.Part c [at32 (.k a)] (fun x i y =>
        Claims.Jumps s c .waiting b.toNat (x.onCur c (fun t => t.onThread i (fun h =>
          (h.settle [(false, a.val)]).put false a.val (BitVec.ofNat 32 (c.batch.block + 1))))) i y)) (c.todo (everyOf c)) s t ∧
      exec (.call b a) s = .next (t.moveOn c [])))

/-- R53, R54, R61: the thread that a terminator moves stands before the first clause of its block, waiting or yielded; a
thread of a stopped team or one that steps is held there instead; its registers and predicates are as they were and no
other thread has changed. -/
def Claims.GoingToABlock : Prop :=
  ∀ (s : State) (c : Ctx) (i target : Nat) (st : TState), s.Issuing c → i < c.team.threads.length →
    ∃ t', (s.goTo c i st target).team? c.team.uid = some t' ∧ c.team.Kept t' ∧ s.Apart (s.goTo c i st target) c.team.uid ∧
      (t'.thread i).pos = ⟨target, 0, 0⟩ ∧ (t'.thread i).st = (if c.batch.stepped || c.team.stopped then .held else st) ∧
      (∀ n, n ≠ i → t'.thread n = c.team.thread n)

/-- R352, R37: EXIT ends every thread of the batch: its registers and predicates are gone, and what follows a crew's or
the team's last thread is done after the batch has ended. -/
def Claims.ExitEndsItsThreads : Prop :=
  ∀ (s : State) (c : Ctx), s.Issuing c →
    (s.mayEnd c = false → exec .exit s = .next (s.waitHere c)) ∧
    (s.mayEnd c = true → ∃ t, Each (fun (x : State) i y => y = x.onCur c (fun t => match t.batch? c.batch.id with
        | some b => (t.leave b i .ended b.pos none).onThread i (fun h =>
            { h with st := .ended, k := [], w := [], preds := [], frame := none, olds := [], holdNext := false, stepping := false, bitten := false })
        | none => t)) (c.todo (everyOf c)) s t ∧
      exec .exit s = .next ((t.moveOn c []).afterExit c.team.uid))

/-- R352: EXIT completes: once the batch's long-latency register writes and the copies that name its flags are complete, it takes
every thread of the batch to its end, in ascending index. -/
def Claims.ExitCompletes : Prop :=
  ∀ (s : State) (c : Ctx), s.Issuing c → s.mayEnd c = true →
    let ends (x : State) (i : Nat) : State := x.onCur c (fun t => match t.batch? c.batch.id with
      | some b => (t.leave b i .ended b.pos none).onThread i Thread.finish
      | none => t)
    exec .exit s = .next ((((c.todo (everyOf c)).foldl ends s).moveOn c []).afterExit c.team.uid)

/-- R37, R178, R241: a team all of whose threads have ended retires: registers, tiles, accumulators, tags, flags, barriers,
network memberships and extended blocks are free, and so is its place as soon as nothing keeps it. -/
def Claims.LastExitEndsTheTeam : Prop :=
  ∀ (s : State) (u : Nat) (t : Team), s.team? u = some t → t.phase = .live → (∀ x ∈ t.threads, x.st = .ended) →
    ∃ t', (s.afterExit u).team? u = some t' ∧ (t'.phase = .retiring ∨ (t'.phase = .ended ∧ t'.placed = false ∧ t'.scratch = [])) ∧
      t'.endedBy = none ∧ t'.s = [] ∧ t'.tags = [] ∧ t'.tile = [] ∧ t'.acc = [] ∧ t'.holders = [] ∧ t'.batches = [] ∧ t'.netMask = [] ∧
      t'.threads = t.threads.map Thread.finish

/-- R57, R148, R175, R176, R335: BAR: a block the image does not have, then a network barrier the team is no member of, fault; a
crew that has arrived lets the thread pass; otherwise the crew arrives, at a network barrier after a release at PART that no blocked
registration holds up, and the thread parks at the generation it found. BARA arrives and goes on. BARW parks until the generation its
crew last arrived at has opened. After the arrivals the barrier is to be tested. -/
def Claims.BarrierArrivals : Prop :=
  ∀ (net : Bool) (b : BitVec 8) (g : BitVec 24) (s : State) (c : Ctx), s.Issuing c →
    let n := b.toNat
    let who (i : Nat) : Nat × Nat := (if net then c.team.uid else 0, i / 32)
    let out := net && !c.team.netMask.contains n
    let here (x : State) : Bar := if net then x.netBar (s.gridOf c.team).part n else (x.curTeam c).bar n
    let test (x : State) : State := x.reachBar net (if net then (x.gridOf c.team).part else c.team.uid) n
    let wait (k : Nat) : Park := if net then .netBar n k g.toNat else .bar n k g.toNat
    let arrive (x : State) (i : Nat) : State :=
      let x1 := if net then x.setMem (x.mem.release c.team.core .part) else x
      x1.putBar c net n ((x1.barOf c net n).arrive (who i))
    (s.mayEnd c = true → (net = true → Claims.NoneBlocked s c.team.core) → ∃ t, Each (fun (x : State) i y =>
        y = if (s.gridOf c.team).blocks ≤ g.toNat then x.raise c i .illegalInstruction 0
          else if out then x.raise c i .access 0
          else if (here s).arrived.contains (who i) then x.goTo c i .waiting g.toNat
          else (arrive x i).park c i (wait (here s).gen)) (c.todo (everyOf c)) s t ∧
      exec (.bar net b g) s = .next (test (t.moveOn c []))) ∧
    ((net = true → Claims.NoneBlocked s c.team.core) → ∃ t, Each (fun (x : State) i y =>
        y = if out then x.raise c i .access 0
          else if (here x).arrived.contains (who i) then x
          else arrive x i) (c.todo (everyOf c)) s t ∧
      exec (.bara net b) s = .next (test (t.moveOn c []))) ∧
    (s.mayEnd c = true → ∃ t, Each (fun (x : State) i y =>
        y = if (s.gridOf c.team).blocks ≤ g.toNat then x.raise c i .illegalInstruction 0
          else if out then x.raise c i .access 0
          else match (here x).last.find? (fun e => e.1 == who i) with
            | some e => if e.2 = (here x).gen then x.park c i (wait (here x).gen) else x.goTo c i .waiting g.toNat
            | none => x.goTo c i .waiting g.toNat) (c.todo (everyOf c)) s t ∧
      exec (.barw net b g) s = .next (t.moveOn c []))

/-- R57, R169, R177, R178: what has reached a barrier in a cycle is tested when the cycle ends, once; the bytes of the lines that landed
in it are taken off the pending count first. A team barrier then opens exactly when the team has a live crew, each live crew has
arrived and no byte is pending: the generation goes up by one and no crew has arrived at it; otherwise nothing else of the team's
barriers or threads changes. -/
def Claims.BarrierOpensWhenAllHaveArrived : Prop :=
  (∀ (s : State) (u b : Nat) (t : Team), s.team? u = some t → t.uid = u → b < 16 → b < t.bars.length →
    let y := t.bar b
    let x : Bar := if y.lowered = 0 then y
      else { y with pending := y.pending - y.lowered, under := y.under || decide (y.pending < y.lowered), counted := true, lowered := 0 }
    let full := t.liveCrews ≠ [] ∧ x.pending = 0 ∧ ∀ k ∈ t.liveCrews, (0, k) ∈ x.arrived
    (¬full → ∃ t', (s.tryOpen u b).team? u = some t' ∧ t'.bar b = x ∧ (∀ m, m ≠ b → t'.bar m = t.bar m) ∧ t'.threads = t.threads) ∧
    (full → ∃ t', (s.tryOpen u b).team? u = some t' ∧ (t'.bar b).gen = x.gen + 1 ∧ (t'.bar b).arrived = [] ∧ (t'.bar b).pending = 0 ∧
      (∀ m, m ≠ b → t'.bar m = t.bar m) ∧
      (∀ i, (∀ m g p, (t.thread i).st ≠ .parked (.bar m g p)) → t'.thread i = t.thread i))) ∧
  (∀ (s : State) (net : Bool) (u b : Nat), (net, u, b) ∈ (s.reachBar net u b).work.tests ∧ (s.reachBar net u b).work.teams = s.work.teams) ∧
  (∀ (s : State) (t : Nat), s.sched.now < t → s.sched.now / 250 ≠ t / 250 → (s.elapseTo t).work.tests = [])

/-- R176, R376: NBMEM: a NIGHT team may not join; otherwise the team's membership is as asked, at once where the barrier has
no member crew, and at its next opening where it has. -/
def Claims.NetworkMembership : Prop :=
  ∀ (b : BitVec 8) (join : Bool) (s : State) (c : Ctx), s.Issuing c →
    (∃ t, Each (fun (x : State) i y => y = if join = true ∧ c.team.cls = 0 then x.raise c i .progressClass 0 else x.member c b.toNat join) (c.todo (everyOf c)) s t ∧
      exec (.nbmem b join) s = .next (t.moveOn c [])) ∧
    (c.team.phase = .live → (s.member c b.toNat join).asked c b.toNat = join)

-- waits

/-- R195, R416: one thread's WAITF. -/
def Claims.WaitsOn (s : State) (c : Ctx) (np : Bool) (a : Reg) (g : BitVec 24) (x : State) (i : Nat) (y : State) : Prop :=
  if (s.gridOf c.team).blocks ≤ g.toNat then y = x.raise c i .illegalInstruction 0
  else Claims.Part c [at32 a] (fun x i y =>
    let o := ((s.rd c.team i).lo a).toNat
    if o % 8 ≠ 0 then y = x.raise c i .alignment (BitVec.ofNat 64 o)
    else if (s.gridOf c.team).spBytes < o + 32 then y = x.raise c i .access (BitVec.ofNat 64 o)
    else x.spBarred c c.team.uid o 32 = false ∧
      match waitRecOf (x.scratchRead c.team.uid o 32) with
      | none => y = x.raise c i .access (BitVec.ofNat 64 o)
      | some r => Claims.Takes c i (x.waitOn c i r np g.toNat) id y) x i y

/-- R195, R196, R416: WAITF: the block, the registers, the alignment and the range of the record, then the record itself,
are checked in this order; then the wait is taken up. -/
def Claims.WaitfReadsItsRecord : Prop :=
  ∀ (np : Bool) (a : Reg) (g : BitVec 24) (s t : State) (c : Ctx), s.Issuing c → s.mayEnd c = true →
    Each (Claims.WaitsOn s c np a g) (c.todo (everyOf c)) s t →
    exec (.waitf np a g) s = .next (t.moveOn c [])

/-- R195 to R199: what a wait does once its record has been read: a watched global word needs a target; the target must be a
handle of the partition; ENDED on the waiter's own team, its grid or an ancestor is refused; the class check is made;
then a condition that holds lets the thread go on, after an acquire where global memory or an end was watched, and one
that does not parks it. -/
def Claims.WaitOutcomes : Prop :=
  ∀ (s : State) (c : Ctx) (i : Nat) (r : WaitRec) (np : Bool) (g : Nat),
    (r.target = 0 → r.scratch = false → s.waitOn c i r np g = .fault s .progressClass 0) ∧
    (r.target ≠ 0 → s.targetIn (s.gridOf c.team).part r.target = none → s.waitOn c i r np g = .fault s .access r.target) ∧
    (∀ x, r.target ≠ 0 → s.targetIn (s.gridOf c.team).part r.target = some x → r.rel = 4 → s.ownLineage c.team x = true →
      s.waitOn c i r np g = .fault s .progressClass 0) ∧
    (∀ x e, r.target ≠ 0 → s.targetIn (s.gridOf c.team).part r.target = some x → (r.rel ≠ 4 ∨ s.ownLineage c.team x = false) →
      s.classCheck (s.curTeam c) (onOf r.rel x) np = .error e → s.waitOn c i r np g = .fault s e 0) ∧
    (∀ x s1, r.target ≠ 0 → s.targetIn (s.gridOf c.team).part r.target = some x → (r.rel ≠ 4 ∨ s.ownLineage c.team x = false) →
      s.classCheck (s.curTeam c) (onOf r.rel x) np = .ok s1 → s.waitOn c i r np g = s1.firstRead c i r np g) ∧
    (r.target = 0 → r.scratch = true → s.waitOn c i r np g = s.firstRead c i r np g) ∧
    -- the first look at the condition
    (∀ x, r.rel = 4 → s.target? r.target = some x → s.targetEnded x = false → s.firstRead c i r np g = .park s (.waitf r np g)) ∧
    (∀ u, r.rel = 4 → s.target? r.target = some (.grid u) → s.targetEnded (.grid u) = true →
      s.firstRead c i r np g = .done ((s.acquire c.team.core).goTo c i .waiting g)) ∧
    -- a team's end is seen once the writes of its core are performed
    (∀ u lin t, r.rel = 4 → s.target? r.target = some (.team u lin) → s.targetEnded (.team u lin) = true → s.teamOf u lin = some t →
      Claims.NoneBlocked s t.core →
      s.firstRead c i r np g = .done (((s.setMem (s.mem.drain t.core)).acquire c.team.core).goTo c i .waiting g)) ∧
    (r.rel ≠ 4 → r.scratch = true → r.waddr.toNat % (if r.n64 then 8 else 4) = 0 →
      r.waddr.toNat + (if r.n64 then 8 else 4) ≤ (s.gridOf (s.curTeam c)).spBytes →
      s.firstRead c i r np g =
        if relHolds r.rel (Claims.number ((List.range (if r.n64 then 8 else 4)).map (fun k => Store.get 0 (s.curTeam c).scratch (r.waddr.toNat + k))))
            (if r.n64 then r.value.toNat else r.value.toNat % 2 ^ 32)
        then .done ((s.setMem s.mem).goTo c i .waiting g) else .park (s.setMem s.mem) (.waitf r np g)) ∧
    (∀ bs m, r.rel ≠ 4 → r.scratch = false → r.waddr.toNat % (if r.n64 then 8 else 4) = 0 →
      readRegistry s.ctl (s.mem.drain (c.team.core)) (s.gridOf (s.curTeam c)).fn (s.gridOf (s.curTeam c)).part r.waddr.toNat
        (if r.n64 then 8 else 4) .read = .ok bs m →
      s.firstRead c i r np g =
        if relHolds r.rel (ofLE bs) (if r.n64 then r.value.toNat else r.value.toNat % 2 ^ 32)
        then .done ((((s.setMem (s.mem.drain c.team.core)).setMem m).acquire c.team.core).goTo c i .waiting g)
        else .park ((s.setMem (s.mem.drain c.team.core)).setMem m) (.waitf r np g))

/-- R199, R200, R201, R202: the class check passes where no team it depends on is weaker than the waiter; with .NP a weaker one is a
PROGRESS_CLASS fault and nothing has changed; otherwise every team of the weaker ones is raised to the waiter's class
and the waits of those are checked again, along every chain, or PROMOTION_BLOCKED and nothing has changed. -/
def Claims.ClassCheckRule : Prop :=
  ∀ (s : State) (t : Team) (w : WaitOn) (np : Bool),
    let weak := (s.targetSet w).filter (fun r => decide (s.clsOf r.1 r.2 < t.cls))
    (weak = [] → s.classCheck t w np = .ok (s.named w)) ∧
    (weak ≠ [] → np = true → s.classCheck t w np = .error .progressClass) ∧
    (weak ≠ [] → np = false → s.promote (s.gridOf t).part weak t.cls = none → s.classCheck t w np = .error .promotionBlocked) ∧
    (∀ s1, weak ≠ [] → np = false → s.promote (s.gridOf t).part weak t.cls = some s1 → s.classCheck t w np = .ok (s1.recheckAll weak))

-- extended registers, convergence registers, traps

/-- R26, R94, R360, R387: GRAB: a crew that holds a block goes on; EXT 0 faults; a free block is granted; otherwise the thread
parks. RELX returns the crew's block to the team, where a crew parked at GRAB takes it. -/
def Claims.ExtendedBlocks : Prop :=
  ∀ (s : State) (c : Ctx), s.Issuing c →
    let e := (s.gridOf c.team).ext
    (∃ t, Each (fun (x : State) i y =>
        y = if (i / 32) ∈ (x.curTeam c).holders then x
          else if e = 0 then x.raise c i .regDeadlock 0
          else if (x.curTeam c).holders.length < e then x.onCur c (fun t => t.grant (i / 32))
          else x.park c i .grab) (c.todo (everyOf c)) s t ∧
      exec .grab s = .next (t.moveOn c [])) ∧
    (∃ t, Each (fun (x : State) i y => y = x.onCur c (fun t => if (i / 32) ∈ t.holders then
        ({ t.clearExt (i / 32) with holders := t.holders.filter (· != i / 32) }).grantBlocks e else t)) (c.todo (everyOf c)) s t ∧
      exec .relx s = .next (t.moveOn c [])) ∧
    -- a granted block reads 0, and the other crews' registers are as they were
    (∀ (k n m : Nat), (∀ x ∈ c.team.threads, Store.wf 0 x.k = true) → n < c.team.threads.length →
      Store.get 0 ((c.team.grant k).thread n).k m = if n / 32 = k ∧ 32 ≤ m then 0 else Store.get 0 (c.team.thread n).k m)

/-- R58, R347: CVSET: N of 0 or above the team's threads faults in every thread; an N it has already changes nothing;
another is set and the count is 0, and a withdrawn set of the register is gone. -/
def Claims.ConvergenceSet : Prop :=
  ∀ (cv : Fin 16) (n : BitVec 16) (s : State) (c : Ctx), s.Issuing c →
    ((n = 0 ∨ c.team.threads.length < n.toNat) → exec (.cvset cv n) s = .next ((s.raiseAll c .illegalInstruction 0 (everyOf c)).moveOn c [])) ∧
    (n ≠ 0 → n.toNat ≤ c.team.threads.length → (c.team.cv.getD cv.val (Cv.start 0)).n = n.toNat → exec (.cvset cv n) s = .next (s.moveOn c [])) ∧
    (n ≠ 0 → n.toNat ≤ c.team.threads.length → (c.team.cv.getD cv.val (Cv.start 0)).n ≠ n.toNat →
      exec (.cvset cv n) s = .next ((s.onCur c (fun t => { t.putCv cv.val
        { (c.team.cv.getD cv.val (Cv.start 0)) with n := n.toNat, count := 0 } with owed := t.owed.filter (fun e => e.1 != cv.val) })).moveOn c []))

/-- R61, R210, R339, R413: TRAP traps the active threads with SOFTWARE_TRAP and the code, BKPT every thread of the batch with
BREAKPOINT and the tag; each resumes at the instruction after it (R61 of BKPT; of TRAP the
model's reading, log 31); after BKPT, but under NONSTOP, which acts as it stood at the team's
selection (R50), the whole team stops. -/
def Claims.TrapAndBreakpoint : Prop :=
  ∀ (v : BitVec 16) (s : State) (c : Ctx), s.Issuing c →
    let hit (code : Code) (is : List Nat) := is.foldl (fun (a : State) i =>
      a.trapThread c.team.uid c.batch.id i code 0 (v.setWidth 64) c.batch.pos c.batch.next) s
    exec (.trap v) s = .next ((hit .softwareTrap (activeOf c)).moveOn c []) ∧
    (let z := (hit .breakpoint (everyOf c)).moveOn c []
     exec (.bkpt v) s = .next (if (match c.team.sel with | some x => bit x.ctl.toNat 16 | none => s.ctl.nonStop c.team.core) then z
      else z.onTeam c.team.uid (fun t => t.stopAll (z.frameW t)))) ∧
    ∀ (code : Code) (is : List Nat), is.Nodup → (∀ i ∈ is, i < c.team.threads.length) →
      ∃ t', (hit code is).team? c.team.uid = some t' ∧ c.team.Same t' ∧ s.Apart (hit code is) c.team.uid ∧
        (∀ i ∈ is, (t'.thread i).st = .trapped ∧ (t'.thread i).pos = c.batch.next ∧
          (t'.thread i).trap = c.trapOf code (v.setWidth 64) ∧ (t'.thread i).k = (c.team.thread i).k ∧
          (t'.thread i).preds = (c.team.thread i).preds) ∧
        (∀ n, n ∉ is → t'.thread n = c.team.thread n)

/-- R379, R311, R324: NOP only moves on; a word no row of its class assigns raises ILLEGAL_INSTRUCTION, in a word of class SC
or CF in every thread of the batch, in the others in the active threads; a word that does not decode does the same at
its batch's turn. -/
def Claims.NopAndBadWords : Prop :=
  (∀ (s : State) (c : Ctx), s.Issuing c → exec .nop s = .next (s.moveOn c [])) ∧
  (∀ (cls : Cls) (w : W64) (s : State) (c : Ctx), s.Issuing c →
    exec (.unassignedOpcode cls w) s = .next ((s.raiseAll c .illegalInstruction 0
      (if cls = .sc ∨ cls = .cf then everyOf c else activeOf c)).moveOn c [])) ∧
  (∀ (s s0 s1 : State) (dt u b : Nat) (c c1 : Ctx) (cls : Cls) (w : W64) (why : DecodeError),
    s.nextTurn = (some ⟨dt, .batch u b⟩, s0) → s1 = (s0.elapseTo (s0.sched.now + dt)).setCur u b →
    s1.ctx? = some c → c.batch.word = some (cls, w) → decode cls w = .error why → (s1.beforeIssue c cls).ctx? = some c1 →
    step s = .next ((((((s1.beforeIssue c cls).raiseAll c1 .illegalInstruction 0
      (if cls = .sc ∨ cls = .cf then everyOf c1 else activeOf c1)).moveOn c1 []).afterIssue c1 cls none).finish).stir))

-- tiles

/-- What a tile instruction of cells makes of its team at issue, with the flags, the issue cycles of the matrix slice and
whether half an array doubles them, or its fault (R81, R82, R96, R98, R104 to R116, R407, R408). `v` reads S operands;
`dA`, `dB` are the deposits. -/
def Claims.cells (s : State) (c : Ctx) (v : SReg → W64) (dA dB : List W32) : Instr → Option (Except Code (Team × Flags × Nat × Bool))
  | .tcfg _ td sa => some (if tctlOk (v sa) then .ok ((s.curTeam c).putTctl td.val (((v sa).extractLsb' 0 20).setWidth 32), 0, 1, false)
      else .error .tileShape)
  | .tzero _ acc td => some (
      if acc then (if s.noAcc c then .error .tileShape else .ok ((s.curTeam c).clearAcc td.val, 0, 1, false))
      else .ok ((s.curTeam c).clearTile td.val, 0, 1, false))
  | .tlds _ td _ half col ix imm => some (
      let t := s.curTeam c
      let w := t.tctlOf td.val
      let x := ((v ix).extractLsb' 0 32).toNat + imm.toNat
      if sliceBad w half col x then .error .tileShape
      else .ok ({ t with tile := (List.range 32).foldl (fun (m : Store Byte) l =>
          let r := if half then 32 + l else l
          if !col then m.writeBytes (tileAt td.val x (4 * l)) ((toLE 4 (dA.getD l 0).toNat).take (tcBytes w - 4 * l))
          else if r < tcRows w then putElem m td.val r x (etypeBits (tcType w)) (dA.getD l 0).toNat else m) t.tile }, 0, 1, false))
  | .ttrn _ td ta => some (
      let t := s.curTeam c
      let w := t.tctlOf ta.val
      let e := etypeBits (tcType w)
      let rb := (tcRows w * e + 7) / 8
      if tcSparse w || decide (64 < perRow w) || decide (128 < rb) then .error .tileShape
      else .ok (({ t with tile := (grid2 (tcRows w) (perRow w)).foldl (fun (m : Store Byte) (p : Nat × Nat) =>
          putElem m td.val p.2 p.1 e (t.elem ta.val p.1 p.2)) (t.clearTile td.val).tile }).putTctl td.val
            (mkTctl (tcType w) rb (perRow w) false), 0, 16, false))
  | .tmma _ opn ty rm ad ta tb _ _ bsel => some (
      let t := s.curTeam c
      if s.mulBad c ty opn false ad.val ta.val tb.val then .error .tileShape
      else if opn ∧ headroom < (t.acstOf ad.val).bound + macShare ty false then .error .accHeadroom
      else
        let x := t.multiply opn (macShare ty false) rm ad.val ta.val tb.val (if bsel then 1 else 0) dA dB (t.sumDense ty ta.val tb.val)
        .ok (x.1, x.2, 64, true))
  | .tspm _ opn ty rm ad ta tb _ _ bsel => some (
      let t := s.curTeam c
      if s.mulBad c ty opn true ad.val ta.val tb.val then .error .tileShape
      else if opn ∧ headroom < (t.acstOf ad.val).bound + macShare ty true then .error .accHeadroom
      else
        let x := t.multiply opn (macShare ty true) rm ad.val ta.val tb.val (if bsel then 1 else 0) dA dB (t.sumSparse ty ta.val tb.val)
        .ok (x.1, x.2, if ty = .i8 then 48 else 32, true))
  | .tmmf _ ty rm ad ta tb => some (
      let t := s.curTeam c
      if s.noAcc c || t.accMode ad.val == accOpen || tcType (t.tctlOf ta.val) != etypeOf ty || tcType (t.tctlOf tb.val) != etypeOf ty then
        .error .tileShape
      else
        let x := (t.putAcst ad.val accClosed 0).mapAcc ad.val (tcRows (t.tctlOf ta.val)) (tcRows (t.tctlOf tb.val))
          (fun i j => t.dotFloat ty rm ta.val tb.val i j (t.accEl ad.val i j))
        .ok (x.1, x.2, 128, true))
  | .tclose _ rm ad _ _ bsel => some (
      let t := s.curTeam c
      if s.noAcc c || t.accMode ad.val == accClosed then .error .tileShape
      else
        let x := t.close rm ad.val (if bsel then 1 else 0) dA dB
        .ok (x.1, x.2, 8, true))
  | .tdrain _ rm td aa half => some (
      let t := s.curTeam c
      let w := t.tctlOf td.val
      let e := tcType w
      if s.noAcc c || tcBytes w != 128 then .error .tileShape
      else match drainEl rm e (t.accMode aa.val) half with
        | none => .error .tileShape
        | some f =>
          let x := (grid2 (tcRows w) (if e = 0xC ∨ e = 0xD then 32 else 64)).foldl (fun (x : Store Byte × Flags) p =>
            let r := f (t.accEl aa.val p.1 (if half then 32 + p.2 else p.2))
            (putElem x.1 td.val p.1 p.2 (etypeBits e) r.1, x.2 ||| r.2)) (t.tile, 0)
          .ok ({ t with tile := x.1 }, x.2, 8, true))
  | _ => none

/-- A tile instruction at issue: its S operands must carry no tag (R404), the first tagged one of base and stride being reported (the
model's reading, log 12); then its effect on cells, or, for those that load, store or write K registers, what they do there (R105,
R106, R107, R116, R117, R406, R407, R409). A TLD or TST reads its S operands and makes its checks once, and its signature keeps
both. -/
def Claims.issues (ins : Instr) (c : Ctx) (g : Sig) (s : State) : Did :=
  let t := s.curTeam c
  let v (n : SReg) : W64 := (s.rd t (c.batch.threads.headD 0)).s n
  let tags : List SReg := match ins with
    | .tcfg _ _ sa => [sa]
    | .tld _ _ a b _ _ => [a, b]
    | .tst _ _ a b _ => [a, b]
    | .tlds _ _ _ _ _ ix _ => [ix]
    | .tsts _ _ _ _ _ ix _ => [ix]
    | _ => []
  match tags.find? (fun n => c.team.tagged n.val) with
  | some n => .fault s .linearCopy (Store.get 0 c.team.s n.val)
  | none =>
    match Claims.cells s c v g.depA g.depB ins with
    | some (.error e) => .fault s e 0
    | some (.ok (t', fl, n, two)) => .done (((s.putTile c t' fl).pendRegs c).array c n two)
    | none =>
      match ins with
      | .tld _ td a b sparse scratch =>
        let w := t.tctlOf td.val
        if sparse && ((tcType w != 0 && tcType w != 4) || tcBytes w != 128) then .fault s .tileShape 0
        else
          let g1 : Sig := { g with ops := [v a, v b], scr := scratch }
          (s.onSig c (some g1)).checkRows c (etypeBytes (tcType w)) (tcRows w) (tcBytes w) (v a) (v b) scratch false (fun y =>
            (y.onSig c (some { g1 with sure := true })).readRows c (g.act.headD 0) (tcRows w) (tcBytes w) (v a) (v b) scratch (fun bs z =>
              .done ((z.putTile c ((z.curTeam c).fillTile td.val (tcRows w) (tcBytes w) sparse bs) 0).pendRegs c)))
      | .tst _ td a b scratch =>
        let w := t.tctlOf td.val
        let g1 : Sig := { g with ops := [v a, v b], scr := scratch }
        let g2 : Sig := { g1 with sure := true }
        (s.onSig c (some g1)).checkRows c (etypeBytes (tcType w)) (tcRows w) (tcBytes w) (v a) (v b) scratch true (fun y =>
          let z := y.onSig c (some g2)
          match z.storeRows c g2 0 ((List.range (tcRows w)).map (fun r =>
              (z.rowPieces c scratch true (rowAddr (v a) (v b) r) (tcBytes w), t.tile.bytes (tileAt td.val r 0) (tcBytes w)))) with
            | .done q => .done (q.pendMems c)
            | q => q)
      | .tsts _ td kd half col ix imm =>
        let w := t.tctlOf td.val
        let x := ((v ix).extractLsb' 0 32).toNat + imm.toNat
        if sliceBad w half col x then .fault s .tileShape 0
        else if t.kTop 0 ≤ kd.val then .fault s .illegalInstruction 0
        else .done ((((s.onCur c (fun y => y.putCrew0 c.batch.tok s.fresh kd.val (fun l =>
            if col then
              let raw := t.elem td.val (if half then 32 + l else l) x
              if tcType w = 0 then (BitVec.ofNat 8 raw).signExtend 32 else if tcType w = 4 then (BitVec.ofNat 4 raw).signExtend 32
              else BitVec.ofNat 32 raw
            else BitVec.ofNat 32 (ofLE (((t.tile.bytes (tileAt td.val x 0) (tcBytes w)).drop (4 * l)).take 4))))).bump 1).pendRegs c).array c 1 false)
      | .tqnt _ ty rm td aa kd =>
        let w := t.tctlOf td.val
        let e := etypeBits (etypeOf ty)
        let q (i k : Nat) := quantBlock rm (elemMax ty) ((List.range 32).map (fun j => unpack .f32 (t.accEl aa.val i (32 * k + j))))
        if s.noAcc c || t.accMode aa.val == accOpen || tcType w != etypeOf ty || tcBytes w != (if ty = .i8 then 64 else 32) then
          .fault s .tileShape 0
        else if t.kTop 0 ≤ kd.val then .fault s .illegalInstruction 0
        else
          let tile := (grid2 (tcRows w) 2).foldl (fun (m : Store Byte) p => ((q p.1 p.2).1.zipIdx).foldl
            (fun (m : Store Byte) x => putElem m td.val p.1 (32 * p.2 + x.2) e (lowBits e x.1)) m) t.tile
          let fl := (grid2 (tcRows w) 2).foldl (fun (f : Flags) p => f ||| (q p.1 p.2).2.2) 0
          let scale (l k : Nat) : Byte := BitVec.ofNat 8
            ((((grid2 (tcRows w) 2).find? (fun (p : Nat × Nat) => p.1 % 32 == l && 2 * p.2 + p.1 / 32 == k)).map (fun (p : Nat × Nat) => (q p.1 p.2).2.1)).getD 0)
          .done (((s.putTile c (({ t with tile := tile }).putCrew0 c.batch.tok s.fresh kd.val
            (fun l => scale l 3 ++ scale l 2 ++ scale l 1 ++ scale l 0)) fl).pendRegs c).array c 16 true)
      | .tgemm _ ty rm ad ta tb _ _ bsel sn => s.gemmIssue c g ty rm ad.val ta.val tb.val bsel sn
      | _ => .held s

/-- The convergence register and the registers deposited of a tile instruction (R100, R404): an open multiply names none. -/
def Claims.signs : Instr → Option (Fin 16 × List Reg)
  | .tcfg cv .. | .tzero cv .. | .tld cv .. | .tst cv .. | .tsts cv .. | .ttrn cv .. | .tmmf cv .. | .tdrain cv .. | .tqnt cv .. => some (cv, [])
  | .tlds cv _ src _ _ _ _ => some (cv, [src])
  | .tmma cv opn _ _ _ _ _ sa sb _ => some (cv, if opn then [] else [sa, sb])
  | .tspm cv opn _ _ _ _ _ sa sb _ => some (cv, if opn then [] else [sa, sb])
  | .tclose cv _ _ sa sb _ => some (cv, [sa, sb])
  | .tgemm cv _ _ _ _ _ sa sb _ _ => some (cv, [sa, sb])
  | _ => none

/-- R58, R99, R100, R404: signing, by a batch that has not signed at this instruction yet. A set begun at another instruction is a
fault; a signature that does not complete the set leaves its count and its deposits and the batch goes on; the one that completes it
issues the operation, with the deposits of the whole set; a fault of the operation withdraws it; while a TGEMM of the team runs, or
another batch whose set was complete before has its operation still to perform, the signed batch waits (R52, R90, R118). That the batch
which completes TGEMM's set stays at it is the model's reading of R58 and R118 (log 23). -/
def Claims.TileSigning : Prop :=
  ∀ (ins : Instr) (cv : Fin 16) (names : List Reg) (s : State) (c : Ctx), s.Issuing c → Claims.signs ins = some (cv, names) →
    c.batch.sig = none → c.team.batch? c.batch.id = some c.batch →
    (∀ g, c.team.gemm = some g → g.pos ≠ c.batch.pos) →
    -- no set of this register that was withdrawn at this instruction stands beside the register's own (log 83)
    (∀ e ∈ c.team.owed, ¬(e.1 = cv.val ∧ e.2.pos = some c.batch.pos)) →
    (∀ i ∈ activeOf c, ∀ r ∈ names, regInBlock (c.team.kTop i) false r = true) →
    let x := c.team.cvOf cv.val
    let n := (activeOf c).length
    let dep (k : Nat) (old : List W32) : List W32 :=
      s.deposit c [] names[k]? (if x.count = 0 then List.replicate 32 0 else old)
    let y (count : Nat) : Cv := { x with count := count, pos := if x.count = 0 then some c.batch.pos else x.pos, depA := dep 0 x.depA, depB := dep 1 x.depB }
    let sign (z : State) (count : Nat) : State := z.onCur c (fun t => t.putCv cv.val (y count))
    let busy := c.team.gemm.isSome ||
      c.team.batches.any (fun b => b.id != c.batch.id && (match b.sig with | some q => decide (q.order < s.fresh) | none => false))
    let g : Sig := ⟨cv.val, x.n, c.batch.pos, activeOf c, dep 0 x.depA, dep 1 x.depB, 0, s.fresh, [], false, false⟩
    let signed := ((sign s (x.count + n - x.n)).onSig c (some g)).bump 1
    (activeOf c = [] → exec ins s = .next (s.moveOn c [])) ∧
    (activeOf c ≠ [] → x.count ≠ 0 → x.pos ≠ some c.batch.pos →
      exec ins s = .next ((s.raiseAll c .illegalInstruction 0 (activeOf c)).moveOn c [])) ∧
    (activeOf c ≠ [] → (x.count = 0 ∨ x.pos = some c.batch.pos) → x.count + n < x.n → exec ins s = .next ((sign s (x.count + n)).moveOn c [])) ∧
    (activeOf c ≠ [] → (x.count = 0 ∨ x.pos = some c.batch.pos) → x.n ≤ x.count + n →
      (busy = true → exec ins s = .next (signed.waitHere c)) ∧
      (busy = false →
        (∀ z, Claims.issues ins c g signed = .done z →
          exec ins s = .next (match ins with | .tgemm .. => (z.onSig c none).waitHere c | _ => (z.onSig c none).moveOn c [])) ∧
        (∀ z e a, Claims.issues ins c g signed = .fault z e a →
          exec ins s = .next (((z.onCur c (fun t => match t.batch? c.batch.id with
            | some b => (match b.sig with | some q => t.withdraw q | none => t).setBatch { b with sig := none }
            | none => t)).raiseAll c e a (activeOf c)).moveOn c []))))

/-- R99: withdrawing the signature that completed a set gives the register the count it had before, at the same instruction and with
the same deposits, and changes nothing else of the team. -/
def Claims.WithdrawnSignature : Prop :=
  ∀ (t : Team) (g : Sig) (x : Cv) (count : Nat), g.cv < t.cv.length → count < x.n → x.n ≤ count + g.act.length → g.n = x.n →
    x.pos = some g.pos → x.depA = g.depA → x.depB = g.depB → t.cvOf g.cv = { x with count := count + g.act.length - x.n } →
    t.withdraw g = t.putCv g.cv { x with count := count }

/-- R58, R98, R99, R102, R105, R108, R113, R116: tile instructions sign, the last signature issues, and a fault of the operation withdraws
it. Of TGEMM the batch that completes the set stays at it (the model's reading, log 23), and of two tagged S operands the first is
reported (log 12). -/
def Obligations.TileInstructionsSignAndIssue : Prop := Claims.TileSigning ∧ Claims.WithdrawnSignature

/-- R98, R108, R110, R112, R114, R81: what a multiply and a close leave: in the rows and columns of its tiles each element of
Ad is the triple of the sum added (open) or the scaled sum added and rounded once (closed); every other element, every
other accumulator, every tile and register is as it was; the bound has grown by the operation's share, or is 0; a close
leaves in each of the 64 × 64 elements the integer of its triple, scaled and rounded. -/
def Claims.AccumulatorArithmetic : Prop :=
  ∀ (t : Team) (rm : Rm) (ad ta tb inc half : Nat) (dA dB : List W32) (sum : Nat → Nat → Int),
    let m := tcRows (t.tctlOf ta)
    let n := tcRows (t.tctlOf tb)
    m ≤ 64 → n ≤ 64 → ad < t.acst.length →
    (let t' := (t.multiply true inc rm ad ta tb half dA dB sum).1;
      (t.multiply true inc rm ad ta tb half dA dB sum).2 = 0 ∧
      (∀ i j, i < m → j < n → t'.accEl ad i j = rtAdd (t.accEl ad i j) (residueOf (sum i j))) ∧
      (∀ a i j, i < 64 → j < 64 → (a ≠ ad ∨ m ≤ i ∨ n ≤ j) → t'.accEl a i j = t.accEl a i j) ∧
      t'.acstOf ad = ⟨2, (t.acstOf ad).bound + inc⟩ ∧ (∀ a, a ≠ ad → t'.acstOf a = t.acstOf a) ∧
      t'.tile = t.tile ∧ t'.tctl = t.tctl ∧ t'.threads = t.threads ∧ t'.s = t.s) ∧
    (let t' := (t.multiply false inc rm ad ta tb half dA dB sum).1;
      (∀ i j, i < m → j < n → t'.accEl ad i j =
        (scaledAdd rm (t.accEl ad i j) (scaled (sum i j) (scaleOf dA half i) (scaleOf dB half j))).1 % 2 ^ 32) ∧
      (∀ a i j, i < 64 → j < 64 → (a ≠ ad ∨ m ≤ i ∨ n ≤ j) → t'.accEl a i j = t.accEl a i j) ∧
      t'.acstOf ad = ⟨1, 0⟩ ∧ (∀ a, a ≠ ad → t'.acstOf a = t.acstOf a) ∧ t'.tile = t.tile ∧ t'.tctl = t.tctl ∧ t'.threads = t.threads ∧ t'.s = t.s) ∧
    (let t' := (t.close rm ad half dA dB).1;
      (∀ i j, i < 64 → j < 64 → t'.accEl ad i j =
        (roundExact .f32 rm (scaled (crtBack (t.accEl ad i j)) (scaleOf dA half i) (scaleOf dB half j)) false).1 % 2 ^ 32) ∧
      (∀ a i j, i < 64 → j < 64 → a ≠ ad → t'.accEl a i j = t.accEl a i j) ∧ t'.acstOf ad = ⟨1, 0⟩ ∧ t'.tile = t.tile ∧ t'.tctl = t.tctl)

/-- R66, R68, R108, R109, R112: the bound an open accumulator carries keeps its sums exact: no dense or 2:4 sum of one
multiply is larger than the share it adds, and while the bound is at most the headroom, an element that stood for an
integer within its bound stands, after the multiply, for that integer plus the sum, and CrtBack gives it back. -/
def Claims.OpenSumsStayExact : Prop :=
  ∀ (t : Team) (ty : Ty) (ta tb i j bound : Nat) (v : Int), ty = .i8 ∨ ty = .i4 →
    (t.sumDense ty ta tb i j).natAbs ≤ macShare ty false ∧ (t.sumSparse ty ta tb i j).natAbs ≤ macShare ty true ∧
    (∀ (sparse : Bool) (sum : Int), sum.natAbs ≤ macShare ty sparse → v.natAbs ≤ bound → bound + macShare ty sparse ≤ 8388479 →
      rtAdd (residueOf v) (residueOf sum) = residueOf (v + sum) ∧ (v + sum).natAbs ≤ bound + macShare ty sparse ∧
      crtBack (residueOf (v + sum)) = v + sum)

/-- R95, R96, R105, R406: a tile filled from its rows: each row has its bytes, under 2:4 those that a row has, and every
other byte is 0; the rows stay, the row length and the 2:4 mark are those of the load, and no other tile changes. And the
addresses of its rows: base plus stride times the row, modulo 2⁶⁴; what is checked of them, in this order (where a misaligned
stride is reported is the model's reading, log 47). -/
def Claims.TileRows : Prop :=
  (∀ (t : Team) (n rows rb : Nat) (sparse : Bool) (bs : List Byte), rows ≤ 64 → 1 ≤ rb → rb ≤ 128 → rows * rb ≤ bs.length →
    let w := t.tctlOf n
    let keep := if sparse = false then 128 else if tcType w = 0 then 120 else 96
    let t' := t.fillTile n rows rb sparse bs
    (∀ r b, r < 64 → b < 128 → t'.tileByte n r b = if r < rows ∧ b < rb ∧ b < keep then bs.getD (r * rb + b) 0 else 0) ∧
    (∀ k r b, k ≠ n → r < 64 → b < 128 → t'.tileByte k r b = t.tileByte k r b) ∧
    (rows = tcRows w → tcRows (t'.tctlOf n) = rows ∧ tcBytes (t'.tctlOf n) = rb ∧ tcType (t'.tctlOf n) = tcType w ∧ tcSparse (t'.tctlOf n) = sparse) ∧
    (∀ k, k ≠ n → t'.tctlOf k = t.tctlOf k) ∧ t'.acc = t.acc ∧ t'.threads = t.threads) ∧
  (∀ (s : State) (c : Ctx) (es rows n : Nat) (base stride : W64) (scratch wr : Bool) (ok : State → Did), 0 < es →
    let rs := (List.range rows).map (fun r => (base.toNat + r * stride.toNat) % 2 ^ 64)
    let size := (s.gridOf c.team).spBytes
    let out := s.checkRows c es rows n base stride scratch wr ok
    (base.toNat % es ≠ 0 → out = .fault s .alignment base) ∧
    (base.toNat % es = 0 → stride.toNat % es ≠ 0 → out = .fault s .alignment (base + stride)) ∧
    (base.toNat % es = 0 → stride.toNat % es = 0 → scratch = true →
      (∀ a, rs.find? (fun x => decide (size < x + n)) = some a → out = .fault s .access (BitVec.ofNat 64 (if a < size then size else a))) ∧
      ((∀ a ∈ rs, a + n ≤ size) → out = ok s)) ∧
    (base.toNat % es = 0 → stride.toNat % es = 0 → scratch = false →
      (∀ a, rs.find? (fun x => decide (2 ^ 57 ≤ x ∨ 5 ≤ x / 2 ^ 54 % 8)) = some a → out = .fault s .access (BitVec.ofNat 64 a)) ∧
      (∀ m, (∀ a ∈ rs, a < 2 ^ 57 ∧ a / 2 ^ 54 < 5) →
        checkPieces s.ctl (s.agent c.team) (if wr then .write else .read) s.mem (rs.flatMap (fun a => pieces 65536 3 a n)) = .ok m → out = ok (s.setMem m))))

/-- R117 to R120, R409: TGEMM's phases: two loads, a multiply, round and round until the steps are done, then the close; a
phase that faults stops the macro there. TGEMM runs only while its team is placed. -/
def Obligations.TgemmPhases : Prop :=
  ∀ (s : State) (u : Nat) (t : Team) (g : Gemm), s.team? u = some t → t.uid = u → t.gemm = some g →
    let c : Ctx := ⟨t, (t.batch? g.batch).getD (Batch.ghost g)⟩
    let tile := if g.phase = 0 then g.ta else g.tb
    let w := t.tctlOf tile
    let stride := if g.phase = 0 then g.strideA else g.strideB
    let base := (if g.phase = 0 then g.descA else g.descB) + BitVec.ofNat 64 (128 * g.s)
    let rows := s.loadRows c (g.active.headD 0) (etypeBytes (tcType w)) (tcRows w) 128 base stride g.scratch (fun bs z =>
      .done (z.putTile c { ((z.curTeam c).fillTile tile (tcRows w) 128 false bs) with gemm := some { g with phase := g.phase + 1 } } 0))
    let last := decide (g.steps ≤ g.s + 1)
    ((g.stopped || !t.placed || t.leaving) = true → exec (.tgemmPhase u) s = .next s) ∧
    ((g.stopped || !t.placed || t.leaving) = false →
      (∀ z, g.phase ≤ 1 → rows = .done z → exec (.tgemmPhase u) s = .next z) ∧
      (∀ z e a, g.phase ≤ 1 → rows = .fault z e a → exec (.tgemmPhase u) s = .next (z.gemmFault c g e a)) ∧
      (g.phase = 2 →
        let x := t.multiply true (macShare g.ty false) g.rm g.ad g.ta g.tb 0 [] [] (t.sumDense g.ty g.ta g.tb)
        let next : Gemm := { g with s := if last then g.s else g.s + 1, phase := if last then 3 else 0 }
        exec (.tgemmPhase u) s = .next ((s.putTile c { x.1 with gemm := some next } x.2).array c 64 true)) ∧
      (2 < g.phase →
        let x := t.close g.rm g.ad (if g.bsel then 1 else 0) g.sa g.sb
        exec (.tgemmPhase u) s = .next (((s.putTile c x.1 x.2).array c 8 true).gemmEnd c g)))

-- copies, graphs, launches

/-- A read or write of memory inside one thread's part: what it finds is passed on, its fault traps the thread. -/
def Claims.Found {α : Type} (c : Ctx) (x : State) (i : Nat) (addr : W64) (g : Got α) (go : α → Mem → Prop) (y : State) : Prop :=
  match g with
  | .ok v m => go v m
  | .fault e => y = x.raise c i e addr
  | _ => False

/-- A release at a scope, done: it did not have to wait (R142). -/
def Claims.Released (x : State) (k : Nat) (sc : Scope) (x1 : State) : Prop :=
  (sc ≠ .team → (x.mem.release k sc).owes k = false) ∧ x1 = x.setMem (x.mem.release k sc)

/-- R164 to R170, R231, R232, R345, R346: one thread's CPY: alignment, then the destination, then the source; a partition without
an engine; the checks of ends on other devices there; a tile still being filled parks the thread once its class check passes;
otherwise the copy joins the engine with the fewest, its flag rises, its destination is claimed, and a fill handle it names goes
to the engine. -/
def Claims.Copies (s : State) (c : Ctx) (dsp ssp : CpySpace) (ck : CpyKind) (d a : Reg) (b : Option Reg) (xr : Reg) (target : BitVec 16)
    (x : State) (i : Nat) (y : State) : Prop :=
  let r := s.rd c.team i
  let g := s.gridOf c.team
  let n := (r.lo xr).toNat
  match copyMisaligned r dsp ssp d a b n (x.slot (hDie (r.quad a)) (hSlot (r.quad a))).base with
  | some va => y = x.raise c i .alignment va
  | none =>
    match x.copyDst c r dsp d n, x.copySrc c r ssp a b n with
    | .error e, _ => y = x.raise c i e.1 e.2
    | .ok _, .error e => y = x.raise c i e.1 e.2
    | .ok dst, .ok src =>
      if x.enginesOf g.part = [] then y = x.raise c i .access 0
      else Claims.Takes c i (x.farEnds c i dst src ((x.curTeam c).tagged d.num) n (fun z => match src with
        | .filling die k => if (z.slot die k).holder = .team c.team.uid then .fault z .progressClass 0
            else match z.classCheck (z.curTeam c) (z.parkOn (z.curTeam c) (.see die k (z.slot die k).gen false)) false with
            | .error e => .fault z e 0
            | .ok v => .park v (.see die k (z.slot die k).gen false)
        | .at p => match z.engineFor g.part with
          | .engine e =>
            let h := Store.get 0 (z.curTeam c).s d.num
            let takes : Bool := decide (dsp = .h ∧ n ≠ 0)
            let cp : Copy := { mkCopy z.fresh (.thread c.team.uid i c.batch.id) g.fn g.part c.team.core p dst n (z.signalOf c ck target.toNat) with
              viaFill := decide (dsp = .h), fill := if takes then some h else none, tok := c.batch.tok }
            let v := (z.bump 1).postThread e cp (match dst with | .global _ _ va => lineVas va n | _ => [])
            .done (if takes then
                let v1 := v.onCur c (fun t => (t.putSNow d.num 0).untag d.num)
                match dst with
                | .remote _ _ _ => v1
                | _ => v1.setSlot (hDie h) (hSlot h) { v1.slot (hDie h) (hSlot h) with holder := .engine z.fresh }
              else v)
          | _ => .held z)) id y

/-- R174, R411, R412: one thread's TCPY. -/
def Claims.TileCopies (s : State) (c : Ctx) (toScratch : Bool) (ck : CpyKind) (d : Reg) (a : SReg) (target : BitVec 16)
    (x : State) (i : Nat) (y : State) : Prop :=
  let r := s.rd c.team i
  let g := s.gridOf c.team
  let o := (r.lo d).toNat
  if (r.s a).toNat % 64 ≠ 0 then y = x.raise c i .alignment (r.s a)
  else Claims.Found c x i (r.s a) (readFresh x.ctl (x.mem.drain c.team.core) c.team.core g.fn g.part (r.s a).toNat 64 .read) (fun bs m =>
    let z := x.setMem m
    match shapeOf bs toScratch with
    | none => y = z.raise c i .tileShape 0
    | some p =>
      if o % p.size ≠ 0 then y = z.raise c i .alignment (BitVec.ofNat 64 o)
      else if g.spBytes < o + p.bytes then y = z.raise c i .access (BitVec.ofNat 64 o)
      else match z.globalBad g.part p.base.toNat with
        | some e => y = z.raise c i e p.base
        | none =>
          if z.enginesOf g.part = [] then y = z.raise c i .access 0
          else ∃ e, z.engineFor g.part = .engine e ∧
            let pool : Place := .scratch c.team.uid o
            let far : Place := .global g.fn g.part p.base.toNat
            let cp : Copy := { mkCopy z.fresh (.thread c.team.uid i c.batch.id) g.fn g.part c.team.core
                (if toScratch then far else pool) (if toScratch then pool else far) p.bytes (z.signalOf c ck target.toNat) with
              shape := some p, ranks := p.ranks toScratch, tok := c.batch.tok }
            y = (z.bump 1).postThread e cp (if !toScratch && (p.ranks false).contains (z.ctl.devnum g.part) then p.lines.map (128 * ·) else [])) y

/-- R164 to R174, R345, R346, R411, R412: CPY and TCPY, thread by thread. -/
def Claims.CopiesArePosted : Prop :=
  (∀ (dsp ssp : CpySpace) (ck : CpyKind) (d a : Reg) (b : Option Reg) (xr : Reg) (target : BitVec 16) (s t : State) (c : Ctx), s.Issuing c →
    Each (Claims.Part c ((if dsp = .h then [] else [(d, decide (dsp = .g))]) ++ [(a, decide (ssp = .g))] ++ b.toList.map at32 ++ [at32 xr])
      (Claims.Copies s c dsp ssp ck d a b xr target)) (c.todo (activeOf c)) s t →
    exec (.cpy dsp ssp ck d a b xr target) s = .next (t.moveOn c [])) ∧
  (∀ (toScratch : Bool) (ck : CpyKind) (d : Reg) (a : SReg) (target : BitVec 16) (s t : State) (c : Ctx), s.Issuing c →
    Each (Claims.Part c [at32 d, at32 (.s a)] (Claims.TileCopies s c toScratch ck d a target)) (c.todo (activeOf c)) s t →
    exec (.tcpy toScratch ck d a target) s = .next (t.moveOn c []))

/-- R168: an engine's step is its event's whole effect; where the engine cannot go on, nothing changes. -/
def Claims.CopyLineIsTheEnginesStep : Prop :=
  ∀ (e : Nat) (s : State), (∀ t, s.engineStep e = some t → exec (.copyLine e) s = .next t) ∧ (s.engineStep e = none → exec (.copyLine e) s = .next s)

/-- R168, R169, R240, R346: an engine moves the next line of a copy between scratchpads: the bytes up to the destination's next 128-byte
line, or what is left of the copy, read from the source and written in one step; the barrier the copy names owes that much less, and the
claim on what was written ends. The copy goes on where bytes are left, and completes where none are: it leaves its engine with its
claims; one that has a fill handle keeps its engine, and signals and completes only once its drop has been made (R240). This needs no
earlier copy's claim on either range. The same of a copy whose ends are scratchpad or global memory of this
device, where the read and the write of the line are answered. -/
def Claims.CopyLineMoves : Prop :=
  (∀ (e : Nat) (s : State) (x : Copy) (rest : List Copy) (u v o p : Nat), s.queueOf e = x :: rest →
    x.parked = none → x.shape = none → x.gathered = [] → x.src = .scratch u o → x.dst = .scratch v p → x.moved < x.count →
    let n := Nat.min (x.count - x.moved) (128 - (p + x.moved) % 128)
    s.mem.scratchBarredFor x.id u (o + x.moved) n = false → s.mem.scratchBarredFor x.id v (p + x.moved) n = false →
    let y := { x with moved := x.moved + n, gathered := [], asked := false }
    let s1 := (s.setMem (s.mem.unclaimScratch x.id (p + x.moved + n))).scratchWrite v (p + x.moved) (s.scratchRead u (o + x.moved) n)
    let s2 := (s1.putHead e y).lowerBar x.signal n
    exec (.copyLine e) s = .next (if y.moved < y.count then s2 else if x.fill.isSome then s1.putHead e y else s2.finishCopy e y)) ∧
  (∀ (e : Nat) (s s1 s2 : State) (x : Copy) (rest : List Copy) (bs : List Byte), s.queueOf e = x :: rest →
    x.parked = none → x.shape = none → x.gathered = [] → x.moved < x.count →
    let n := Nat.min (x.count - x.moved) (128 - (x.dst.plus x.moved).addr % 128)
    (match x.src.plus x.moved with
      | .scratch u o => s.mem.scratchBarredFor x.id u o n = false ∧ bs = s.scratchRead u o n ∧ s1 = s
      | .global fn part va => s.engRead x.id fn part (n / 128 + 2) va n = .ok bs s1
      | .remote _ _ _ => False) →
    (match x.dst.plus x.moved with
      | .scratch v p => s1.mem.scratchBarredFor x.id v p bs.length = false ∧
          s2 = (s1.setMem (s1.mem.unclaimScratch x.id (p + bs.length))).scratchWrite v p bs
      | .global fn part va => s1.engWrite x.id x.core fn part x.viaFill va bs false = .ok () s2
      | .remote _ _ _ => False) →
    let y := { x with moved := x.moved + bs.length, gathered := [], asked := false }
    let s3 := (s2.putHead e y).lowerBar x.signal bs.length
    exec (.copyLine e) s = .next (if y.moved < y.count then s3 else if x.fill.isSome then s2.putHead e y else s3.finishCopy e y)) ∧
  (∀ (s : State) (e u i b : Nat) (x : Copy), x.issuer = .thread u i b → x.fill = none →
    (s.finishCopy e x).queueOf e = (s.queueOf e).filter (fun z => z.id != x.id) ∧ (s.finishCopy e x).mem = s.mem.unclaimAll x.id)

/-- R176 to R178, R338: BEXP adds each active thread's bytes to the barrier's pending count, in thread order; an addition
past 2³² − 1 faults in its thread and leaves the count; then the barrier is tested once. -/
def Claims.BarrierBytes : Prop :=
  ∀ (net : Bool) (a : Reg) (b : BitVec 8) (s : State) (c : Ctx), s.Issuing c →
    let n := b.toNat
    ∃ t, Each (Claims.Part c [at32 a] (fun x i y =>
      let q := x.barOf c net n
      let v := ((s.rd c.team i).lo a).toNat
      if net = true ∧ n ∉ c.team.netMask then y = x.raise c i .access 0
      else if 2 ^ 32 ≤ q.pending + v then y = x.raise c i .barrierOverflow 0
      else y = x.putBar c net n { q with pending := q.pending + v, counted := q.counted || decide (0 < v) })) (c.todo (activeOf c)) s t ∧
    exec (.bexp net a b) s = .next ((t.moveOn c []).testBar c net n)

/-- R183, R361: one thread's GSTART. -/
def Claims.GraphStarts (s : State) (c : Ctx) (d : Reg) (a : SReg) (x : State) (i : Nat) (y : State) : Prop :=
  let va := (s.rd c.team i).s a
  let put (v : Nat) (z : State) : Did := .done (Claims.put c i [(d, .n32, v)] z)
  if va.toNat % 32 ≠ 0 then y = x.raise c i .alignment va
  else ∃ x1, Claims.Released x c.team.core .part x1 ∧
    if (x1.curTeam c).walker ≠ none then y = Claims.put c i [(d, .n32, 0)] x1
    else Claims.Takes c i (x1.startGraph c va put) id y

/-- R187, R359: one thread's GCOND. -/
def Claims.GraphStores (s : State) (c : Ctx) (a : SReg) (b : Reg) (off : BitVec 16) (x : State) (i : Nat) (y : State) : Prop :=
  let r := s.rd c.team i
  Claims.Placed c x i (x.whereOf c r .g (.s a) none off 4 true) (fun w =>
    Claims.Takes c i (x.writeAt c i w .rel .part .n32 (r.lo b).toNat (r.s a + off.signExtend 64)) (fun z => z.pendMems c) y) y

/-- R183, R187, R359, R361: GSTART: a graph that is not aligned faults; a walker that still runs gives 0 after a release;
otherwise the graph is read, checked and started. GCOND is a release store of 32 bits at PART. -/
def Claims.GraphInstructions : Prop :=
  (∀ (d : Reg) (a : SReg) (s t : State) (c : Ctx), s.Issuing c →
    Each (Claims.Part c [at32 d, at32 (.s a)] (Claims.GraphStarts s c d a)) (c.todo (activeOf c)) s t →
    exec (.gstart d a) s = .next (t.moveOn c [])) ∧
  (∀ (a : SReg) (b : Reg) (off : BitVec 16) (s t : State) (c : Ctx), s.Issuing c →
    Each (Claims.Part c [at32 (.s a), at32 b] (Claims.GraphStores s c a b off)) (c.todo (activeOf c)) s t →
    exec (.gcond a b off) s = .next (t.moveOn c []))

/-- R183, R184, R220: what GSTART makes of a graph it has read, and what a node's finish does to its successors: a graph with no
node or more than 256 gives 2 and starts nothing. A finished node that is neither COND nor WHILE lowers the count of each
of its successors, and those that reach 0 start in ascending order. The nodes of a team that is in no place, its walker with its
saved context, do nothing (R220). -/
def Claims.GraphNodesFinish : Prop :=
  (∀ (s : State) (c : Ctx) (va : W64) (ok : Nat → State → Did) (head : List Byte) (m : Mem),
    readRegistry s.ctl s.mem (s.gridOf c.team).fn (s.gridOf c.team).part va.toNat 32 .read = .ok head m →
    (field head 0 2 = 0 ∨ 256 < field head 0 2) →
    s.startGraph c va ok = ok 2 (s.setMem m)) ∧
  (∀ (s : State) (u n : Nat) (t : Team) (g : Graph) (x : Node), s.team? u = some t → t.walker = some g → g.nodes[n]? = some x →
    ((x.running = false ∨ (t.placed = false ∧ t.phase ≠ .retiring) ∨ t.saved = true) → exec (.graphNodeFinish u n) s = .next s) ∧
    ((t.placed = true ∨ t.phase = .retiring) → t.saved = false → x.running = true → g.faulted = false → x.type ≠ 3 → x.type ≠ 4 → x.finished = true →
      let off := s.onNode u n (fun y => { y with running := false, finished := false, work := none })
      let r := off.decs u n x.succ
      exec (.graphNodeFinish u n) s = .next ((r.1.startNodes u r.2).walkerIdle u)) ∧
    ((t.placed = true ∨ t.phase = .retiring) → t.saved = false → x.running = true → g.faulted = true → x.finished = true → exec (.graphNodeFinish u n) s = .next
      ((s.onNode u n (fun y => { y with running := false, finished := false, work := none })).walkerIdle u)))

/-- R31, R368: one thread's LAUNCH. -/
def Claims.LaunchPart (s : State) (c : Ctx) (d a : SReg) (x : State) (i : Nat) (y : State) : Prop :=
  let g := s.gridOf c.team
  let va := (s.rd c.team i).s a
  let go (z : State) (ds : Desc) : State :=
    match z.launch ⟨.launch c.team.uid, g.fn, g.part, false, some (z.curTeam c), g.depth + 1⟩ ds false with
    | .error st => (z.rejectLaunch g ds st).putSLate c d 0
    | .ok (z1, k) => ((z1.handleFor (.grid k)).2.joinCheck k).putSLate c d (z1.handleFor (.grid k)).1
  if i ≠ 0 then y = x.raise c i .illegalInstruction 0
  else match [d, a].find? (fun n => c.team.tagged n.val) with
    | some n => y = x.raise c i .linearCopy (Store.get 0 c.team.s n.val)
    | none =>
      if va.toNat % 64 ≠ 0 then y = x.raise c i .alignment va
      else ∃ x1, Claims.Released x c.team.core .part x1 ∧
        Claims.Found c x i va (readRegistry x1.ctl x1.mem g.fn g.part va.toNat 64 .read) (fun bs m =>
        let z := x1.setMem m
        let ds := descOf bs
        let goes (w : State) : Prop := w.launchHeld g.fn g.part ds (some g.ring) = false ∧ y = go w ds
        if ds.ring.toNat % 64 ≠ 0 then goes z
        else Claims.Found c z i ds.ring (readRegistry z.ctl z.mem g.fn g.part ds.ring.toNat 64 .read) (fun _ m2 => goes (z.setMem m2)) y) y

/-- R31, R32, R368: LAUNCH: only thread 0 may; a tagged register, an address that is not a multiple of 64 and an unreadable
descriptor fault; a descriptor that is refused leaves 0 and a rejection record, one that is accepted the grid's handle;
either is written as a long-latency write. A launch whose checks a claim or a blocked page holds back waits. -/
def Claims.LaunchResults : Prop :=
  ∀ (d a : SReg) (s t : State) (c : Ctx), s.Issuing c →
    Each (Claims.LaunchPart s c d a) (c.todo (activeOf c)) s t →
    exec (.launch d a) s = .next (t.moveOn c [])

-- paired tiles

/-- An instruction that acts once for its batch completes; or every active thread takes its fault (R234, R331). -/
def Claims.OnceDone (ins : Instr) (s : State) (c : Ctx) (t : State) : Prop := exec ins s = .next (t.moveOn c [])
def Claims.OnceTraps (ins : Instr) (s : State) (c : Ctx) (t : State) (code : Code) (addr : W64) : Prop :=
  exec ins s = .next ((t.raiseAll c code addr (activeOf c)).moveOn c [])

/-- R230, R231, R229: the checks of a handle in their order; a handle made for a slot passes them in its partition while the
slot keeps its generation, as a fill handle in a tagged register, as a see handle for the rights it carries. -/
def Claims.HandleChecks : Prop :=
  ∀ (s : State) (part : Nat) (h : W64) (tagged : Bool) (need : Need),
    let x := s.slot (hDie h) (hSlot h)
    let got := s.checkHandle part h tagged need
    (h = 0 → got = .bad .access) ∧
    (h ≠ 0 → hDevice h ≠ s.ctl.devnum part → hDevice h ∉ s.peersOf part → got = .bad .access) ∧
    (h ≠ 0 → hDevice h ≠ s.ctl.devnum part → hDevice h ∈ s.peersOf part → got = .remote (hDevice h)) ∧
    (h ≠ 0 → hDevice h = s.ctl.devnum part → (4 ≤ hDie h ∨ x.part ≠ part ∨ hSeal h ≠ Config.cmac (s.sealKey (hDie h)) (hBody h)) → got = .bad .access) ∧
    (h ≠ 0 → hDevice h = s.ctl.devnum part → hDie h < 4 → x.part = part → hSeal h = Config.cmac (s.sealKey (hDie h)) (hBody h) →
      (x.gen ≠ hGen h ∨ x.withdrawn = true → got = .bad .staleHandle)) ∧
    (∀ (fill : Bool) (die n gen rights : Nat), die < 4 → n < 16384 → gen < 65536 → rights < 8 → (fill = true ∨ rights ≠ 0) →
      s.ctl.devnum part < 2048 → (s.slot die n).part = part → (s.slot die n).gen = gen → (s.slot die n).withdrawn = false →
      let k := s.mkHandle fill (s.ctl.devnum part) die n gen rights
      (fill = true → s.checkHandle part k true .fill = .ok die n ∧ s.checkHandle part k false .fill = .bad .access) ∧
      (fill = false → s.checkHandle part k false .seeRead = (if rights % 2 = 1 then .ok die n else .bad .access) ∧
        s.checkHandle part k false .seeFree = (if 4 ≤ rights then .ok die n else .bad .access)))

/-- R229, R234, R235, R382: PTNEW's checks in their order, and what it takes. -/
def Claims.NewTile : Prop :=
  ∀ (scratch : Bool) (d a b : SReg) (s : State) (c : Ctx) (i : Nat) (is : List Nat), s.Issuing c → activeOf c = i :: is →
    (∀ x ∈ [d, a, b], c.team.tagged x.val = false) →
    let ins := Instr.ptnew scratch d a b
    let g := s.gridOf c.team
    let base := (s.rd c.team i).s a
    let va := base.toNat
    let size := ((s.rd c.team i).s b).toNat
    let home := va / 2 ^ 54 % 8
    if va % 64 ≠ 0 ∨ size % 64 ≠ 0 then Claims.OnceTraps ins s c s .alignment base
    else if size < 64 ∨ 16777216 < size then Claims.OnceTraps ins s c s .access base
    else if scratch = true then
      if g.spBytes < va + size ∨ s.tileOverlap (c.team.core / 72) true c.team.uid va size = true then Claims.OnceTraps ins s c s .access base
      else Claims.OnceDone ins s c (s.takeSlot c (c.team.core / 72) true d base size)
    else if 2 ^ 57 ≤ va ∨ 3 < home then Claims.OnceTraps ins s c s .access base
    else if s.ctl.onDie g.part home = false then Claims.OnceTraps ins s c s .outOfPartition base
    else match probeRange s.ctl g.fn g.part (size / 65536 + 2) s.mem va (va + size - 1) with
      | .fault e => Claims.OnceTraps ins s c s e base
      | .ok _ m =>
        if (s.setMem m).tileOverlap home false 0 va size = true then Claims.OnceTraps ins s c (s.setMem m) .access base
        else Claims.OnceDone ins s c ((s.setMem m).takeSlot c home false d base size)
      | _ => True

/-- R228, R229, R230, R232, R235: the slot that PTNEW takes is the die's lowest free one, while the partition's share is not
used up: it is FILLING, its holder the team; S[d] has its fill handle, tagged; no other slot, register or byte changes.
With the share used up, or no slot free, S[d] is null and nothing else changes. -/
def Claims.TakenSlot : Prop :=
  ∀ (s : State) (c : Ctx) (die : Nat) (scratch : Bool) (d : SReg) (base : W64) (size : Nat), s.Issuing c →
    let g := s.gridOf c.team
    let s' := s.takeSlot c die scratch d base size
    let free := if 16384 * s.ctl.slicesOn g.part die / 3 ≤ s.slotsHeld g.part die then none else s.freeSlotOf die
    ∃ t', s'.team? c.team.uid = some t' ∧ (∀ n, n ≠ d.val → Store.get 0 t'.s n = Store.get 0 c.team.s n) ∧ t'.threads = c.team.threads ∧
      s'.mem = s.mem ∧
      (free = none → Store.get 0 t'.s d.val = 0 ∧ s'.pairs = s.pairs ∧ t'.tags = c.team.tags) ∧
      (∀ n, free = some n → n < 16384 →
        s'.slot die n = { st := .filling, gen := (s.slot die n).gen, base := base, size := size, scratch := scratch, team := c.team.uid
                          fn := g.fn, part := g.part, holder := .team c.team.uid, withdrawn := false } ∧
        (∀ k m, m < 16384 → (k, m) ≠ (die, n) → s'.slot k m = s.slot k m) ∧ t'.tagged d.val = true ∧
        Store.get 0 t'.s d.val = s.mkHandle true (s.ctl.devnum g.part) die n (s.slot die n).gen 7)

/-- R236, R240, R242, R351, R382, R392: PTFREE, SEEH and DROP of a slot of this device: the checks after the handle's own, and
what each does: a slot freed rises in generation; SEEH gives a see handle with the rights asked for; DROP seals the slot
after a release at DEVICE and takes the handle out of its register. -/
def Claims.FreeSeeDrop : Prop :=
  ∀ (s : State) (c : Ctx) (i : Nat) (is : List Nat), s.Issuing c → activeOf c = i :: is →
    let g := s.gridOf c.team
    (∀ (a : SReg) (die n : Nat), c.team.tagged a.val = false → s.checkHandle g.part ((s.rd c.team i).s a) false .seeFree = .ok die n →
      if (s.slot die n).st = .filling ∨ s.mayFree c (s.slot die n) true = false then Claims.OnceTraps (.ptfree a) s c s .access 0
      else Claims.OnceDone (.ptfree a) s c ((s.freeSlot die n).pendMems c)) ∧
    (∀ (d a : SReg) (rights : BitVec 3) (die n : Nat), c.team.tagged d.val = false →
      s.checkHandle g.part ((s.rd c.team i).s a) (c.team.tagged a.val) .either = .ok die n →
      let h := (s.rd c.team i).s a
      let x := s.slot die n
      if x.st = .free ∨ (4 ≤ rights.toNat ∧ s.mayFree c x false = false) ∨ (hFill h = false ∧ rights &&& ~~~(BitVec.ofNat 3 (hRights h)) ≠ 0) then
        Claims.OnceTraps (.seeh d a rights) s c s .access 0
      else Claims.OnceDone (.seeh d a rights) s c (s.putSLate c d (s.mkHandle false (hDevice h) die n x.gen rights.toNat))) ∧
    (∀ (a : SReg) (die n : Nat), s.checkHandle g.part ((s.rd c.team i).s a) (c.team.tagged a.val) .fill = .ok die n →
      -- stores through the handle that the team issued before are performed first
      (s.fillsOut c i ((s.rd c.team i).s a) = true → exec (.drop a) s = .next (s.moveOn c (activeOf c))) ∧
      (s.fillsOut c i ((s.rd c.team i).s a) = false → ∀ x1, Claims.Released s c.team.core .device x1 →
        Claims.OnceDone (.drop a) s c (((x1.sealSlot die n).onCur c (fun t => (t.putSNow a.val 0).untag a.val)).pendRegs c))) ∧
    -- a bad handle is every active thread's fault
    (∀ (a : SReg) (e : Code), c.team.tagged a.val = false → s.checkHandle g.part ((s.rd c.team i).s a) false .seeFree = .bad e →
      Claims.OnceTraps (.ptfree a) s c s e ((s.rd c.team i).s a)) ∧
    (∀ (d a : SReg) (rights : BitVec 3) (e : Code), c.team.tagged d.val = false →
      s.checkHandle g.part ((s.rd c.team i).s a) (c.team.tagged a.val) .either = .bad e →
      Claims.OnceTraps (.seeh d a rights) s c s e ((s.rd c.team i).s a)) ∧
    (∀ (a : SReg) (e : Code), s.checkHandle g.part ((s.rd c.team i).s a) (c.team.tagged a.val) .fill = .bad e →
      Claims.OnceTraps (.drop a) s c s e ((s.rd c.team i).s a))

/-- R228, R240, R241, R242: a slot's states: sealing and abandoning change a FILLING slot only, and take its holder; freeing
raises the generation, and a generation that is used up withdraws the slot; no other slot changes. -/
def Claims.SlotStates : Prop :=
  ∀ (s : State) (die n : Nat), n < 16384 →
    let x := s.slot die n
    ((s.sealSlot die n).slot die n = if x.st = .filling then { x with st := .sealed, holder := .none } else x) ∧
    ((s.abandonSlot die n).slot die n = if x.st = .filling then { x with st := .abandoned, holder := .none } else x) ∧
    ((s.freeSlot die n).slot die n = if x.gen = 65535 then { x with st := .free, holder := .none, withdrawn := true }
      else { x with st := .free, holder := .none, gen := x.gen + 1 }) ∧
    (∀ k m, m < 16384 → (k, m) ≠ (die, n) →
      (s.sealSlot die n).slot k m = s.slot k m ∧ (s.abandonSlot die n).slot k m = s.slot k m ∧ (s.freeSlot die n).slot k m = s.slot k m)

/-- R245, R246, R299, R362, R363: HSEND: a destination that is not a peer, or has a reserved bit set, faults; a fill handle is
with the transport and out of its register at once, after a release; the transfer waits 100 µs for its outcome. HRECV
takes the oldest queued handle with its tag, or parks the batch's active threads. -/
def Obligations.SendAndReceive : Prop :=
  ∀ (s : State) (c : Ctx) (i : Nat) (is : List Nat), s.Issuing c → activeOf c = i :: is →
    let part := (s.gridOf c.team).part
    (∀ (d a b : SReg), c.team.tagged d.val = false → c.team.tagged b.val = false →
      let h := (s.rd c.team i).s a
      let v := (s.rd c.team i).s b
      let dev := v.toNat % 2 ^ 11
      let bad := v.toNat / 2 ^ 11 % 2 ^ 21 ≠ 0 ∨ dev = s.ctl.devnum part ∨ dev ∉ s.peersOf part
      let send (z : State) : State :=
        let z1 := ((z.bump 1).setPairs { z.pairs with transfers := z.pairs.transfers ++
          [{ id := z.fresh, handle := h, team := c.team.uid, d := d.val, dest := dev, tag := v.extractLsb' 32 32, fill := hFill h
             tok := c.batch.tok, deadline := s.sched.now + 100000000 }] }).onCur c (fun t => t.noteOldS c.batch.tok z.fresh d.val)
        let z2 := if hFill h then z1.onCur c (fun t => (t.putSNow a.val 0).untag a.val) else z1
        (z2.emit (.handle part dev z.fresh (v.extractLsb' 32 32) h)).pendRegs c
      (∀ e, s.checkHandle part h (c.team.tagged a.val) .either = .bad e → Claims.OnceTraps (.hsend d a b) s c s e h) ∧
      (∀ die n, s.checkHandle part h (c.team.tagged a.val) .either = .ok die n →
        (bad → Claims.OnceTraps (.hsend d a b) s c s .access 0) ∧
        (¬bad → hFill h = false → Claims.OnceDone (.hsend d a b) s c (send s)) ∧
        (¬bad → hFill h = true → ∀ x1, Claims.Released s c.team.core .device x1 →
          Claims.OnceDone (.hsend d a b) s c (send (x1.setSlot die n { (x1.slot die n) with holder := .transport }))))) ∧
    (∀ (d a : SReg), c.team.tagged d.val = false → c.team.tagged a.val = false → (∀ f, (c.team.thread i).frame = some f → f.grant = none) →
      let tag := ((s.rd c.team i).s a).extractLsb' 0 32
      (∀ e, s.pairs.queue.find? (fun e => e.1 == part && e.2.1 == tag) = some e →
        Claims.OnceDone (.hrecv d a) s c (((s.setPairs { s.pairs with queue := s.pairs.queue.erase e }).giveHandle c.team.uid d.val e.2.2).pendRegs c)) ∧
      (s.pairs.queue.find? (fun e => e.1 == part && e.2.1 == tag) = none →
        exec (.hrecv d a) s = .next ((s.parkAll c (.hrecv tag.toNat d.val c.batch.id) (activeOf c)).moveOn c [])))

-- service, time, K-mode

/-- R213, R219, R365, R366: outside K-mode the K-mode instructions raise PRIVILEGE in every active thread that has not
performed them, and do nothing else. -/
def Claims.UserModeHasNoPrivilege : Prop :=
  ∀ (ins : Instr) (regs : List Reg) (s : State) (c : Ctx), s.Issuing c → (s.gridOf c.team).kmode = false →
    (match ins with
      | .sret .. => some []
      | .ktlbi _ _ b => some [b]
      | .kget _ _ _ b _ => some [b]
      | .kset _ _ b x _ => some [b, x]
      | .kresumeResume _ b => some [b]
      | .kresumeStep _ b => some [b]
      | .kresumeKill _ b => some [b]
      | .kresumeEngresume a b => some [a, b]
      | .kresumeEngend a b => some [a, b]
      | _ => none) = some regs →
    (∀ i ∈ activeOf c, ∀ r ∈ regs, regInBlock (c.team.kTop i) false r = true) →
    exec ins s = .next ((s.raiseAll c .privilege 0 (c.todo (activeOf c))).moveOn c [])

/-- What the K-mode instructions on a team do in one thread, once the handle in S[a] has named a team of the partition that has
not ended (R212 to R215): the state, or none for ACCESS. -/
def Claims.kEffect (x : State) (c : Ctx) (r : Rd) (g lin : Nat) : Instr → Option (Option State)
  | .kget sel d _ b n => some ((x.kRead g lin (r.lo b).toNat sel.val n.toNat).map (fun v => x.putSLate c d v))
  | .kset isW _ b v n => some (x.kWrite g lin (r.lo b).toNat isW n.toNat (r.lo v))
  | .kresumeResume _ b => some (
      if (r.lo b).toNat ≠ 2 ^ 32 - 1 ∧ x.threadsOf g lin ≤ (r.lo b).toNat then none
      else match x.teamOf g lin with
        | none => some x
        | some t => some ((x.setTeam (t.resumeThreads (r.lo b).toNat)).kTouch t))
  | .kresumeStep _ b => some (
      if x.threadsOf g lin ≤ (r.lo b).toNat then none
      else match x.teamOf g lin with
        | none => some x
        | some t => some ((x.setTeam (t.stepThread (r.lo b).toNat)).kTouch t))
  | .kresumeKill _ b => some (
      let code := (r.lo b).toNat % 256
      if code = 0 ∨ 24 < code then none
      else match (x.materialise g lin).1.team? (x.materialise g lin).2 with
        | none => some x
        | some t => some (((x.materialise g lin).1.kTouch t).endTeam (x.materialise g lin).2 (some code)))
  | _ => none

/-- Registers of those instructions: the handle's, and all of them. -/
def Claims.kRegs : Instr → Option (SReg × List Reg)
  | .kget _ d a b _ => some (a, [.s d, .s a, b])
  | .kset _ a b v _ => some (a, [.s a, b, v])
  | .kresumeResume a b => some (a, [.s a, b])
  | .kresumeStep a b => some (a, [.s a, b])
  | .kresumeKill a b => some (a, [.s a, b])
  | _ => none

/-- R211 to R215, R365: KGET, KSET and the KRESUMEs of a team, in K-mode: a handle that names no such team, and what the
instruction refuses, is ACCESS in its thread; otherwise its effect. And the KRESUMEs of an engine: one the partition does
not own is ACCESS; a parked copy at its head goes on, or is ended with its code. -/
def Claims.ServiceInstructions : Prop :=
  (∀ (ins : Instr) (a : SReg) (regs : List Reg) (s : State) (c : Ctx), s.Issuing c → (s.gridOf c.team).kmode = true →
    Claims.kRegs ins = some (a, regs) →
    ∃ t, Each (Claims.Part c (regs.map at32) (fun x i y =>
      let r := s.rd c.team i
      match x.kTeam (s.gridOf c.team).part (r.s a) with
      | none => y = x.raise c i .access (r.s a)
      | some (g, lin) => Claims.kEffect x c r g lin ins = some none ∧ y = x.raise c i .access 0 ∨ Claims.kEffect x c r g lin ins = some (some y)))
      (c.todo (activeOf c)) s t ∧
    exec ins s = .next (t.moveOn c [])) ∧
  (∀ (a b : Reg) (s : State) (c : Ctx), s.Issuing c → (s.gridOf c.team).kmode = true →
    (∃ t, Each (Claims.Part c [at32 a, at32 b] (fun x i y =>
        let e := ((s.rd c.team i).lo a).toNat
        if e ∉ x.ctl.enginesOf (s.gridOf c.team).part then y = x.raise c i .access 0
        else match x.queueOf e with
          | q :: _ => y = if q.parked.isSome then (x.putHead e { q with parked := none, told := false }).claimRest q else x
          | [] => y = x)) (c.todo (activeOf c)) s t ∧
      exec (.kresumeEngresume a b) s = .next (t.moveOn c [])) ∧
    (∃ t, Each (Claims.Part c [at32 a, at32 b] (fun x i y =>
        let e := ((s.rd c.team i).lo a).toNat
        if e ∉ x.ctl.enginesOf (s.gridOf c.team).part then y = x.raise c i .access 0
        else match x.queueOf e with
          | q :: _ => (match q.parked with | some p => y = x.killCopy e q (.other p.1) | none => y = x)
          | [] => y = x)) (c.todo (activeOf c)) s t ∧
      exec (.kresumeEngend a b) s = .next (t.moveOn c [])))

/-- R211, R214: the trap state word: 0 in a thread that runs, 1 with the cause and the fault point in a trapped one, 2 with the
place it stands at in a held one, 3 in one that has ended; the fault address is a trapped thread's; and what KSET writes
KGET reads back, in a trapped or held thread. -/
def Claims.TrapStateWord : Prop :=
  (∀ x : Thread, x.trap.cause < 256 → x.trap.block < 2 ^ 24 → x.trap.clause < 2 ^ 16 → x.trap.instr < 16 → x.trap.detail < 16 →
    (x.st = .trapped → x.trapWord.extractLsb' 56 8 = BitVec.ofNat 8 x.trap.cause ∧ x.trapWord.extractLsb' 32 24 = BitVec.ofNat 24 x.trap.block ∧
      x.trapWord.extractLsb' 16 16 = BitVec.ofNat 16 x.trap.clause ∧ x.trapWord.extractLsb' 12 4 = BitVec.ofNat 4 x.trap.instr ∧
      x.trapWord.extractLsb' 8 4 = BitVec.ofNat 4 x.trap.detail ∧ x.trapWord.extractLsb' 0 8 = 1 ∧ x.faultAddr = x.trap.addr) ∧
    (x.st = .held → x.trapWord.extractLsb' 56 8 = 0 ∧ x.trapWord.extractLsb' 0 8 = 2 ∧ x.faultAddr = 0) ∧
    (x.st = .ended → x.trapWord = 3 ∧ x.faultAddr = 0) ∧
    (x.st = .waiting ∨ x.st = .yielded ∨ x.st = .inBatch ∨ x.st = .resuming → x.trapWord = 0 ∧ x.faultAddr = 0)) ∧
  (∀ (s s' : State) (t : Team) (b n : Nat) (v : W32), s.teamOf t.grid t.lin = some t → s.kWrite t.grid t.lin b false n v = some s' →
    s'.team? t.uid = some (t.setThread b { (t.thread b) with k := Store.set 0 (t.thread b).k n v }) ∧ s.Apart s' t.uid)

/-- R366, R367: KTLBI in K-mode: the function, the alignment, the range and the home of its operands are checked in this order;
then, after a release at DEVICE and once every core's stores in its range have been accepted, the translations, the unowned L1 words and the clauses of its range are gone, and the
agents look at the page again (R137). -/
def Claims.TranslationFlush : Prop :=
  ∀ (kind : Fin 4) (a : Option SReg) (b : Reg) (s t : State) (c : Ctx), s.Issuing c → (s.gridOf c.team).kmode = true →
    Each (Claims.Part c ((a.toList.map (fun n => at32 (.s n))) ++ [at32 b]) (fun x i y =>
      let g := s.gridOf c.team
      let r := s.rd c.team i
      let f := (r.lo b).toNat
      let va := match a with | some n => r.s n | none => 0
      let n := va.toNat
      if 384 < f ∨ (f ≠ 0 ∧ ¬(x.ctl.fnOn f = true ∧ x.ctl.vfPart f = g.part)) then y = x.raise c i .access 0
      else if (kind.val = 0 ∧ n % 65536 ≠ 0) ∨ (kind.val = 1 ∧ n % 2097152 ≠ 0) then y = x.raise c i .alignment va
      else if kind.val ≤ 2 ∧ (2 ^ 57 ≤ n ∨ 5 ≤ n / 2 ^ 54 % 8) then y = x.raise c i .access va
      else if kind.val ≤ 2 ∧ n / 2 ^ 54 % 8 < 4 ∧ x.ctl.onDie g.part (n / 2 ^ 54 % 8) = false then y = x.raise c i .outOfPartition va
      else ∃ x1, Claims.Released x c.team.core .device x1 ∧
        let m := x1.mem.settleRange kind.val f n
        m.rangeOwes kind.val f n = false ∧ y = (((x1.setMem m).flushTlb g.part kind.val f n).agentsMeet g.part kind.val f n).pendMems c))
      (c.todo (activeOf c)) s t →
    exec (.ktlbi kind a b) s = .next (t.moveOn c [])

/-- R367: what a KTLBI flush leaves: no translation of the function for the page at its home, and nothing of another function
lost. -/
def Claims.FlushedTranslations : Prop :=
  ∀ (s : State) (part kind fn va : Nat) (home fn2 page : Nat), Store.wf none s.mem.tlb = true → fn < 512 → fn2 < 512 → page < 2 ^ 38 → home < 8 →
    let key := (home * 512 + fn2) * 2 ^ 38 + page
    let s' := s.flushTlb part kind fn va
    (fn2 ≠ fn → Store.get none s'.mem.tlb key = Store.get none s.mem.tlb key) ∧
    (fn2 = fn → kind = 0 → home = va / 2 ^ 54 % 8 → page = va / 65536 % 2 ^ 38 → Store.get none s'.mem.tlb key = none) ∧
    (fn2 = fn → kind = 3 → home < 5 → Store.get none s'.mem.tlb key = none) ∧
    s'.mem.hbm = s.mem.hbm ∧ s'.mem.host = s.mem.host ∧ s'.mem.owner = s.mem.owner

/-- R218, R403: one thread's SYSC. -/
def Claims.ServiceCalling (s : State) (c : Ctx) (d : SReg) (a : Reg) (x : State) (i : Nat) (y : State) : Prop :=
  let g := s.gridOf c.team
  let p := (s.rd c.team i).quad a
  if p.toNat % 64 ≠ 0 then y = x.raise c i .alignment p
  else if x.svcOn g.part = false then y = x.raise c i .access 0
  else if isAperture p.toNat then y = x.raise c i .access p
  else (∃ q z, (∀ ok, x.readAt c i (whereGlobal (x.agent c.team) p.toNat .read) .plain .team .n64 64 p ok = ok q z) ∧
      ∃ z1, Claims.Released z c.team.core .device z1 ∧
      let h := z1.handleFor (.team c.team.grid c.team.lin)
      ∃ n z2, h.2.writeSvc g.part (svcBody 1 0 (z1.curTeam c).cls g.fn h.1 i 0 0 0 q) = some (n, z2) ∧
        y = z2.putSLate c d (BitVec.ofNat 64 n)) ∨
    (∃ code addr z, (∀ ok, x.readAt c i (whereGlobal (x.agent c.team) p.toNat .read) .plain .team .n64 64 p ok = .fault z code addr) ∧
      y = z.raise c i code addr)

/-- R218, R403: SYSC: its packet is a multiple of 64; a service ring that is off is ACCESS; the packet is read, and, after a
release at DEVICE, its record is written and S[d] has the record's number. And R285, R415: TSTAMP writes the core's cycle
count or the reference time, once. -/
def Claims.ServiceCallAndTime : Prop :=
  (∀ (d : SReg) (a : Reg) (s t : State) (c : Ctx), s.Issuing c →
    Each (Claims.Part c [at32 (.s d), (a, true)] (Claims.ServiceCalling s c d a)) (c.todo (activeOf c)) s t →
    exec (.sysc d a) s = .next (t.moveOn c [])) ∧
  (∀ (cyc : Bool) (d : SReg) (s : State) (c : Ctx), s.Issuing c → activeOf c ≠ [] → c.team.tagged d.val = false →
    Claims.OnceDone (.tstamp cyc d) s c (s.putSLate c d (BitVec.ofNat 64 (if cyc then (s.core c.team.core).cyc else s.refTime)))) ∧
  (∀ (cyc : Bool) (d : SReg) (s : State) (c : Ctx), s.Issuing c → activeOf c ≠ [] → c.team.tagged d.val = true →
    Claims.OnceTraps (.tstamp cyc d) s c s .linearCopy (Store.get 0 c.team.s d.val))

/-- R219, R399: one thread's SRET. -/
def Claims.Answering (s : State) (c : Ctx) (a b : SReg) (faulted : Bool) (x : State) (i : Nat) (y : State) : Prop :=
  let g := s.gridOf c.team
  let va := (s.rd c.team i).s a
  ∃ x1, Claims.Released x c.team.core .system x1 ∧ Claims.Found c x i va (readMany x1.ctl g.fn g.part .read 3 x1.mem va.toNat 128) (fun bs m =>
    let z := x1.setMem m
    z.ringHeld 0 g.part (z.svcBase g.part).toNat = false ∧
    if z.isSvcRecord g.part va.toNat = false ∨ field bs 0 1 ≠ 1 ∨ field bs 2 1 % 2 = 1 then y = z.raise c i .access va
    else z.ringHeld (field bs 4 2) g.part (field bs 64 8) = false ∧ z.answering g.fn (va.toNat + 2) = false ∧
      let byte := BitVec.ofNat 8 (field bs 2 1 ||| 1)
      Claims.Found c z i va (writeRegistry z.ctl z.mem g.fn g.part (va.toNat + 2) .write [byte]) (fun _ _ =>
        match z.serviceReply g.part bs ((s.rd c.team i).s b) (if faulted then stFaulted else stOk) (g.fn, g.part, va.toNat + 2, byte) with
        | .error e => e.1 ≠ .uncorrectable ∧ y = z.raise c i e.1 e.2
        | .ok z1 => y = z1) y) y

/-- R219, R399: SRET in K-mode: what the service thread wrote before is performed, in host memory too; its record's 128 bytes are read; an address that is no record of the partition's service ring,
a record that is no call or is answered already, is ACCESS; then the reply goes to the caller's ring; the record is marked
answered as the reply is written. -/
def Claims.ServiceReturn : Prop :=
  ∀ (a b : SReg) (faulted : Bool) (s t : State) (c : Ctx), s.Issuing c → (s.gridOf c.team).kmode = true →
    c.team.tagged a.val = false → c.team.tagged b.val = false →
    Each (Claims.Answering s c a b faulted) (c.todo (activeOf c)) s t →
    exec (.sret a b faulted) s = .next (t.moveOn c [])

/-- R295, R417: one thread's WQPOST. -/
def Claims.Posts (s : State) (c : Ctx) (d a : SReg) (ring : Fin 64) (x : State) (i : Nat) (y : State) : Prop :=
  let g := s.gridOf c.team
  let va := (s.rd c.team i).s a
  let base := x.wqBase g.fn ring.val
  let key := g.fn * 64 + ring.val
  let e := (key, c.team.uid, i)
  if va.toNat % 64 ≠ 0 then y = x.raise c i .alignment va
  else if x.wqOn g.fn ring.val = false then y = (x.posted e).raise c i .access 0
  else ∃ z, Claims.Released x c.team.core .part z ∧
    match deviceRead z.ctl z.mem g.fn g.part base 64 .read with
    | .fault _ => y = ((z.posted e).wqClear g.fn ring.val).raise c i .access 0
    | .ok hb m =>
      (match wqHead hb with
      | none => y = ((z.posted e).wqClear g.fn ring.val).raise c i .access 0
      | some (prod, cons, l) =>
        -- it has the next index, and no post with an earlier one waits
        let w := (z.setMem m).arrive e
        let n := Nat.max prod (Store.get 0 z.net.wqNext key)
        w.postsAhead e = 0 ∧ n - cons < 2 ^ l ∧
        if isAperture va.toNat then y = (w.posted e).raise c i .access va
        else (∃ q z1 m4 m5, (∀ ok, w.readAt c i (whereGlobal (w.agent c.team) va.toNat .read) .plain .team .n64 64 va ok = ok q z1) ∧
            writeFresh z1.ctl z1.mem c.team.core g.fn g.part (base + 64 + 64 * (n % 2 ^ l)) .write q = .ok () m4 ∧
            writeFresh z1.ctl m4 c.team.core g.fn g.part base .write (toLE 8 (n + 1)) = .ok () m5 ∧
            y = (((z1.setMem m5).setNet { z1.net with wqNext := Store.set 0 z1.net.wqNext key (n + 1) }).posted e).putSLate c d (BitVec.ofNat 64 n)) ∨
          (∃ code addr z1, (∀ ok, w.readAt c i (whereGlobal (w.agent c.team) va.toNat .read) .plain .team .n64 64 va ok = .fault z1 code addr) ∧
            y = (z1.posted e).raise c i code addr))
    | _ => False

/-- R298, R414: one thread's TRIGA. -/
def Claims.Arms (s : State) (c : Ctx) (any : Bool) (d a : SReg) (x : State) (i : Nat) (y : State) : Prop :=
  let g := s.gridOf c.team
  let va := (s.rd c.team i).s a
  if va.toNat % 64 ≠ 0 then y = x.raise c i .alignment va
  else ∃ x1, Claims.Released x c.team.core .part x1 ∧ Claims.Found c x i va (readMany x1.ctl g.fn g.part .read 4 x1.mem va.toNat 128) (fun bs m =>
    let z := x1.setMem m
    match termsOf bs with
    | none => y = z.raise c i .access 0
    | some ts =>
      match (List.range 64).find? (fun k => !((z.armed g.fn).map (·.slot)).contains k) with
      | none => y = z.putSLate c d (BitVec.allOnes 64)
      | some k =>
        let tr : Trigger := { slot := k, or := any, terms := ts, bytes := bs.take 64, part := g.part }
        y = ((z.setNet { z.net with triggers := Store.set [] z.net.triggers g.fn (z.armed g.fn ++ [tr]) }).putSLate c d (BitVec.ofNat 64 k)).evalSlots g.fn) y

/-- R295 to R298, R344, R414, R417: WQPOST writes a request to its ring at the index it was assigned and S[d] its number; a ring that is off is
ACCESS, one whose header does not hold is turned off. TRIGA arms the lowest free slot with its record, or writes −1. CNTADD adds to a
counter after a release at PART. The counter's change and the arming fire what holds. -/
def Claims.TransportInstructions : Prop :=
  (∀ (d a : SReg) (ring : Fin 64) (s t : State) (c : Ctx), s.Issuing c → c.team.tagged d.val = false → c.team.tagged a.val = false →
    Each (Claims.Posts s c d a ring) (c.todo (activeOf c)) s t →
    exec (.wqpost d a ring) s = .next (t.moveOn c [])) ∧
  (∀ (any : Bool) (d a : SReg) (s t : State) (c : Ctx), s.Issuing c → c.team.tagged d.val = false → c.team.tagged a.val = false →
    Each (Claims.Arms s c any d a) (c.todo (activeOf c)) s t →
    exec (.triga any d a) s = .next (t.moveOn c [])) ∧
  (∀ (tc : Fin 64) (a : Reg) (s t : State) (c : Ctx), s.Issuing c →
    Each (Claims.Part c [at32 a] (fun x i y => ∃ x1, Claims.Released x c.team.core .part x1 ∧
      y = x1.addCounter (s.gridOf c.team).fn tc.val ((s.rd c.team i).lo a).toNat)) (c.todo (activeOf c)) s t →
    exec (.cntadd tc a) s = .next (t.moveOn c []))

-- events on the cores

/-- The choice of a selection (R49): with an eligible block whose skip count has reached SKIP_MAX, the one of the largest
count, the lowest number on a tie; else the lowest number. -/
def Claims.Chosen (t : Team) (m b : Nat) : Prop :=
  b ∈ t.eligible ∧
  ((∃ x ∈ t.eligible, m ≤ t.skipOf x) → m ≤ t.skipOf b ∧ ∀ x ∈ t.eligible, t.skipOf x ≤ t.skipOf b ∧ (t.skipOf x = t.skipOf b → b ≤ x)) ∧
  ((∀ x ∈ t.eligible, t.skipOf x < m) → ∀ x ∈ t.eligible, b ≤ x)

/-- R48, R49, R51: SELECTION: on a placed team with no selection in progress, an eligible block is chosen; its skip count is 0 and
that of every other eligible block one more, at most 1023; the chosen block's ready threads stand in batches, and threads
yielded at other blocks wait. -/
def Claims.SelectionChoosesABlock : Prop :=
  ∀ (s : State) (u : Nat) (t : Team), s.team? u = some t → t.uid = u → t.placed = true → t.phase = .live → t.sel = none →
    t.leaving = false → t.stopped = false → t.threads.length ≤ 1024 → (∀ i, s.frameBusy t i = false) → (∀ x ∈ t.threads, x.stepping = false) →
    t.eligible ≠ [] →
    ∃ s' t' b, exec (.selection u) s = .next s' ∧ s'.team? u = some t' ∧ s'.mem = s.mem ∧ Claims.Chosen t (s.ctl.skipMax t.core) b ∧
      (∃ y, t'.sel = some y ∧ y.block = b) ∧ t'.skipOf b = 0 ∧ (∀ x ∈ t.eligible, x ≠ b → t'.skipOf x = min (t.skipOf x + 1) 1023) ∧
      ∀ i, i < t.threads.length → (t'.thread i).k = (t.thread i).k ∧ (t'.thread i).preds = (t.thread i).preds ∧
        (t'.thread i).st = (if (t.thread i).ready = true ∧ (t.thread i).pos.block = b then .inBatch
          else if (t.thread i).st = .yielded ∧ (t.thread i).pos.block ≠ b then .waiting else (t.thread i).st)

/-- R87 to R90, R92, R208, R310, R326: CLAUSE_START of a batch whose turn it is, of a clause whose address has been found: a header that
breaks its rules, one whose clause would reach past DOFF, and one that an entry of the block table names, fault before the clause's words
are read; so does a clause whose terminator stands in the wrong place; a clause that waits on a flag with something outstanding is held; any
other starts, its SETA and SETB counts rising by one each, and no register changes. -/
def Claims.ClauseStarts : Prop :=
  ∀ (s : State) (c : Ctx) (va : W64) (m m2 : Mem) (got : Option Clause), s.Issuing c → c.batch.buf = none → s.mayStart c ≠ none →
    let g := s.gridOf c.team
    let a := s.agent c.team
    let s1 := (s.setMem m).onCur c (fun x => match x.batch? c.batch.id with | some y => x.setBatch { y with addr := va } | none => x)
    let off := va.toNat - g.image.toNat
    let sound (h : Header) : Bool :=
      h.ok && decide (off + 8 * (h.cnt.toNat + 2) ≤ g.doff) && !(c.batch.clause != 0 && namesBlock s1.ctl s1.mem g off)
    (c.batch.clause = 0 → c.batch.block < g.blocks ∧ ∃ o, blockEntry s.ctl s.mem a g c.batch.block = .ok o m ∧ o % 8 = 0 ∧ g.codeAt ≤ o ∧
      o + 16 ≤ g.doff ∧ va = g.image + BitVec.ofNat 64 o) →
    (c.batch.clause ≠ 0 → va = c.batch.addr ∧ m = s.mem) →
    off + 16 ≤ g.doff → fetchClause s1 a va.toNat sound = .ok got m2 →
    match got with
    | none => exec .clauseStart s = .next ((s1.setMem m2).clauseFault c .illegalClause 0)
    | some cl =>
      let h := Header.ofWord cl.header
      let s2 := (s1.setMem m2).cacheClause a va.toNat cl
      let clear := c.batch.passed = true ∨ ∀ f ∈ waitFlags h, c.team.flagOf c.batch f = 0
      (shapeOk h cl.words = false → exec .clauseStart s = .next (s2.clauseFault c .illegalClause 0)) ∧
      (shapeOk h cl.words = true → ¬clear → exec .clauseStart s = .next (s2.holdClause c)) ∧
      (shapeOk h cl.words = true → clear → ∃ s' t' b', exec .clauseStart s = .next s' ∧ s'.team? c.team.uid = some t' ∧ c.team.Kept t' ∧
        t'.batch? c.batch.id = some b' ∧ b'.buf = some cl ∧ b'.addr = va ∧ b'.instr = (if c.batch.passed then c.batch.instr else 0) ∧
        ∀ f, t'.flagOf b' f = c.team.flagOf c.batch f + (if setaOf h = some f then 1 else 0) + (if setbOf h = some f then 1 else 0))

/-- R87, R257: where the batch's turn has not come, a clause start changes nothing; a batch at its first clause whose block the image does
not have, or whose block's entry is no place of a clause, faults ILLEGAL_CLAUSE. -/
def Claims.ClauseWaitsOrFaults : Prop :=
  ∀ (s : State) (c : Ctx), s.Issuing c → c.batch.buf = none →
    (s.mayStart c = none → exec .clauseStart s = .next s) ∧
    (s.mayStart c ≠ none → c.batch.clause = 0 → let g := s.gridOf c.team
      (g.blocks ≤ c.batch.block → exec .clauseStart s = .next (s.clauseFault c .illegalClause 0)) ∧
      (∀ o m, c.batch.block < g.blocks → blockEntry s.ctl s.mem (s.agent c.team) g c.batch.block = .ok o m →
        (o % 8 ≠ 0 ∨ o < g.codeAt ∨ g.doff < o + 16) → exec .clauseStart s = .next (s.clauseFault c .illegalClause 0)))

/-- R89, R90, R134, R142: LONG_LATENCY_WRITE_DONE takes one from the register writes a started clause has outstanding, and with
the last of a clause that has issued its SETA flag falls by one; WRITE_PERFORMED accepts the core's registrations and
ends the clause's memory writes, and its SETB flag falls once the copies it posted are complete too, unless a registration waits at a page; REGISTRATION_ACCEPTED
accepts the core's oldest. -/
def Claims.OperationsComplete : Prop :=
  (∀ (s : State) (u n : Nat) (t : Team) (x : Tok), s.team? u = some t → t.tok? n = some x → s.reserved t x < x.regs →
    exec (.longLatencyWriteDone u n) s = .next (s.setTeam (t.regDone n))) ∧
  (∀ (t : Team) (n f : Nat) (x : Tok) (b : Batch), t.tok? n = some x → t.batch? x.batch = some b → x.seta = some f → f < 8 → x.aDone = false →
    (x.setb = none ∨ x.bDone = true) → ∃ b', (t.regDone n).batch? x.batch = some b' ∧
      b'.flag f = (if x.regs ≤ 1 ∧ x.issued = true then b.flag f - 1 else b.flag f)) ∧
  (∀ (s : State) (u n : Nat) (t : Team), s.team? u = some t →
    let m := s.mem.drain t.core
    ((∃ f ∈ m.flights, f.core = t.core) → exec (.writePerformed u n) s = .next (s.setMem m)) ∧
    ((∀ f ∈ m.flights, f.core ≠ t.core) → exec (.writePerformed u n) s = .next ((s.setMem m).onTeam u (fun x => x.memAll n)))) ∧
  (∀ (t : Team) (n f : Nat) (x : Tok) (b : Batch), t.tok? n = some x → t.batch? x.batch = some b → x.setb = some f → f < 8 → x.bDone = false →
    (x.seta = none ∨ x.aDone = true) → ∃ b', (t.memAll n).batch? x.batch = some b' ∧
      b'.flag f = (if x.issued = true ∧ x.posts = 0 then b.flag f - 1 else b.flag f)) ∧
  (∀ (s : State) (core : Nat) (f : Flight), s.mem.flights.find? (fun x => x.core == core) = some f → s.mem.flightFree f = true →
    exec (.registrationAccepted core) s = .next (s.setMem { (s.mem.acceptFlight f) with flights := s.mem.flights.erase f }))

/-- R92, R209, R216, R217: TRAP_RECORD_POST: a trapped thread whose own operations are complete, and before whose record none of the
same cycle is due, posts its record, source 2 with
the code, to the partition's service ring; while the ring is off, or in a K-mode team, the trap ends the team instead. -/
def Claims.TrapPosts : Prop :=
  ∀ (s : State) (u i : Nat) (t : Team), s.team? u = some t → t.uid = u → (t.thread i).st = .trapped → (t.thread i).trap.posted = false →
    s.frameBusy t i = false →
    let g := s.gridOf t
    let x := t.thread i
    (s.trapBehind t i = true → exec (.trapRecordPost u i) s = .next s) ∧
    (s.trapBehind t i = false → (s.svcOn g.part = false ∨ g.kmode = true) → exec (.trapRecordPost u i) s = .next (s.endTeam u (some x.trap.cause))) ∧
    (s.trapBehind t i = false → s.svcOn g.part = true → g.kmode = false →
      let h := s.handleFor (.team t.grid t.lin)
      exec (.trapRecordPost u i) s = .next ((h.2.pushRec { mkRec 0 g.part (s.svcBase g.part) 0 0 0 0 0 with
          service := some (svcBody 2 x.trap.cause t.cls g.fn h.1 i 0 x.trap.addr x.trapWord []) }).onTeam u
        (fun y => y.onThread i (fun z => { z with trap := { z.trap with posted := true } }))))

/-- R225, R226: WATCHDOG_EXPIRY: in a live team whose count has reached its limit, every thread that waits or resumes traps
WATCHDOG where it stands, and so does every thread of a batch that is not in the midst of a tile move; before that, nothing. WAIT_LIMIT_EXPIRY: a thread parked
anonymously for the limit traps WATCHDOG with detail 1. -/
def Claims.WatchdogBites : Prop :=
  (∀ (s : State) (u : Nat) (t : Team), s.team? u = some t →
    let limit := t.wdogCtl.toNat % 65536 * 4096
    ((t.phase ≠ .live ∨ limit = 0 ∨ t.wdog < limit) → exec (.watchdogExpiry u) s = .next s) ∧
    (t.uid = u → t.phase = .live → 0 < limit → limit ≤ t.wdog → ∃ s' t', exec (.watchdogExpiry u) s = .next s' ∧ s'.team? u = some t' ∧
      s'.mem = s.mem ∧ (∀ i, (t'.thread i).k = (t.thread i).k ∧ (t'.thread i).preds = (t.thread i).preds) ∧
      (∀ i, i < t.threads.length → (t.thread i).st = .waiting ∨ (t.thread i).st = .resuming →
        (t'.thread i).st = .trapped ∧ (t'.thread i).trap.cause = 21 ∧ (t'.thread i).trap.detail = 0 ∧ (t'.thread i).pos = (t.thread i).pos) ∧
      (∀ i, i < t.threads.length → (t.thread i).st = .inBatch → (∃ b ∈ t.batches, i ∈ b.threads ∧ t.batch? b.id = some b) →
        (∀ b ∈ t.batches, i ∈ b.threads → t.batch? b.id = some b ∧ b.moving = false) → (t'.thread i).st = .trapped ∧ (t'.thread i).trap.cause = 21) ∧
      (∀ i, i < t.threads.length → (t.thread i).counts = false → (t'.thread i).st = (t.thread i).st))) ∧
  (∀ (s : State) (u i : Nat) (t : Team), s.team? u = some t → t.waitedOut (t.thread i) = true →
    exec (.waitLimitExpiry u i) s = .next (s.onTeam u (fun x => x.failPark i .watchdog 1 0))) ∧
  (∀ (s : State) (u i : Nat) (t : Team), s.team? u = some t → t.waitedOut (t.thread i) = false → exec (.waitLimitExpiry u i) s = .next s)

/-- R209, R225, R226: trap records, the watchdog and the wait limit. -/
def Claims.TrapRecordsAndWatchdogs : Prop := Claims.TrapPosts ∧ Claims.WatchdogBites

/-- R258, R281, R283: CANARY_ALARM: the next six cycles are stretched, 64 run under half issue, and one more alarm is counted, at most 65535, in
the upper half of CANARY_CTL; the ends of both, and of the L1's marks; and a barrier wave lets the crews that are due go. -/
def Claims.CoreEvents : Prop :=
  (∀ (s : State) (k : Nat), (s.core k).alarm = true → ∃ t, exec (.canaryAlarm k) s = .next t ∧
    t.core k = { s.core k with alarm := false, stretch := 7, half := 65 } ∧ (∀ j, j ≠ k → t.core j = s.core j) ∧
    (t.ctl.canaryOf k).toNat / 65536 = min ((s.ctl.canaryOf k).toNat / 65536 + 1) 65535 ∧
    (t.ctl.canaryOf k).toNat % 65536 = (s.ctl.canaryOf k).toNat % 65536 ∧ t.mem = s.mem ∧ t.work.teams = s.work.teams) ∧
  (∀ (s : State) (k : Nat), (s.core k).alarm = false → exec (.canaryAlarm k) s = .next s) ∧
  (∀ (s : State) (k : Nat), (s.core k).stretch = 1 → exec (.canaryStretchEnd k) s = .next (s.setCore k { s.core k with stretch := 0 })) ∧
  (∀ (s : State) (k : Nat), (s.core k).half = 1 → exec (.halfIssueEnd k) s = .next (s.setCore k { s.core k with half := 0 })) ∧
  (∀ (s : State) (k : Nat), exec (.l1MarkClear k) s = .next (s.setCore k { s.core k with marks := [] })) ∧
  (∀ (s : State) (k : Nat),
    let z := s.catchUp k
    ((∃ w ∈ (z.core k).waves, w.due ≤ z.cycNow k) → exec (.barrierWave k) s = .next (z.releaseWave k)) ∧
    ((∀ w ∈ (z.core k).waves, z.cycNow k < w.due) → exec (.barrierWave k) s = .next z))

-- placement, rings, tenants

/-- Teams and grids stand under their own names; their tables, the journal and the sessions' bindings in canonical form. -/
def Claims.Named (s : State) : Prop :=
  Store.wf none s.work.teams = true ∧ Store.wf none s.work.grids = true ∧ (∀ u t, s.team? u = some t → t.uid = u) ∧
    (∀ u g, s.grid? u = some g → g.uid = u) ∧ Store.wf (0, 0, false) s.queues.journal = true ∧ Store.wf none s.tdisp.bound = true

/-- R87, R151, R206, R220: a team placed for the first time has its data section in its scratchpad, or ends with the fault of reading it;
a saved one whose image is as it was written stands on its core as it was saved, the core having acquired at PART. -/
def Claims.Placing : Prop :=
  ∀ (s : State) (u k : Nat) (t : Team), Claims.Named s → s.team? u = some t →
    (t.phase = .live → t.doomed = none → s.mem.spoiled u = false → ∃ t', (s.placeTeam u k).team? u = some t' ∧ t.Kept t' ∧ t'.placed = true ∧ t'.core = k ∧ t'.saved = false ∧
      t'.phase = .live ∧ t'.wdog = 0 ∧ (s.placeTeam u k).mem = { s.mem.acquire k with dirty := true } ∧ ((s.placeTeam u k).core k).clauses = []) ∧
    (∀ bs, t.phase = .unstarted → s.dataSection (s.gridOf t) = .ok bs → ∃ t', (s.placeTeam u k).team? u = some t' ∧ t'.placed = true ∧ t'.core = k ∧
      t'.phase = .live ∧ t'.threads = t.threads ∧ t'.s = t.s ∧ ∀ j, Store.get 0 t'.scratch j = bs.getD j 0)

/-- R191, R192: TEAM_PLACEMENT: a team that is leaving and can be saved is; else a placement decided earlier is carried out once it
fits; else the first candidate in the order of dispatch that fits a core takes the lowest such core, no NIGHT team while
a DUSK team is past its grace. -/
def Claims.Dispatches : Prop :=
  ∀ (s : State) (p : Nat),
    let ready (t : Team) : Bool := t.leaving && !t.ticked && (s.gridOf t).part == p && s.saveReady t.uid
    let cs := s.candidates p s.prioOf
    let fits (c : Cand) : Prop := ¬(s.duskLate p = true ∧ c.cls = 0) ∧ (s.coreFor s.occupied c.g).isSome = true
    (∀ t, s.teams.find? ready = some t → exec (.teamPlacement p) s = .next (s.saveTeam t.uid)) ∧
    ((∀ t ∈ s.teams, ready t = false) → s.work.plans = [] →
      (∀ c k, c ∈ cs → fits c → (∀ x ∈ cs, fits x → x ≠ c → candBefore c x = true) → s.coreFor s.occupied c.g = some k →
        exec (.teamPlacement p) s = .next (s.placeCand c k)) ∧
      ((∀ c ∈ cs, ¬fits c) → exec (.teamPlacement p) s = .next s))

/-- R189, R190, R192: DUSK_GRACE_EXPIRY: for a DUSK team past its grace, or an unplaced NOON team of an admitted grid, NIGHT teams are evicted as a plan finds them, and the placement
is decided; with no such team, nothing. -/
def Claims.Grace : Prop :=
  ∀ (s : State) (g lin : Nat) (x : Grid), s.grid? g = some x →
    let late (c : Cand) : Bool := c.g.uid == g && c.lin == lin && (s.pastGrace x.part c || c.cls == 2)
    (∀ c, (s.candidates x.part s.prioOf).find? late = some c →
      let m := s.materialise g lin
      exec (.duskGraceExpiry g lin) s = .next ((m.1.onTeam m.2 (fun t => { t with waited := c.waited })).graceEvict m.2)) ∧
    ((∀ c ∈ s.candidates x.part s.prioOf, late c = false) → exec (.duskGraceExpiry g lin) s = .next s)

/-- R87, R189 to R192, R206: the dispatcher's events. -/
def Obligations.DispatcherEvents : Prop := Claims.Placing ∧ Claims.Dispatches ∧ Claims.Grace

/-- R41, R44: a completion record is written at index HEAD of its ring with its SEQ and time, then HEAD is one more; a full ring, and one
whose header cannot be read, holds it. RECORD_WRITE writes the first record of a ring that holds any, and
RING_HEADER_RECHECK one after another; while a takeover awaits its validation completion records are held (R255). -/
def Claims.RecordsAreWritten : Prop :=
  (∀ (s : State) (r : Rec) (h : RingHead) (m1 m2 : Mem), s.ringHead r.fn r.part r.ring = some h → r.service = none → r.trig = none →
    r.answer = none →
    let n := 2 ^ h.log
    let ahead := (h.head + 2 ^ 64 - h.tail) % 2 ^ 64
    (n ≤ ahead → ahead < 2 ^ 63 → s.writeRec r = none) ∧
    ((ahead < n ∨ 2 ^ 63 ≤ ahead) →
      writeRegistry s.ctl s.mem r.fn r.part (r.ring.toNat + 64 + 32 * (h.head % n)) .write
        (toLE 1 r.kind ++ toLE 1 r.status ++ toLE 2 (h.head % 65536) ++ toLE 4 r.tag.toNat ++ toLE 8 r.value.toNat ++ toLE 8 r.handle.toNat ++
          toLE 8 s.refTime) = .ok () m1 →
      writeRegistry s.ctl m1 r.fn r.part r.ring.toNat .write (toLE 8 ((h.head + 1) % 2 ^ 64)) = .ok () m2 →
      ∃ t, s.writeRec r = some t ∧ t.mem = m2)) ∧
  (∀ (s : State) (r : Rec), s.ringHead r.fn r.part r.ring = none → s.writeRec r = none) ∧
  (∀ (s : State) (fn : Nat) (ring : W64) (r : Rec), s.queues.held.find? (fun x => x.fn == fn && x.ring == ring) = some r →
    let stays := (s.recsHeld = true ∧ r.service = none) ∨ s.writeRec r = none
    (stays → exec (.recordWrite fn ring) s = .next s ∧ exec (.ringHeaderRecheck fn ring) s = .next s) ∧
    (∀ t, ¬stays → s.writeRec r = some t →
      exec (.recordWrite fn ring) s = .next (t.setQueues { t.queues with held := t.queues.held.erase r }))) ∧
  (∀ (s : State) (fn : Nat) (ring : W64), (∀ r ∈ s.queues.held, ¬(r.fn = fn ∧ r.ring = ring)) →
    exec (.recordWrite fn ring) s = .next s ∧ exec (.ringHeaderRecheck fn ring) s = .next s) ∧
  (∀ (s : State) (fn : Nat) (ring : W64), exec (.ringHeaderRecheck fn ring) s =
    .next (s.flushAll fn ring (s.queues.held.countP (fun r => r.fn == fn && r.ring == ring)))) ∧
  (∀ (s : State) (fn : Nat) (ring : W64) (n : Nat), s.flushAll fn ring (n + 1) = (s.flushRing fn ring).flushAll fn ring n)

/-- R37, R251: GRID_RETIRE: a grid whose teams have all ended and left has their writes performed at SYSTEM; where none of them
waits any more it is retired, and the packet it was the work of is complete; before that, nothing. -/
def Claims.GridsRetire : Prop :=
  ∀ (s : State) (g : Nat) (x : Grid), Claims.Named s → s.grid? g = some x → x.retired = false →
    (x.gone < x.gx * x.gy * x.gz → exec (.gridRetire g) s = .next s) ∧
    (x.gx * x.gy * x.gz ≤ x.gone → (s.mem.settleGrid g).gridOwes g = true → exec (.gridRetire g) s = .next (s.setMem (s.mem.settleGrid g))) ∧
    (x.gx * x.gy * x.gz ≤ x.gone → (s.mem.settleGrid g).gridOwes g = false →
      ∃ t, exec (.gridRetire g) s = .next t ∧ t.gridRetired g = true ∧ t.mem = s.mem.settleGrid g ∧
      t.queues.packets = s.queues.packets.filter (fun p => p.work != some g) ∧ t.queues.held = s.queues.held)

/-- R196, R197: WAIT_POLL of a thread parked at a WAITF: an ENDED wait whose target has ended, and a wait whose word holds, let the thread go
on at its block; an ENDED or a global one after an acquire. A word whose read faults is the thread's fault; otherwise it
stays. -/
def Claims.WaitsArePolled : Prop :=
  (∀ (s : State) (u i target : Nat) (t : Team) (r : WaitRec) (np : Bool), s.team? u = some t → (t.thread i).st = .parked (.waitf r np target) →
    let on (z : State) : State := z.onTeam u (fun y => y.unparkTo i target)
    (r.rel = 4 → ∀ x, s.target? r.target = some x →
      -- a team's end is seen once the writes of its core are performed
      exec (.waitPoll u i) s = .next (match s.endSeen x with | some s1 => on (s1.acquire t.core) | none => s)) ∧
    (r.rel ≠ 4 →
      (∀ m, s.watch t r = .holds m → exec (.waitPoll u i) s = .next (on (if r.scratch then s.setMem m else (s.setMem m).acquire t.core))) ∧
      (∀ m, s.watch t r = .not m → exec (.waitPoll u i) s = .next (s.setMem m)) ∧
      (∀ e a, s.watch t r = .fault e a → e ≠ .uncorrectable → exec (.waitPoll u i) s = .next (s.onTeam u (fun y => y.failPark i e 0 a))))) ∧
  (∀ (s : State) (t : Team) (r : WaitRec),
    let n := if r.n64 then 8 else 4
    let v := if r.n64 then r.value.toNat else r.value.toNat % 2 ^ 32
    (r.waddr.toNat % n ≠ 0 → s.watch t r = .fault .alignment r.waddr) ∧
    (∀ bs m, r.waddr.toNat % n = 0 → r.scratch = false →
      readRegistry s.ctl s.mem (s.gridOf t).fn (s.gridOf t).part r.waddr.toNat n .read = .ok bs m →
      s.watch t r = if (r.rel = 0 ∧ ofLE bs = v) ∨ (r.rel = 1 ∧ ofLE bs ≠ v) ∨ (r.rel = 2 ∧ v ≤ ofLE bs) ∨ (3 ≤ r.rel ∧ ofLE bs < v) then .holds m
        else .not m))

/-- R37, R41, R44, R197, R251, R255: records, retirement and polls. -/
def Obligations.RecordsGridsAndPolls : Prop := Claims.RecordsAreWritten ∧ Claims.GridsRetire ∧ Claims.WaitsArePolled

/-- R222, R223: SWITCH_TICK: the tenant's placed teams are to leave their cores; a save begins, of the dies that hold a core of the tenant's and the
hub die's; the partition has no turn. -/
def Claims.Ticks : Prop :=
  ∀ (s : State) (p f : Nat), Claims.Named s → Store.get none s.work.turns p = some f →
    (s.tickDue p = true → ∃ t, exec (.switchTick p) s = .next t ∧ Store.get none t.work.turns p = none ∧
      t.work.saves = s.work.saves ++ [⟨p, f, s.sched.now, s.diesOf f p ++ [4], []⟩] ∧ t.mem = s.mem ∧
      ∀ u x, s.team? u = some x → t.team? u = some (
        if (s.gridOf x).fn = f ∧ (s.gridOf x).part = p ∧ x.placed = true then { x with leaving := true, ticked := true } else x)) ∧
    (s.tickDue p = false → exec (.switchTick p) s = .next s)

/-- R220, R221, R223, R224: SAVE_SHARE_COMPLETE: the teams of a die's share are saved, until four times SAVE_DL have passed since the tick; with the last share LATE and DEBT stand in SWITCH_STAT, the
debt one microsecond for each that the save has run past SAVE_DL, and the next tenant's turn begins. -/
def Claims.SharesSave : Prop :=
  ∀ (s : State) (p d : Nat) (x : Save), s.work.saves.find? (fun y => y.part == p && y.left.contains d) = some x →
    let teams := (s.shareTeams x d).foldl (fun (a : State) t => a.saveTeam t.uid) s
    let y : Save := { x with left := x.left.filter (· != d), shares := x.shares ++ [(d, s.refTime)] }
    let late := x.start + 4 * (bits (s.ctl.switchCtlOf p).toNat 0 16 * 1000000) < s.sched.now
    ((s.shareReady x d = false ∨ late) → exec (.saveShareComplete p d) s = .next s) ∧
    (s.shareReady x d = true → ¬late → y.left ≠ [] → exec (.saveShareComplete p d) s =
      .next (teams.setWork { teams.work with saves := teams.work.saves.map (fun z => if z.part = p then y else z) })) ∧
    (s.shareReady x d = true → ¬late → y.left = [] → exec (.saveShareComplete p d) s = .next (teams.saveDone y))

/-- The lateness that a save leaves (R223). -/
def Claims.Debt : Prop :=
  ∀ (s : State) (x : Save), s.sharedVfs x.part = [] →
    let stat := (s.ctl.switchStatOf x.part).toNat
    let v := ((s.saveDone x).ctl.switchStatOf x.part).toNat
    let due := x.start + bits (s.ctl.switchCtlOf x.part).toNat 0 16 * 1000000
    bits v 0 24 = min (bits stat 0 24 + (s.sched.now - due + 999999) / 1000000) (2 ^ 24 - 1) ∧ bits v 31 1 = bits stat 31 1 ∧
    (s.saveDone x).work.saves = s.work.saves.filter (fun y => y.part != x.part)

/-- R224: SAVE_DEADLINE_EXPIRY: four times SAVE_DL after the tick the outgoing context is lost: its copies move nothing more, its cores are
reset, its teams end with CONTEXT_SAVE_TIMEOUT, the lost bit is set and the debt is 0, and the next tenant's turn begins;
before that, nothing. -/
def Claims.Deadline : Prop :=
  ∀ (s : State) (p : Nat) (x : Save), s.work.saves.find? (fun y => y.part == p) = some x →
    let due := x.start + 4 * (bits (s.ctl.switchCtlOf p).toNat 0 16 * 1000000)
    (s.sched.now < due → exec (.saveDeadlineExpiry p) s = .next s) ∧
    (due ≤ s.sched.now →
      let mine := (s.copies.map (·.2) ++ s.eng.saved).filter (fun y => y.fn == x.fn && y.part == p)
      let s1 := mine.foldl (fun (a : State) y => a.loseCopy y) s
      let s2 := (s1.ctl.coresOf x.fn p).foldl (fun (a : State) k => (a.setCore k (a.core k).wipe).setMem (a.mem.acquire k)) s1
      let s3 := s2.endTenant (fun g => g.fn == x.fn && g.part == p) 23
      let s4 := s3.setStat p (put32 (put32 (s3.ctl.switchStatOf p) 31 1 1) 0 24 0)
      exec (.saveDeadlineExpiry p) s =
        .next ((s4.setWork { s4.work with saves := s4.work.saves.filter (fun y => y.part != p) }).incoming p x.fn))

/-- R220 to R224, R266: the switch of tenants. (That a debt is the last late tenant's, that it stops at its 24 bits, what a reset of its cores
keeps, and that a tenant with too small a save area never completes its share are the model's: logs 60 to 63.) -/
def Obligations.TenantSwitch : Prop := Claims.Ticks ∧ Claims.SharesSave ∧ Claims.Debt ∧ Claims.Deadline

-- queues

/-- Registers of every queue but one are as they were; so are memory and the control registers. -/
def Claims.OtherQueues (s t : State) (fn q : Nat) : Prop :=
  (∀ f r, f * 64 + r ≠ fn * 64 + q →
    (t.devq f r).base = (s.devq f r).base ∧ (t.devq f r).ctl = (s.devq f r).ctl ∧ (t.devq f r).rd = (s.devq f r).rd ∧ (t.devq f r).k = (s.devq f r).k) ∧
  t.mem = s.mem ∧ t.ctl = s.ctl

/-- R249, R256: QKICK: an unmapped or disabled queue, and one in error, ignores it, and so does a kick that says nothing new; one outside
the queue's window stops the queue with code 2; any other becomes its kicked index. -/
def Claims.Kicks : Prop :=
  ∀ (s : State) (fn q : Nat) (w : W32),
    let x := s.devq fn q
    let good := s.running = true ∧ s.ctl.qMapped fn q = true ∧ x.en = true ∧ x.err = false
    let out := x.size < (w - x.rd).toNat ∨ (w - x.rd).toNat < (x.k - x.rd).toNat
    (¬good ∨ w = x.k → exec (.qkick fn q w) s = .next s) ∧
    (good → w ≠ x.k → ∃ t, exec (.qkick fn q w) s = .next t ∧ Claims.OtherQueues s t fn q ∧ (t.devq fn q).base = x.base ∧ (t.devq fn q).rd = x.rd ∧
      (out → (t.devq fn q).k = x.k ∧ bits (t.devq fn q).ctl.toNat 31 1 = 1 ∧ bits (t.devq fn q).ctl.toNat 28 3 = 2 ∧
        bits (t.devq fn q).ctl.toNat 0 28 = bits x.ctl.toNat 0 28) ∧
      (¬out → (t.devq fn q).k = w ∧ (t.devq fn q).ctl = x.ctl))

/-- R248, R252: a write of QCTL of a mapped queue: EN and PRIO are as written, a one at ERR clears ERR and its code; SIZE, and the PF's
K-mode bit, only while the queue is off; a queue that is enabled starts with RD and its kicked index 0. -/
def Claims.QctlWrites : Prop :=
  ∀ (s : State) (fn q : Nat) (v : W32) (i : Instr), i ∈ [.queueEnable fn q v, .queueDisable fn q v, .queueErrClear fn q v] →
    let x := s.devq fn q
    let n := v.toNat
    (s.running = false ∨ s.ctl.qMapped fn q = false → exec i s = .next s) ∧
    (s.running = true → s.ctl.qMapped fn q = true → ∃ t, exec i s = .next t ∧ Claims.OtherQueues s t fn q ∧
      let y := t.devq fn q
      bits y.ctl.toNat 0 1 = bits n 0 1 ∧ bits y.ctl.toNat 4 3 = bits n 4 3 ∧
      bits y.ctl.toNat 31 1 = (if bit n 31 then 0 else bits x.ctl.toNat 31 1) ∧ bits y.ctl.toNat 28 3 = (if bit n 31 then 0 else bits x.ctl.toNat 28 3) ∧
      bits y.ctl.toNat 8 4 = (if x.en = false ∧ bits n 8 4 ≤ 12 then bits n 8 4 else bits x.ctl.toNat 8 4) ∧
      bits y.ctl.toNat 16 1 = (if x.en = false ∧ fn = 0 then bits n 16 1 else bits x.ctl.toNat 16 1) ∧
      y.base = x.base ∧ (if x.en = false ∧ bit n 0 then y.rd = 0 ∧ y.k = 0 else y.rd = x.rd ∧ y.k = x.k))

/-- R250: QMAP_WRITE: a mapping to a device queue that is taken, of a partition or a function that is off, or of an enabled queue, is
refused with ERR; any other stands, and the registers of a queue that is unmapped read zero. -/
def Claims.QmapWrites : Prop :=
  ∀ (s : State) (fn q : Nat) (v : W32), s.running = true → fn ≤ 384 → q < 64 →
    let old := (s.ctl.qmapOf fn q).toNat
    let n := v.toNat
    let taken := ∃ e ∈ s.ctl.qmap, e.1 ≠ fn * 64 + q ∧ bit e.2.toNat 31 = true ∧ bits e.2.toNat 0 12 = bits n 0 12
    let off := if fn = 0 then s.ctl.partOn (bits n 24 4) = false else s.ctl.fnOn fn = false
    let bad := (s.devq fn q).en = true ∨ (bit n 31 = true ∧ (taken ∨ off))
    ∃ t, exec (.qmapWrite fn q v) s = .next t ∧ t.mem = s.mem ∧ (∀ k, k ≠ fn * 64 + q → Store.get 0 t.ctl.qmap k = Store.get 0 s.ctl.qmap k) ∧
      let y := (t.ctl.qmapOf fn q).toNat
      (bad → bits y 30 1 = 1 ∧ bits y 31 1 = bits old 31 1 ∧ bits y 24 4 = bits old 24 4 ∧ bits y 0 12 = bits old 0 12 ∧ t.queues = s.queues) ∧
      (¬bad → bits y 30 1 = (if bit n 30 then 0 else bits old 30 1) ∧ bits y 31 1 = bits n 31 1 ∧ bits y 24 4 = bits n 24 4 ∧ bits y 0 12 = bits n 0 12 ∧
        (bit n 31 = false → t.devq fn q = Queue.zero) ∧ (bit n 31 = true → (t.devq fn q).base = (s.devq fn q).base ∧
          (t.devq fn q).ctl = (s.devq fn q).ctl ∧ (t.devq fn q).rd = (s.devq fn q).rd ∧ (t.devq fn q).k = (s.devq fn q).k))

/-- R248 to R250, R252, R256: the queue registers. -/
def Obligations.QueueRegisters : Prop := Claims.Kicks ∧ Claims.QctlWrites ∧ Claims.QmapWrites

/-- The next packet of a queue can start: its turn has come, and the ring holds these bytes (R251, R253, R254). -/
def Claims.Starts (s : State) (fn q : Nat) (bs : List Byte) (m : Mem) : Prop :=
  s.running = true ∧ (s.packetAct fn q).isSome = true ∧ s.startWins fn q = true ∧ s.packetAt fn q = .ok bs m

/-- R30, R32, R164, R167, R251, R252, R273: the packets. A LAUNCH's grid is admitted and the packet stays until it retires, or its rejection is
recorded; a COPY joins the engine with the fewest copies, or reports at once; a BARRIER_AND waits for its handles; a SIGNAL sends
its record and its vector, but for those of a VF that host memory is closed to (R273). RD is one more as each starts. A packet that breaks a rule of its form, and a rejection whose
ring is not usable, stop the queue. -/
def Obligations.PacketsStart : Prop :=
  ∀ (s : State) (fn q : Nat) (bs : List Byte) (m : Mem), Claims.Starts s fn q bs m →
    let z := (s.setMem m).bump 1
    let part := z.ctl.qPart fn q
    -- the packet's own name
    let idx := s.fresh
    let stop (code : Nat) : State := (z.stopQueue fn q code).settleSlots
    let broken : State := ((s.setMem m).stopQueue fn q 1).settleSlots
    let ring (o : Nat) : W64 := BitVec.ofNat 64 (field bs o 8)
    let usable (r : W64) : Prop := r = 0 ∨ z.ringUsable fn part r = true
    (packetType bs = none → ∀ i ∈ [.packetLaunch fn q, .packetCopy fn q, .packetBarrierAnd fn q, .packetSignal fn q], exec i s = .next broken) ∧
    (packetType bs = some 1 →
      let d := descOf bs
      match z.launch ⟨.packet fn q idx, fn, part, decide (fn = 0) && bit (z.devq fn q).ctl.toNat 16, none, 0⟩ d false with
      | .ok (y, g) => exec (.packetLaunch fn q) s = .next (((y.advance fn q).addPacket ⟨fn, q, idx, 1, some g, []⟩).settleSlots)
      | .error st =>
        (z.ringUsable fn part d.ring = true →
          exec (.packetLaunch fn q) s = .next (((z.advance fn q).pushRec (mkRec fn part d.ring 2 st d.tag 0 0)).settleSlots)) ∧
        (z.ringUsable fn part d.ring = false → exec (.packetLaunch fn q) s = .next (stop 4))) ∧
    (packetType bs = some 2 →
      let src := field bs 0 8
      let dst := field bs 8 8
      let n := field bs 24 4
      let x := { mkCopy z.fresh (.packet fn q idx) fn part 288 (.global fn part src) (.global fn part dst) n .none with
        tag := BitVec.ofNat 32 (field bs 28 4), ring := ring 16 }
      let bad := dst % 4 ≠ 0 ∨ src % 4 ≠ 0 ∨ n % 4 ≠ 0 ∨ z.globalBad part dst ≠ none ∨ z.globalBad part src ≠ none ∨ z.enginesOf part = []
      (¬usable (ring 16) → exec (.packetCopy fn q) s = .next (stop 1)) ∧
      (usable (ring 16) → bad → exec (.packetCopy fn q) s = .next (((z.advance fn q).report (x.record 16 0)).settleSlots)) ∧
      (usable (ring 16) → ¬bad → n = 0 → exec (.packetCopy fn q) s = .next (((z.advance fn q).report (x.record 0 0)).settleSlots)) ∧
      (∀ e, usable (ring 16) → ¬bad → n ≠ 0 → z.engineFor part = .engine e → exec (.packetCopy fn q) s =
        .next (((((z.advance fn q).bump 1).post e x (lineVas dst n)).addPacket ⟨fn, q, idx, 2, none, []⟩).settleSlots))) ∧
    (packetType bs = some 3 →
      let hs := (List.range 5).map (fun i => BitVec.ofNat 64 (field bs (8 * i) 8))
      let tag := BitVec.ofNat 32 (field bs 48 4)
      let strange (h : W64) : Bool := h != 0 && (z.targetIn part h).isNone
      (¬usable (ring 40) → exec (.packetBarrierAnd fn q) s = .next (stop 1)) ∧
      (∀ i, usable (ring 40) → hs.findIdx? strange = some i → exec (.packetBarrierAnd fn q) s =
        .next (((z.advance fn q).report (mkRec fn part (ring 40) 4 1 tag (BitVec.ofNat 64 i) 0)).settleSlots)) ∧
      (usable (ring 40) → (∀ h ∈ hs, strange h = false) → exec (.packetBarrierAnd fn q) s =
        .next (((z.advance fn q).addPacket ⟨fn, q, idx, 3, none, hs ++ [ring 40, BitVec.ofNat 64 tag.toNat]⟩).settleSlots))) ∧
    (packetType bs = some 4 →
      let vec := if field bs 22 1 % 2 = 1 then some (field bs 20 2) else none
      let y := z.advance fn q
      (¬usable (ring 0) → exec (.packetSignal fn q) s = .next (stop 1)) ∧
      (ring 0 ≠ 0 → usable (ring 0) → exec (.packetSignal fn q) s = .next ((y.pushRec
        { mkRec fn part (ring 0) 4 0 (BitVec.ofNat 32 (field bs 16 4)) (BitVec.ofNat 64 (field bs 8 8)) 0 with msix := vec }).settleSlots)) ∧
      (ring 0 = 0 → exec (.packetSignal fn q) s = .next (State.settleSlots (match vec with
        | some v => if v < vectorsOf fn ∧ y.hostShut fn = false then y.emit (.msix fn v) else y
        | none => y))))

/-- R251: BARRIER_AND_COMPLETE: while a handle is not done, or a takeover awaits its validation, nothing; then the record says which of the
handles' work faulted, and the packet is complete. -/
def Claims.AndCompletes : Prop :=
  ∀ (s : State) (fn q : Nat) (p : Packet), s.queues.packets.find? (fun p => p.fn == fn && p.q == q && p.kind == 3) = some p →
    let mask := sumOf ((List.range 5).map (fun i => if s.faultBit ((p.words.take 5).getD i 0) then 2 ^ i else 0))
    (s.recsHeld = true ∨ s.andDone p = false → exec (.barrierAndComplete fn q) s = .next s) ∧
    (s.recsHeld = false → s.andDone p = true → exec (.barrierAndComplete fn q) s = .next ((State.packetOver
      (s.reportOf p.idx (mkRec fn (s.ctl.qPart fn q) (p.words.getD 5 0) 4 0 (BitVec.ofNat 32 (p.words.getD 6 0).toNat) (BitVec.ofNat 64 mask) 0)) fn q p.idx).settleSlots))

/-- R255, R306: FOREMAN_ERROR is counted; the standby takes over, one more takeover being counted, and records are held until the journal
is validated; with none the scheduler is down and the host is told. JOURNAL_VALIDATED sets RD of every enabled queue as
the journal has it, and its kicked index where no kick came since, and lets records go; with no active core it does nothing. FOREMAN_TEST makes a core that passes the standby. -/
def Claims.Foreman : Prop :=
  (∀ s : State,
    let v := s.ctl.schedStat.toNat
    ∃ t, exec .foremanError s = .next t ∧ t.mem = s.mem ∧ t.work = s.work ∧
      let y := t.ctl.schedStat.toNat
      bits t.ctl.errCnt.toNat 32 32 = min (bits s.ctl.errCnt.toNat 32 32 + 1) (2 ^ 32 - 1) ∧
      (bit v 31 = true → y = v ∧ t.out = s.out ∧ t.queues = s.queues) ∧
      (bit v 31 = false → s.queues.standby = true → bits y 31 1 = 0 ∧ bits y 30 1 = 1 ∧ bits y 29 1 = 1 - bits v 29 1 ∧
        bits y 0 16 = min (bits v 0 16 + 1) 65535 ∧ t.queues.standby = false ∧ t.queues.testing = true ∧ t.out = s.out) ∧
      (bit v 31 = false → s.queues.standby = false → bits y 31 1 = 1 ∧ t.out = s.out ++ [.msix 0 0])) ∧
  (∀ s : State, s.recsHeld = false ∨ bit s.ctl.schedStat.toNat 31 = true → exec .journalValidated s = .next s) ∧
  (∀ s : State, Claims.Named s → s.recsHeld = true → bit s.ctl.schedStat.toNat 31 = false → ∃ t, exec .journalValidated s = .next t ∧ t.recsHeld = false ∧ t.mem = s.mem ∧
    ∀ f q, q < 64 →
      let x := s.devq f q
      match s.queues.journal.find? (fun e => e.1 == f * 64 + q) with
      | some e => if x.en = true ∧ s.ctl.qMapped f q = true then (t.devq f q).rd = e.2.1 ∧ (t.devq f q).k = (if x.pend then x.k else e.2.2.1)
          else (t.devq f q).rd = x.rd ∧ (t.devq f q).k = x.k
      | none => (t.devq f q).rd = x.rd ∧ (t.devq f q).k = x.k) ∧
  (∀ (s : State) (pass : Bool), s.queues.testing = true → exec (.foremanTest pass) s =
    .next (s.setQueues { s.queues with testing := false, standby := s.queues.standby || pass })) ∧
  (∀ (s : State) (pass : Bool), s.queues.testing = false → exec (.foremanTest pass) s = .next s)

/-- R260, R261: NTL_CTL_WRITE: TAG, ONCE and EN as written, FIRED and REJ cleared by ones. NETWORK_TRIGGERED_LAUNCH: a message that matches
no armed entry is refused; else the lowest entry of the lowest function fires: FIRED is set, EN cleared where it fires once, and the grid is launched with the payload
in its first parameter bytes; messages are handled in the order of their arrival. -/
def Claims.LaunchEntries : Prop :=
  (∀ (s : State) (fn e : Nat) (v : W64), s.running = true → e < 16 → s.ctl.fnOn fn = true →
    let old := (s.ctl.ntlCtlOf fn e).toNat
    let n := v.toNat
    ∃ t, exec (.ntlCtlWrite fn e v) s = .next t ∧ t.mem = s.mem ∧
      let y := (t.ctl.ntlCtlOf fn e).toNat
      bits y 32 32 = bits n 32 32 ∧ bits y 0 2 = bits n 0 2 ∧ bits y 2 1 = (if bit n 2 then 0 else bits old 2 1) ∧
      bits y 3 1 = (if bit n 3 then 0 else bits old 3 1) ∧ bits y 8 8 = bits old 8 8) ∧
  (∀ (s : State) (fn e : Nat) (v : W64), (s.running = false ∨ 16 ≤ e ∨ s.ctl.fnOn fn = false) → exec (.ntlCtlWrite fn e v) s = .next s) ∧
  (∀ (s : State) (part : Nat) (tag : W32) (payload : W64), s.running = true → s.ctl.partOn part = true → bit (s.ctl.decliaOf part).toNat 0 = true →
    s.net.inbox = [] →
    let armed (f e : Nat) : Prop := f ∈ s.ctl.functionsOf part ∧ e < 16 ∧ bit (s.ctl.ntlCtlOf f e).toNat 0 = true ∧
      bits (s.ctl.ntlCtlOf f e).toNat 32 32 = tag.toNat
    ((∀ f e, ¬armed f e) → exec (.networkTriggeredLaunch part tag payload) s = .next (s.emit (.refused part tag))) ∧
    (∀ f e, armed f e → (∀ f2 e2, armed f2 e2 → f < f2 ∨ (f = f2 ∧ e ≤ e2)) →
      -- a firing that is held back stays, and every later message behind it
      (s.fireHeld part f e = true →
        exec (.networkTriggeredLaunch part tag payload) s = .next (s.setNet { s.net with inbox := [(part, tag, payload)] }) ∧
        ∀ (part2 : Nat) (tag2 : W32) (load2 : W64), s.ctl.partOn part2 = true → bit (s.ctl.decliaOf part2).toNat 0 = true →
          exec (.networkTriggeredLaunch part2 tag2 load2) (s.setNet { s.net with inbox := [(part, tag, payload)] }) =
          .next (s.setNet { s.net with inbox := [(part, tag, payload), (part2, tag2, load2)] })) ∧ (
      let v := s.ctl.ntlCtlOf f e
      let w := put64 v 2 1 1
      let s1 := s.setNtl f e (if bit v.toNat 1 then put64 w 0 1 0 else w)
      ∀ bs m, deviceRead s1.ctl s1.mem f part (bits (s1.ctl.ntlDescOf f e).toNat 6 51 * 64) 64 .read = .ok bs m →
        let d := descOf bs
        let s2 := s1.setMem m
        s.fireHeld part f e = false →
        match s2.launch ⟨.network, f, part, false, none, 0⟩ d true with
        | .ok (s3, g) => exec (.networkTriggeredLaunch part tag payload) s =
            .next (s3.onGrid g (fun x => { x with param := x.param.writeBytes 0 (toLE 8 payload.toNat) }))
        | .error st =>
          (s2.ringUsable f part d.ring = true → exec (.networkTriggeredLaunch part tag payload) s =
            .next (s2.pushRec (mkRec f part d.ring 2 st d.tag 0 0))) ∧
          (s2.ringUsable f part d.ring = false → exec (.networkTriggeredLaunch part tag payload) s =
            .next (s2.setNtl f e (put64 (put64 (s2.ctl.ntlCtlOf f e) 3 1 1) 8 8 st))))))

/-- R251, R255, R260, R261, R306: barrier-ands, the scheduler cores, and the launch entries. -/
def Obligations.SchedulerEvents : Prop := Claims.AndCompletes ∧ Claims.Foreman ∧ Claims.LaunchEntries

-- the links to other devices

/-- A fill handle names a tile of this device that is still its own (R228, R231): the partition's, of the handle's generation, filling. -/
def Claims.Owns (s : State) (part : Nat) (h : W64) : Prop :=
  let x := s.slot (hDie h) (hSlot h)
  hFill h = true ∧ hDevice h = s.ctl.devnum part ∧ x.part = part ∧ x.gen = hGen h ∧ x.st = .filling

/-- R228, R232, R246: HANDLE_ARRIVAL: where no thread waits for the tag the handle joins the receive queue, or is refused when 64 handles wait
there; else the thread that has waited longest, and those parked at the same instruction with it, go on with the handle in S[d]; a fill handle's slot has its new
holder. -/
def Claims.HandlesArrive : Prop :=
  (∀ (s : State) (part : Nat) (tag : W32) (h : W64), s.linked part = false → exec (.handleArrival part tag h) s = .next s) ∧
  (∀ (s : State) (part : Nat) (tag : W32) (h : W64), s.linked part = true → s.receivers part tag.toNat = [] →
    let mine := s.pairs.queue.filter (fun e => e.1 == part)
    (64 ≤ mine.length → exec (.handleArrival part tag h) s = .next (s.emit (.refused part tag))) ∧
    (mine.length < 64 → ∃ t, exec (.handleArrival part tag h) s = .next t ∧ t.pairs.queue = s.pairs.queue ++ [(part, tag, h)] ∧
      t.out = s.out ++ [.answer part 0 []] ∧ t.work = s.work ∧ t.mem = s.mem ∧
      (Claims.Owns s part h → (t.slot (hDie h) (hSlot h)).holder = .queue part) ∧
      (¬Claims.Owns s part h → t.pairs.slots = s.pairs.slots))) ∧
  (∀ (s : State) (part u i g d k : Nat) (rest : List (Nat × Nat)) (tag : W32) (h : W64) (t : Team), s.linked part = true →
    s.receivers part tag.toNat = (u, i) :: rest → s.team? u = some t → (t.thread i).st = .parked (.hrecv g d k) → t.tagged d = false →
    let mates := t.indices (fun (x : Thread) => x.st == (t.thread i).st && x.pos == (t.thread i).pos)
    exec (.handleArrival part tag h) s =
      .next (((s.giveHandle u d h).onTeam u (fun y => mates.foldl (fun (v : Team) j => v.unpark j (some h)) y)).emit (.answer part 0 []))) ∧
  (∀ (s : State) (u d : Nat) (h : W64) (t : Team), s.team? u = some t → ∃ t', (s.giveHandle u d h).team? u = some t' ∧
    Store.get 0 t'.s d = h ∧ (hFill h = true → t'.tagged d = true) ∧
    (Claims.Owns s (s.gridOf t).part h → ((s.giveHandle u d h).slot (hDie h) (hSlot h)).holder = .team u) ∧
    (¬Claims.Owns s (s.gridOf t).part h → (s.giveHandle u d h).pairs.slots = s.pairs.slots))

/-- R90, R228, R232, R245, R299: HSEND_OUTCOME ends the transfer of its name, and HSEND_TIMEOUT one past its time, as not accepted: S[d] is
0 where the handle was accepted, else the handle again, tagged if it is a fill handle, under the writes of S[d] that came later; and its
slot here has its new holder, or is abandoned where the handle can be given back to no register. An acceptance that comes after the
time is withdrawn at the device it was sent to. -/
def Claims.TransfersEnd : Prop :=
  (∀ (s : State) (id : Nat), (∀ x ∈ s.pairs.transfers, x.id ≠ id) → exec (.hsendTimeout id) s = .next s ∧
    ((∀ x ∈ s.pairs.returned, x.id ≠ id) → ∀ acc, exec (.hsendOutcome id acc) s = .next s) ∧
    (∀ x t, s.pairs.returned.find? (fun y => y.id == id) = some x → s.team? x.team = some t →
      let z := s.setPairs { s.pairs with returned := s.pairs.returned.filter (fun y => y.id != id) }
      exec (.hsendOutcome id false) s = .next z ∧ exec (.hsendOutcome id true) s = .next ((z.bump 1).emit
        (.remote (s.gridOf t).part x.dest s.fresh (.withdraw x.tag x.handle (s.ctl.devnum (s.gridOf t).part)))))) ∧
  (∀ (s : State) (id : Nat) (x : Transfer), s.pairs.transfers.find? (fun y => y.id == id) = some x →
    (s.sched.now < x.deadline → ∀ acc, exec (.hsendOutcome id acc) s = .next (s.endTransfer x acc)) ∧
    -- an outcome past the time finds the handle returned, whether or not HSEND_TIMEOUT has had its turn
    (x.deadline ≤ s.sched.now → (∀ y ∈ s.pairs.returned, y.id ≠ id) → ∀ acc t, exec (.hsendTimeout id) s = .next t →
      exec (.hsendOutcome id acc) s = exec (.hsendOutcome id acc) t) ∧
    (x.deadline ≤ s.sched.now → let z := s.endTransfer x false
      exec (.hsendTimeout id) s = .next (if x.fill then z.setPairs { z.pairs with returned := z.pairs.returned ++ [x] } else z)) ∧
    (s.sched.now < x.deadline → exec (.hsendTimeout id) s = .next s)) ∧
  (∀ (s : State) (x : Transfer) (t : Team) (acc : Bool), s.team? x.team = some t → t.uid = x.team → x.fill = hFill x.handle →
    let y := s.endTransfer x acc
    let die := hDie x.handle
    let n := hSlot x.handle
    let v : W64 := if acc then 0 else x.handle
    let here := Claims.Owns s (s.gridOf t).part x.handle
    -- the write reaches its place: under the later writes of S[d], or in S[d] itself
    let lands := if t.tagged x.d then none else t.landS x.id x.d v
    let back := t.phase = .live ∧ ∃ z, lands = some (z, true)
    y.pairs.transfers = s.pairs.transfers.filter (fun z => z.id != x.id) ∧
    (t.phase = .live → ∃ t', y.team? x.team = some t' ∧ t'.threads.length = t.threads.length ∧
      (∀ z now, lands = some (z, now) → Store.get 0 t'.s x.d = (if now then v else Store.get 0 t.s x.d) ∧
        (now = true → acc = false → x.fill = true → t'.tagged x.d = true)) ∧
      (lands = none → Store.get 0 t'.s x.d = Store.get 0 t.s x.d)) ∧
    (x.fill = false → y.slot die n = s.slot die n) ∧
    (here → acc = true → (y.slot die n).holder = .remote x.dest) ∧
    (here → acc = false → back → (y.slot die n).holder = .team x.team) ∧
    (here → acc = false → ¬back → (y.slot die n).st = .abandoned))

/-- R290, R291: PEER_LOST takes a device out of the partition's peer table; requests to it that have no outcome fail. PEER_RETURN puts it
back. -/
def Claims.PeersComeAndGo : Prop :=
  (∀ (s : State) (part dev : Nat), dev ∉ s.peersOf part → exec (.peerLost part dev) s = .next s) ∧
  (∀ (s : State) (part dev : Nat), dev ∈ s.peersOf part → ∃ t, exec (.peerLost part dev) s = .next t ∧
    t.peersOf part = (s.peersOf part).filter (· != dev) ∧
    (∀ x ∈ t.net.requests, x.part = part → x.dest = dev → x.opc ≠ 3 → x.outcome ≠ none)) ∧
  (∀ (s : State) (part dev : Nat),
    let comes := s.linked part = true ∧ dev ≠ s.ctl.devnum part ∧ dev ∉ s.peersOf part
    (¬comes → exec (.peerReturn part dev) s = .next s) ∧
    (comes → exec (.peerReturn part dev) s =
      .next (s.setNet { s.net with peers := Store.set [] s.net.peers part (insertNat dev (s.peersOf part)) })))

/-- R231, R232, R245, R246, R290, R291, R299: handles between devices, and lost peers. -/
def Claims.HandlesBetweenDevices : Prop := Claims.HandlesArrive ∧ Claims.TransfersEnd ∧ Claims.PeersComeAndGo

/-- R293, R294: COLLECTIVE_RESULT: the next round's result of an element: the thread whose load waits for that round goes on with it; else the
REDUCE that takes that round has it written; else it is kept. Saturation is recorded in the entry. -/
def Claims.ResultsArrive : Prop :=
  ∀ (s : State) (fn e i : Nat) (v : W64) (sat : Bool),
    let en := s.running = true ∧ bit (s.ctl.collApOf fn e).toNat 0 = true
    let key := elemKey fn e i
    let n := Store.get 0 s.net.delivered key
    let s1 := s.setNet { s.net with delivered := Store.set 0 s.net.delivered key (n + 1) }
    let s2 := if sat then s1.setCtl { s1.ctl with collAp := Store.set 0 s1.ctl.collAp (fn * 256 + e) (put64 (s1.ctl.collApOf fn e) 63 1 1) } else s1
    let here (x : Thread) : Bool := x.st == .parked (.aperture e i n)
    let loads := s.teams.find? (fun t => (s.gridOf t).fn == fn && t.threads.any here)
    let reduce := s.net.requests.find? (fun x => x.fn == fn && x.opc == 3 && x.entry == e && x.rounds.contains (i, n))
    (¬en → exec (.collectiveResult fn e i v sat) s = .next s) ∧
    (∀ t, en → loads = some t → exec (.collectiveResult fn e i v sat) s =
      .next (s2.onTeam t.uid (fun y => (y.indices here).foldl (fun (a : Team) j => a.unpark j (some v)) y))) ∧
    (∀ x z, en → loads = none → reduce = some x → s2.deliverTo x i n v sat = some z → exec (.collectiveResult fn e i v sat) s = .next z) ∧
    -- where a page or a line holds the REDUCE's write back, the result waits there or comes again
    (∀ x, en → loads = none → reduce = some x → s2.deliverTo x i n v sat = none →
      exec (.collectiveResult fn e i v sat) s = .next ((s2.resultWrite x i v).hold s (.collectiveResult fn e i v sat))) ∧
    (en → loads = none → reduce = none → exec (.collectiveResult fn e i v sat) s =
      .next (s2.setNet { s2.net with results := s2.net.results ++ [(key, n, v, sat)] }))

/-- The transport has visited a ring, or the trigger queue as ring 64, and visits the one after it next (R296). -/
def Claims.visited (s : State) (fn ring : Nat) : State := s.setNet { s.net with visit := Store.set 0 s.net.visit fn ((ring + 1) % 65) }

/-- R295, R296, R298: WORK_REQUEST_START: the rings are visited in ascending number and then the trigger queue, one request at each visit,
those passed over that have none which can start; a visit starts the first request of the trigger queue, or the next of a ring whose
header allows one; a header or a request that cannot be read or breaks a rule turns the ring off. -/
def Claims.RequestsStart : Prop :=
  (∀ (s : State) (fn ring : Nat), s.running = false ∨ s.ctl.fnOn fn = false ∨ s.nextVisit fn ≠ some ring →
    exec (.workRequestStart fn ring) s = .next s) ∧
  (∀ (s : State) (fn k : Nat), k < 65 → let r (j : Nat) : Nat := (Store.get 0 s.net.visit fn + j) % 65
    s.canStart fn (r k) = true → (∀ j, j < k → s.canStart fn (r j) = false) → s.nextVisit fn = some (r k)) ∧
  (∀ (s : State) (fn : Nat), s.running = true → s.ctl.fnOn fn = true → s.nextVisit fn = some 64 →
    ∀ x t, s.net.fired.find? (fun x => x.1 == fn) = some x →
      (s.setNet { s.net with fired := s.net.fired.erase x }).beginRequest fn x.2.2 none x.2.1 = some t →
      exec (.workRequestStart fn 64) s = .next (Claims.visited t fn 64)) ∧
  (∀ (s : State) (fn ring : Nat) (hb : List Byte) (m : Mem), s.running = true → s.ctl.fnOn fn = true → ring < 64 → s.nextVisit fn = some ring →
    let part := s.netPart fn
    let base := bits (s.ctl.wqRingOf fn ring).toNat 6 51 * 64
    let off := s.setCtl { s.ctl with wqRing := Store.set 0 s.ctl.wqRing (fn * 64 + ring) (put64 (s.ctl.wqRingOf fn ring) 0 1 0) }
    deviceRead s.ctl s.mem fn part base 64 .read = .ok hb m →
      (wqHead hb = none → exec (.workRequestStart fn ring) s = .next (Claims.visited off fn ring)) ∧
      (∀ prod cons l, wqHead hb = some (prod, cons, l) →
        let n := cons + (s.net.requests.filter (fun x => x.fn == fn && x.ring == some ring)).length
        let at_ := base + 64 + 64 * (n % 2 ^ l)
        n < prod ∧
        (∀ e, deviceRead s.ctl m fn part at_ 64 .read = .fault e → exec (.workRequestStart fn ring) s = .next (Claims.visited off fn ring)) ∧
        (∀ bs m1 t, deviceRead s.ctl m fn part at_ 64 .read = .ok bs m1 →
          (s.setMem m1).beginRequest fn part (some ring) bs = some t → exec (.workRequestStart fn ring) s = .next (Claims.visited t fn ring)))) ∧
  (∀ (s : State) (fn part : Nat) (ring : Option Nat) (bs : List Byte),
    let x : Request := { id := s.fresh, fn := fn, ring := ring, bytes := bs, part := part, sat := false, rounds := [], outcome := none
                         base := match ring with | some r => s.wqBase fn r | none => 0 }
    let add (a : State) (y : Request) : State := (a.bump 1).setNet { a.net with requests := a.net.requests ++ [y] }
    (s.requestBad x = true → s.beginRequest fn part ring bs = some (add s { x with outcome := some (.faulted 6) })) ∧
    (s.requestBad x = false → x.opc = 2 → s.beginRequest fn part ring bs =
      some ((add s x).emit (.remote part x.dest s.fresh (.get fn [(BitVec.ofNat 64 x.raddr, x.count)])))) ∧
    (s.requestBad x = false → x.opc = 4 → s.beginRequest fn part ring bs =
      some ((add s x).emit (.message part x.dest (BitVec.ofNat 32 (field bs 24 4)) (BitVec.ofNat 64 x.raddr)))) ∧
    (∀ data m, s.requestBad x = false → x.opc = 1 → deviceRead s.ctl s.mem fn part x.laddr x.count .read = .ok data m →
      s.beginRequest fn part ring bs = some ((add (s.setMem m) x).emit (.remote part x.dest s.fresh (.put fn [(BitVec.ofNat 64 x.raddr, data)])))) ∧
    (∀ e, s.requestBad x = false → x.opc = 1 → deviceRead s.ctl s.mem fn part x.laddr x.count .read = .fault e →
      s.beginRequest fn part ring bs = some (add s { x with outcome := some (.faulted e.num) })))

/-- R207, R295, R296: WORK_REQUEST_COMPLETE: a request that has an outcome, a failing one, or a TAGMSG, leaves; its ring's CONS advances; its record
has kind 6, the status, the bytes moved or the code, and its trigger counter. (The VALUE of a saturated REDUCE is open, log 26.) -/
def Claims.RequestsEnd : Prop :=
  (∀ (s : State) (id : Nat) (how : WqEnd), (∀ x ∈ s.net.requests, x.id ≠ id) → exec (.workRequestComplete id how) s = .next s) ∧
  (∀ (s : State) (id : Nat) (how : WqEnd) (x : Request), s.net.requests.find? (fun x => x.id == id) = some x →
    (x.outcome = none → (how = .ok ∨ how = .saturated) → x.opc ≠ 4 → exec (.workRequestComplete id how) s = .next s) ∧
    -- no failure has a number that is no fault code (R207)
    (∀ c, x.outcome = none → (how = .refused c ∨ how = .faulted c) → Code.ofNum c = none → exec (.workRequestComplete id how) s = .next s) ∧
    (x.outcome ≠ none ∨ (∃ c, (how = .refused c ∨ how = .faulted c) ∧ Code.ofNum c ≠ none) ∨ ((how = .ok ∨ how = .saturated) ∧ x.opc = 4) →
      s.consStop x = none →
      ∃ r, exec (.workRequestComplete id how) s =
          .next (((s.setNet { s.net with requests := s.net.requests.filter (fun y => y.id != id) }).advanceCons x).sendRec x.id r) ∧ r.kind = 6 ∧ r.fn = x.fn ∧ r.ring = BitVec.ofNat 64 (field x.bytes 32 8) ∧
        r.tag = BitVec.ofNat 32 (field x.bytes 24 4) ∧ r.trig = (if bit (field x.bytes 1 1) 7 then some (field x.bytes 1 1 % 64) else none) ∧
        (match x.outcome.getD how with
          | .ok => if x.sat then r.status = 17 else r.status = 0 ∧ r.value = BitVec.ofNat 64 (if x.opc = 4 then 0 else x.count)
          | .saturated => r.status = 17
          | .refused c => r.status = 16 ∧ r.value = BitVec.ofNat 64 (256 + c % 256)
          | .faulted c => r.status = 16 ∧ r.value = BitVec.ofNat 64 (c % 256))))

/-- R174, R207, R247, R273, R296: RANK_ACKNOWLEDGEMENT answers the copy, else the thread, else the request whose access it names: a code fails it, the
data of a GET is written at LADDR, and anything else has moved. -/
def Claims.AnswersArrive : Prop :=
  ∀ (s : State) (id code : Nat) (data : List Byte),
    let wait := s.net.waits.find? (fun w => w.id == id && w.answer.isNone)
    let req := s.net.requests.find? (fun x => x.id == id && x.outcome.isNone)
    let known := code = 0 ∨ Code.ofNum code ≠ none
    -- no device answers with a number that is no fault code (R207)
    (¬known → exec (.rankAcknowledgement id code data) s = .next s) ∧ (known →
    (∀ e x, s.copyNamed id = some (e, x) → exec (.rankAcknowledgement id code data) s = .next (s.answerCopy e x code data)) ∧
    (∀ w, s.copyNamed id = none → wait = some w → exec (.rankAcknowledgement id code data) s = .next (s.answerWait w code data)) ∧
    (s.copyNamed id = none → wait = none → req = none → exec (.rankAcknowledgement id code data) s = .next s) ∧
    (∀ x, s.copyNamed id = none → wait = none → req = some x →
      (code ≠ 0 → exec (.rankAcknowledgement id code data) s = .next (s.endRequest id (.refused code))) ∧
      (code = 0 → x.opc ≠ 2 → exec (.rankAcknowledgement id code data) s = .next (s.endRequest id .ok)) ∧
      let got := s.requestWrite x x.laddr (data.take x.count)
      -- what a function that was stopped meanwhile would write to host memory is dropped (R273)
      (s.eng.cut.contains x.id = false → got = deviceWrite s.ctl s.mem x.fn x.part x.laddr .write (data.take x.count)) ∧
      (∀ m, code = 0 → x.opc = 2 → got = .ok () m → exec (.rankAcknowledgement id code data) s = .next ((s.setMem m).endRequest id .ok)) ∧
      (∀ e, code = 0 → x.opc = 2 → got = .fault e → exec (.rankAcknowledgement id code data) s = .next (s.endRequest id (.faulted e.num)))))

/-- R247, R293 to R296, R298: collective results, work requests and answers. (That a request which cannot be read turns its ring off is the
model's reading, log 42.) -/
def Obligations.RequestsAndAnswers : Prop := Claims.ResultsArrive ∧ Claims.RequestsStart ∧ Claims.RequestsEnd ∧ Claims.AnswersArrive

/-- What an access of a peer answers, its checks passed (R236 to R242, R247, R296). -/
def Claims.PeerAccess (s : State) (part : Nat) : RemoteAccess → State → Prop
  | .stFh h tg off al data, t => ∃ die n m, s.homeCheck part h tg .fill = .ok (die, n) ∧
      let x := s.slot die n
      tileOk x off data.length al = none ∧ deviceWrite s.ctl s.mem x.fn x.part (x.base.toNat + off) .fillWrite data = .ok () m ∧
        t = (s.setMem m).emit (.answer part 0 [])
  | .ldFh h tg off k al, t => ∃ die n bs m, s.homeCheck part h tg .fill = .ok (die, n) ∧
      let x := s.slot die n
      tileOk x off k al = none ∧ deviceRead s.ctl s.mem x.fn x.part (x.base.toNat + off) k .read = .ok bs m ∧ t = (s.setMem m).emit (.answer part 0 bs)
  | .ldsee h off k al, t => ∃ die n, s.homeCheck part h false .seeRead = .ok (die, n) ∧ tileOk (s.slot die n) off k al = none ∧
      t = (s.setNet { s.net with sees := s.net.sees ++ [⟨part, h, off, k, true⟩] }).answerSee ⟨part, h, off, k, true⟩
  | .copyFrom h off k, t => ∃ die n, s.homeCheck part h false .seeRead = .ok (die, n) ∧ tileOk (s.slot die n) off k 4 = none ∧
      t = (s.setNet { s.net with sees := s.net.sees ++ [⟨part, h, off, k, false⟩] }).answerSee ⟨part, h, off, k, false⟩
  | .copyTo h tg off k, t => ∃ die n, s.homeCheck part h tg .fill = .ok (die, n) ∧ tileOk (s.slot die n) off k 4 = none ∧
      t = s.emit (.answer part 0 [])
  | .pass h tg, t => ∃ r, s.homeCheck part h tg .either = .ok r ∧ t = s.emit (.answer part 0 [])
  | .hold h dev, t => t = if dev = s.ctl.devnum part then s else s.heldBy part h (.remote dev)
  | .abandon h, t => Claims.Owns s part h ∧ hSeal h = Config.cmac (s.sealKey (hDie h)) (hBody h) ∧ t = s.abandonSlot (hDie h) (hSlot h)
  | .withdraw tag h dev, t => (part, tag, h) ∈ s.pairs.queue ∧
      t = (s.setPairs { s.pairs with queue := s.pairs.queue.erase (part, tag, h) }).heldBy part h (.remote dev)
  | .drop h tg, t => ∃ die n, s.homeCheck part h tg .fill = .ok (die, n) ∧ t = (s.sealSlot die n).emit (.answer part 0 [])
  | .seeh h tg rights, t => ∃ die n, s.homeCheck part h tg .either = .ok (die, n) ∧ (s.slot die n).st ≠ .free ∧ bit rights 2 = false ∧
      (hFill h = true ∨ ∀ i, i < 3 → bit rights i = true → bit (hRights h) i = true) ∧
      t = s.emit (.answer part 0 (toLE 8 (s.mkHandle false (hDevice h) die n (s.slot die n).gen rights).toNat))
  | .free _, _ => False
  | .put fn pieces, t => ∃ va bs m, pieces = [(va, bs)] ∧ s.reachable part fn = true ∧ deviceWrite s.ctl s.mem fn part va.toNat .write bs = .ok () m ∧
      t = (s.setMem m).emit (.answer part 0 [])
  | .get fn pieces, t => ∃ va n bs m, pieces = [(va, n)] ∧ s.reachable part fn = true ∧ deviceRead s.ctl s.mem fn part va.toNat n .read = .ok bs m ∧
      t = (s.setMem m).emit (.answer part 0 bs)

/-- What it answers where it is refused: the code and the fault address (R231, R242, R247). -/
def Claims.PeerRefused (s : State) (part : Nat) : RemoteAccess → Code × W64 → Prop
  | .stFh h tg off al data, e => (∃ c, s.homeCheck part h tg .fill = .error c ∧ e = (c, h)) ∨
      ∃ die n, s.homeCheck part h tg .fill = .ok (die, n) ∧ tileOk (s.slot die n) off data.length al = some e
  | .ldFh h tg off k al, e => (∃ c, s.homeCheck part h tg .fill = .error c ∧ e = (c, h)) ∨
      ∃ die n, s.homeCheck part h tg .fill = .ok (die, n) ∧ tileOk (s.slot die n) off k al = some e
  | .ldsee h off k al, e => (∃ c, s.homeCheck part h false .seeRead = .error c ∧ e = (c, h)) ∨
      ∃ die n, s.homeCheck part h false .seeRead = .ok (die, n) ∧ tileOk (s.slot die n) off k al = some e
  | .copyFrom h off k, e => (∃ c, s.homeCheck part h false .seeRead = .error c ∧ e = (c, h)) ∨
      ∃ die n, s.homeCheck part h false .seeRead = .ok (die, n) ∧ tileOk (s.slot die n) off k 4 = some e
  | .copyTo h tg off k, e => (∃ c, s.homeCheck part h tg .fill = .error c ∧ e = (c, h)) ∨
      ∃ die n, s.homeCheck part h tg .fill = .ok (die, n) ∧ tileOk (s.slot die n) off k 4 = some e
  | .pass h tg, e => ∃ c, s.homeCheck part h tg .either = .error c ∧ e = (c, h)
  | .hold _ _, _ => False
  | .abandon _, _ => False
  | .withdraw _ _ _, _ => False
  | .drop h tg, e => ∃ c, s.homeCheck part h tg .fill = .error c ∧ e = (c, h)
  | .seeh h tg rights, e => (∃ c, s.homeCheck part h tg .either = .error c ∧ e = (c, h)) ∨
      (∃ r, s.homeCheck part h tg .either = .ok r) ∧ bit rights 2 = true ∧ e = (.access, 0)
  | .free h, e => (∃ c, s.homeCheck part h false .seeFree = .error c ∧ e = (c, h)) ∨ (∃ r, s.homeCheck part h false .seeFree = .ok r) ∧ e = (.access, 0)
  | .put fn pieces, e => s.reachable part fn = false ∧ e = (.access, (pieces.map (·.1)).headD 0)
  | .get fn pieces, e => s.reachable part fn = false ∧ e = (.access, (pieces.map (·.1)).headD 0)

/-- R231, R236 to R242, R247, R296: REMOTE_ACCESS_ARRIVAL: in a partition that takes part in a domain, a peer's access through a handle homed
here, and the pieces of its requests, are performed or refused, and answered; an access through a fill handle waits behind those
through it that came before and wait. (A peer's see-load carries no class, and none is checked: log 99.) -/
def Claims.PeersAccesses : Prop :=
  ∀ (s : State) (part : Nat) (acc : RemoteAccess),
    (s.linked part = false → exec (.remoteAccessArrival part acc) s = .next s) ∧
    (s.linked part = true → (∃ h, fillOf acc = some h ∧ s.behindFill part acc h = true) → exec (.remoteAccessArrival part acc) s =
      .next ((s.fillWaits part acc).holdFor (s.fillPage acc) (.remoteAccessArrival part acc))) ∧
    (s.linked part = true → (∀ h, fillOf acc = some h → s.behindFill part acc h = false) →
      -- it waits no more
      let z := if (fillOf acc).isSome then s.setNet { s.net with fhWait := s.net.fhWait.erase (part, acc) } else s
      (∀ t, Claims.PeerAccess z part acc t → exec (.remoteAccessArrival part acc) s = .next t) ∧
      (∀ e, Claims.PeerRefused z part acc e → exec (.remoteAccessArrival part acc) s = .next (z.answerFault part e.1 e.2)))

-- power, shares, keys, moves, the host's memory

/-- R17, R278, R279: PWR_CTL takes a write whose limits are in range. POWER_EPOCH, once in a microsecond of a running device: the credit rises or falls by what the module drew below or above its
sustained limit; each slice is granted what it demands or a twelfth of what there is, and its share of what is spare, never beyond
its demand, all grants together no more than there is; its level moves by at most one. (Demands and estimates are the
estimators', whole watts are granted: log 25.) -/
def Claims.PowerEvents : Prop :=
  (∀ (s : State) (v : W32),
    let sust := v.toNat % 65536
    let peak := v.toNat / 65536
    let good := s.running = true ∧ 1 ≤ sust ∧ sust ≤ 3000 ∧ peak ≤ 3600 ∧ sust ≤ peak
    (good → exec (.pwrCtlWrite v) s = .next (s.setCtl { s.ctl with pwrCtl := v })) ∧ (¬good → exec (.pwrCtlWrite v) s = .next s)) ∧
  (∀ (s : State) (p h : Nat), s.powerDue = false → exec (.powerEpoch p h) s = .next s) ∧
  (∀ (s : State) (p h : Nat), s.powerDue = true →
    -- every core's cycles before the epoch have passed
    let z := (List.range 288).foldl State.catchUp s
    ∃ t, exec (.powerEpoch p h) s = .next t ∧ t = (z.setCtl t.ctl).setSched { z.sched with powered := (z.sched.now - z.sched.startAt) / 1000000 } ∧
    let sust := z.ctl.pwrCtl.toNat % 65536
    let peak := z.ctl.pwrCtl.toNat / 65536
    let grant (x : Nat) : Nat := bits (t.ctl.slicePwrOf x).toNat 48 16
    let demand (x : Nat) : Nat := min 65535 (Config.demand x z.sched.tick)
    let avail := (if t.ctl.pwrStat = 0 then sust else peak) - h
    t.ctl.pwrStat.toNat = min ((peak - sust) * 10000) (z.ctl.pwrStat.toNat + sust - p) ∧ t.ctl.pwrCtl = z.ctl.pwrCtl ∧
    sumOf ((List.range 12).map grant) ≤ avail ∧
    ∀ x, x < 12 →
      let old := z.ctl.level x
      let new := t.ctl.level x
      let est (l : Nat) : Nat := Config.estimate x l z.sched.tick
      bits (t.ctl.slicePwrOf x).toNat 32 16 = demand x ∧ min (demand x) (avail / 12) ≤ grant x ∧ grant x ≤ demand x ∧
      (grant x < est old ∧ old < 6 → new = old + 1) ∧
      (¬(grant x < est old ∧ old < 6) → 0 < old → 10 * est (old - 1) ≤ 9 * grant x → new = old - 1) ∧
      (¬(grant x < est old ∧ old < 6) → ¬(0 < old ∧ 10 * est (old - 1) ≤ 9 * grant x) → new = old) ∧ new ≤ old + 1 ∧ old ≤ new + 1)

/-- R269, R274: L2_WAY_EPOCH, once the cycle in which an epoch of 100 µs ends is over: with every function's FLOOR met, one that could use more ways and has the largest gain takes a free way; where none
is free it takes one from the function of the smallest loss that is above its FLOOR, if its gain exceeds that loss; each function
gains or loses at most one way; the counts of the slice are clear. -/
def Claims.L2WaysMove : Prop :=
  ∀ (s : State) (x : Nat),
    let ended := (s.sched.now - s.sched.startAt - 250) / 100000000
    let due := Store.get 0 s.sched.waysAt x < ended
    (¬due → exec (.l2WayEpoch x) s = .next s) ∧
    (due → s.ctl.partOfSlice x = none → exec (.l2WayEpoch x) s = .next (s.setSched { s.sched with waysAt := Store.set 0 s.sched.waysAt x ended })) ∧
    (∀ part, due → s.ctl.partOfSlice x = some part →
      let fs := s.ctl.functionsOf part
      let ways (f : Nat) : Nat := s.ctl.waysOf x f
      let gain (f : Nat) : Nat := (Store.get (0, 0) s.mem.gains (x * 1024 + f)).1
      let loss (f : Nat) : Nat := (Store.get (0, 0) s.mem.gains (x * 1024 + f)).2
      (∀ f ∈ fs, f < 1024) → (∀ f ∈ fs, s.ctl.floorOf f ≤ ways f ∧ ways f ≤ 24) →
      ∃ t, exec (.l2WayEpoch x) s = .next t ∧ Store.get 0 t.sched.waysAt x = ended ∧
        (∀ f, (Store.get (0, 0) t.mem.gains (x * 1024 + f)).1 = 0 ∨ 1024 ≤ f) ∧ t.mem.hbm = s.mem.hbm ∧ t.mem.l1 = s.mem.l1 ∧
        (∀ f ∈ fs, t.ctl.waysOf x f ≤ ways f + 1 ∧ ways f ≤ t.ctl.waysOf x f + 1) ∧
        ((∀ f ∈ fs, gain f = 0) → ∀ f ∈ fs, t.ctl.waysOf x f = ways f) ∧
        (∀ g ∈ fs, ways g < s.ctl.ceilOf g → 0 < gain g →
          (∀ f ∈ fs, f ≠ g → ways f < s.ctl.ceilOf f → gain f < gain g ∨ (gain f = gain g ∧ g < f)) →
          (0 < s.ctl.freeWays x fs → t.ctl.waysOf x g = ways g + 1) ∧
          (∀ l ∈ fs, s.ctl.freeWays x fs = 0 → l ≠ g → s.ctl.floorOf l < ways l → loss l < gain g →
            (∀ f ∈ fs, f ≠ g → f ≠ l → s.ctl.floorOf f < ways f → loss l < loss f ∨ (loss l = loss f ∧ f < l)) →
            t.ctl.waysOf x g = ways g + 1 ∧ t.ctl.waysOf x l + 1 = ways l)))

/-- R132, R133: KEY_CMD and SCRUB_CTL: a one at ERR clears it; GO with nothing under way and its rules met begins; else it sets ERR.
KEY_LOAD_DONE: the slot holds another key, GO and the key data are clear. SCRUB_FRAME_DONE: the frame has its new key and
reads as zero; with the last frame GO clears. -/
def Claims.KeysAndScrubs : Prop :=
  (∀ (s : State) (v : W32), s.running = true →
    let n := v.toNat
    let go := bit n 31 = true
    let bad := bits n 0 11 = 0 ∨ s.mem.keyLoad.isSome = true
    ∃ t, exec (.keyLoad v) s = .next t ∧ bits t.ctl.keyCmd.toNat 0 11 = bits n 0 11 ∧
      bits t.ctl.keyCmd.toNat 30 1 = (if go ∧ bad then 1 else if bit n 30 then 0 else bits s.ctl.keyCmd.toNat 30 1) ∧
      (if go ∧ ¬bad then t = (s.setCtl t.ctl).setMem { s.mem with keyLoad := some (bits n 0 11) } ∧ bits t.ctl.keyCmd.toNat 31 1 = 1
        else t = s.setCtl t.ctl ∧ bits t.ctl.keyCmd.toNat 31 1 = bits s.ctl.keyCmd.toNat 31 1)) ∧
  (∀ s : State, s.mem.keyLoad = none → exec .keyLoadDone s = .next s) ∧
  (∀ (s : State) (k : Nat), s.mem.keyLoad = some k → ∃ t, exec .keyLoadDone s = .next t ∧ t.mem.keyLoad = none ∧
    Store.get 0 t.mem.keyLoads k = Store.get 0 s.mem.keyLoads k + 1 ∧ (∀ j, j ≠ k → Store.get 0 t.mem.keyLoads j = Store.get 0 s.mem.keyLoads j) ∧
    bits t.ctl.keyCmd.toNat 31 1 = 0 ∧ t.ctl.keyData = [] ∧ t.mem.hbm = s.mem.hbm) ∧
  (∀ (s : State) (v : W32), s.running = true →
    let n := v.toNat
    let go := bit n 31 = true
    let first := bits s.ctl.scrubAddr.toNat 16 36
    let count := bits n 0 16
    let bad := s.mem.scrub.isSome = true ∨ count = 0 ∨ 12 ≤ first / 2 ^ 20 ∨ first / 2 ^ 20 ≠ (first + count - 1) / 2 ^ 20
    ∃ t, exec (.scrub v) s = .next t ∧ bits t.ctl.scrubCtl.toNat 0 16 = count ∧ bits t.ctl.scrubCtl.toNat 16 11 = bits n 16 11 ∧
      bits t.ctl.scrubCtl.toNat 30 1 = (if go ∧ bad then 1 else if bit n 30 then 0 else bits s.ctl.scrubCtl.toNat 30 1) ∧
      (if go ∧ ¬bad then t = (s.setCtl t.ctl).setMem { s.mem with scrub := some (first, count, bits n 16 11) } ∧ bits t.ctl.scrubCtl.toNat 31 1 = 1
        else t = s.setCtl t.ctl)) ∧
  (∀ s : State, s.mem.scrub = none → exec .scrubFrameDone s = .next s) ∧
  (∀ (s : State) (frame left key : Nat), s.mem.scrub = some (frame, left, key) →
    ∃ t, exec .scrubFrameDone s = .next t ∧ Store.get 0 t.mem.frameKey frame = key ∧
      (∀ a, Store.get 0 t.mem.hbm a = if a / 65536 = frame then 0 else Store.get 0 s.mem.hbm a) ∧
      (∀ l ∈ t.mem.poison, l / 512 ≠ frame) ∧
      (left ≤ 1 → t.mem.scrub = none ∧ bits t.ctl.scrubCtl.toNat 31 1 = 0) ∧ (1 < left → t.mem.scrub = some (frame + 1, left - 1, key) ∧ t.ctl = s.ctl))

/-- R137: MIGRATION_RECALL_DONE: the words of a moving page that cores own are written to the registry, none is cached, and the page is
recalled. -/
def Claims.MovesRecall : Prop :=
  (∀ (s : State) (fn page : Nat), (∀ x ∈ s.mem.moves, (x.covers fn page && !x.recalled) = false) → exec (.migrationRecallDone fn page) s = .next s) ∧
  (∀ (s : State) (fn page : Nat) (x : Migration), s.mem.moves.find? (fun x => x.covers fn page && !x.recalled) = some x →
    ∃ t, exec (.migrationRecallDone fn page) s = .next t ∧ t.ctl = s.ctl ∧ t.work = s.work ∧
      (∀ y ∈ t.mem.moves, y.fn = x.fn → y.page = x.page → y.recalled = true) ∧
      t.mem = { s.mem.recallPage x (s.inMoving x) with moves := t.mem.moves } ∧ (∀ f ∈ t.mem.flights, f ∈ s.mem.flights ∧
        ∀ w, Store.get none s.mem.l1 f.key = some w → w.owned = true → inMove x f.key = false))

/-- R128, R137, R287, R288: HOST_MEM_READ of bytes of one stack: what the registries record; all ones, marked poisoned, where a frame bars the host; bytes the spec does not give (log 43), marked poisoned, where a
line is poisoned. HOST_MEM_WRITE writes at the registries, no core keeping the words, and drops what a frame that bars the
host would have had; in its own memory the host's write stands where the device's reads find it. What a moving page, a scrub or a claim
holds back is queued or comes again. -/
def Claims.HostMemory : Prop :=
  (∀ (s : State) (pa n : Nat), s.running = false ∨ hbmRange pa n = false → exec (.hostMemRead pa n) s = .next s) ∧
  (∀ (s : State) (pa : Nat) (d : List Byte), s.running = false ∨ hbmRange pa d.length = false → exec (.hostMemWrite ⟨false, pa⟩ d) s = .next s) ∧
  (∀ (s : State) (pa n : Nat) (t : State), s.running = true → hbmRange pa n = true → s.hostWait (linesOf false pa n) (.hostMemRead pa n) = some t →
    exec (.hostMemRead pa n) s = .next t) ∧
  (∀ (s : State) (pa n : Nat), s.running = true → hbmRange pa n = true → s.hostWait (linesOf false pa n) (.hostMemRead pa n) = none →
    let barred := ∃ a ∈ framesOf pa n, s.hostBarred a = true
    let bad := ∃ a ∈ linesOf false pa n, s.mem.poisonedAt a = true
    (barred → exec (.hostMemRead pa n) s = .next (s.emit (.hostRead pa (List.replicate n 255) true))) ∧
    (¬barred → bad → ∃ d, d.length = n ∧ exec (.hostMemRead pa n) s = .next (s.emit (.hostRead pa d true))) ∧
    (¬barred → ¬bad → exec (.hostMemRead pa n) s = .next (s.emit (.hostRead pa (s.mem.regRead ⟨false, pa⟩ n) false)))) ∧
  (∀ (s : State) (pa : Nat) (d : List Byte), s.running = true → hbmRange pa d.length = true →
    (∀ t, s.hostWait (linesOf false pa d.length) (.hostMemWrite ⟨false, pa⟩ d) = some t → exec (.hostMemWrite ⟨false, pa⟩ d) s = .next t) ∧
    (s.hostWait (linesOf false pa d.length) (.hostMemWrite ⟨false, pa⟩ d) = none →
      ((∃ a ∈ framesOf pa d.length, s.hostBarred a = true) → exec (.hostMemWrite ⟨false, pa⟩ d) s = .next s) ∧
      ((∀ a ∈ framesOf pa d.length, s.hostBarred a = false) → exec (.hostMemWrite ⟨false, pa⟩ d) s =
        .next (s.setMem ((s.mem.regBytes ⟨false, pa⟩ d).cleanLines pa d.length))))) ∧
  -- the host writes its own memory at any time
  (∀ (s : State) (pa : Nat) (d : List Byte), pa + d.length ≤ 2 ^ 52 →
    (∀ t, s.hostWait (linesOf true pa d.length) (.hostMemWrite ⟨true, pa⟩ d) = some t → exec (.hostMemWrite ⟨true, pa⟩ d) s = .next t) ∧
    (s.hostWait (linesOf true pa d.length) (.hostMemWrite ⟨true, pa⟩ d) = none → exec (.hostMemWrite ⟨true, pa⟩ d) s =
      .next (s.setMem (s.mem.regBytes ⟨true, pa⟩ d)))) ∧
  (∀ (s : State) (pa : Nat) (d : List Byte), 2 ^ 52 < pa + d.length → exec (.hostMemWrite ⟨true, pa⟩ d) s = .next s)

/-- R128, R132, R133, R137, R287: keys, scrubs, moves, and the host's accesses. -/
def Obligations.KeysMovesAndHostMemory : Prop := Claims.KeysAndScrubs ∧ Claims.MovesRecall ∧ Claims.HostMemory

-- partitions, functions, registers

/-- R250, R262, R264, R268: a write of PART_CTL: of an enabled partition only EN and ERR change, and it is disabled only when idle; a new partition
starts at a multiple of its size, in slices no partition has. Refused, the write sets ERR and nothing else; taken, its fields
stand. A new partition has its barriers zero, an empty receive queue, and the PF's FLOOR ways in each slice; a removed one
has no queued handle and no way held. -/
def Claims.PartitionsChange : Prop :=
  ∀ (s : State) (x : Nat) (v : W32) (i : Instr), i ∈ [.partEnable x v, .partDisable x v] →
    let old := (s.ctl.partCtlOf x).toNat
    let n := v.toNat
    let z := sizeOfCode (bits n 4 3)
    let on := bit old 0 = true
    let refused := (on ∧ (bits old 16 11 ≠ bits n 16 11 ∨ bits old 4 3 ≠ bits n 4 3 ∨ (bit n 0 = false ∧ s.partIdle x = false))) ∨
      (¬on ∧ bit n 0 = true ∧ (z = 0 ∨ x % z ≠ 0 ∨ ∃ k, k < z ∧ s.ctl.partOfSlice (x + k) ≠ none))
    (s.running = false ∨ 12 ≤ x → exec i s = .next s) ∧
    (s.running = true → x < 12 → ∃ t, exec i s = .next t ∧ t.mem.hbm = s.mem.hbm ∧
      let y := (t.ctl.partCtlOf x).toNat
      (refused → bits y 31 1 = 1 ∧ bits y 0 31 = bits old 0 31 ∧ t = s.setCtl t.ctl) ∧
      (¬refused → bits y 0 1 = bits n 0 1 ∧ bits y 4 3 = bits n 4 3 ∧ bits y 16 11 = bits n 16 11 ∧
        bits y 31 1 = (if bit n 31 then 0 else bits old 31 1)) ∧
      (¬refused → ¬on → bit n 0 = true → (∀ b, b < 256 → Store.get Bar.zero t.net.bars (x * 256 + b) = Bar.zero) ∧ (∀ e ∈ t.pairs.queue, e.1 ≠ x) ∧
        ∀ y ∈ t.ctl.slicesOf x, t.ctl.waysOf y 0 = min 24 (s.ctl.floorOf 0)) ∧
      (¬refused → on → bit n 0 = false → (∀ e ∈ t.pairs.queue, e.1 ≠ x) ∧ ∀ y ∈ s.ctl.slicesOf x, ∀ f, f < 1024 → t.ctl.waysOf y f = 0))

/-- R265, R268, R270: what lets a VF be enabled, its registers as written: its partition is on; its keys are some of 2,048 and no other enabled
VF's; a MODE 1 VF's cores are some of 24 and none of another one's in the partition; the partition has at most 32 VFs a slice; the
floors of its functions, and their minimum shares of HBM, and all functions' of the links, fit; its minimum is at most its ceiling. -/
def Claims.VfRules : Prop :=
  ∀ (c : Ctl) (f : Nat),
    let v (g : Nat) : Nat := (c.vfCfgOf g).toNat
    let part := bits (v f) 8 4
    let disjoint (a n b m : Nat) : Prop := b + m ≤ a ∨ a + n ≤ b
    let others := c.vfs.filter (· != f)
    c.vfFits f = true ↔
      c.partOn part = true ∧ bits (v f) 49 11 ≠ 0 ∧ bits (v f) 38 11 + bits (v f) 49 11 ≤ 2048 ∧
      (∀ g ∈ others, disjoint (bits (v f) 38 11) (bits (v f) 49 11) (bits (v g) 38 11) (bits (v g) 49 11)) ∧
      (c.vfSubset f = true → bits (v f) 12 5 + bits (v f) 17 5 ≤ 24 ∧
        ∀ g ∈ others, c.vfSubset g = true → c.vfPart g = part → disjoint (bits (v f) 12 5) (bits (v f) 17 5) (bits (v g) 12 5) (bits (v g) 17 5)) ∧
      (c.vfs.filter (fun g => c.vfPart g == part)).length ≤ 32 * c.partSize part ∧
      sumOf ((c.functionsOf part).map c.floorOf) ≤ 24 ∧ sumOf ((c.functionsOf part).map c.hbmMin) ≤ 128 ∧
      sumOf ((0 :: c.vfs).map c.linkMin) ≤ 128 ∧ c.hbmMin f ≤ c.hbmCeil f

/-- R250, R265, R266, R268, R273, R297: a write of VF_CFG: an enabled VF keeps its fields; one that is off is enabled exactly where its fields,
as written, let it be, and else has ERR. Enabled, its trigger counters are zero; disabled, its queues are unmapped, its TDI is
CONFIG_UNLOCKED and it holds no way. PF_CFG has only ERR. (A MODE 1 VF with no core is enabled, and teams stay on cores that a VF takes:
logs 103 and 104; KEYBASE 0 is not refused: log 68; the requests of its trigger queue go with a VF: log 105.) -/
def Claims.VfsChange : Prop :=
  ∀ (s : State) (f : Nat) (v : W64) (i : Instr), i ∈ [.vfEnable f v, .vfDisable f v] →
    let old := (s.ctl.vfCfgOf f).toNat
    let n := v.toNat
    let same (a b : Nat) : Prop := bits a 49 11 = bits b 49 11 ∧ bits a 38 11 = bits b 38 11 ∧ bits a 17 5 = bits b 17 5 ∧ bits a 12 5 = bits b 12 5 ∧
      bits a 8 4 = bits b 8 4 ∧ bits a 1 1 = bits b 1 1
    let on := bit old 0 = true
    let err := if bit n 63 then 0 else bits old 63 1
    (s.running = false ∨ 384 < f → exec i s = .next s) ∧
    (s.running = true → f ≤ 384 → ∃ t, exec i s = .next t ∧
      let y := (t.ctl.vfCfgOf f).toNat
      (f = 0 → same y old ∧ bits y 0 1 = bits old 0 1 ∧ bits y 63 1 = err) ∧
      (f ≠ 0 → on → ¬same old n → same y old ∧ bits y 0 1 = 1 ∧ bits y 63 1 = 1) ∧
      (f ≠ 0 → on → same old n → bit n 0 = true → same y old ∧ bits y 0 1 = 1 ∧ bits y 63 1 = err) ∧
      (f ≠ 0 → on → same old n → bit n 0 = false → same y old ∧ bits y 0 1 = 0 ∧ bits y 63 1 = err ∧ t.ctl.tdiOf f = 0 ∧
        (∀ q, q < 64 → t.ctl.qMapped f q = false) ∧ ∀ x, t.ctl.waysOf x f = 0) ∧
      (f ≠ 0 → ¬on → bit n 0 = false → same y n ∧ bits y 0 1 = 0 ∧ bits y 63 1 = err) ∧
      (f ≠ 0 → ¬on → bit n 0 = true → ∀ w : W64, same w.toNat n → bits w.toNat 0 1 = 1 →
        let fits := ({ s.ctl with vfCfg := Store.set 0 s.ctl.vfCfg f w } : Ctl).vfFits f
        (fits = true → same y n ∧ bits y 0 1 = 1 ∧ bits y 63 1 = err ∧
          -- no record that waits for its ring counts in one of them
          ((∀ r ∈ s.queues.held, r.fn = f → r.trig = none) → ∀ c, c < 64 → t.counter f c = 0)) ∧
        (fits = false → same y old ∧ bits y 0 1 = 0 ∧ bits y 63 1 = 1 ∧ t = s.setCtl t.ctl)))

/-- R268, R270, R271, R274: VF_L2, VF_BW and ENG_OWN: a write that fits stands; one that does not sets ERR and changes nothing else. -/
def Claims.SharesChange : Prop :=
  (∀ (s : State) (f : Nat) (v : W32), s.running = true → f ≤ 384 →
    let floor := bits v.toNat 0 5
    let ceil := bits v.toNat 8 5
    -- the moves of an epoch that has ended come first
    let z := (List.range 12).foldl (fun (a : State) x => a.l2Moves ((s.sched.now - s.sched.startAt) / 100000000) x) s
    let c : Ctl := { z.ctl with vfL2 := Store.set 0x1801 z.ctl.vfL2 f (BitVec.ofNat 32 (ceil * 256 + floor)) }
    let fits := floor ≤ ceil ∧ ceil ≤ 24 ∧ ∀ p ∈ c.countedIn f, c.floorsFit p = true
    (fits → exec (.vfL2Write f v) s = .next (z.setCtl c)) ∧
    (¬fits → exec (.vfL2Write f v) s = .next (z.setVf f (put64 (z.ctl.vfCfgOf f) 63 1 1)))) ∧
  (∀ (s : State) (f : Nat) (v : W32), s.running = true → f ≤ 384 →
    let c : Ctl := { s.ctl with vfBw := Store.set 0x8000 s.ctl.vfBw f (v &&& 0xFF00FFFF) }
    let fits := (∀ p ∈ c.countedIn f, c.hbmFits p = true) ∧ c.linkFits = true ∧ c.hbmMin f ≤ c.hbmCeil f
    (fits → exec (.vfBwWrite f v) s = .next (s.setCtl c)) ∧
    (¬fits → exec (.vfBwWrite f v) s = .next (s.setVf f (put64 (s.ctl.vfCfgOf f) 63 1 1)))) ∧
  (∀ (s : State) (e : Nat) (v : W32), s.running = true → e < 48 →
    let old := (s.ctl.engOwnOf e).toNat
    let n := v.toNat
    let changes := bits old 8 4 ≠ bits n 8 4 ∨ bit old 0 ≠ bit n 0
    let bad := changes ∧ (s.queueOf e ≠ [] ∨ (bit n 0 = true ∧ s.ctl.partOn (bits n 8 4) = false))
    ∃ t, exec (.engOwnWrite e v) s = .next t ∧ t = (s.setCtl t.ctl).setEng { s.eng with taken := t.eng.taken } ∧ (∀ k, k ≠ e → t.ctl.engOwnOf k = s.ctl.engOwnOf k) ∧
      let y := (t.ctl.engOwnOf e).toNat
      (bad → bits y 31 1 = 1 ∧ bits y 8 4 = bits old 8 4 ∧ bits y 0 1 = bits old 0 1) ∧
      (¬bad → bits y 31 1 = (if bit n 31 then 0 else bits old 31 1) ∧ bits y 8 4 = bits n 8 4 ∧ bits y 0 1 = bits n 0 1)) ∧
  (∀ (s : State) (f : Nat) (v : W32), s.running = false ∨ 384 < f → exec (.vfL2Write f v) s = .next s ∧ exec (.vfBwWrite f v) s = .next s) ∧
  (∀ (s : State) (e : Nat) (v : W32), s.running = false ∨ 48 ≤ e → exec (.engOwnWrite e v) s = .next s)

/-- R250, R265 to R271, R273, R297: the virtual functions and their shares. -/
def Claims.FunctionsAndShares : Prop := Claims.VfRules ∧ Claims.VfsChange ∧ Claims.SharesChange

/-- R3, R303, R304: REGISTER_WRITE: an offset that holds no register, and before stage 5 and in Lamp mode any register but DEV_RESET, ignores it;
otherwise the register takes it. A read-only register stays; a field out of its range stays as it was; the roots and
windows of a function whose TDI is fixed stay (R267, R421), but for a root that the PF writes (log 87). -/
def Claims.RegistersTakeWrites : Prop :=
  (∀ (s : State) (pf : Bool) (fn off : Nat) (v : W64), regAt fn off = none →
    exec (.registerWrite ⟨pf, fn⟩ off v) s = .next s ∧ s.registerRead fn off = 0) ∧
  (∀ (s : State) (pf : Bool) (fn off : Nat) (v : W64) (r : RegName), regAt fn off = some r →
    (s.running = false → r ≠ .devReset → exec (.registerWrite ⟨pf, fn⟩ off v) s = .next s) ∧
    (s.running = true → exec (.registerWrite ⟨pf, fn⟩ off v) s = .next (s.regWriteBy pf r v)) ∧
    ((match r with
      | .devId => true | .devTopo => true | .schedStat => true | .l2Cur _ _ => true | .pwrStat => true | .slicePwr _ => true
      | .bootReason => true | .errCnt => true | .qrd _ _ => true
      | .xltRoot f _ => !pf && s.ctl.fixed f | .hostBase f _ => s.ctl.fixed f | .hostLim f _ => s.ctl.fixed f
      | _ => false) = true → exec (.registerWrite ⟨pf, fn⟩ off v) s = .next s) ∧
    (∀ f h, r = .xltRoot f h → pf = true → s.running = true →
      ∃ t, exec (.registerWrite ⟨pf, fn⟩ off v) s = .next t ∧ t.ctl.xltRootOf f h = put64 (put64 0 15 37 (bits v.toNat 15 37)) 0 1 (bits v.toNat 0 1))) ∧
  (∀ (s : State) (pf : Bool) (x : Nat) (v : W64), s.running = true → x < 12 → ∃ t, exec (.registerWrite ⟨pf, 0⟩ (0x30008 + 0x100 * x) v) s = .next t ∧
    t.registerRead 0 (0x30008 + 0x100 * x) = v.toNat % 2 ^ 32 ∧ t = s.setCtl t.ctl) ∧
  (∀ (s : State) (pf : Bool) (k : Nat) (v : W64), s.running = true → k < 288 → ∃ t, exec (.registerWrite ⟨pf, 0⟩ (0x1000040 + 0x10000 * k) v) s = .next t ∧
    t.ctl.skipMax k = (if bits v.toNat 0 10 = 0 then s.ctl.skipMax k else bits v.toNat 0 10) ∧ t.ctl.nonStop k = bit v.toNat 16 ∧ t = s.setCtl t.ctl)

/-- R290, R292, R295, R300: COLL_AP: an enabled entry takes only its disabling, which lets its loads replay and faults its REDUCE requests; another takes
its fields, and is enabled where they are legal, its round counts 0. WQ_RING: BASE while it is off. DECLIA_CTL: DOMAIN
while it is off; enabled, its peers are those that answered. -/
def Claims.LinkRegisters : Prop :=
  (∀ (s : State) (fn e : Nat) (v : W64), s.running = true → fn ≤ 384 → e < 256 →
    let old := (s.ctl.collApOf fn e).toNat
    let n := v.toNat
    let sat := if bit n 63 then 0 else bits old 63 1
    ∃ t, exec (.collApEnable fn e v) s = .next t ∧ t.mem = s.mem ∧
      let y := (t.ctl.collApOf fn e).toNat
      bits y 63 1 = sat ∧
      (bit old 0 = true → bits y 0 1 = bits n 0 1 ∧ bits y 4 44 = bits old 4 44) ∧
      (bit old 0 = false → bits y 4 16 = bits n 4 16 ∧ bits y 20 4 = bits n 20 4 ∧ bits y 24 4 = bits n 24 4 ∧ bits y 32 16 = bits n 32 16 ∧
        bits y 0 1 = (if bit n 0 && apertureOk n then 1 else 0) ∧
        (bit n 0 = true → apertureOk n = true → ∀ i, i < 2 ^ 46 → Store.get 0 t.net.stores (elemKey fn e i) = 0 ∧ Store.get 0 t.net.loads (elemKey fn e i) = 0 ∧
          Store.get 0 t.net.delivered (elemKey fn e i) = 0))) ∧
  (∀ (s : State) (fn r : Nat) (v : W64), s.running = true → fn ≤ 384 → r < 64 →
    let old := (s.ctl.wqRingOf fn r).toNat
    let n := v.toNat
    ∃ t, exec (.wqRingEnable fn r v) s = .next t ∧ t.mem = s.mem ∧
      let y := (t.ctl.wqRingOf fn r).toNat
      bits y 0 1 = bits n 0 1 ∧ bits y 6 51 = (if bit old 0 then bits old 6 51 else bits n 6 51)) ∧
  (∀ (s : State) (x : Nat) (v : W32) (as_ : List Nat), s.running = true → x < 12 →
    let old := (s.ctl.decliaOf x).toNat
    let n := v.toNat
    ∃ t, exec (.decliaEnable x v as_) s = .next t ∧
      let y := (t.ctl.decliaOf x).toNat
      bits y 0 1 = bits n 0 1 ∧ bits y 16 16 = (if bit old 0 then bits old 16 16 else bits n 16 16) ∧
      (bit old 0 = false → bit n 0 = true → ∀ d, d ∈ t.peersOf x ↔ d ∈ as_ ∧ d ≠ s.ctl.devnum x) ∧
      (bit old 0 = true → bit n 0 = true → t.peersOf x = s.peersOf x) ∧ (bit old 0 = true → bit n 0 = false → t.peersOf x = []))

/-- R3, R267, R290, R292, R295, R300, R303, R304, R421: writes of the registers. (That before stage 5 the registers ignore writes as they do in
Lamp mode is the model's reading, log 70.) -/
def Obligations.RegisterWrites : Prop := Claims.RegistersTakeWrites ∧ Claims.LinkRegisters

-- TDISP

/-- R272: TDISP requests reach VFs only, and no VF while the device is not running; a response carries the request's code. LOCK_INTERFACE takes
an enabled VF whose TDI is CONFIG_UNLOCKED and whose keys name no frame to CONFIG_LOCKED, bound to its session;
START_INTERFACE takes CONFIG_LOCKED to RUN; the state is reported. (What the other three report is open, log 20.) -/
def Claims.TdispAnswers : Prop :=
  (∀ (s : State) (f k : Nat) (i : Instr),
    i ∈ [.getVersion f, .getCapabilities f, .lockInterface f k, .startInterface f, .stopInterface f, .getDeviceInterfaceReport f, .getDeviceInterfaceState f] →
    s.running = false → exec i s = .next s) ∧
  (∀ (s : State) (f code : Nat) (i : Instr), s.running = true →
    (i, code) ∈ [(.getVersion f, 0x81), (.getCapabilities f, 0x82), (.getDeviceInterfaceReport f, 0x84)] →
    ∃ v, exec i s = .next (s.setTdisp { s.tdisp with replies := s.tdisp.replies ++ [⟨f, code, decide (f = 0 ∨ 384 < f), v⟩] })) ∧
  (∀ (s : State) (f : Nat), s.running = true → exec (.getDeviceInterfaceState f) s = .next (s.setTdisp { s.tdisp with
    replies := s.tdisp.replies ++ [⟨f, 0x85, decide (f = 0 ∨ 384 < f), BitVec.ofNat 64 (if 384 < f then 0 else s.ctl.tdiOf f)⟩] })) ∧
  (∀ (s : State) (f k : Nat), s.running = true →
    let ok := 1 ≤ f ∧ f ≤ 384 ∧ s.ctl.fnOn f = true ∧ s.ctl.tdiOf f = 0 ∧ (∀ e ∈ s.mem.frameKey, s.ctl.keyOf f e.2 = false) ∧
      -- a frame that is not listed names key 0
      (s.ctl.keyOf f 0 = false ∨ 12 * 2 ^ 20 ≤ s.mem.frameKey.length)
    (ok → ∃ t, exec (.lockInterface f k) s = .next t ∧ t.ctl.tdiOf f = 1 ∧ Store.get none t.tdisp.bound f = some k ∧
      t.tdisp.replies = s.tdisp.replies ++ [⟨f, 0x83, false, 0⟩] ∧ t.mem = s.mem ∧ t.work = s.work) ∧
    (¬ok → exec (.lockInterface f k) s = .next (s.setTdisp { s.tdisp with replies := s.tdisp.replies ++ [⟨f, 0x83, true, 0⟩] }))) ∧
  (∀ (s : State) (f : Nat), s.running = true →
    let ok := 1 ≤ f ∧ f ≤ 384 ∧ s.ctl.tdiOf f = 1
    (ok → ∃ t, exec (.startInterface f) s = .next t ∧ t.ctl.tdiOf f = 2 ∧ t.tdisp.replies = s.tdisp.replies ++ [⟨f, 0x86, false, 0⟩] ∧ t.mem = s.mem) ∧
    (¬ok → exec (.startInterface f) s = .next (s.setTdisp { s.tdisp with replies := s.tdisp.replies ++ [⟨f, 0x86, true, 0⟩] })))

/-- R273: STOP_INTERFACE: a TDI in RUN is stopped: its teams end, its queues are off, its records for host rings are gone; the TDI is
CONFIG_UNLOCKED and bound to no session. SESSION_EXPIRY takes every TDI bound to the session to ERROR, its
queues off; one whose teams are being saved is left until the save is complete (R274), and the event comes again for it. -/
def Claims.TdisLeaveRun : Prop :=
  (∀ (s : State) (f : Nat), s.running = true → 1 ≤ f → f ≤ 384 → ∃ t, exec (.stopInterface f) s = .next t ∧ t.ctl.tdiOf f = 0 ∧
    Store.get none t.tdisp.bound f = none ∧ t.tdisp.replies = s.tdisp.replies ++ [⟨f, 0x87, false, 0⟩] ∧
    (s.ctl.tdiOf f ≠ 2 → t.work = s.work ∧ t.queues = s.queues ∧ t.mem = s.mem) ∧
    (s.ctl.tdiOf f = 2 → (∀ q, q < 64 → (t.devq f q).en = false) ∧ (∀ r ∈ t.queues.held, ¬(r.fn = f ∧ s.hostRing f r.part r.ring = true)) ∧
      (Claims.Named s → ∀ u x, s.team? u = some x → (s.gridOf x).fn = f → x.phase = .live ∨ x.phase = .unstarted →
        ∃ y, t.team? u = some y ∧ (y.phase = .retiring ∨ y.phase = .ended) ∧ y.endedBy = some 6 ∧ y.s = [] ∧ y.batches = []))) ∧
  (∀ (s : State) (f : Nat), s.running = true → f = 0 ∨ 384 < f → exec (.stopInterface f) s =
    .next (s.setTdisp { s.tdisp with replies := s.tdisp.replies ++ [⟨f, 0x87, true, 0⟩] })) ∧
  (∀ (s : State) (k : Nat),
    let saving (f : Nat) : Prop := ∃ x ∈ s.work.saves, x.fn = f
    let later := ∃ e ∈ s.tdisp.bound, e.2 = some k ∧ saving e.1
    ∃ t, (later → exec (.sessionExpiry k) s = .next (t.again (.sessionExpiry k))) ∧ (¬later → exec (.sessionExpiry k) s = .next t) ∧
    (∀ f, f ≠ 0 → Claims.Named s → Store.get none s.tdisp.bound f = some k → ¬saving f →
      (∀ q, q < 64 → (t.devq f q).en = false) ∧ t.ctl.tdiOf f = 3 ∧ Store.get none t.tdisp.bound f = none) ∧
    (∀ f, Claims.Named s → Store.get none s.tdisp.bound f ≠ some k ∨ saving f →
      t.ctl.tdiOf f = s.ctl.tdiOf f ∧ Store.get none t.tdisp.bound f = Store.get none s.tdisp.bound f))

/-- R272, R273: the TDISP events. (In which states LOCK_INTERFACE and START_INTERFACE are taken is the model's reading, log 66.) -/
def Claims.TdispEvents : Prop := Claims.TdispAnswers ∧ Claims.TdisLeaveRun

-- start-up, errors

/-- R303, R304, R308: DEV_RESET asks for a reset where GO is set beside its key, and a function-level reset of the PF does. DEVICE_START: nothing
but the flash, its counter, and the failures survives; a start that a reset breaks off is a failed one, of cause 7 where it was late already,
else 8; the third failure in a row means Lamp mode; stage 0. -/
def Claims.Starts0 : Prop :=
  (∀ (s : State) (v : W32), exec (.devReset v) s = .next (if bit v.toNat 0 = true ∧ bits v.toNat 8 8 = 0xA5 then
    s.setBoot { s.boot with resetDue := true } else s)) ∧
  (∀ s : State, exec (.functionLevelReset 0) s = .next (s.setBoot { s.boot with resetDue := true })) ∧
  (∀ s : State, s.boot.resetDue = false → exec .deviceStart s = .next s) ∧
  (∀ s : State, s.boot.resetDue = true → ∃ t, exec .deviceStart s = .next t ∧ t.boot.slots = s.boot.slots ∧ t.boot.antiRollback = s.boot.antiRollback ∧
    t.boot.resetDue = false ∧ t.sched.startAt = s.sched.now ∧ t.mem.host = s.mem.host ∧ t.mem.hbm = [] ∧ t.work = Work.reset ∧ t.pairs = Pairs.reset ∧ t.eng = Engines.reset ∧
    t.queues = Queues.reset ∧ t.net = Net.reset ∧ t.ctl = { Ctl.reset with bootReason := t.ctl.bootReason } ∧
    let broken := s.running = false ∧ s.lamp = false ∧ s.boot.failed = false
    let late := stageLimit s.stage < s.boot.stageAt ∨ 10000000000000 ≤ s.boot.began
    (broken → late → t.boot.lastCause = 7) ∧ (broken → ¬late → t.boot.lastCause = 8) ∧ (¬broken → t.boot.lastCause = s.boot.lastCause) ∧
    t.boot.fails = (if broken then s.boot.fails + 1 else s.boot.fails) ∧ t.stage = 0 ∧ t.lamp = decide (3 ≤ t.boot.fails) ∧
    bits t.ctl.bootReason.toNat 24 4 = min t.boot.fails 15)

/-- R301 to R305: START_STAGE_DONE: from stage to stage; stage 1 needs a valid slot, the one of the higher SVN, and its image well-formed, or the
start fails with the cause, that of the slot of the higher SVN; the self-tests may fail it (log 17); at stage 5 every frame is scrubbed, the PF has its partition of 12 slices, the failures are
0 and the counter is at least the image's SVN. Past its time a start fails. A valid image replaces the weaker slot in Lamp mode. -/
def Claims.Stages : Prop :=
  (∀ s : State, s.starting = false → exec .startStageDone s = .next s ∧ exec .startStageTimeout s = .next s) ∧
  (∀ s : State, s.starting = true →
    let valid (n : Nat) : Prop := (s.boot.slotAt n).ecdsa = true ∧ (s.boot.slotAt n).lms = true ∧ s.boot.antiRollback ≤ (s.boot.slotAt n).svn.toNat
    let fails (cause : Nat) : State := s.setBoot { s.boot with fails := s.boot.fails + 1, lastCause := cause, resetDue := true, failed := true }
    let best (n : Nat) : Prop := valid n ∧ (n = 0 ∧ (valid 1 → (s.boot.slotAt 1).svn ≤ (s.boot.slotAt 0).svn) ∨
      n = 1 ∧ (valid 0 → (s.boot.slotAt 0).svn < (s.boot.slotAt 1).svn))
    let good := Config.hardwareGood s.sched.tick
    -- the slot of the higher SVN, and why it is not valid
    let top := if (s.boot.slotAt 0).svn < (s.boot.slotAt 1).svn then 1 else 0
    let why := if (s.boot.slotAt top).ecdsa = false then 1 else if (s.boot.slotAt top).lms = false then 2 else 3
    let late := stageLimit s.stage < s.boot.stageAt ∨ 10000000000000 ≤ s.boot.began
    (late → exec .startStageDone s = .next (fails 7) ∧ exec .startStageTimeout s = .next (fails 7)) ∧
    (¬late → exec .startStageTimeout s = .next s ∧
      (s.stage = 0 → exec .startStageDone s = .next (s.reach 1)) ∧
      (∀ n, s.stage = 1 → best n → (s.boot.slotAt n).record.wellFormed = true →
        exec .startStageDone s = .next ((s.setBoot { s.boot with slot := n }).reach 2)) ∧
      (∀ n, s.stage = 1 → best n → (s.boot.slotAt n).record.wellFormed = false →
        exec .startStageDone s = .next (fails (if n = top then 4 else why))) ∧
      (s.stage = 1 → ¬valid 0 → ¬valid 1 → exec .startStageDone s = .next (fails why)) ∧
      (s.stage = 2 → exec .startStageDone s = .next ((s.setSched { s.sched with refBase := s.sched.now }).reach 3)) ∧
      (s.stage = 3 → exec .startStageDone s = .next (if good then s.sealDies.reach 4 else fails 5)) ∧
      (s.stage = 4 → good = false → exec .startStageDone s = .next (fails 6)) ∧
      (s.stage = 4 → good = true → ∃ t, exec .startStageDone s = .next t ∧ t.running = true ∧ t.ctl.partCtlOf 0 = 0x51 ∧ t.boot.fails = 0 ∧
        t.mem.hbm = [] ∧ t.mem.frameKey = [] ∧ t.mem.poison = [] ∧
        t.boot.antiRollback = max s.boot.antiRollback (s.boot.slotAt s.boot.slot).svn.toNat))) ∧
  (∀ (s : State) (n : Nat), n < 5 → (s.reach n).stage = n ∧ (s.reach n).mem = s.mem ∧ (s.reach n).boot = { s.boot with stageAt := 0 }) ∧
  (∀ (s : State) (img : FlashSlot),
    let taken := s.lamp = true ∧ s.boot.resetDue = false ∧ img.ecdsa = true ∧ img.lms = true ∧ s.boot.antiRollback ≤ img.svn.toNat
    let slots := listPut s.boot.slots (if (s.boot.slotAt 0).svn < (s.boot.slotAt 1).svn then 0 else 1) img
    (taken → exec (.lampImageReplace img) s = .next (s.setBoot { s.boot with slots := slots, fails := 0 })) ∧
    (¬taken → exec (.lampImageReplace img) s = .next s))

/-- R301 to R305, R308: the start of the device. (That the next start follows a failed one by itself, which slot a Lamp image takes on a tie,
what a start keeps and what the reference counter reads once synchronised are the model's: logs 29, 30, 76, 95.) -/
def Claims.StartOfTheDevice : Prop := Claims.Starts0 ∧ Claims.Stages

/-- HBM, host memory, the L1s and the homes' translations stand in canonical form: keys rising, nothing listed that an unlisted key reads as. -/
def Claims.Canonical (s : State) : Prop := s.Inv ∧ Store.wf none s.mem.l1 = true ∧ Store.wf none s.mem.tlb = true

/-- R220, R224, R241, R258, R306, R307: errors are counted, at most 2³² − 1 each. An uncorrectable one ends the team it is in, at its restore where it is being saved
or is saved; makes a shared L1 line's unowned words go, and ends the core's teams of its function where it strikes an owned one; poisons a line; abandons a slot; and in state of the hub die sends the PF's vector 0. A parity error in an operand is replayed, or
ends the team where three replays fail (open: log 24). (That owned words of a struck line stay and end the teams of their core is the model's
reading, log 69; that a sealed slot is abandoned too, log 78; that each of the two events counts by itself, log 91.) -/
def Obligations.ErrorsAreHandled : Prop :=
  (∀ s : State, ∃ t, exec .correctableError s = .next t ∧ t = s.setCtl t.ctl ∧
    bits t.ctl.errCnt.toNat 0 32 = min (bits s.ctl.errCnt.toNat 0 32 + 1) (2 ^ 32 - 1) ∧ bits t.ctl.errCnt.toNat 32 32 = bits s.ctl.errCnt.toNat 32 32) ∧
  (∀ s : State, bits s.countUncorr.ctl.errCnt.toNat 32 32 = min (bits s.ctl.errCnt.toNat 32 32 + 1) (2 ^ 32 - 1) ∧
    bits s.countUncorr.ctl.errCnt.toNat 0 32 = bits s.ctl.errCnt.toNat 0 32 ∧ s.countUncorr = s.setCtl s.countUncorr.ctl) ∧
  (∀ (s : State) (u : Nat) (t : Team), s.team? u = some t → t.uid = u →
    exec (.uncorrectableError (.team u)) s = .next (s.countUncorr.strikeTeam u) ∧
    ((t.leaving = true ∨ t.saved = true) → exec (.uncorrectableError (.team u)) s = .next (s.countUncorr.setTeam { t with doomed := some 22 })) ∧
    (t.leaving = false → t.saved = false → exec (.uncorrectableError (.team u)) s = .next (s.countUncorr.endTeam u (some 22))) ∧
    exec (.uncorrectableError (.savedContext u)) s = .next (s.countUncorr.onTeam u (fun x => if x.saved then { x with doomed := some 23 } else x)) ∧
    exec (.uncorrectableError .hub) s = .next (s.countUncorr.emit (.msix 0 0)) ∧
    ∀ i, exec (.operandParityError u i) s = .next (if Config.replaysFail s.sched.tick then s.countUncorr.endTeam u (some 22) else s)) ∧
  (∀ (s : State) (core key : Nat),
    -- an owned word of the 64 bits struck is the core's teams' of its function
    let struck := if s.mem.strikesOwned core key then
      (s.teams.filter (fun x => x.placed && x.core == core && (s.gridOf x).fn == l1Fn key)).map (·.uid) else []
    ∃ t, exec (.uncorrectableError (.sharedL1 core key)) s = .next (struck.foldl State.strikeTeam t) ∧ t.work = s.work ∧ t.mem.hbm = s.mem.hbm ∧
    ∀ k w, Claims.Canonical s → Store.get none s.mem.l1 k = some w →
      Store.get none t.mem.l1 k = if l1Core k = core ∧ k / 32 = key / 32 ∧ w.owned = false then none else some w) ∧
  (∀ (s : State) (pa : Nat), ∃ t, exec (.uncorrectableError (.line pa)) s = .next t ∧
    (∀ l, l ∈ t.mem.poison ↔ l ∈ s.mem.poison ∨ l = pa / 128) ∧ t.mem = { s.mem with poison := t.mem.poison } ∧ t.work = s.work) ∧
  (∀ (s : State) (die n : Nat), ∃ t, exec (.uncorrectableError (.pairSlot die n)) s = .next t ∧ t.mem = s.mem ∧
    ((s.slot die n).st = .sealed ∨ (s.slot die n).st = .filling → (t.slot die n).st = .abandoned) ∧
    ((s.slot die n).st = .free ∨ (s.slot die n).st = .abandoned → t.slot die n = s.slot die n))

-- reset

/-- R3, R19, R22, R50, R190, R222, R225, R228, R264, R265, R268, R270, R271, R275, R278, R281, R283, R292, R303, R421: what reset leaves: the registers at the values their tables give,
no partition, no virtual function, every slot free, stage 0. -/
def Claims.ResetValues : Prop :=
  let s := State.reset
  let c := s.ctl
  (∀ k, c.hoistOf k = 0x40 ∧ c.clkRatioOf k = 0x00888888 ∧ c.waveOf k = 0x1004 ∧ c.canaryOf k = 0xC0) ∧
  (∀ x, c.progressOf x = 0x00641000 ∧ c.wdogOf x = 0x27100400 ∧ c.switchCtlOf x = 0x01F40028 ∧ c.switchStatOf x = 0 ∧ c.svcRingOf x = 0 ∧
    c.partCtlOf x = 0 ∧ c.decliaOf x = 0 ∧ c.slicePwrOf x = 0x00FA000000000000) ∧
  (∀ f, c.ctxAreaOf f = 0 ∧ c.vfCfgOf f = 0 ∧ c.vfL2Of f = 0x1801 ∧ c.vfBwOf f = 0x8000 ∧ ∀ x, c.l2CurOf x f = 0) ∧
  (∀ e, c.engOwnOf e = 1) ∧ c.pwrCtl = 0x0E100BB8 ∧ c.pwrStat = 6000000 ∧ c.schedStat = 0 ∧ c.errCnt = 0 ∧ c.keyCmd = 0 ∧ c.scrubCtl = 0 ∧
  (∀ f n, c.xltRootOf f n = 0 ∧ c.qmapOf f n = 0 ∧ c.ntlCtlOf f n = 0 ∧ c.collApOf f n = 0 ∧ c.wqRingOf f n = 0) ∧
  c.hostBaseOf 0 0 = 1 ∧ c.hostLimOf 0 0 = 0x000FFFFFFFFF0000 ∧ (∀ f w, w < 4 → ¬(f = 0 ∧ w = 0) → c.hostBaseOf f w = 0 ∧ c.hostLimOf f w = 0) ∧
  (∀ die n, (s.slot die n).st = .free ∧ (s.slot die n).gen = 0) ∧ s.stage = 0 ∧ s.running = false ∧ s.lamp = false ∧ s.refTime = 0 ∧
  (∀ k, (s.core k).cyc = 0)

/-- At reset memory is in canonical form and lists nothing, every table is, and every register has the value its table gives. -/
def Obligations.ResetLeaves : Prop := Claims.Canonical State.reset ∧ State.reset.mem.hbm = [] ∧ Claims.Named State.reset ∧ Claims.ResetValues

/-- The invariant every step keeps: the memories, the L1s and the translations stay in canonical form. -/
def Obligations.StepKeepsMemoryCanonical : Prop := ∀ s t : State, Claims.Canonical s → step s = .next t → Claims.Canonical t

/-- The invariant every step keeps: teams and grids stand under their own names, and their tables, the journal and the bindings stay in canonical form. -/
def Obligations.StepKeepsNames : Prop := ∀ s t : State, Claims.Named s → step s = .next t → Claims.Named t

-- rules of the spec, each stated whole

/-- R380, with R56's table: the two words; any other word of class CF with these opcodes raises ILLEGAL_INSTRUCTION at its
batch's turn; PNOT makes the top its negation AND its parent, true at depth 1, PPOP drops the top, in every thread of
the batch, whatever its top; at depth 0 both do nothing and none faults; neither is a terminator. -/
def Obligations.PredicateStack : Prop :=
  decode .cf 0x1000000000000000 = .ok .pnot ∧ decode .cf 0x1100000000000000 = .ok .ppop ∧
  Instr.pnot.isTerminator = false ∧ Instr.ppop.isTerminator = false ∧
  (∀ w : W64, (w.extractLsb' 56 8 = 0x10 ∨ w.extractLsb' 56 8 = 0x11) → w.extractLsb' 0 56 ≠ 0 → ∃ why, decode .cf w = .error why) ∧
  (∀ (s s0 s1 : State) (dt u b : Nat) (c c1 : Ctx) (w : W64),
    (w.extractLsb' 56 8 = 0x10 ∨ w.extractLsb' 56 8 = 0x11) → w.extractLsb' 0 56 ≠ 0 →
    s.nextTurn = (some ⟨dt, .batch u b⟩, s0) → s1 = (s0.elapseTo (s0.sched.now + dt)).setCur u b →
    s1.ctx? = some c → c.batch.word = some (.cf, w) → (s1.beforeIssue c .cf).ctx? = some c1 →
    step s = .next ((((((s1.beforeIssue c .cf).raiseAll c1 .illegalInstruction 0 (everyOf c1)).moveOn c1 []).afterIssue c1 .cf none).finish).stir)) ∧
  (∀ (s : State) (c : Ctx), s.Issuing c →
    (∃ t, Each (fun (x : State) i y => y = x.onCur c (fun t => t.onThread i (fun h =>
        { h with preds := match h.preds with | [] => [] | [p] => [!p] | p :: q :: ps => (!p && q) :: q :: ps }))) (c.todo (everyOf c)) s t ∧
      exec .pnot s = .next (t.moveOn c [])) ∧
    (∃ t, Each (fun (x : State) i y => y = x.onCur c (fun t => t.onThread i (fun h => { h with preds := h.preds.drop 1 }))) (c.todo (everyOf c)) s t ∧
      exec .ppop s = .next (t.moveOn c [])))

/-- R232, R233, R396: SMOV.MV: its word has TY 9 and zero RM, b, c and imm16, and any other TY with AX = 1 is refused; with a null source,
and with d = a, it changes nothing, whatever the tag of its destination, which is the model's reading (log 72: R396 lists LINEAR_COPY for a
tagged S[d] in either form); otherwise all 64 bits and the tag move, and S[a] is null. -/
def Obligations.HandleMove : Prop :=
  decode .sc 0x2291484400000000 = .ok (.smovMv 8 4) ∧
  (∀ w : W64, w.extractLsb' 56 8 = 0x22 → w.extractLsb' 48 1 = 1 →
    (w.extractLsb' 52 4 ≠ 9 ∨ w.extractLsb' 49 3 ≠ 0 ∨ w.extractLsb' 0 32 ≠ 0 → ∃ why, decode .sc w = .error why) ∧
    (∀ i, decode .sc w = .ok i → ∃ d a : SReg, i = .smovMv d a ∧
      (w.extractLsb' 40 8).toNat = 64 + d.val ∧ (w.extractLsb' 32 8).toNat = 64 + a.val)) ∧
  (∀ d a : SReg, ∃ w : W64, encode (.smovMv d a) = some (.sc, w) ∧ w.extractLsb' 48 16 = 0x2291 ∧ w.extractLsb' 0 32 = 0) ∧
  (∀ (d a : SReg) (s : State) (c : Ctx), s.Issuing c → ((s.sRd c).s a = 0 ∨ d = a) → exec (.smovMv d a) s = .next (s.moveOn c [])) ∧
  (∀ (d a : SReg) (s : State) (c : Ctx), s.Issuing c → (s.sRd c).s a ≠ 0 → d ≠ a → c.team.tagged d.val = false →
    ∃ s' t', exec (.smovMv d a) s = .next s' ∧ s'.team? c.team.uid = some t' ∧ s.Apart s' c.team.uid ∧
      (Store.get 0 t'.s d.val = (s.sRd c).s a) ∧ (Store.get 0 t'.s a.val = 0) ∧
      (∀ n, n ≠ d.val → n ≠ a.val → Store.get 0 t'.s n = Store.get 0 c.team.s n) ∧
      (t'.tagged d.val = c.team.tagged a.val) ∧ t'.tagged a.val = false ∧
      (∀ n, n ≠ d.val → n ≠ a.val → t'.tagged n = c.team.tagged n) ∧ t'.threads.map (fun x => (x.k, x.w, x.preds)) = c.team.threads.map (fun x => (x.k, x.w, x.preds))) ∧
  -- a tagged destination that the move would write faults (R232)
  (∀ (d a : SReg) (s : State) (c : Ctx), s.Issuing c → (s.sRd c).s a ≠ 0 → d ≠ a → c.team.tagged d.val = true →
    exec (.smovMv d a) s = .next ((s.raiseAll c .linearCopy (Store.get 0 c.team.s d.val) (everyOf c)).moveOn c []))

/-- The types of R389. -/
def Claims.widths : List Ty := [.i8, .i16, .i32, .i64, .n8, .n16, .n32, .n64]

/-- R391, with R317: SCMP's word is of opcode 0x20, its relation in imm16, its AX and unused fields zero, its type one of R389's;
it writes 1 or 0, in 64 bits, from the low bits of its sources by the signedness of the type, whatever tags the sources
carry; a tagged destination faults LINEAR_COPY in every thread of the batch. -/
def Obligations.ScalarCompare : Prop :=
  decode .sc 0x2090434540000000 = .ok (.scmp .eq .n64 3 5 0) ∧
  (∀ (w : W64) (i : Instr), w.extractLsb' 56 8 = 0x20 → decode .sc w = .ok i → ∃ rel ty, ∃ d a b : SReg, i = .scmp rel ty d a b ∧ ty ∈ Claims.widths ∧
    w.extractLsb' 48 4 = 0 ∧ w.extractLsb' 16 8 = 0 ∧
    (w.extractLsb' 40 8).toNat = 64 + d.val ∧ (w.extractLsb' 32 8).toNat = 64 + a.val ∧ (w.extractLsb' 24 8).toNat = 64 + b.val ∧
    (w.extractLsb' 0 16).toNat = (match rel with | .eq => 0 | .ne => 1 | .lt => 2 | .le => 3 | .gt => 4 | .ge => 5)) ∧
  (∀ (rel : Rel) (ty : Ty) (d a b : SReg), ty ∈ Claims.widths → ∃ w : W64, encode (.scmp rel ty d a b) = some (.sc, w) ∧
    w.extractLsb' 56 8 = 0x20 ∧ decode .sc w = .ok (.scmp rel ty d a b)) ∧
  (∀ (rel : Rel) (ty : Ty) (d a b : SReg) (s : State) (c : Ctx), ty ∈ Claims.widths → s.Issuing c → c.team.tagged d.val = false →
    ∃ s' t', exec (.scmp rel ty d a b) s = .next s' ∧ s'.team? c.team.uid = some t' ∧ s.Apart s' c.team.uid ∧
      (c.team.putS d.val (if Claims.rel rel ty (Claims.low ty ((s.sRd c).s a)) (Claims.low ty ((s.sRd c).s b)) then 1 else 0)).Kept t') ∧
  (∀ (rel : Rel) (ty : Ty) (d a b : SReg) (s : State) (c : Ctx), s.Issuing c → c.team.tagged d.val = true →
    exec (.scmp rel ty d a b) s = .next ((s.raiseAll c .linearCopy (Store.get 0 c.team.s d.val) (everyOf c)).moveOn c []))

/-- R65: the table of DIV and REM, for every type; and that DIV, REM, SDIV and SREM complete with those values, whatever the
operands. -/
def Obligations.DivisionTable : Prop :=
  (∀ (ty : Ty), ty ∈ Claims.widths → ∀ x y : BitVec ty.bits,
    let q := Claims.quot ty x y
    let r := Claims.rest ty x y
    (ty.isI = false → y = 0 → q = BitVec.allOnes _ ∧ r = x) ∧
    (ty.isI = true → y = 0 → 0 ≤ x.toInt → q.toInt = -1 ∧ r = x) ∧
    (ty.isI = true → y = 0 → x.toInt < 0 → q.toInt = 1 ∧ r = x) ∧
    (ty.isI = true → x = BitVec.intMin _ → y.toInt = -1 → q = x ∧ r = 0) ∧
    (ty.isI = true → y ≠ 0 → ¬(x = BitVec.intMin _ ∧ y.toInt = -1) → q.toInt = x.toInt.tdiv y.toInt ∧ r.toInt = x.toInt - q.toInt * y.toInt) ∧
    (ty.isI = false → y ≠ 0 → q.toNat = x.toNat / y.toNat ∧ r.toNat = x.toNat - q.toNat * y.toNat) ∧
    (ty.isI = true → r ≠ 0 → (r.toInt < 0 ↔ x.toInt < 0)) ∧ x = y * q + r) ∧
  (∀ (rem : Bool) (ty : Ty) (d a b : Reg) (s : State) (c : Ctx), Instr.wellFormed (if rem then .rem ty d a b else .div ty d a b) = true → s.Issuing c →
    Claims.VecDoes (if rem then .rem ty d a b else .div ty d a b) [atTy ty d, atTy ty a, atTy ty b]
      (fun r => Claims.int ty d (if rem then Claims.rest ty (Claims.v ty r a) (Claims.v ty r b) else Claims.quot ty (Claims.v ty r a) (Claims.v ty r b))) s c) ∧
  (∀ (rem : Bool) (ty : Ty) (d a b : SReg) (s : State) (c : Ctx), ty ∈ Claims.widths → s.Issuing c → (∀ x ∈ [d, a, b], c.team.tagged x.val = false) →
    Claims.ScalarDone (if rem then .srem ty d a b else .sdiv ty d a b) s c d (Claims.sKeep ty ((s.sRd c).s a)
      (if rem then Claims.rest ty (Claims.low ty ((s.sRd c).s a)) (Claims.low ty ((s.sRd c).s b))
        else Claims.quot ty (Claims.low ty ((s.sRd c).s a)) (Claims.low ty ((s.sRd c).s b)))))

-- the statements

/-- R309, R311, R324: what decodes is well-formed, unassigned opcodes are no instruction, and the class codes of clause
headers. -/
def Obligations.DecodingIsTotalAndRefuses : Prop := Claims.DecodingAnswersWellFormed ∧ Claims.HeaderClassCodes

/-- R276, R311: a step is one batch's turn, which runs the decoded instruction or starts a clause, or one event (the order of
turns is the model's, log 2). -/
def Obligations.StepRunsWhatItDecodes : Prop := Claims.StepRunsDecodedInstruction ∧ Claims.StepRunsEvents

/-- No instruction and no event ever ends a run (R59, R209: what fails traps its thread, and the device goes on). -/
def Obligations.NothingEverStops : Prop := Claims.EveryInstructionAnswers ∧ Claims.StepNeverStops

/-- R59, R209, R211, R214, R215: taking an exception, its state word, and the return from it. -/
def Obligations.TrapsAndResumption : Prop :=
  Claims.FaultTrapsTheThread ∧ Claims.EveryThreadOfAListTraps ∧ Claims.ResumedThreadReplays ∧ Claims.TrapStateWord

/-- R52, R63, R73: the frame of going on and of one result. -/
def Obligations.MovingOnAndResults : Prop := Claims.MovingOnChangesNoRegister ∧ Claims.ResultWritesItsRegistersOnly

/-- R232, R389, R390, R393, R396, R397: the scalar instructions, with and without tags (which of several tagged registers a fault names is the
model's reading, log 12). -/
def Obligations.ScalarInstructions : Prop := Claims.ScalarResults ∧ Claims.TaggedScalarTraps

/-- R56, R342, R356, R378: compares, and shifts past the width. -/
def Obligations.ComparesAndShifts : Prop := Claims.CompareResults ∧ Claims.ShiftsPastTheWidth

/-- R66 to R71, R108, R109: special values of floating numbers, residues, and the exactness of open sums. -/
def Obligations.SpecialValuesAndResidues : Prop := Claims.FloatingSpecialValues ∧ Claims.ResidueArithmetic ∧ Claims.OpenSumsStayExact

/-- R28, R33, R34, R72, R73, R394, R398, R400: SPRM, SGET and SSET (that the fault address of a parameter access is its offset is the model's
reading, log 11). -/
def Obligations.ParametersAndSelectors : Prop :=
  Claims.SprmReadsTheParameterCopy ∧ Claims.SgetReadsSelectors ∧ Claims.SgetTeamHandle ∧ Claims.SsetWritesSelectors

/-- R150, R238, R370 to R372, R395, R401, R402: loads and stores. -/
def Obligations.LoadsAndStores : Prop := Claims.LoadResults ∧ Claims.StoreResults

/-- R142, R333, R334, R358, R381, R386: ATOM, RED, FENCE and PREF (that PREF does nothing at the aperture, which R293 and R381 tell
differently, and at a poisoned line are the model's readings, logs 90 and 45). -/
def Obligations.AtomicsFencesAndPrefetch : Prop := Claims.AtomicResults ∧ Claims.FenceAndPrefetch

/-- R84, R124, R125, R237: where an address leads (that the fault address of a scratchpad or parameter access is its offset is the model's
reading, log 11). -/
def Obligations.AddressesLead : Prop := Claims.AddressRules ∧ Claims.FillHandlePlaces

/-- R2, R40, R134, R135, R147: scratchpad, global memory and atomics hold what is written, and nothing else changes (when an L1 evicts, and
which line, are the model's choices, logs 9 and 81). -/
def Obligations.MemoryHoldsWhatIsWritten : Prop :=
  Claims.ScratchpadHoldsWhatIsWritten ∧ Claims.GlobalStoreThenLoad ∧ Claims.AtomicAtTheRegistry

/-- R125 to R129, R134, R142, R421: releases, acquires and translations. -/
def Obligations.OrderingAndTranslation : Prop := Claims.ReleaseAndAcquire ∧ Claims.TranslationChecks

/-- R53, R54, R340, R341, R388, R420: the terminators that move their threads. -/
def Obligations.Transfers : Prop := Claims.TransfersMoveEveryThread ∧ Claims.GoingToABlock

/-- R37, R178, R352: EXIT, and the end of a team. -/
def Obligations.Endings : Prop :=
  Claims.ExitEndsItsThreads ∧ Claims.ExitCompletes ∧ Claims.LastExitEndsTheTeam

/-- R61, R210, R311, R339, R379, R413: NOP, TRAP, BKPT, and words that are no instruction. -/
def Obligations.NopTrapsAndBadWords : Prop := Claims.NopAndBadWords ∧ Claims.TrapAndBreakpoint

/-- R57, R175 to R178, R335, R338, R376: arrivals, bytes, openings and memberships. -/
def Obligations.Barriers : Prop :=
  Claims.BarrierArrivals ∧ Claims.BarrierOpensWhenAllHaveArrived ∧ Claims.BarrierBytes ∧ Claims.NetworkMembership

/-- R195 to R201, R416: WAITF, its record, its outcomes and the class check (the fault addresses of a bad record are the model's readings,
log 58). -/
def Obligations.Waits : Prop := Claims.WaitfReadsItsRecord ∧ Claims.WaitOutcomes ∧ Claims.ClassCheckRule

/-- R26, R58, R94, R347, R360, R387: extended blocks and convergence registers (what becomes of a set whose completing signature is
withdrawn is the model's reading, log 83). -/
def Obligations.BlocksAndConvergence : Prop := Claims.ExtendedBlocks ∧ Claims.ConvergenceSet

/-- R81, R95 to R98, R105 to R114: what multiplies, closes and loads leave in accumulators and tiles (where a misaligned stride is
reported is the model's reading, log 47). -/
def Obligations.AccumulatorsAndTiles : Prop := Claims.AccumulatorArithmetic ∧ Claims.TileRows

/-- R164 to R174, R240, R345, R346, R411, R412: CPY, TCPY and the engines' steps (that the destination's fault comes before the source's, and
that a scratchpad end's fault address is its offset, are the model's readings, logs 84 and 11). -/
def Obligations.Copies : Prop := Claims.CopiesArePosted ∧ Claims.CopyLineIsTheEnginesStep ∧ Claims.CopyLineMoves

/-- R31, R32, R183, R184, R187, R359, R361, R368: GSTART, GCOND, graph nodes and LAUNCH. -/
def Obligations.GraphsAndLaunches : Prop := Claims.GraphInstructions ∧ Claims.GraphNodesFinish ∧ Claims.LaunchResults

/-- R228 to R231, R240 to R242: the checks of handles and the states of slots. -/
def Obligations.HandlesAndSlots : Prop := Claims.HandleChecks ∧ Claims.SlotStates

/-- R228 to R236, R351, R382, R392: PTNEW, PTFREE, SEEH and DROP. -/
def Obligations.PairedTiles : Prop := Claims.NewTile ∧ Claims.TakenSlot ∧ Claims.FreeSeeDrop

/-- R211 to R215, R219, R365: K-mode, its privilege, KGET, KSET and the KRESUMEs (what the KRESUMEs of an engine do with b, and that a team
which has ended faults, are the model's readings, logs 14 and 15). -/
def Obligations.Service : Prop := Claims.UserModeHasNoPrivilege ∧ Claims.ServiceInstructions

/-- R137, R366, R367: KTLBI. -/
def Obligations.TranslationFlushes : Prop := Claims.TranslationFlush ∧ Claims.FlushedTranslations

/-- R218, R219, R285, R399, R403, R415: SYSC, TSTAMP and SRET. -/
def Obligations.ServiceCalls : Prop := Claims.ServiceCallAndTime ∧ Claims.ServiceReturn

/-- R295 to R298, R344, R414, R417: WQPOST, TRIGA, CNTADD and the trigger counters (the fault addresses of a ring's header and of its writes,
and that a post which faults gives its index back, are the model's, logs 57 and 94). -/
def Obligations.Transport : Prop := Claims.TransportInstructions ∧ Claims.CounterChangeFiresSlots

/-- R48 to R52, R309, R310: the choice of a block and the start of a clause. -/
def Obligations.SelectionAndClauses : Prop :=
  Claims.SelectionChoosesABlock ∧ Claims.ClauseStarts ∧ Claims.ClauseWaitsOrFaults

/-- R209, R225, R226, R258, R281, R283: operations that complete, trap records, watchdogs and the cores' own events. -/
def Obligations.ProgressOnTheCores : Prop := Claims.OperationsComplete ∧ Claims.TrapRecordsAndWatchdogs ∧ Claims.CoreEvents

/-- R231, R232, R236 to R242, R245 to R247, R290, R291, R296, R299: handles between devices, and what peers ask (that the home device's answer
carries the fault, what a peer may free, which value of S[d] a read finds, and that a peer's see-load is not class-checked are the
model's, logs 36, 37, 88 and 99). -/
def Obligations.DevicesTalk : Prop := Claims.HandlesBetweenDevices ∧ Claims.PeersAccesses

/-- R269, R278, R279: power grants and L2 ways (from when the epochs of power are counted is the model's choice, log 93). -/
def Obligations.PowerAndWays : Prop := Claims.PowerEvents ∧ Claims.L2WaysMove

/-- R250, R262 to R273, R297: partitions, virtual functions and their shares. -/
def Obligations.PartitionsAndFunctions : Prop := Claims.PartitionsChange ∧ Claims.FunctionsAndShares

/-- R272, R273, R301 to R305, R308: the start of the device and the TDISP events. -/
def Obligations.StartAndTdisp : Prop := Claims.StartOfTheDevice ∧ Claims.TdispEvents

-- completion, one thread at a time

/-- The batch has one thread left to perform the instruction, in that thread's registers nothing is wrong (R232, R313, R331). -/
def Claims.Alone (s : State) (c : Ctx) (i : Nat) (ps : List Posn) : Prop :=
  s.Issuing c ∧ c.todo (activeOf c) = [i] ∧ c.regFault i ps = none

/-- What a read of `n` bytes finds at a place of this device that may be read: scratchpad that no copy claims, a parameter, global
memory whose load answers (R134, R142). -/
def Claims.Reads (s : State) (c : Ctx) (i : Nat) (w : Where) (ord : Ord) (sc : Scope) (n : Nat) (bs : List Byte) (t : State) : Prop :=
  match w with
  | .scratch u o => s.spBarred c u o n = false ∧ t = s ∧ bs = s.scratchRead u o n
  | .param o => t = s ∧ bs = (s.gridOf c.team).param.bytes o n
  | .global ag va k =>
    ∃ x, Claims.Ordered s c ord sc (some (ag, va, n)) x ∧
    let z := x.markLine c i ag va
    ∃ m, loadGlobal z.ctl z.mem ag va n k = .ok bs m ∧ t = z.setMem m
  | _ => False

/-- What a write leaves at a place of this device that may be written. -/
def Claims.Wrote (s : State) (c : Ctx) (w : Where) (ord : Ord) (sc : Scope) (bs : List Byte) (t : State) : Prop :=
  match w with
  | .scratch u o => s.spBarred c u o bs.length = false ∧ t = s.scratchWrite u o bs
  | .global ag va k =>
    ∃ x, Claims.Ordered s c ord sc none x ∧
    ∃ m, storeGlobal x.ctl x.mem ag va k (ord != .plain && sc == .system) bs = .ok () m ∧ t = x.setMem m
  | _ => False

/-- Each instruction that may have to wait for a page, a copy's claim or a peer completes where nothing holds it back: R369 to
R372, R395, R401 (loads and stores), R333, R334, R386 (atomics), R381 (PREF), R195, R416 (WAITF), R345, R411 (copies), R359,
R361, R368 (graphs and launches), R344, R366, R367, R399, R403, R414, R417 (calls, returns, requests, triggers, counters and KTLBI). -/
def Obligations.OneThreadCompletes : Prop :=
  (∀ (ord : Ord) (sc : Scope) (ty : Ty) (sp : Space) (d a : Reg) (b : Option Reg) (off : BitVec 16) (s t : State) (c : Ctx) (i : Nat) (w : Where)
    (bs : List Byte), Claims.Alone s c i (atTy ty d :: basePosn sp a b) → s.whereOf c (s.rd c.team i) sp a b off ty.bytes false = .ok w →
    Claims.Reads s c i w ord sc ty.bytes bs t →
    exec (.ld ord sc ty sp d a b off) s = .next ((Claims.put c i [(d, ty, ofLE bs)] t).moveOn c [])) ∧
  (∀ (ty : Ty) (sp : Space) (d a : Reg) (b : Option Reg) (off : BitVec 16) (s t : State) (c : Ctx) (i : Nat) (w : Where) (bs : List Byte),
    let n := ty.bytes
    let d2 := regPlus d (if n = 8 then 2 else 1)
    Claims.Alone s c i ([atTy ty d, atTy ty d2] ++ basePosn sp a b) → s.whereOf c (s.rd c.team i) sp a b off (2 * n) false = .ok w →
    Claims.Reads s c i w .plain .team (2 * n) bs t →
    exec (.ldp ty sp d a b off) s = .next ((Claims.put c i [(d, ty, ofLE (bs.take n)), (d2, ty, ofLE (bs.drop n))] t).moveOn c [])) ∧
  (∀ (ord : Ord) (sc : Scope) (ty : Ty) (sp : Space) (d a : SReg) (b : Option SReg) (off : BitVec 16) (s t : State) (c : Ctx) (w : Where)
    (bs : List Byte), s.Issuing c → (∀ x ∈ [d, a] ++ b.toList, c.team.tagged x.val = false) →
    s.whereOf c (s.sRd c) sp (.s a) (b.map .s) off ty.bytes false = .ok w →
    Claims.Reads s c ((sortNat c.batch.threads).headD 0) w ord sc ty.bytes bs t →
    exec (.sld ord sc ty sp d a b off) s = .next ((t.putSLate c d (if ty.isI then (BitVec.ofNat ty.bits (ofLE bs)).signExtend 64
      else (BitVec.ofNat ty.bits (ofLE bs)).setWidth 64)).moveOn c [])) ∧
  (∀ (np : Bool) (ord : Ord) (sc : Scope) (ty : Ty) (d : Reg) (a : SReg) (b : Option Reg) (off : BitVec 16) (s : State) (c : Ctx) (i die k : Nat)
    (bs : List Byte) (m : Mem), Claims.Alone s c i (atTy ty d :: basePosn .see (.s a) b ++ [at32 (.s a)]) →
    let r := s.rd c.team i
    let o := r.tileOffset b off
    let z := s.slot die k
    s.checkHandle (s.gridOf c.team).part (r.s a) (c.team.tagged a.val) .seeRead = .ok die k → o % ty.bytes = 0 → 0 ≤ o → o + ty.bytes ≤ z.size →
    (z.scratch = true → z.team = (s.curTeam c).uid ∧ s.spBarred c z.team (z.base.toNat + o.toNat) ty.bytes = false) →
    z.st = .sealed → s.tileRead (some c.team.core) z o.toNat ty.bytes = .ok bs m →
    ∃ y, Claims.SeeLoads s c np ord sc ty d a b off s i y ∧ exec (.ldsee np ord sc ty d a b off) s = .next (y.moveOn c [])) ∧
  (∀ (ord : Ord) (sc : Scope) (ty : Ty) (sp : Space) (d a : Reg) (b : Option Reg) (off : BitVec 16) (s t : State) (c : Ctx) (i : Nat) (w : Where),
    Claims.Alone s c i (atTy ty d :: basePosn sp a b) → s.whereOf c (s.rd c.team i) sp a b off ty.bytes true = .ok w →
    Claims.Wrote s c w ord sc (toLE ty.bytes ((s.rd c.team i).val ty d)) t →
    exec (.st ord sc ty sp d a b off) s = .next ((t.pendMems c).moveOn c [])) ∧
  (∀ (ord : Ord) (sc : Scope) (ty : Ty) (sp : Space) (d a : SReg) (b : Option SReg) (off : BitVec 16) (s t : State) (c : Ctx) (w : Where),
    s.Issuing c → (∀ x ∈ [d, a] ++ b.toList, c.team.tagged x.val = false) →
    s.whereOf c (s.sRd c) sp (.s a) (b.map .s) off ty.bytes true = .ok w →
    Claims.Wrote s c w ord sc (toLE ty.bytes (((s.sRd c).s d).setWidth ty.bits).toNat) t →
    exec (.sst ord sc ty sp d a b off) s = .next ((t.pendMems c).moveOn c [])) ∧
  (∀ (aop : Aop) (ord : Ord) (sc : Scope) (ty : Ty) (sp : Space) (d a b : Reg) (off : BitVec 16) (s : State) (c : Ctx) (i : Nat) (w : Where),
    s.whereOf c (s.rd c.team i) sp a none off ty.bytes true = .ok w →
    (match w with
     | .scratch u o => s.spBarred c u o ty.bytes = false
     | .global ag va _ => ∀ r ∈ [ord, acquireOnly ord], ∃ z, Claims.Ordered s c r sc (some (ag, va, ty.bytes)) z ∧
        ∀ f, ∃ bs m, atomicGlobal z.ctl z.mem ag va ty.bytes f = .ok bs m
     | _ => False) →
    (Instr.wellFormed (.atom aop ord sc ty sp d a b off) = true → Claims.Alone s c i (atTy ty d :: basePosn sp a none ++ atomPosn aop ty b) →
      ∃ y, Claims.Atomic s c aop ord sc ty sp a b off (fun i old z => (Claims.put c i [(d, ty, old.toNat)] z).pendMems c) s i y ∧
        exec (.atom aop ord sc ty sp d a b off) s = .next (y.moveOn c [])) ∧
    (Instr.wellFormed (.red aop ord sc ty sp a b off) = true → Claims.Alone s c i (basePosn sp a none ++ atomPosn aop ty b) →
      ∃ y, Claims.Atomic s c aop ord sc ty sp a b off (fun _ _ z => z.pendMems c) s i y ∧
        exec (.red aop ord sc ty sp a b off) s = .next (y.moveOn c []))) ∧
  (∀ (ty : Ty) (a : Reg) (b : Option Reg) (off : BitVec 16) (s : State) (c : Ctx) (i : Nat) (bs : List Byte) (m : Mem),
    Claims.Alone s c i ((a, true) :: b.toList.map at32) →
    let va := ((s.rd c.team i).globalAddr a b off).toNat / 128 * 128
    isAperture va = false → loadGlobal s.ctl s.mem (s.agent c.team) va 128 .read = .ok bs m →
    exec (.pref ty .g a b off) s = .next ((s.setMem m).moveOn c [])) ∧
  (∀ (np : Bool) (a : Reg) (g : BitVec 24) (s t : State) (c : Ctx) (i : Nat) (r : WaitRec), s.Issuing c → s.mayEnd c = true →
    c.todo (everyOf c) = [i] → c.regFault i [at32 a] = none → g.toNat < (s.gridOf c.team).blocks →
    let o := ((s.rd c.team i).lo a).toNat
    o % 8 = 0 → o + 32 ≤ (s.gridOf c.team).spBytes → s.spBarred c c.team.uid o 32 = false →
    waitRecOf (s.scratchRead c.team.uid o 32) = some r →
    (s.waitOn c i r np g.toNat = .done t → exec (.waitf np a g) s = .next (t.moveOn c [])) ∧
    (∀ p, s.waitOn c i r np g.toNat = .park t p → exec (.waitf np a g) s = .next ((t.park c i p).moveOn c []))) ∧
  (∀ (dsp ssp : CpySpace) (ck : CpyKind) (d a : Reg) (b : Option Reg) (xr : Reg) (target : BitVec 16) (s : State) (c : Ctx) (i e : Nat) (dst p : Place),
    Claims.Alone s c i ((if dsp = .h then [] else [(d, decide (dsp = .g))]) ++ [(a, decide (ssp = .g))] ++ b.toList.map at32 ++ [at32 xr]) →
    let r := s.rd c.team i
    let n := (r.lo xr).toNat
    copyMisaligned r dsp ssp d a b n (s.slot (hDie (r.quad a)) (hSlot (r.quad a))).base = none → s.copyDst c r dsp d n = .ok dst →
    (∀ dev h o, dst ≠ .remote dev h o ∧ p ≠ .remote dev h o) → s.copySrc c r ssp a b n = .ok (.at p) → s.engineFor (s.gridOf c.team).part = .engine e →
    ∃ y, Claims.Copies s c dsp ssp ck d a b xr target s i y ∧ exec (.cpy dsp ssp ck d a b xr target) s = .next (y.moveOn c [])) ∧
  (∀ (toScratch : Bool) (ck : CpyKind) (d : Reg) (a : SReg) (target : BitVec 16) (s : State) (c : Ctx) (i e : Nat) (bs : List Byte) (m : Mem),
    Claims.Alone s c i [at32 d, at32 (.s a)] →
    let r := s.rd c.team i
    let g := s.gridOf c.team
    let o := (r.lo d).toNat
    (r.s a).toNat % 64 = 0 → readFresh s.ctl (s.mem.drain c.team.core) c.team.core g.fn g.part (r.s a).toNat 64 .read = .ok bs m →
    ∀ p, shapeOf bs toScratch = some p → o % p.size = 0 → o + p.bytes ≤ g.spBytes → (s.setMem m).globalBad g.part p.base.toNat = none →
    (s.setMem m).engineFor g.part = .engine e →
    ∃ y, Claims.TileCopies s c toScratch ck d a target s i y ∧ exec (.tcpy toScratch ck d a target) s = .next (y.moveOn c [])) ∧
  (∀ (d : Reg) (a : SReg) (s s1 t : State) (c : Ctx) (i : Nat), Claims.Alone s c i [at32 d, at32 (.s a)] → ((s.rd c.team i).s a).toNat % 32 = 0 →
    Claims.Released s c.team.core .part s1 →
    ((s1.curTeam c).walker ≠ none → exec (.gstart d a) s = .next ((Claims.put c i [(d, .n32, 0)] s1).moveOn c [])) ∧
    ((s1.curTeam c).walker = none → s1.startGraph c ((s.rd c.team i).s a) (fun v z => .done (Claims.put c i [(d, .n32, v)] z)) = .done t →
      exec (.gstart d a) s = .next (t.moveOn c []))) ∧
  (∀ (a : SReg) (b : Reg) (off : BitVec 16) (s t : State) (c : Ctx) (i : Nat) (w : Where), Claims.Alone s c i [at32 (.s a), at32 b] →
    s.whereOf c (s.rd c.team i) .g (.s a) none off 4 true = .ok w → Claims.Wrote s c w .rel .part (toLE 4 ((s.rd c.team i).lo b).toNat) t →
    exec (.gcond a b off) s = .next ((t.pendMems c).moveOn c [])) ∧
  (∀ (d a : SReg) (s s1 : State) (c : Ctx) (bs hb : List Byte) (m m2 : Mem), s.Issuing c → c.todo (activeOf c) = [0] →
    c.team.tagged d.val = false → c.team.tagged a.val = false →
    let g := s.gridOf c.team
    let va := ((s.rd c.team 0).s a).toNat
    va % 64 = 0 → Claims.Released s c.team.core .part s1 → readRegistry s1.ctl s1.mem g.fn g.part va 64 .read = .ok bs m →
    ((descOf bs).ring.toNat % 64 = 0 → readRegistry s1.ctl m g.fn g.part (descOf bs).ring.toNat 64 .read = .ok hb m2) →
    (if (descOf bs).ring.toNat % 64 = 0 then (s1.setMem m).setMem m2 else s1.setMem m).launchHeld g.fn g.part (descOf bs) (some g.ring) = false →
    ∃ y, Claims.LaunchPart s c d a s 0 y ∧ exec (.launch d a) s = .next (y.moveOn c [])) ∧
  (∀ (d : SReg) (a : Reg) (s t z : State) (c : Ctx) (i n : Nat) (bs : List Byte), Claims.Alone s c i [at32 (.s d), (a, true)] →
    let g := s.gridOf c.team
    let p := (s.rd c.team i).quad a
    p.toNat % 64 = 0 → s.svcOn g.part = true → isAperture p.toNat = false →
    Claims.Reads s c i (whereGlobal (s.agent c.team) p.toNat .read) .plain .team 64 bs t → Claims.Released t c.team.core .device z →
    let h := z.handleFor (.team c.team.grid c.team.lin)
    ∀ y, h.2.writeSvc g.part (svcBody 1 0 (z.curTeam c).cls g.fn h.1 i 0 0 0 bs) = some (n, y) →
    exec (.sysc d a) s = .next ((y.putSLate c d (BitVec.ofNat 64 n)).moveOn c [])) ∧
  (∀ (a b : SReg) (faulted : Bool) (s z1 : State) (c : Ctx) (i : Nat) (bs : List Byte) (m m2 : Mem), s.Issuing c → c.todo (activeOf c) = [i] →
    (s.gridOf c.team).kmode = true → c.team.tagged a.val = false → c.team.tagged b.val = false →
    let g := s.gridOf c.team
    let va := ((s.rd c.team i).s a).toNat
    ∀ s1, Claims.Released s c.team.core .system s1 →
    let z := s1.setMem m
    let byte := BitVec.ofNat 8 (field bs 2 1 ||| 1)
    readMany s1.ctl g.fn g.part .read 3 s1.mem va 128 = .ok bs m → z.ringHeld 0 g.part (z.svcBase g.part).toNat = false → z.isSvcRecord g.part va = true →
    field bs 0 1 = 1 → field bs 2 1 % 2 = 0 → z.ringHeld (field bs 4 2) g.part (field bs 64 8) = false → z.answering g.fn (va + 2) = false →
    writeRegistry z.ctl z.mem g.fn g.part (va + 2) .write [byte] = .ok () m2 →
    z.serviceReply g.part bs ((s.rd c.team i).s b) (if faulted then stFaulted else stOk) (g.fn, g.part, va + 2, byte) = .ok z1 →
    exec (.sret a b faulted) s = .next (z1.moveOn c [])) ∧
  (∀ (d a : SReg) (ring : Fin 64) (s s1 z1 : State) (c : Ctx) (i prod cons l : Nat) (hb bs : List Byte) (m m4 m5 : Mem), s.Issuing c →
    c.todo (activeOf c) = [i] → c.team.tagged d.val = false → c.team.tagged a.val = false →
    let g := s.gridOf c.team
    let va := ((s.rd c.team i).s a).toNat
    let base := s.wqBase g.fn ring.val
    let n := Nat.max prod (Store.get 0 s1.net.wqNext (g.fn * 64 + ring.val))
    va % 64 = 0 → s.wqOn g.fn ring.val = true → isAperture va = false → Claims.Released s c.team.core .part s1 →
    deviceRead s1.ctl s1.mem g.fn g.part base 64 .read = .ok hb m →
    wqHead hb = some (prod, cons, l) → n - cons < 2 ^ l →
    let e := (g.fn * 64 + ring.val, c.team.uid, i)
    let w := (s1.setMem m).arrive e
    w.postsAhead e = 0 →
    Claims.Reads w c i (whereGlobal (w.agent c.team) va .read) .plain .team 64 bs z1 →
    writeFresh z1.ctl z1.mem c.team.core g.fn g.part (base + 64 + 64 * (n % 2 ^ l)) .write bs = .ok () m4 →
    writeFresh z1.ctl m4 c.team.core g.fn g.part base .write (toLE 8 (n + 1)) = .ok () m5 →
    exec (.wqpost d a ring) s = .next (((((z1.setMem m5).setNet { z1.net with wqNext := Store.set 0 z1.net.wqNext (g.fn * 64 + ring.val) (n + 1) }).posted e).putSLate
      c d (BitVec.ofNat 64 n)).moveOn c [])) ∧
  (∀ (tc : Fin 64) (a : Reg) (s s1 : State) (c : Ctx) (i : Nat), Claims.Alone s c i [at32 a] → Claims.Released s c.team.core .part s1 →
    exec (.cntadd tc a) s = .next ((s1.addCounter (s.gridOf c.team).fn tc.val ((s.rd c.team i).lo a).toNat).moveOn c [])) ∧
  (∀ (kind : Fin 4) (a : Option SReg) (b : Reg) (s s1 : State) (c : Ctx) (i : Nat), Claims.Alone s c i ((a.toList.map (fun n => at32 (.s n))) ++ [at32 b]) →
    regInBlock (c.team.kTop i) false b = true → (s.gridOf c.team).kmode = true → Claims.Released s c.team.core .device s1 →
    let g := s.gridOf c.team
    let f := ((s.rd c.team i).lo b).toNat
    let n := match a with | some x => ((s.rd c.team i).s x).toNat | none => 0
    let m := s1.mem.settleRange kind.val f n
    f ≤ 384 → (f = 0 ∨ (s.ctl.fnOn f = true ∧ s.ctl.vfPart f = g.part)) → (kind.val = 0 → n % 65536 = 0) → (kind.val = 1 → n % 2097152 = 0) →
    (kind.val ≤ 2 → n < 2 ^ 57 ∧ n / 2 ^ 54 % 8 < 5 ∧ (n / 2 ^ 54 % 8 < 4 → s.ctl.onDie g.part (n / 2 ^ 54 % 8) = true)) →
    m.rangeOwes kind.val f n = false →
    exec (.ktlbi kind a b) s = .next (((((s1.setMem m).flushTlb g.part kind.val f n).agentsMeet g.part kind.val f n).pendMems c).moveOn c [])) ∧
  (∀ (any : Bool) (d a : SReg) (s s1 : State) (c : Ctx) (i : Nat) (bs : List Byte) (m : Mem) (ts : List (Nat × Nat)), s.Issuing c → c.todo (activeOf c) = [i] →
    c.team.tagged d.val = false → c.team.tagged a.val = false →
    let g := s.gridOf c.team
    let va := ((s.rd c.team i).s a).toNat
    va % 64 = 0 → Claims.Released s c.team.core .part s1 → readMany s1.ctl g.fn g.part .read 4 s1.mem va 128 = .ok bs m → termsOf bs = some ts →
    ∃ y, Claims.Arms s c any d a s i y ∧ exec (.triga any d a) s = .next (y.moveOn c []))
end
end

