-- ==== Sys2Proof/Tests/Slice0.lean ====
section
/-! SUPPORT. Tests: words written out from the encodings of the spec; the ill-formed term of each check; one step of an
instruction on a small state, with values that the spec's own examples and tables give; and, for each obligation, a
state and operands that meet its hypotheses. -/

namespace Sys2Proof.Tests
open Sys2Proof.Machine


-- words from the spec's entries, each beside its assembly line there
theorem test_words_sc :
    decode .sc 0x2220484400000000 = .ok (.smov .i32 8 4) ∧ decode .sc 0x2291484400000000 = .ok (.smovMv 8 4) ∧
    decode .sc 0x2320490000000080 = .ok (.smovi .i32 9 128) ∧ decode .sc 0x2090434540000000 = .ok (.scmp .eq .n64 3 5 0) ∧
    decode .sc 0x01204F4449000000 = .ok (.sadd .i32 15 4 9) ∧ decode .sc 0x2120414243440000 = .ok (.ssel .i32 1 2 3 4) := by decide
theorem test_words_sc_memory :
    decode .sc 0x3290420000000008 = .ok (.sprm .n64 2 8) ∧ decode .sc 0x3280410000000000 = .ok (.sprm .n32 1 0) ∧
    decode .sc 0x3090604743000000 = .ok (.sld .acq .device .n64 .g 7 3 none 0) ∧
    decode .sc 0x3190A04743000000 = .ok (.sst .rel .device .n64 .g 7 3 none 0) ∧
    decode .sc 0x319000424A000008 = .ok (.sst .plain .team .n64 .g 2 10 none 8) := by decide
theorem test_words_sget :
    decode .sc 0x38204A0000000009 = .ok (.sget 9 10 none none) ∧ decode .sc 0x3820464547000010 = .ok (.sget 0x10 6 (some 5) (some 7)) ∧
    decode .sc 0x3820424300000050 = .ok (.sget 0x50 2 (some 3) none) ∧ decode .sc 0x3920004100000011 = .ok (.sset 0x11 1) := by decide
theorem test_words_vx_integer :
    decode .vx 0x0120858501000000 = .ok (.add .i32 (.k 5) (.k 5) (.w 1)) ∧ decode .vx 0x0220818102000000 = .ok (.sub .i32 (.k 1) (.k 1) (.w 2)) ∧
    decode .vx 0x0320018080000000 = .ok (.mul .i32 (.w 1) (.k 0) (.k 0)) ∧ decode .vx 0x0420018283000000 = .ok (.mulh .i32 (.w 1) (.k 2) (.k 3)) ∧
    decode .vx 0x0520818283840000 = .ok (.mad .i32 (.k 1) (.k 2) (.k 3) (.k 4)) ∧ decode .vx 0x0680828081000000 = .ok (.div .n32 (.k 2) (.k 0) (.k 1)) ∧
    decode .vx 0x0720838182000000 = .ok (.rem .i32 (.k 3) (.k 1) (.k 2)) ∧ decode .vx 0x0830828486000000 = .ok (.min .i64 (.k 2) (.k 4) (.k 6)) := by decide
theorem test_words_vx_bits :
    decode .vx 0x0A20838300000000 = .ok (.abs .i32 (.k 3) (.k 3)) ∧ decode .vx 0x1020030304000000 = .ok (.and .i32 (.w 3) (.w 3) (.w 4)) ∧
    decode .vx 0x1120030102000000 = .ok (.or .i32 (.w 3) (.w 1) (.w 2)) ∧ decode .vx 0x1220030102000000 = .ok (.xor .i32 (.w 3) (.w 1) (.w 2)) ∧
    decode .vx 0x1480028105000000 = .ok (.shl .n32 (.w 2) (.k 1) (.w 5)) ∧ decode .vx 0x1790018200000000 = .ok (.clz .n64 (.w 1) (.k 2)) ∧
    decode .vx 0x1890018200000000 = .ok (.popc .n64 (.w 1) (.k 2)) ∧ decode .vx 0x1980028100000000 = .ok (.brev .n32 (.w 2) (.k 1)) := by decide
theorem test_words_vx_moves :
    decode .vx 0x2081048041000002 = .ok (.cmp .lt .n32 true (.w 4) (.k 0) (.s 1)) ∧ decode .vx 0x2030028486000000 = .ok (.cmp .eq .i64 false (.w 2) (.k 4) (.k 6)) ∧
    decode .vx 0x2120830102040000 = .ok (.sel .i32 (.k 3) (.w 1) (.w 2) (.w 4)) ∧ decode .vx 0x2220A88300000000 = .ok (.mov .i32 (.k 40) (.k 3)) ∧
    decode .vx 0x23A001000000C100 = .ok (.movi .f16 (.w 1) 0xC100) ∧ decode .vx 0x23308200FFFFFFFF = .ok (.movi .i64 (.k 2) 0xFFFFFFFF) ∧
    decode .vx 0x24908A4200000000 = .ok (.bcst .n64 (.k 10) 2) ∧ decode .vx 0x2520800000000000 = .ok (.idx 0 (.k 0)) := by decide
theorem test_words_vx_floating :
    decode .vx 0x43C0810203810000 = .ok (.fma .f32 .dflt (.k 1) (.w 2) (.w 3) (.k 1)) ∧ decode .vx 0x40A2010203000000 = .ok (.fadd .f16 .rne (.w 1) (.w 2) (.w 3)) ∧
    decode .vx 0x52B4868200000000 = .ok (.fsqrt .bf16 .rtz (.k 6) (.k 2)) ∧ decode .vx 0x48C1018283000002 = .ok (.fcmp .lt .f32 true (.w 1) (.k 2) (.k 3)) ∧
    decode .vx 0x49A0018200000000 = .ok (.fclass .f16 (.w 1) (.k 2)) ∧ decode .vx 0x58A283010000000C = .ok (.cvt .f16 .f32 false .rne (.k 3) (.w 1)) ∧
    decode .vx 0x580082010000001C = .ok (.cvt .i8 .f32 true .dflt (.k 2) (.w 1)) := by decide
theorem test_words_vx_residues :
    decode .vx 0x6020820100000000 = .ok (.rfwd .i32 (.k 2) (.w 1)) ∧ decode .vx 0x61D0838284000000 = .ok (.radd (.k 3) (.k 2) (.k 4)) ∧
    decode .vx 0x62D0858286000000 = .ok (.rmul (.k 5) (.k 2) (.k 6)) ∧ decode .vx 0x64D0058500000000 = .ok (.rback (.w 5) (.k 5)) ∧
    decode .vx 0x700090208700000C = .ok (.qnt .i8 .f32 .dflt (.k 16) (.w 32) (.k 7)) ∧ decode .vx 0x7100018283000000 = .ok (.dqnt .i8 (.w 1) (.k 2) (.k 3)) ∧
    decode .vx 0x72A0848200000000 = .ok (.cmpr .f16 (.k 4) (.k 2)) ∧ decode .vx 0x7300020100000000 = .ok (.xpnd .i8 (.w 2) (.w 1)) := by decide
theorem test_words_tx_tiles :
    decode .tx 0x010000004C000000 = .ok (.tcfg 0 0 12) ∧ decode .tx 0x0200000000004000 = .ok (.tzero 0 true 0) ∧
    decode .tx 0x030040004549C000 = .ok (.tld 0 4 5 9 true true) ∧ decode .tx 0x0400200046420000 = .ok (.tst 0 2 6 2 false) ∧
    decode .tx 0x0500100005000203 = .ok (.tlds 0 1 (.w 5) false false 2 3) ∧ decode .tx 0x060010008400C200 = .ok (.tsts 0 1 4 true true 2 0) ∧
    decode .tx 0x0700520000000000 = .ok (.ttrn 0 5 2) := by decide
theorem test_words_tx_products :
    decode .tx 0x1002101005068000 = .ok (.tmma 0 false .i8 .rne 1 0 1 (.w 5) (.w 6) true) ∧
    decode .tx 0x1001001000000000 = .ok (.tmma 0 true .i8 .dflt 0 0 1 (.w 0) (.w 0) false) ∧ decode .tx 0x11B2367000000000 = .ok (.tmmf 0 .bf16 .rne 3 6 7) ∧
    decode .tx 0x1241234100000000 = .ok (.tspm 1 true .i4 .dflt 2 3 4 (.w 0) (.w 0) false) ∧ decode .tx 0x1802000005060000 = .ok (.tclose 0 .rne 0 (.w 5) (.w 6) false) ∧
    decode .tx 0x1902500000000000 = .ok (.tdrain 0 .rne 5 0 false) ∧ decode .tx 0x1A0020008A000000 = .ok (.tqnt 0 .i8 .dflt 2 0 10) ∧
    decode .tx 0x2002001005061400 = .ok (.tgemm 0 .i8 .rne 0 0 1 (.w 5) (.w 6) false 20) := by decide
theorem test_words_mx :
    decode .mx 0x0181608142000000 = .ok (.ld .rmt .device .n32 .g (.k 1) (.s 2) none 0) ∧ decode .mx 0x0182008500000004 = .ok (.ld .plain .team .n32 .s (.k 5) (.w 0) none 4) ∧
    decode .mx 0x0280000142030000 = .ok (.st .plain .team .n32 .g (.w 1) (.s 2) (some (.w 3)) 0) ∧
    decode .mx 0x0298008245000000 = .ok (.st .plain .team .n64 .fh (.k 2) (.s 5) none 0) ∧ decode .mx 0x0480008442000008 = .ok (.ldp .n32 .g (.k 4) (.s 2) none 8) ∧
    decode .mx 0x0386018148000000 = .ok (.ldsee true .plain .team .n32 (.k 1) 8 none 0) := by decide
theorem test_words_mx_atomics :
    decode .mx 0x0882008200010000 = .ok (.atom .add .plain .team .n32 .s (.k 2) (.w 0) (.w 1) 0) ∧
    decode .mx 0x0882078100020000 = .ok (.atom .cas .plain .team .n32 .s (.k 1) (.w 0) (.w 2) 0) ∧
    decode .mx 0x0891608244860008 = .ok (.atom .add .rmt .device .n64 .g (.k 2) (.s 4) (.k 6) 8) ∧
    decode .mx 0x09C0A80044010000 = .ok (.red .fadd .rel .device .f32 .g (.s 4) (.w 1) 0) ∧ decode .mx 0x1001200000000000 = .ok (.fence .sc .device) ∧
    decode .mx 0x1000500000000000 = .ok (.fence .acq .part) ∧ decode .mx 0x1180000042000080 = .ok (.pref .n32 .g (.s 2) none 128) := by decide
theorem test_words_cf :
    decode .cf 0x0100000003000000 = .ok (.bra 3) ∧ decode .cf 0x0200000007000000 = .ok (.brc 7) ∧ decode .cf 0x030000000A840003 = .ok (.bsw 10 (.k 4) 3) ∧
    decode .cf 0x040000000C890000 = .ok (.call 12 9) ∧ decode .cf 0x0500000000890000 = .ok (.ret (.k 9)) ∧ decode .cf 0x0600000000000000 = .ok .exit ∧
    decode .cf 0x0700000005000000 = .ok (.yield 5) ∧ decode .cf 0x1000000000000000 = .ok .pnot ∧ decode .cf 0x1100000000000000 = .ok .ppop := by decide
theorem test_words_cf_waits :
    decode .cf 0x2000000005000002 = .ok (.bar false 2 5) ∧ decode .cf 0x2101000000000011 = .ok (.bara true 17) ∧ decode .cf 0x2200000009000000 = .ok (.barw false 0 9) ∧
    decode .cf 0x2301000000000005 = .ok (.nbmem 5 true) ∧ decode .cf 0x2801000001000000 = .ok (.waitf true (.w 0) 1) ∧ decode .cf 0x3000000000000000 = .ok .grab ∧
    decode .cf 0x3100000000000000 = .ok .relx ∧ decode .cf 0x3803000000000040 = .ok (.cvset 3 64) ∧ decode .cf 0x3D00000000000009 = .ok (.bkpt 9) ∧
    decode .cf 0x3E00000000000000 = .ok .nop ∧ decode .cf 0x3F00000000000007 = .ok (.trap 7) := by decide
theorem test_words_ex :
    decode .ex 0x0144864387050002 = .ok (.cpy .s .g .teamBar (.k 6) (.s 3) (some (.k 7)) (.w 5) 2) ∧
    decode .ex 0x0244864700000003 = .ok (.tcpy true .teamBar (.k 6) 7 3) ∧ decode .ex 0x0301008300000028 = .ok (.bexp true (.k 3) 40) ∧
    decode .ex 0x0800814600000000 = .ok (.gstart (.k 1) 6) ∧ decode .ex 0x0900004382000010 = .ok (.gcond 3 (.k 2) 16) ∧
    decode .ex 0x0A00454400000000 = .ok (.launch 5 4) ∧ decode .ex 0x1001454249000000 = .ok (.ptnew true 5 2 9) ∧ decode .ex 0x1100004700000000 = .ok (.ptfree 7) ∧
    decode .ex 0x1200474500000001 = .ok (.seeh 7 5 1) ∧ decode .ex 0x1300004500000000 = .ok (.drop 5) := by decide
theorem test_words_ex_service :
    decode .ex 0x1400494546000000 = .ok (.hsend 9 5 6) ∧ decode .ex 0x1500464200000000 = .ok (.hrecv 6 2) ∧ decode .ex 0x1800434400000002 = .ok (.wqpost 3 4 2) ∧
    decode .ex 0x1901434400000000 = .ok (.triga true 3 4) ∧ decode .ex 0x1A00000100000005 = .ok (.cntadd 5 (.w 1)) ∧ decode .ex 0x20004A8800000000 = .ok (.sysc 10 (.k 8)) ∧
    decode .ex 0x2110004344000000 = .ok (.sret 3 4 true) ∧ decode .ex 0x2201410000000000 = .ok (.tstamp true 1) ∧ decode .ex 0x3000004445000000 = .ok (.ktlbi 0 (some 4) (.s 5)) ∧
    decode .ex 0x3003000082000000 = .ok (.ktlbi 3 none (.k 2)) ∧ decode .ex 0x3100434481000000 = .ok (.kget 0 3 4 (.k 1) 0) ∧
    decode .ex 0x3202004481820007 = .ok (.kset false 4 (.k 1) (.k 2) 7) ∧ decode .ex 0x3300004481000000 = .ok (.kresumeResume 4 (.k 1)) := by decide
-- R324's table of words that fail
theorem test_words_refused :
    decode .vx 0x0330018080000000 ≠ .ok (.mul .i64 (.w 1) (.k 0) (.k 0)) ∧ (decode .vx 0x03E0018080000000).toBool = false ∧
    (decode .vx 0x032C018080000000).toBool = false ∧ (decode .vx 0x0320418080000000).toBool = false ∧ (decode .cf 0x0120018080000000).toBool = false ∧
    (Header.ofWord 0x7000000000000000).clause = none ∧ (Header.ofWord 0x1100200000000000).clause = some .vx := by decide
theorem test_header_fields :
    (Header.ofWord 0x0100018000000000).clause = some .sc ∧ (Header.ofWord 0x1400200000000000).clause = some .vx ∧
    (Header.ofWord 0x4100000200000000).clause = some .cf := by decide

-- the other opcodes of R321, R322 and R213 in the same fields: opcode, TY, RM and AX, then d, a, b, c
theorem test_words_sc_opcodes :
    decode .sc 0x02304F4449000000 = .ok (.ssub .i64 15 4 9) ∧ decode .sc 0x03304F4449000000 = .ok (.smul .i64 15 4 9) ∧
    decode .sc 0x04304F4449000000 = .ok (.smulh .i64 15 4 9) ∧ decode .sc 0x05304F4449000000 = .ok (.sdiv .i64 15 4 9) ∧
    decode .sc 0x06304F4449000000 = .ok (.srem .i64 15 4 9) ∧ decode .sc 0x07304F4449000000 = .ok (.smin .i64 15 4 9) ∧
    decode .sc 0x08304F4449000000 = .ok (.smax .i64 15 4 9) ∧ decode .sc 0x10304F4449000000 = .ok (.sand .i64 15 4 9) ∧
    decode .sc 0x11304F4449000000 = .ok (.sor .i64 15 4 9) ∧ decode .sc 0x12304F4449000000 = .ok (.sxor .i64 15 4 9) ∧
    decode .sc 0x13304F4449000000 = .ok (.sshl .i64 15 4 9) ∧ decode .sc 0x14904F4449000000 = .ok (.sshr .n64 15 4 9) ∧
    decode .sc 0x15304F4449000000 = .ok (.ssha .i64 15 4 9) ∧ decode .sc 0x1690424300000000 = .ok (.sclz .n64 2 3) ∧
    decode .sc 0x1790424300000000 = .ok (.spopc .n64 2 3) := by decide
theorem test_words_vx_opcodes :
    decode .vx 0x0920838182000000 = .ok (.max .i32 (.k 3) (.k 1) (.k 2)) ∧ decode .vx 0x0B20830300000000 = .ok (.neg .i32 (.k 3) (.w 3)) ∧
    decode .vx 0x1320030400000000 = .ok (.not .i32 (.w 3) (.w 4)) ∧ decode .vx 0x1580028105000000 = .ok (.shr .n32 (.w 2) (.k 1) (.w 5)) ∧
    decode .vx 0x1620028105000000 = .ok (.sha .i32 (.w 2) (.k 1) (.w 5)) ∧ decode .vx 0x41A2010203000000 = .ok (.fsub .f16 .rne (.w 1) (.w 2) (.w 3)) ∧
    decode .vx 0x42C4010203000000 = .ok (.fmul .f32 .rtz (.w 1) (.w 2) (.w 3)) ∧ decode .vx 0x44C0010283000000 = .ok (.fmin .f32 (.w 1) (.w 2) (.k 3)) ∧
    decode .vx 0x45C0010283000000 = .ok (.fmax .f32 (.w 1) (.w 2) (.k 3)) ∧ decode .vx 0x46B0868200000000 = .ok (.fabs .bf16 (.k 6) (.k 2)) ∧
    decode .vx 0x47B0868200000000 = .ok (.fneg .bf16 (.k 6) (.k 2)) ∧ decode .vx 0x50C0868200000000 = .ok (.frcp .f32 .dflt (.k 6) (.k 2)) ∧
    decode .vx 0x51C0868200000000 = .ok (.frsq .f32 .dflt (.k 6) (.k 2)) ∧ decode .vx 0x53C2010203000000 = .ok (.fdiv .f32 .rne (.w 1) (.w 2) (.w 3)) ∧
    decode .vx 0x54C0868200000000 = .ok (.fexp2 .f32 .dflt (.k 6) (.k 2)) ∧ decode .vx 0x55C0868200000000 = .ok (.flog2 .f32 .dflt (.k 6) (.k 2)) ∧
    decode .vx 0x63D0838284850000 = .ok (.rmad (.k 3) (.k 2) (.k 4) (.k 5)) := by decide
theorem test_words_kresume_actions :
    decode .ex 0x3301004481000000 = .ok (.kresumeStep 4 (.k 1)) ∧ decode .ex 0x3302004481000000 = .ok (.kresumeKill 4 (.k 1)) ∧
    decode .ex 0x3303008244000000 = .ok (.kresumeEngresume (.k 2) (.s 4)) ∧ decode .ex 0x3304008244000000 = .ok (.kresumeEngend (.k 2) (.s 4)) := by decide
/-- R324: the opcode table has a row for a word whose opcode its class does not assign. -/
theorem test_words_unassigned : decode .sc 0x0900000000000000 = .ok (.unassignedOpcode .sc 0x0900000000000000) := by decide

-- one ill-formed term for each check of WellFormed
theorem test_refused_types :
    Instr.wellFormed (.sadd .f32 1 2 3) = false ∧ Instr.wellFormed (.sclz .i4 1 2) = false ∧ Instr.wellFormed (.sprm .i8 1 0) = false ∧
    Instr.wellFormed (.add .i4 (.k 0) (.k 1) (.k 2)) = false ∧ Instr.wellFormed (.abs .n32 (.k 0) (.k 1)) = false ∧
    Instr.wellFormed (.sel .i4 (.k 0) (.k 1) (.k 2) (.k 3)) = false ∧ Instr.wellFormed (.fadd .i32 .dflt (.k 0) (.k 1) (.k 2)) = false ∧
    Instr.wellFormed (.cvt .f32 .f32 false .dflt (.k 0) (.k 1)) = false ∧ Instr.wellFormed (.cvt .f16 .f32 true .dflt (.k 0) (.k 1)) = false ∧
    Instr.wellFormed (.dqnt .i8 (.s 0) (.k 1) (.k 2)) = false ∧ Instr.wellFormed (.tmmf 0 .f32 .dflt 0 1 2) = false ∧
    Instr.wellFormed (.tqnt 0 .n8 .dflt 0 0 0) = false := by decide
theorem test_refused_registers :
    Instr.wellFormed (.add .i32 (.s 0) (.k 1) (.k 2)) = false ∧ Instr.wellFormed (.add .i64 (.k 1) (.k 2) (.k 4)) = false ∧
    Instr.wellFormed (.add .i64 (.k 2) (.w 63) (.k 4)) = false ∧ Instr.wellFormed (.mad .i64 (.k 2) (.k 4) (.k 6) (.k 127)) = false ∧
    Instr.wellFormed (.shl .n64 (.k 3) (.k 4) (.k 5)) = false ∧ Instr.wellFormed (.clz .n64 (.w 1) (.k 3)) = false ∧
    Instr.wellFormed (.cmp .eq .i32 false (.s 1) (.k 0) (.k 1)) = false ∧ Instr.wellFormed (.idx 3 (.k 0)) = false ∧
    Instr.wellFormed (.qnt .i8 .f32 .dflt (.k 16) (.w 33) (.k 7)) = false ∧ Instr.wellFormed (.cmpr .f16 (.k 4) (.k 3)) = false ∧
    Instr.wellFormed (.ret (.s 1)) = false ∧ Instr.wellFormed (.gstart (.s 1) 2) = false ∧ Instr.wellFormed (.sysc 1 (.k 1)) = false := by decide
theorem test_refused_memory :
    Instr.wellFormed (.ld .rel .part .n32 .g (.k 0) (.s 1) none 0) = false ∧ Instr.wellFormed (.ld .plain .part .n32 .g (.k 0) (.s 1) none 0) = false ∧
    Instr.wellFormed (.ld .rmt .part .n32 .g (.k 0) (.s 1) none 0) = false ∧ Instr.wellFormed (.ld .plain .team .i4 .g (.k 0) (.s 1) none 0) = false ∧
    Instr.wellFormed (.ld .plain .team .n32 .see (.k 0) (.s 1) none 0) = false ∧ Instr.wellFormed (.ld .plain .team .n32 .g (.k 0) (.k 1) none 0) = false ∧
    Instr.wellFormed (.ld .plain .team .n32 .fh (.k 0) (.k 2) none 0) = false ∧ Instr.wellFormed (.ld .plain .team .n32 .g (.k 0) (.s 1) (some (.w 0)) 0) = false ∧
    Instr.wellFormed (.st .plain .team .n32 .p (.k 0) (.k 2) none 0) = false ∧ Instr.wellFormed (.sld .plain .team .n32 .p 0 1 none 0) = false ∧
    Instr.wellFormed (.ldsee false .acq .part .n32 (.k 0) 1 none 0) = false ∧ Instr.wellFormed (.ldp .n64 .g (.k 2) (.s 1) none 0) = false ∧
    Instr.wellFormed (.fence .plain .part) = false ∧ Instr.wellFormed (.pref .i4 .g (.s 1) none 0) = false := by decide
theorem test_refused_atomics :
    Instr.wellFormed (.atom .add .plain .team .f32 .s (.k 0) (.w 0) (.w 1) 0) = false ∧ Instr.wellFormed (.atom .fadd .plain .team .n32 .s (.k 0) (.w 0) (.w 1) 0) = false ∧
    Instr.wellFormed (.atom .cas .plain .team .n32 .s (.k 0) (.w 0) (.w 1) 0) = false ∧ Instr.wellFormed (.atom .cas .plain .team .n64 .s (.k 0) (.w 0) (.w 2) 0) = false ∧
    Instr.wellFormed (.atom .add .plain .team .n32 .p (.k 0) (.w 0) (.w 1) 0) = false ∧ Instr.wellFormed (.red .xchg .plain .team .n32 .s (.w 0) (.w 1) 0) = false ∧
    Instr.wellFormed (.red .add .acq .part .n32 .g (.s 0) (.w 1) 0) = false := by decide
theorem test_refused_others :
    Instr.wellFormed (.sget 0x10 1 none none) = false ∧ Instr.wellFormed (.sget 0x12 1 none none) = false ∧ Instr.wellFormed (.sget 0 1 (some 2) none) = false ∧
    Instr.wellFormed (.tzero 0 true 8) = false ∧ Instr.wellFormed (.tlds 0 0 (.s 1) false false 0 0) = false ∧
    Instr.wellFormed (.tmma 0 true .i8 .rne 0 0 0 (.w 0) (.w 0) false) = false ∧ Instr.wellFormed (.tspm 0 true .i8 .dflt 0 0 15 (.w 0) (.w 0) false) = false ∧
    Instr.wellFormed (.tclose 0 .dflt 0 (.s 0) (.w 0) false) = false ∧ Instr.wellFormed (.tgemm 0 .i8 .dflt 0 0 0 (.w 0) (.w 0) false 61) = false ∧
    Instr.wellFormed (.bar false 16 0) = false ∧ Instr.wellFormed (.bexp false (.k 0) 16) = false ∧ Instr.wellFormed (.cpy .g .g .flag (.k 0) (.k 0) none (.w 0) 12) = false ∧
    Instr.wellFormed (.cpy .h .g .flag (.k 0) (.k 0) none (.w 0) 0) = false ∧ Instr.wellFormed (.tcpy true .teamBar (.k 0) 0 16) = false ∧
    Instr.wellFormed (.seeh 1 2 2) = false ∧ Instr.wellFormed (.ktlbi 3 (some 1) (.k 0)) = false ∧ Instr.wellFormed (.kget 0 1 2 (.k 0) 1) = false ∧
    Instr.wellFormed (.unassignedOpcode .cf 0x0100000000000000) = false := by decide

-- a small state: partition 0, one grid, one team of two threads on core 0, one batch at an instruction of class VX

/-- A grid. -/
def grid : Grid := { trialGrid with threads := 2, blocks := 4, psize := 16, param := [(0, 5), (8, 0x80), (11, 0x80)], depth := 1 }
/-- A batch of both threads. -/
def batch : Batch :=
  { id := 1, threads := [0, 1], block := 2, clause := 1, instr := 0, addr := 0x80, buf := some ⟨0x1000000000000000, [0, 0]⟩, passed := false, tok := 0
    flags := [], acq := [], done := [], held := false, vslice := none, stepped := false, heirs := [], sig := none, full := false, charged := false }
/-- A team. -/
def team : Team :=
  { mkTeam 1 grid 0 1 with
    phase := .live, placed := true, started := true, sel := some ⟨2, [1], 0, 0⟩, batches := [batch]
    threads := List.replicate 2 { Thread.blank with st := .inBatch, pos := ⟨2, 0, 0⟩ } }
/-- The machine with that team, changed as a test wants it. -/
def st (f : Team → Team := id) (g : Grid → Grid := id) : State :=
  { State.reset with
    sched := { State.reset.sched with cur := some (1, 1) }
    ctl := { State.reset.ctl with bootReason := 5, partCtl := [(0, 0x51)] }
    work := { State.reset.work with grids := [(1, some (g grid))], teams := [(1, some (f team))] } }
/-- Where the batch issues. -/
def cx (f : Team → Team := id) : Ctx := ⟨f team, batch⟩
/-- Registers of both threads. -/
def ks (k w : Store W32) (t : Team) : Team := { t with threads := t.threads.map (fun x => { x with k := k, w := w }) }
/-- Predicates of both threads. -/
def ps (p : List Bool) (t : Team) : Team := { t with threads := t.threads.map (fun x => { x with preds := p }) }
/-- S registers. -/
def ss (s : Store W64) (t : Team) : Team := { t with s := s }
/-- What an instruction leaves. -/
def after (i : Instr) (s : State) : State := match exec i s with | .next t => t | _ => s
/-- The team after it. -/
def tm (i : Instr) (s : State) : Team := ((after i s).team? 1).getD team
/-- K, W and S registers of its first thread, its trap code and its flags. -/
def kAt (i : Instr) (s : State) (n : Nat) : W32 := Store.get 0 ((tm i s).thread 0).k n
def wAt (i : Instr) (s : State) (n : Nat) : W32 := Store.get 0 ((tm i s).thread 0).w n
def sAt (i : Instr) (s : State) (n : Nat) : W64 := Store.get 0 (tm i s).s n
def code (i : Instr) (s : State) : Nat := ((tm i s).thread 0).trap.cause
def flags (i : Instr) (s : State) : BitVec 5 := (tm i s).fexcAll

theorem issuing_st : (st).Issuing (cx) := ⟨rfl, rfl⟩

-- one step: values of the spec's tables and examples
theorem test_div : -- R65's table
    kAt (.div .i32 (.k 2) (.k 0) (.k 1)) (st (ks [(0, 7), (1, 0xFFFFFFFE)] [])) 2 = 0xFFFFFFFD ∧
    kAt (.div .i32 (.k 2) (.k 0) (.k 1)) (st (ks [(0, 0xFFFFFFFB)] [])) 2 = 1 := by decide
theorem test_div_corner : kAt (.div .i32 (.k 2) (.k 0) (.k 1)) (st (ks [(0, 0x80000000), (1, 0xFFFFFFFF)] [])) 2 = 0x80000000 := by decide
theorem test_rem :
    kAt (.rem .i32 (.k 2) (.k 0) (.k 1)) (st (ks [(0, 0xFFFFFFF9), (1, 2)] [])) 2 = 0xFFFFFFFF ∧
    kAt (.rem .i32 (.k 2) (.k 0) (.k 1)) (st (ks [(0, 0xFFFFFFFB)] [])) 2 = 0xFFFFFFFB := by decide
theorem test_sdiv : sAt (.sdiv .i64 3 1 2) (st (ss [(1, 5)])) 3 = 0xFFFFFFFFFFFFFFFF := by decide
theorem test_srem : sAt (.srem .i64 3 1 2) (st (ss [(1, 7), (2, 0xFFFFFFFFFFFFFFFE)])) 3 = 1 := by decide
theorem test_sadd : -- R390's table
    sAt (.sadd .i32 15 4 9) (st (ss [(4, 0x40FFFFFFF0), (9, 0x20)])) 15 = 0x4000000010 ∧
    sAt (.sadd .i64 15 4 9) (st (ss [(4, 0x40FFFFFFF0), (9, 0x20)])) 15 = 0x4100000010 := by decide
theorem test_smovi : -- R397
    sAt (.smovi .i32 10 0x80000000) st 10 = 0xFFFFFFFF80000000 ∧ sAt (.smovi .n32 10 0x80000000) st 10 = 0x80000000 := by decide
theorem test_smovmv : sAt (.smovMv 8 4) (st (fun t => { t with s := [(4, 9)], tags := [4] })) 8 = 9 ∧
    (tm (.smovMv 8 4) (st (fun t => { t with s := [(4, 9)], tags := [4] }))).tags = [8] := by decide
theorem test_scmp : sAt (.scmp .lt .i8 3 5 6) (st (ss [(5, 0x80), (6, 0x7F)])) 3 = 1 ∧ sAt (.scmp .lt .n8 3 5 6) (st (ss [(5, 0x80), (6, 0x7F)])) 3 = 0 := by decide
theorem test_ssel : sAt (.ssel .i32 1 2 3 4) (st (ss [(2, 7), (3, 8)])) 1 = 8 := by decide
theorem test_sprm : -- R398: the parameter copy's bytes, I32 sign-extended
    sAt (.sprm .n64 2 8) st 2 = 0x80000080 ∧ sAt (.sprm .i32 2 8) st 2 = 0xFFFFFFFF80000080 ∧ code (.sprm .n64 2 4) st = 4 := by decide
theorem test_sget : sAt (.sget 7 1 none none) st 1 = 2 ∧ sAt (.sget 8 1 none none) st 1 = 1 ∧ sAt (.sget 0x0E 1 none none) st 1 = 16 := by decide
theorem test_sset : (tm (.sset 0x0B 1) (st (ss [(1, 5)]))).prio = 5 ∧ code (.sset 0x0B 1) (st (ss [(1, 5)]) (fun g => { g with kmode := false })) = Code.privilege.num := by decide
theorem test_abs : kAt (.abs .i8 (.k 2) (.k 0)) (st (ks [(0, 0x80)] [])) 2 = 0xFFFFFF80 := by decide -- R332's example
theorem test_add : kAt (.add .i8 (.k 2) (.k 0) (.k 1)) (st (ks [(0, 0x80), (1, 1)] [])) 2 = 0xFFFFFF81 := by decide
theorem test_xor : kAt (.xor .i8 (.k 2) (.k 0) (.k 1)) (st (ks [(0, 0x80), (1, 1)] [])) 2 = 0xFFFFFF81 := by decide -- R418
theorem test_mulh : kAt (.mulh .i32 (.k 2) (.k 0) (.k 1)) (st (ks [(0, 0xFFFFFFFF), (1, 2)] [])) 2 = 0xFFFFFFFF ∧
    kAt (.mulh .n32 (.k 2) (.k 0) (.k 1)) (st (ks [(0, 0xFFFFFFFF), (1, 2)] [])) 2 = 1 := by decide
theorem test_mad : kAt (.mad .i32 (.k 2) (.k 0) (.k 1) (.k 2)) (st (ks [(0, 3), (1, 4), (2, 5)] [])) 2 = 17 := by decide
theorem test_shr : -- R378's table
    kAt (.shr .i8 (.k 2) (.k 0) (.k 1)) (st (ks [(0, 0x80), (1, 1)] [])) 2 = 0x40 ∧ kAt (.shr .n64 (.k 2) (.k 0) (.k 4)) (st (ks [(1, 0x80000000), (4, 63)] [])) 2 = 1 := by decide
theorem test_sha :
    kAt (.sha .i8 (.k 2) (.k 0) (.k 1)) (st (ks [(0, 0x80), (1, 1)] [])) 2 = 0xFFFFFFC0 ∧
    kAt (.sha .i32 (.k 2) (.k 0) (.k 1)) (st (ks [(0, 0x80000000), (1, 40)] [])) 2 = 0xFFFFFFFF := by decide
theorem test_shl : kAt (.shl .n32 (.k 2) (.k 0) (.k 1)) (st (ks [(0, 3), (1, 31)] [])) 2 = 0x80000000 := by decide
theorem test_brev : kAt (.brev .n32 (.k 2) (.k 0)) (st (ks [(0, 1)] [])) 2 = 0x80000000 ∧ kAt (.brev .i8 (.k 2) (.k 0)) (st (ks [(0, 1)] [])) 2 = 0xFFFFFF80 := by decide
theorem test_clz : kAt (.clz .n64 (.k 3) (.k 0)) (st (ks [(1, 1)] [])) 3 = 31 ∧ kAt (.clz .n64 (.k 3) (.k 0)) st 3 = 64 := by decide
theorem test_popc : kAt (.popc .n64 (.k 3) (.k 0)) (st (ks [(0, 7), (1, 1)] [])) 3 = 4 := by decide
theorem test_movi : -- R374: MOVI.I64 K2, -1 writes both halves
    kAt (.movi .i64 (.k 2) 0xFFFFFFFF) st 2 = 0xFFFFFFFF ∧ kAt (.movi .i64 (.k 2) 0xFFFFFFFF) st 3 = 0xFFFFFFFF := by decide
theorem test_idx : Store.get 0 ((tm (.idx 0 (.k 0)) st).thread 1).k 0 = 1 ∧ kAt (.idx 0 (.k 0)) (st (ks [(0, 9)] [])) 0 = 0 := by decide
theorem test_cmp : wAt (.cmp .lt .n32 true (.w 4) (.k 0) (.k 1)) (st (ks [(1, 1)] [])) 4 = 1 ∧
    ((tm (.cmp .lt .n32 true (.w 4) (.k 0) (.k 1)) (st (ks [(1, 1)] []))).thread 0).preds = [true] := by decide
theorem test_cmp_deep : code (.cmp .lt .n32 true (.w 4) (.k 0) (.k 1)) (st (ps (List.replicate 8 true))) = Code.predOverflow.num := by decide
theorem test_fcmp : -- a quiet NaN: LT pushes false and sets NV, NE pushes true and sets nothing
    ((tm (.fcmp .lt .f32 true (.w 1) (.k 2) (.k 3)) (st (ks [(2, 0x7FC00000)] []))).thread 0).preds = [false] ∧
    flags (.fcmp .lt .f32 true (.w 1) (.k 2) (.k 3)) (st (ks [(2, 0x7FC00000)] [])) = Flags.nv ∧
    flags (.fcmp .ne .f32 true (.w 1) (.k 2) (.k 3)) (st (ks [(2, 0x7FC00000)] [])) = 0 := by decide
theorem test_fclass : wAt (.fclass .f16 (.w 1) (.k 2)) (st (ks [(2, 0x8000)] [])) 1 = 8 := by decide
theorem test_cvt_f16 : -- R348's example
    kAt (.cvt .f16 .f32 false .rne (.k 3) (.w 1)) (st (ks [] [(1, 0x477FF000)])) 3 = 0x7C00 ∧
    flags (.cvt .f16 .f32 false .rne (.k 3) (.w 1)) (st (ks [] [(1, 0x477FF000)])) = Flags.of ||| Flags.nx := by decide
theorem test_cvt_i8 : -- −200.0, with and without .SYM; 2.5 under .DEF
    kAt (.cvt .i8 .f32 true .dflt (.k 2) (.w 1)) (st (ks [] [(1, 0xC3480000)])) 2 = 0xFFFFFF81 ∧
    kAt (.cvt .i8 .f32 false .dflt (.k 2) (.w 1)) (st (ks [] [(1, 0xC3480000)])) 2 = 0xFFFFFF80 ∧
    kAt (.cvt .i8 .f32 false .dflt (.k 2) (.w 1)) (st (ks [] [(1, 0x40200000)])) 2 = 3 := by decide
theorem test_fadd : -- 1.0 + 2.0, and ∞ − ∞
    kAt (.fadd .f32 .rne (.k 2) (.k 0) (.k 1)) (st (ks [(0, 0x3F800000), (1, 0x40000000)] [])) 2 = 0x40400000 ∧
    flags (.fsub .f32 .rne (.k 2) (.k 0) (.k 0)) (st (ks [(0, 0x7F800000)] [])) = Flags.nv := by decide
theorem test_fdiv : flags (.fdiv .f32 .rne (.k 2) (.k 0) (.k 1)) (st (ks [(0, 0x3F800000)] [])) = Flags.dz := by decide
theorem test_residues : -- R385's table
    kAt (.rfwd .i32 (.k 2) (.w 1)) (st (ks [] [(1, 0xFFFFFFFB)])) 2 = 0x00FCFAFB ∧ kAt (.radd (.k 3) (.k 2) (.k 4)) (st (ks [(2, 0x00FCFAFB), (4, 0x070707)] [])) 3 = 0x020202 ∧
    kAt (.rmul (.k 5) (.k 2) (.k 6)) (st (ks [(2, 0x00FCFAFB), (6, 0x030303)] [])) 5 = 0x00F2F0F1 ∧ wAt (.rback (.w 5) (.k 5)) (st (ks [(5, 0x00F2F0F1)] [])) 5 = 0xFFFFFFF1 := by decide
set_option maxRecDepth 8000 in
theorem test_qnt : -- R384's example
    let s := st (ks [] [(32, 0xC0400000), (33, 0x3F800000), (34, 0x3F000000), (35, 0x3C600000), (36, 0x7FC00000)])
    let t := tm (.qnt .i8 .f32 .dflt (.k 16) (.w 32) (.k 7)) s
    Store.get 0 (t.thread 0).k 16 = 0x01122592 ∧ Store.get 0 (t.thread 0).k 7 = 0x6B ∧ t.fexcAll = Flags.nv ||| Flags.nx := by decide
theorem test_dqnt : wAt (.dqnt .i8 (.w 1) (.k 2) (.k 3)) (st (ks [(2, 0x92), (3, 0x6B)] [])) 1 = 0xC0408000 := by decide -- R350
theorem test_cmpr : -- R343's example
    kAt (.cmpr .f16 (.k 4) (.k 2)) (st (ks [(2, 0x40008000), (3, 0x7E01C000)] [])) 4 = 0x7E014000 ∧
    kAt (.cmpr .f16 (.k 4) (.k 2)) (st (ks [(2, 0x40008000), (3, 0x7E01C000)] [])) 5 = 0xD := by decide
theorem test_xpnd : -- R419's table
    kAt (.xpnd .f16 (.k 6) (.k 4)) (st (ks [(4, 0x7E014000), (5, 0xD)] [])) 7 = 0x7E010000 ∧ wAt (.xpnd .i8 (.w 2) (.w 1)) (st (ks [] [(1, 0x000DFE05)])) 2 = 0xFE000500 := by decide
theorem test_ld_scratch : -- a word of scratchpad, little-endian; an odd address; one past the pool
    kAt (.ld .plain .team .n32 .s (.k 5) (.w 0) none 4) (st (fun t => { t with scratch := [(4, 1), (7, 2)] })) 5 = 0x02000001 ∧
    code (.ld .plain .team .n32 .s (.k 5) (.w 0) none 2) st = Code.alignment.num ∧ code (.ld .plain .team .n32 .s (.k 5) (.w 0) none 0xFFFC) st = Code.access.num := by decide
theorem test_ld_param : kAt (.ld .plain .team .n32 .p (.k 3) (.w 0) none 0) st 3 = 5 := by decide
theorem test_st_scratch : (tm (.st .plain .team .n16 .s (.k 1) (.w 0) none 2) (st (ks [(1, 0x12345678)] []))).scratch = [(2, 0x78), (3, 0x56)] := by decide
theorem test_ld_global_bad : code (.ld .plain .team .n32 .g (.k 5) (.s 2) none 0) (st (ss [(2, 0x0200000000000000)])) = Code.access.num := by decide
theorem test_atom : -- both threads add in turn
    (tm (.atom .add .plain .team .n32 .s (.k 2) (.w 0) (.w 1) 0) (st (fun t => ks [] [(1, 3)] { t with scratch := [(0, 4)] }))).scratch = [(0, 10)] ∧
    kAt (.atom .add .plain .team .n32 .s (.k 2) (.w 0) (.w 1) 0) (st (fun t => ks [] [(1, 3)] { t with scratch := [(0, 4)] })) 2 = 4 := by decide
theorem test_bra : ((tm (.bra 3) st).thread 1).pos = ⟨3, 0, 0⟩ ∧ ((tm (.bra 3) st).thread 1).st = .waiting ∧ code (.bra 4) st = Code.illegalInstruction.num := by decide
theorem test_brc : ((tm (.brc 3) (st (ps [true]))).thread 0).pos.block = 3 := by decide
theorem test_bsw : ((tm (.bsw 1 (.k 4) 2) (st (ks [(4, 9)] []))).thread 0).pos.block = 3 := by decide
theorem test_call : kAt (.call 1 9) st 9 = 3 := by decide
theorem test_exit : ((tm .exit st).thread 0).st = .ended := by decide
theorem test_pnot : ((tm .pnot (st (ps [false]))).thread 0).preds = [true] ∧ ((tm .pnot (st (ps [false, false]))).thread 0).preds = [false, false] := by decide
theorem test_ppop : ((tm .ppop (st (ps [true, false]))).thread 0).preds = [false] := by decide
set_option maxRecDepth 8000 in
theorem test_bar : -- a crew of 32 threads alone: the barrier opens at the cycle's end
    let f : Team → Team := fun t => { t with threads := List.replicate 32 (t.thread 0), batches := [{ batch with threads := List.range 32 }] }
    let t := ((after (.bar false 2 3) (st f)).openTests.team? 1).getD team
    (t.bar 2).gen = 1 ∧ (t.bar 2).arrived = [] := by decide
theorem test_cvset : ((tm (.cvset 0 2) st).cvOf 0).n = 2 ∧ code (.cvset 0 3) st = Code.illegalInstruction.num := by decide
theorem test_trap : code (.trap 7) st = Code.softwareTrap.num ∧ ((tm (.trap 7) st).thread 0).trap.addr = 7 ∧ ((tm (.trap 7) st).thread 0).st = .trapped := by decide
theorem test_bkpt : code (.bkpt 9) st = Code.breakpoint.num := by decide +kernel
theorem test_grab : (tm .grab (st id (fun g => { g with ext := 1 }))).holders = [0] ∧ code .grab st = Code.regDeadlock.num := by decide
theorem test_tcfg : code (.tcfg 0 0 12) (st (fun t => { t with cv := t.cv.map (fun x => { x with n := 2 }), s := [(12, 0xFFFFF)] })) = Code.tileShape.num := by decide
theorem test_bexp : ((tm (.bexp false (.w 1) 3) (st (ks [] [(1, 192)]))).bar 3).pending = 384 := by decide
theorem test_tstamp : sAt (.tstamp true 1) st 1 = 0 := by decide
theorem test_cntadd : (after (.cntadd 5 (.w 1)) (st (ks [] [(1, 2)]))).counter 0 5 = 4 := by decide
theorem test_ptnew_null_checks : code (.ptnew true 5 2 9) (st (ss [(2, 32), (9, 64)])) = Code.alignment.num ∧ code (.ptnew true 5 2 9) st = Code.access.num := by decide
theorem test_nop : ((tm .nop st).batch? 1).map (·.instr) = some 1 := by decide
theorem test_events : after .keyLoadDone st = st ∧ after (.canaryAlarm 0) st = st := by decide
theorem test_reset : State.reset.stage = 0 ∧ State.reset.running = false ∧ (State.reset.slot 0 0).gen = 0 := by decide
theorem test_devreset : (after (.devReset 0xA501) st).boot.resetDue = true ∧ (after (.devReset 1) st).boot.resetDue = false := by decide
theorem test_pwr : (after (.pwrCtlWrite 0x0E100BB8) st).ctl.pwrCtl = 0x0E100BB8 ∧ (after (.pwrCtlWrite 0x0E110BB8) (st)).ctl.pwrCtl = 0x0E100BB8 := by decide

-- for each obligation, a state and operands that meet its hypotheses

/-- A batch of one thread, and the state with it. -/
def one (t : Team) : Team := { t with batches := [{ batch with threads := [0] }] }
def st1 (f : Team → Team := id) (g : Grid → Grid := id) : State := st (fun t => one (f t)) g
def cx1 (f : Team → Team := id) : Ctx := ⟨one (f team), { batch with threads := [0] }⟩
theorem issuing_st1 : (st1).Issuing (cx1) := ⟨rfl, rfl⟩

/-- The batch's turn is next, and its word is this one. -/
def turn (w : W64) : State :=
  let s := st1 (fun t => { t with batches := [] })
  { s with
    sched := { s.sched with cur := none, agenda := [⟨0, .batch 1 1⟩] }
    work := { s.work with teams := [(1, some { team with batches := [{ batch with threads := [0], buf := some ⟨0x1000000000000000, [w, w]⟩ }] })] } }

/-- A grid handle and a team handle have been given out. -/
def named : State := { st with work := { (st).work with handles := [(7, .grid 1), (8, .team 1 0)] } }

theorem witness_EncodedWordDecodesToItsInstruction :
    Instr.wellFormed .nop = true ∧ Instr.wellFormed (.add .i64 (.k 126) (.k 0) (.w 62)) = true ∧ Instr.wellFormed .keyLoadDone = true := by decide
theorem witness_DecodingIsTotalAndRefuses :
    decode .cf 0x3E00000000000000 = .ok .nop ∧ (0xFF : BitVec 8) ∉ (Cls.cf).opcodes.map (BitVec.ofNat 8) ∧ (0x00 : BitVec 8) ∉ (Cls.sc).opcodes.map (BitVec.ofNat 8) ∧
    6 ≤ ((0x6000000000000000 : W64).extractLsb' 60 4).toNat ∧ 6 ≤ ((0xF000000000000000 : W64).extractLsb' 60 4).toNat := by decide
theorem witness_WordsDecode : Obligations.WordsDecode := by unfold Obligations.WordsDecode; decide
theorem witness_StepRunsWhatItDecodes :
    ((turn 0x0320018080000000).nextTurn.1 = some ⟨0, .batch 1 1⟩) ∧ decode .vx 0x0320018080000000 = .ok (.mul .i32 (.w 1) (.k 0) (.k 0)) ∧
    (((turn 0x0320018080000000).nextTurn.2.elapseTo 0).setCur 1 1).ctx?.map (·.batch.word) = some (some (.vx, 0x0320018080000000)) := by decide
theorem test_topo : (st).topo 0 = 0x000C1830 := by decide
theorem witness_StepRunsEvents :
    ({ st with sched := { st.sched with agenda := [⟨0, .event .keyLoadDone⟩] } } : State).nextTurn.1 = some ⟨0, .event .keyLoadDone⟩ ∧
    ({ st with sched := { st.sched with agenda := [⟨0, .own⟩] }, mem := { st.mem with keyLoad := some 1 } } : State).nextTurn.1 = some ⟨0, .event .keyLoadDone⟩ ∧
    ∃ t, exec .keyLoadDone st = .next t := ⟨by decide, by decide, _, rfl⟩
theorem witness_NothingEverStops : (st).ctx?.isSome = true ∧ Instr.keyLoadDone.cls = none ∧ Instr.keyLoadDone ≠ .clauseStart :=
  ⟨by decide, rfl, by decide⟩
theorem witness_StepKeepsMemoryCanonical : Claims.Canonical State.reset ∧ ∃ t, step State.reset = .next t :=
  ⟨⟨⟨by decide, by decide⟩, by decide, by decide⟩, _, rfl⟩
theorem witness_StepKeepsNames : Claims.Named State.reset ∧ ∃ t, step State.reset = .next t :=
  ⟨⟨by decide, by decide, (by intro u t h; cases h), (by intro u t h; cases h), by decide, by decide⟩, _, rfl⟩
theorem witness_TrapsAndResumption :
    (st).team? (cx).team.uid = some (cx).team ∧ (cx).team.batch? (cx).batch.id = some (cx).batch ∧ 1 < (cx).team.threads.length ∧ [0, 1].Nodup ∧
    (∀ i ∈ [0, 1], i < (cx).team.threads.length) ∧ ({ Thread.blank with st := .trapped, trap := ⟨24, 0, 0, 0, 0, 5, true, 0⟩ } : Thread).trap.cause < 256 ∧
    (st).teamOf 1 0 = some team ∧ ((st (fun t => { t with threads := t.threads.map (fun x => { x with st := .trapped }) })).kWrite 1 0 1 false 31 7).isSome = true := by decide
theorem witness_MovingOnAndResults : (st).team? (cx).team.uid = some team ∧ team.uid = (cx).team.uid := by decide
theorem witness_ScalarInstructions : (st).Issuing (cx) ∧ Instr.wellFormed (.sadd .i32 63 0 1) = true ∧
    (Claims.scalarRule (.sadd .i32 63 0 1)).map (fun x => (x.1, x.2.1)) = some (63, [0, 1]) ∧ (∀ x ∈ ([63, 0, 1] : List SReg), (cx).team.tagged x.val = false) ∧
    ([63, 0, 1] : List SReg).find? (fun y => ({ team with tags := [0] }).tagged y.val) = some 0 := ⟨issuing_st, by decide, rfl, by decide, by decide⟩
theorem witness_VectorIntegerResults : (st).Issuing (cx) ∧ Instr.wellFormed (.mad .i64 (.k 126) (.k 0) (.w 62) (.s 63)) = true ∧
    (Claims.intRule (.mad .i64 (.k 126) (.k 0) (.w 62) (.s 63))).isSome = true := ⟨issuing_st, by decide, rfl⟩
theorem witness_VectorFloatingResults : (st).Issuing (cx) ∧ Instr.wellFormed (.qnt .i4 .f32 .dflt (.k 124) (.w 32) (.k 127)) = true ∧
    (Claims.fltRule (.qnt .i4 .f32 .dflt (.k 124) (.w 32) (.k 127))).isSome = true := ⟨issuing_st, by decide, rfl⟩
theorem witness_ComparesAndShifts : (st).Issuing (cx) ∧ Ty.isInt .n64 = true ∧ (2 ^ 64 - 1 : Nat) < 2 ^ Ty.bits .n64 ∧ Ty.bits .n64 ≤ 64 := ⟨issuing_st, by decide⟩
theorem witness_SpecialValuesAndResidues : -- a NaN, the infinities, zeros, a negative number
    (unpack .f32 0x7FC00000).isNan = true ∧ unpack .f32 0x7F800000 = .inf false ∧ unpack .f32 0xFF800000 = .inf true ∧ (unpack .f32 0).isZero = true ∧
    (unpack .f32 0xBF800000).isZero = false ∧ (unpack .f32 0xBF800000).neg? = true ∧ macShare .i8 true ≤ 8388479 ∧ macShare .i4 false ≤ 8388479 := by decide
theorem witness_ParametersAndSelectors : (st).Issuing (cx) ∧ Instr.wellFormed (.sprm .n64 63 8) = true ∧
    (Instr.wellFormed (.sget 0x00 1 none none) && Instr.wellFormed (.sget 0x0F 1 none none) && Instr.wellFormed (.sget 0x20 1 none none) &&
      Instr.wellFormed (.sget 0x37 1 none none) && Instr.wellFormed (.sget 0x40 1 none none) && Instr.wellFormed (.sget 0x9F 1 none none)) = true ∧
    Instr.wellFormed (.sget 0x50 1 (some 2) none) = true ∧ (∀ x ∈ ([1, 2] : List SReg), (cx).team.tagged x.val = false) ∧
    ((st id (fun g => { g with kmode := false })).gridOf team).kmode = false ∧ ((st).gridOf team).kmode = true :=
  ⟨issuing_st, by decide, by decide, by decide, by decide, rfl, rfl⟩
theorem witness_SgetTeamHandle : named.targetIn 0 7 = some (.grid 1) ∧ named.grid? 1 = some grid ∧ 0 < grid.count ∧ grid.count ≤ 1 ∧
    named.targetIn 0 8 = some (.team 1 0) := ⟨by decide, rfl, by decide, by decide, by decide⟩

/-- Scratchpad bytes. -/
def sp (t : Team) : Team := { t with scratch := [(0, 1), (1, 2)] }
theorem witness_LoadsAndStores : (st1 sp).Issuing (cx1 sp) ∧
    (∃ t, Each (Claims.Part (cx1 sp) (atTy .n32 (.k 5) :: basePosn .s (.w 0) none) (Claims.Loads (st1 sp) (cx1 sp) .plain .team .n32 .s (.k 5) (.w 0) none 0))
      ((cx1 sp).todo (activeOf (cx1 sp))) (st1 sp) t) ∧
    (∃ t, Each (Claims.Part (cx1 sp) ([atTy .n32 (.k 4), atTy .n32 (regPlus (.k 4) 1)] ++ basePosn .s (.w 0) none)
      (Claims.LoadsPair (st1 sp) (cx1 sp) .n32 .s (.k 4) (.w 0) none 0)) ((cx1 sp).todo (activeOf (cx1 sp))) (st1 sp) t) ∧
    (∃ t, Each (Claims.Part (cx1 sp) (atTy .n32 (.k 4) :: basePosn .see (.s 2) none ++ [at32 (.s 2)])
      (Claims.SeeLoads (st1 sp) (cx1 sp) false .plain .team .n32 (.k 4) 2 none 0)) ((cx1 sp).todo (activeOf (cx1 sp))) (st1 sp) t) ∧
    (∃ t, Each (Claims.Part (cx1 sp) (atTy .n32 (.k 4) :: basePosn .s (.w 0) none) (fun x i y =>
        let r := (st1 sp).rd (cx1 sp).team i
        Claims.Placed (cx1 sp) x i (x.whereOf (cx1 sp) r .s (.w 0) none 0 4 true) (fun w =>
          Claims.Takes (cx1 sp) i (x.writeAt (cx1 sp) i w .plain .team .n32 (r.val .n32 (.k 4)) (r.vaOf .s (.w 0) none 0)) (fun z => z.pendMems (cx1 sp)) y) y))
      ((cx1 sp).todo (activeOf (cx1 sp))) (st1 sp) t) :=
  ⟨⟨rfl, rfl⟩, ⟨_, _, Or.inl ⟨_, _, fun _ => rfl, rfl⟩, rfl⟩, ⟨_, _, Or.inl ⟨_, _, fun _ => rfl, rfl⟩, rfl⟩, ⟨_, _, rfl, rfl⟩, ⟨_, _, rfl, rfl⟩⟩
theorem witness_SldSst : (∀ x ∈ ([1, 2] : List SReg) ++ (none : Option SReg).toList, (cx1 sp).team.tagged x.val = false) ∧
    (st1 sp).whereOf (cx1 sp) ((st1 sp).sRd (cx1 sp)) .s (.s 2) none 0 4 false = .ok (.scratch 1 0) ∧
    (∃ bs t, ∀ ok, (st1 sp).readAt (cx1 sp) ((sortNat (cx1 sp).batch.threads).headD 0) (.scratch 1 0) .plain .team .n32 4 0 ok = ok bs t) ∧
    ∃ t, (st1 sp).writeAt (cx1 sp) 0 (.scratch 1 0) .plain .team .n32 5 0 = .done t := ⟨by decide, rfl, ⟨_, _, fun _ => rfl⟩, _, rfl⟩
theorem witness_AtomicsFencesAndPrefetch : (st1 sp).Issuing (cx1 sp) ∧ Instr.wellFormed (.atom .cas .plain .team .n32 .s (.k 4) (.w 0) (.w 2) 0) = true ∧
    (∃ t, Each (Claims.Part (cx1 sp) (atTy .n32 (.k 4) :: basePosn .s (.w 0) none ++ atomPosn .cas .n32 (.w 2)) (Claims.Atomic (st1 sp) (cx1 sp) .cas .plain .team .n32 .s (.w 0) (.w 2) 0
        (fun i old z => (Claims.put (cx1 sp) i [(.k 4, .n32, old.toNat)] z).pendMems (cx1 sp)))) ((cx1 sp).todo (activeOf (cx1 sp))) (st1 sp) t) ∧
    Instr.wellFormed (.red .add .plain .team .n32 .s (.w 0) (.w 1) 0) = true ∧
    (∃ t, Each (Claims.Part (cx1 sp) (basePosn .s (.w 0) none ++ atomPosn .add .n32 (.w 1)) (Claims.Atomic (st1 sp) (cx1 sp) .add .plain .team .n32 .s (.w 0) (.w 1) 0
        (fun _ _ z => z.pendMems (cx1 sp)))) ((cx1 sp).todo (activeOf (cx1 sp))) (st1 sp) t) :=
  ⟨⟨rfl, rfl⟩, by decide, ⟨_, _, ⟨rfl, rfl⟩, rfl⟩, by decide, ⟨_, _, ⟨rfl, rfl⟩, rfl⟩⟩

/-- The PF's translation root in die 0 is enabled. -/
def rooted : Ctl := { (st1).ctl with xltRoot := [(0, 1)] }
/-- The page at 0 of the PF in die 0 is cached: readable, writable, executable, at frame 0. -/
def mapped (f : Team → Team := id) : State := { st1 f with ctl := rooted, mem := { (st1 f).mem with tlb := [(0, some ⟨0x1D, false⟩)], hbm := [(0, 1)] } }
theorem witness_AddressesLead : -- each clause at its boundary: base S2, offset, size 4
    let at_ (v : W64) (off : BitVec 16) : Nat := (((st1 (ss [(2, v)])).rd (one (ss [(2, v)] team)) 0).globalAddr (.s 2) none off).toNat
    at_ 1 0 % 4 ≠ 0 ∧ (at_ 0x0140000000000000 0 % 4 = 0 ∧ at_ 0x0140000000000000 0 / 2 ^ 54 = 5) ∧ (at_ 0x017FFFFFFFFFFFFC 0 < 2 ^ 57 ∧ at_ 0x017FFFFFFFFFFFFC 0 / 2 ^ 54 = 5) ∧
    at_ 0x0140000000000000 0xFFFC / 2 ^ 54 = 4 ∧ at_ 0x0180000000000000 0 / 2 ^ 54 = 6 ∧ at_ 0x0200000000000000 0 = 2 ^ 57 := by decide
theorem witness_PoolAndParameterOffsets : -- misaligned; below 0; the last that fits; the first that does not
    let o (off : BitVec 16) : Int := off.toInt
    (o 2 % 4 ≠ 0 ∧ o 0xFFFC % 4 = 0 ∧ o 0xFFFC < 0) ∧ (grid.psize = 16 ∧ o 12 + 4 = 16 ∧ o 16 + 4 > 16) ∧ (0 ≤ o 0 ∧ o 12 + 4 ≤ (grid.spBytes : Int)) := by decide

/-- A tile in the team's scratchpad at 64, of 64 bytes, being filled by it. -/
def tiled (f : Team → Team := id) : State :=
  { st1 f with pairs := { (st1 f).pairs with slots := [(0, { Slot.zero with st := .filling, base := 64, size := 64, scratch := true, team := 1, holder := .team 1 })] } }
/-- Its fill handle, and a see handle with every right. -/
def fillHandle : W64 := 0x800000000000#48 ++ Config.cmac 0 0x800000000000#48
def seeHandle : W64 := 5#48 ++ Config.cmac 0 5#48
theorem handle_fields (b : BitVec 48) (c : BitVec 16) : (b ++ c).toNat = b.toNat * 65536 + c.toNat := by
  rw [BitVec.toNat_append, ← Nat.shiftLeft_add_eq_or_of_lt c.isLt, Nat.shiftLeft_eq]
theorem seal_of (b : BitVec 48) (c : BitVec 16) : hSeal (b ++ c) = c ∧ hBody (b ++ c) = b := by
  constructor <;> (apply BitVec.eq_of_toNat_eq; simp only [hSeal, hBody, BitVec.extractLsb'_toNat, handle_fields, Nat.shiftRight_eq_div_pow]; have := b.isLt; have := c.isLt; omega)
theorem tile_fill (f : Team → Team) : (tiled f).checkHandle 0 fillHandle true .fill = .ok 0 0 ∧ (tiled f).checkHandle 0 fillHandle true .either = .ok 0 0 := by
  have h := handle_fields 0x800000000000#48 (Config.cmac 0 0x800000000000#48)
  have hc := (Config.cmac 0 0x800000000000#48).isLt
  have e1 : hFill fillHandle = true := by unfold hFill bit fillHandle; rw [h]; simp; omega
  have e2 : hDevice fillHandle = 0 := by unfold hDevice bits fillHandle; rw [h]; simp; omega
  have e3 : hDie fillHandle = 0 := by unfold hDie bits fillHandle; rw [h]; simp; omega
  have e4 : hSlot fillHandle = 0 := by unfold hSlot bits fillHandle; rw [h]; simp; omega
  have e5 : hGen fillHandle = 0 := by unfold hGen bits fillHandle; rw [h]; simp; omega
  have e6 : fillHandle ≠ 0 := by intro e; have := congrArg BitVec.toNat e; unfold fillHandle at this; rw [h] at this; simp at this
  have e7 := seal_of 0x800000000000#48 (Config.cmac 0 0x800000000000#48)
  constructor <;> (unfold State.checkHandle; rw [if_neg e6, e1, e2, e3, e4, e5]; unfold fillHandle; rw [e7.1, e7.2, show (tiled f).ctl = (tiled).ctl from rfl, show (tiled).ctl.devnum 0 = 0 from rfl, show (tiled f).sealKey 0 = 0 from rfl]; simp only [ne_eq, not_true_eq_false, if_false]; rfl)
theorem tile_see (f : Team → Team) : (tiled f).checkHandle 0 seeHandle false .seeRead = .ok 0 0 ∧ (tiled f).checkHandle 0 seeHandle false .seeFree = .ok 0 0 := by
  have h := handle_fields 5#48 (Config.cmac 0 5#48)
  have hc := (Config.cmac 0 5#48).isLt
  have e1 : hFill seeHandle = false := by unfold hFill bit seeHandle; rw [h]; simp; omega
  have e2 : hDevice seeHandle = 0 := by unfold hDevice bits seeHandle; rw [h]; simp; omega
  have e3 : hDie seeHandle = 0 := by unfold hDie bits seeHandle; rw [h]; simp; omega
  have e4 : hSlot seeHandle = 0 := by unfold hSlot bits seeHandle; rw [h]; simp; omega
  have e5 : hGen seeHandle = 0 := by unfold hGen bits seeHandle; rw [h]; simp; omega
  have e8 : hRights seeHandle = 5 := by unfold hRights bits seeHandle; rw [h]; simp; omega
  have e6 : seeHandle ≠ 0 := by intro e; have := congrArg BitVec.toNat e; unfold seeHandle at this; rw [h] at this; simp at this
  have e7 := seal_of 5#48 (Config.cmac 0 5#48)
  constructor <;> (unfold State.checkHandle; rw [if_neg e6, e1, e2, e3, e4, e5, e8]; unfold seeHandle; rw [e7.1, e7.2, show (tiled f).ctl = (tiled).ctl from rfl, show (tiled).ctl.devnum 0 = 0 from rfl, show (tiled f).sealKey 0 = 0 from rfl]; simp only [ne_eq, not_true_eq_false, if_false]; rfl)

/-- The team holds the fill handle in S2. -/
def holds (t : Team) : Team := { t with s := [(2, fillHandle), (3, seeHandle)], tags := [2] }
theorem witness_FillHandlePlaces : -- the handle; then offsets: misaligned, below 0, the last that fits, the first that does not
    (tiled holds).checkHandle ((tiled holds).gridOf (cx1 holds).team).part (((tiled holds).rd (cx1 holds).team 0).s 2) ((cx1 holds).team.tagged 2) .fill = .ok 0 0 ∧
    (tiled).checkHandle 0 0 true .fill = .bad .access ∧ ((2 : Int) % 4 ≠ 0 ∧ (-4 : Int) % 4 = 0 ∧ (60 : Int) + 4 ≤ ((tiled).slot 0 0).size ∧ ((tiled).slot 0 0).size < (64 : Int) + 4) :=
  ⟨(tile_fill holds).1, rfl, by decide⟩
theorem witness_RemoteHandle :
    ({ (tiled) with net := { (tiled).net with peers := [(0, [1])] } } : State).checkHandle 0 0x0010000000000000 true .fill = .remote 1 := by decide
theorem witness_MemoryHoldsWhatIsWritten : (st1 sp).team? 1 = some (one (sp team)) ∧ (one (sp team)).uid = 1 ∧
    (∃ m', storeGlobal (mapped).ctl (mapped).mem ⟨0, 0, 0, 0, []⟩ 4 .write false [1, 2, 3, 4] = .ok () m') ∧
    (∃ p m1, translate (mapped).ctl (mapped).mem 0 0 4 .write = .ok p m1) ∧ Claims.Homes (mapped).mem ∧ (∀ p, Claims.Fits (mapped).mem ⟨0, 0, 0, 0, []⟩ 4 4 p) ∧
    (∃ bs m2, loadGlobal (mapped).ctl (mapped).mem ⟨0, 0, 0, 0, []⟩ 0 4 .read = .ok bs m2) ∧
    (∃ bs m2, atomicGlobal (mapped).ctl (mapped).mem ⟨0, 0, 0, 0, []⟩ 0 4 (fun _ => some [5, 0, 0, 0]) = .ok bs m2) :=
  ⟨rfl, rfl, ⟨_, rfl⟩, ⟨_, _, rfl⟩, (by intro w k h; cases h), (by intro p k hk w h; cases h), ⟨_, _, rfl⟩, _, _, rfl⟩
/-- Words of core 0: an owned one and a copy, and a registration in flight. -/
def cached : Mem := { (mapped).mem with l1 := [(0, some ⟨7, true, 0, 0, 15⟩), (1, some ⟨8, false, 1, 8, 0⟩)], flights := [⟨0, 0, false, false, none, [0]⟩] }
theorem witness_OrderingAndTranslation :
    Store.get none cached.l1 0 = some ⟨7, true, 0, 0, 15⟩ ∧ Store.wf none cached.l1 = true ∧ Store.get none (cached.acquire 0).l1 0 = some ⟨7, true, 0, 0, 15⟩ ∧
    (2 ^ 57 ≤ 2 ^ 57) ∧ (5 * 2 ^ 54 < 2 ^ 57 ∧ 5 ≤ 5 * 2 ^ 54 / 2 ^ 54) ∧ (∃ p m1, translate (mapped).ctl (mapped).mem 0 0 65535 .read = .ok p m1) ∧
    ({ (mapped).ctl with partCtl := [] } : Ctl).onDie 0 (2 ^ 54 / 2 ^ 54) = false := ⟨by decide, by decide, by decide, by decide, by decide, ⟨_, _, rfl⟩, by decide⟩
theorem witness_Transfers : (st1).Issuing (cx1) ∧ (Claims.jumpRule (st1) (cx1) (.bra 3)).isSome = true ∧ (Claims.jumpRule (st1) (cx1) (.ret (.k 31))).isSome = true ∧
    (st1).mayEnd (cx1) = true ∧ 0 < (cx1).team.threads.length ∧
    (st1 (fun t => { t with toks := [{ id := 5, batch := 1, threads := [0], seta := none, setb := none, regs := 1, mems := 0, posts := 0, issued := true, aDone := true, bDone := true }] })).mayEnd
      (cx1 (fun t => { t with toks := [{ id := 5, batch := 1, threads := [0], seta := none, setb := none, regs := 1, mems := 0, posts := 0, issued := true, aDone := true, bDone := true }] })) = false :=
  ⟨issuing_st1, rfl, rfl, by decide, by decide, by decide⟩
theorem witness_Endings : (st1).mayEnd (cx1) = true ∧
    team.phase = .live ∧ (∀ x ∈ ({ team with threads := team.threads.map (fun x => { x with st := .ended }) } : Team).threads, x.st = .ended) := by decide
theorem witness_NopTrapsAndBadWords : (st).Issuing (cx) ∧ [0, 1].Nodup ∧ (∀ i ∈ [0, 1], i < (cx).team.threads.length) ∧
    ((turn 0x03E0018080000000).nextTurn.1 = some ⟨0, .batch 1 1⟩) ∧ (∃ why, decode .vx 0x03E0018080000000 = .error why) ∧
    (((turn 0x03E0018080000000).nextTurn.2.elapseTo 0).setCur 1 1).ctx?.map (·.batch.word) = some (some (.vx, 0x03E0018080000000)) ∧
    (((((turn 0x03E0018080000000).nextTurn.2.elapseTo 0).setCur 1 1).beforeIssue (cx1) .vx).ctx?).isSome = true :=
  ⟨issuing_st, by decide, by decide, by decide, ⟨_, rfl⟩, by decide, by decide⟩
/-- A team of one whole crew. -/
def crew (t : Team) : Team := { t with threads := List.replicate 32 (t.thread 0), batches := [{ batch with threads := [0] }] }
def ready : Team := { crew team with bars := listPut (crew team).bars 15 { Bar.zero with arrived := [(0, 0)] } }
theorem witness_Barriers : (st1).Issuing (cx1) ∧ (st1).mayEnd (cx1) = true ∧ (st crew).team? 1 = some (crew team) ∧ 15 < (crew team).bars.length ∧
    -- full, and not full
    (ready.liveCrews = [0] ∧ (ready.bar 15).pending = 0 ∧ ∀ k ∈ ready.liveCrews, (0, k) ∈ (ready.bar 15).arrived) ∧
    ¬((crew team).liveCrews ≠ [] ∧ ((crew team).bar 0).pending = 0 ∧ ∀ k ∈ (crew team).liveCrews, (0, k) ∈ ((crew team).bar 0).arrived) :=
  ⟨issuing_st1, by decide, rfl, by decide, by decide, by decide⟩

/-- W0 holds 4. -/
def w4 : Team → Team := ks [] [(0, 4)]
theorem witness_Waits : (st1 w4).Issuing (cx1 w4) ∧ (st1 w4).mayEnd (cx1 w4) = true ∧
    (∃ t, Each (fun x i y =>
      if ((st1 w4).gridOf (cx1 w4).team).blocks ≤ (1 : BitVec 24).toNat then y = x.raise (cx1 w4) i .illegalInstruction 0
      else Claims.Part (cx1 w4) [at32 (.w 0)] (fun x i y =>
        let o := (((st1 w4).rd (cx1 w4).team i).lo (.w 0)).toNat
        if o % 8 ≠ 0 then y = x.raise (cx1 w4) i .alignment (BitVec.ofNat 64 o)
        else if ((st1 w4).gridOf (cx1 w4).team).spBytes < o + 32 then y = x.raise (cx1 w4) i .access (BitVec.ofNat 64 o)
        else x.mem.scratchBarred (cx1 w4).team.uid o 32 = false ∧
          match waitRecOf (x.scratchRead (cx1 w4).team.uid o 32) with
          | none => y = x.raise (cx1 w4) i .access (BitVec.ofNat 64 o)
          | some r => Claims.Takes (cx1 w4) i (x.waitOn (cx1 w4) i r false 1) id y) x i y) ((cx1 w4).todo (everyOf (cx1 w4))) (st1 w4) t) :=
  ⟨⟨rfl, rfl⟩, by decide, _, _, rfl, rfl⟩
/-- A wait record: address, value, target, relation, width, space. -/
def onWord (target : W64) (rel : Nat) (scratch : Bool) : WaitRec := ⟨0, 5, target, rel, false, scratch⟩
theorem witness_WaitOutcomes :
    ((onWord 0 0 false).target = 0 ∧ (onWord 0 0 false).scratch = false) ∧ (named.targetIn 0 9 = none ∧ (onWord 9 0 false).target ≠ 0) ∧
    (named.targetIn 0 8 = some (.team 1 0) ∧ named.ownLineage team (.team 1 0) = true ∧ (onWord 8 4 false).rel = 4) ∧
    (named.ownLineage { team with grid := 2, uid := 2 } (.team 1 0) = false) ∧
    ((onWord 0 0 true).rel ≠ 4 ∧ (onWord 0 0 true).scratch = true ∧ (onWord 0 0 true).waddr.toNat % 4 = 0 ∧ 0 + 4 ≤ ((st).gridOf team).spBytes) := by decide
theorem witness_WatchedWord : ∃ bs m, readRegistry (mapped).ctl ((mapped).mem.drain 0) 0 0 0 4 .read = .ok bs m := ⟨_, _, rfl⟩
set_option maxRecDepth 8000 in
theorem witness_ClassCheckRule :
    (named.targetSet .none).filter (fun r => decide (named.clsOf r.1 r.2 < 1)) = [] ∧
    (named.targetSet (.team 1 0)).filter (fun r => decide (named.clsOf r.1 r.2 < 2)) = [(1, 0)] ∧ (named.promote 0 [(1, 0)] 2).isSome = true := by decide
theorem witness_BlocksAndConvergence : (st).Issuing (cx) ∧ (∀ x ∈ (cx).team.threads, Store.wf 0 x.k = true) ∧ 1 < (cx).team.threads.length ∧
    ((0 : BitVec 16) = 0 ∧ (cx).team.threads.length < (3 : BitVec 16).toNat) ∧ ((2 : BitVec 16) ≠ 0 ∧ (2 : BitVec 16).toNat ≤ (cx).team.threads.length) ∧
    ((cx).team.cv.getD 0 (Cv.start 0)).n ≠ 1 := ⟨issuing_st, by decide⟩
/-- Convergence register 0 is for the batch's one thread. -/
def cv1 (n : Nat) (count : Nat) (pos : Option Pos) (t : Team) : Team := { t with cv := listPut t.cv 0 ⟨n, count, pos, [], []⟩ }
/-- The batch's signature there. -/
def signature : Sig := ⟨0, 1, ⟨2, 1, 0⟩, [0], [], [], 0, 0, [], false, false⟩
theorem witness_TileInstructionsSignAndIssue : (st1 (cv1 1 0 none)).Issuing (cx1 (cv1 1 0 none)) ∧ (Claims.signs (.tzero 0 false 15)).isSome = true ∧
    (cx1).team.gemm = none ∧ activeOf (cx1) = [0] ∧ (∀ i ∈ activeOf (cx1), ∀ r ∈ ([.k 31, .w 0] : List Reg), regInBlock ((cx1).team.kTop i) false r = true) ∧
    ((cx1 (cv1 1 0 none)).team.cvOf 0).n ≤ ((cx1 (cv1 1 0 none)).team.cvOf 0).count + 1 ∧ ((cx1 (cv1 2 0 none)).team.cvOf 0).count + 1 < ((cx1 (cv1 2 0 none)).team.cvOf 0).n ∧
    ((cx1 (cv1 2 1 (some ⟨1, 0, 0⟩))).team.cvOf 0).pos ≠ some (cx1).batch.pos ∧ (activeOf (cx1 (ps [false]))) = [] ∧
    (cx1).batch.sig = none ∧ (cx1 (cv1 1 0 none)).team.batch? 1 = some (cx1 (cv1 1 0 none)).batch ∧ (cx1 (cv1 1 0 none)).team.owed = [] ∧
    (∃ z, Claims.issues (.tzero 0 false 15) (cx1) signature ((st1).onSig (cx1) (some signature)) = .done z) ∧
    (∃ z e a, Claims.issues (.tcfg 0 0 12) (cx1) signature (st1 (ss [(12, 0xFFFFF)])) = .fault z e a) :=
  ⟨⟨rfl, rfl⟩, rfl, rfl, by decide, by decide, by decide, by decide, by decide, by decide, rfl, rfl, rfl, ⟨_, rfl⟩, _, _, _, rfl⟩
/-- Two of two have signed: the register is free again. -/
theorem witness_WithdrawnSignature : 0 < team.cv.length ∧ (1 < 2 ∧ 2 ≤ 1 + [0].length) ∧
    (cv1 2 0 (some ⟨2, 1, 0⟩) team).cvOf 0 = { (⟨2, 1, some ⟨2, 1, 0⟩, [], []⟩ : Cv) with count := 1 + [0].length - 2 } ∧
    (⟨0, 2, ⟨2, 1, 0⟩, [0], [], [], 0, 0, [], false, false⟩ : Sig).n = 2 := by decide
theorem witness_AccumulatorsAndTiles : tcRows (team.tctlOf 0) ≤ 64 ∧ 7 < team.acst.length ∧ 2 * 3 ≤ ([1, 2, 3, 4, 5, 6] : List Byte).length ∧ (0 < 4) ∧
    -- the rows' addresses: misaligned base; misaligned stride; the last row that fits the pool and the first that does not
    ((2 : W64).toNat % 4 ≠ 0) ∧ ((4 : W64).toNat % 4 = 0 ∧ (2 : W64).toNat % 4 ≠ 0) ∧ (grid.spBytes < (grid.spBytes - 124) + 128) ∧ ((grid.spBytes - 128) + 128 ≤ grid.spBytes) := by
  refine ⟨by decide, by decide, by decide, by decide, by decide, by decide, by decide, by decide⟩
theorem witness_RowPieces : ∃ m, checkPieces (mapped).ctl ((mapped).agent team) .read (mapped).mem ([0, 256].flatMap (fun a => pieces 65536 3 a 128)) = .ok m := ⟨_, rfl⟩
/-- A TGEMM of the team, in its first load. -/
def gemm (phase : Nat) : Gemm :=
  ⟨0, phase, .i8, .rne, 0, 0, 1, [], [], false, 0, 0, 0, 0, 1, true, 0, 1, ⟨2, 1, 0⟩, 0x80, 0, 1, [0], false⟩
theorem witness_TgemmPhases : (st (fun t => { t with gemm := some (gemm 0) })).team? 1 = some { team with gemm := some (gemm 0) } ∧ team.uid = 1 ∧
    ((gemm 0).stopped || !team.placed || team.leaving) = false ∧ ((gemm 0).stopped || !({ team with placed := false } : Team).placed || team.leaving) = true ∧
    (gemm 1).phase ≤ 1 ∧ (gemm 2).phase = 2 ∧ 2 < (gemm 3).phase := ⟨rfl, by decide⟩

/-- The page at 0 is one of the host's memory, with these bytes. -/
def hosted (bytes : Store Byte) (f : Team → Team := id) : State :=
  { (st1 f) with ctl := rooted, mem := { (st1 f).mem with tlb := [(0, some ⟨0x1000000000001D, false⟩)], host := bytes } }
/-- K1 counts 64 bytes, K0 a place. -/
def k64 : Team → Team := ks [(1, 64)] []
theorem witness_Copies : (st1 k64).Issuing (cx1 k64) ∧
    (∃ t, Each (Claims.Part (cx1 k64) ((if CpySpace.s = .h then [] else [((Reg.k 2), false)]) ++ [(.k 0, false)] ++ (none : Option Reg).toList.map at32 ++ [at32 (.k 1)])
      (Claims.Copies (st1 k64) (cx1 k64) .s .s .teamBar (.k 2) (.k 0) none (.k 1) 3)) ((cx1 k64).todo (activeOf (cx1 k64))) (st1 k64) t) ∧
    (∃ t, Each (Claims.Part (cx1 (ss [(2, 1)])) [at32 (.k 0), at32 (.s 2)] (Claims.TileCopies (st1 (ss [(2, 1)])) (cx1 (ss [(2, 1)])) true .flag (.k 0) 2 3))
      ((cx1 (ss [(2, 1)])).todo (activeOf (cx1 (ss [(2, 1)])))) (st1 (ss [(2, 1)])) t) ∧ (st1 k64).engineStep 0 = none :=
  ⟨⟨rfl, rfl⟩, ⟨_, _, rfl, rfl⟩, ⟨_, _, rfl, rfl⟩, rfl⟩
/-- A copy of 64 bytes in the team's scratchpad, from 128 to 32, at engine 0; it has moved `m`. -/
def lineCopy (src dst : Place) (m : Nat) : Copy := { mkCopy 7 (.thread 1 0 1) 0 0 0 src dst 64 .none with moved := m }
def copying (x : Copy) : State := { (hosted []) with eng := { (hosted []).eng with queues := [(0, [x])] } }
theorem witness_CopyLineMoves :
    let x := lineCopy (.scratch 1 128) (.scratch 1 32) 0
    let y := lineCopy (.global 0 0 128) (.global 0 0 256) 0
    ((copying x).queueOf 0 = [x] ∧ x.parked = none ∧ x.shape = none ∧ x.gathered = [] ∧ x.moved < x.count ∧
      (copying x).mem.scratchBarredFor x.id 1 128 64 = false ∧ (copying x).mem.scratchBarredFor x.id 1 32 64 = false) ∧
    ((copying y).queueOf 0 = [y] ∧ ∃ bs s1 s2, (copying y).engRead y.id 0 0 2 128 64 = .ok bs s1 ∧ s1.engWrite y.id y.core 0 0 y.viaFill 256 bs false = .ok () s2) ∧
    y.issuer = .thread 1 0 1 ∧ y.fill = none := ⟨by decide, ⟨by decide, _, _, _, rfl, rfl⟩, rfl, rfl⟩
/-- A graph of one signal node and one that waits for it. -/
def graph : Graph := ⟨0, 0, [⟨2, 0, [1], [], 0, 0, true, none, true⟩, ⟨2, 1, [], [], 1, 0, false, none, false⟩], false⟩
theorem witness_GraphsAndLaunches : (st1).Issuing (cx1) ∧
    (∃ t, Each (Claims.Part (cx1) [at32 (.k 0), at32 (.s 2)] (Claims.GraphStarts (hosted []) (cx1) (.k 0) 2)) ((cx1).todo (activeOf (cx1))) (hosted []) t) ∧
    (∃ t, Each (Claims.Part (cx1) [at32 (.s 2), at32 (.w 0)] (Claims.GraphStores (mapped) (cx1) 2 (.w 0) 0)) ((cx1).todo (activeOf (cx1))) (mapped) t) ∧
    (st (fun t => { t with walker := some graph })).team? 1 = some { team with walker := some graph } ∧ (graph.nodes[0]?).map (·.running) = some true ∧
    (graph.nodes[1]?).map (·.running) = some false ∧ graph.faulted = false :=
  ⟨issuing_st1, ⟨_, _, ⟨_, ⟨by decide, rfl⟩, rfl⟩, rfl⟩, ⟨_, _, rfl, rfl⟩, rfl, rfl, rfl, rfl⟩
theorem witness_GraphHead : ∃ bs m, readRegistry (mapped).ctl (mapped).mem 0 0 0 32 .read = .ok bs m ∧ 256 < 257 := ⟨_, _, rfl, by decide⟩
theorem witness_Launch : (st1 (ss [(2, 1)])).Issuing (cx1 (ss [(2, 1)])) ∧
    (∃ t, Each (Claims.LaunchPart (st1 (ss [(2, 1)])) (cx1 (ss [(2, 1)])) 3 2) ((cx1 (ss [(2, 1)])).todo (activeOf (cx1 (ss [(2, 1)])))) (st1 (ss [(2, 1)])) t) ∧
    (∃ t, Each (Claims.LaunchPart (hosted []) (cx1) 3 2) ((cx1).todo (activeOf (cx1))) (hosted []) t) :=
  ⟨⟨rfl, rfl⟩, ⟨_, _, rfl, rfl⟩, ⟨_, _, ⟨_, ⟨by decide, rfl⟩, rfl, rfl⟩, rfl⟩⟩
theorem witness_HandlesAndSlots : fillHandle ≠ 0 ∧ (tiled).checkHandle 0 fillHandle true .fill = .ok 0 0 ∧
    ((0x0010000000000000 : W64) ≠ 0 ∧ hDevice 0x0010000000000000 ≠ (tiled).ctl.devnum 0 ∧ hDevice 0x0010000000000000 ∉ (tiled).peersOf 0) ∧
    hDevice 0x0010000000000000 ∈ ({ (tiled) with net := { (tiled).net with peers := [(0, [1])] } } : State).peersOf 0 ∧
    ((0x0008000000000000 : W64) ≠ 0 ∧ hDevice 0x0008000000000000 = 0 ∧ 4 ≤ hDie 0x0008000000000000) ∧ hDie 0x0006000000000000 = 3 ∧
    ((tiled).slot 0 16383).st = .free ∧ ((tiled).slot 0 0).st = .filling ∧ ((tiled).slot 0 0).withdrawn = false := by
  refine ⟨fun e => ?_, (tile_fill id).1, by decide⟩
  have h := (tile_fill id).1
  rw [e] at h
  exact absurd h (by decide)
theorem witness_PairedTiles : (st1).Issuing (cx1) ∧ activeOf (cx1) = 0 :: [] ∧ (∀ x ∈ ([1, 2, 3] : List SReg), (cx1).team.tagged x.val = false) ∧
    (cx1).team.tagged 2 = false ∧ (tiled holds).checkHandle ((tiled holds).gridOf (cx1 holds).team).part (((tiled holds).rd (cx1 holds).team 0).s 3) false .seeFree = .ok 0 0 ∧
    (tiled holds).checkHandle 0 (((tiled holds).rd (cx1 holds).team 0).s 2) ((cx1 holds).team.tagged 2) .either = .ok 0 0 ∧
    (tiled).checkHandle 0 0 false .seeFree = .bad .access :=
  ⟨issuing_st1, by decide, by decide, by decide, (tile_see holds).2, (tile_fill holds).2, rfl⟩
theorem witness_NewTileClauses : -- base and size: misaligned; size 0; size 64; size 16 MiB; 16 MiB + 64
    (32 % 64 ≠ 0) ∧ (0 < 64) ∧ (64 % 64 = 0 ∧ ¬64 < 64) ∧ (16777216 % 64 = 0 ∧ ¬16777216 < 16777216) ∧ 16777216 < 16777216 + 64 ∧
    ((st1).slot 0 0).st = .free ∧ ¬(16384 * (st1).ctl.slicesOn 0 0 / 3 ≤ (st1).slotsHeld 0 0) := by
  refine ⟨by decide, by decide, by decide, by decide, by decide, by decide, by decide⟩
theorem witness_SendAndReceive : (st1).Issuing (cx1) ∧ activeOf (cx1) = 0 :: [] ∧ (cx1).team.tagged 4 = false ∧
    (tiled holds).checkHandle 0 (((tiled holds).rd (cx1 holds).team 0).s 2) ((cx1 holds).team.tagged 2) .either = .ok 0 0 ∧ (tiled).checkHandle 0 0 false .either = .bad .access ∧
    ((0 : W64).toNat % 2 ^ 11 = (st1).ctl.devnum 0) ∧ ((0x800 : W64).toNat / 2 ^ 11 % 2 ^ 21 ≠ 0) ∧
    (1 : Nat) ∈ ({ (tiled) with net := { (tiled).net with peers := [(0, [1])] } } : State).peersOf 0 ∧ ((cx1).team.thread 0).frame = none ∧
    (st1).pairs.queue.find? (fun e => e.1 == 0 && e.2.1 == 0) = none :=
  ⟨issuing_st1, by decide, by decide, (tile_fill holds).2, rfl, by decide, by decide, by decide, by decide, by decide⟩

/-- Out of K-mode. -/
def user (g : Grid) : Grid := { g with kmode := false }
theorem witness_Service : (st1 id user).Issuing (cx1) ∧ ((st1 id user).gridOf (cx1).team).kmode = false ∧ (st1).Issuing (cx1) ∧ ((st1).gridOf (cx1).team).kmode = true ∧
    (∀ i ∈ activeOf (cx1), ∀ r ∈ ([.k 31, .w 0] : List Reg), regInBlock ((cx1).team.kTop i) false r = true) ∧ (Claims.kRegs (.kget 0 3 4 (.k 1) 0)).isSome = true ∧
    (∃ t, Each (Claims.Part (cx1) (([.s 3, .s 4, .k 1] : List Reg).map at32) (fun x i y =>
      let r := (st1).rd (cx1).team i
      match x.kTeam ((st1).gridOf (cx1).team).part (r.s 4) with
      | none => y = x.raise (cx1) i .access (r.s 4)
      | some (g, lin) => Claims.kEffect x (cx1) r g lin (.kget 0 3 4 (.k 1) 0) = some none ∧ y = x.raise (cx1) i .access 0 ∨
          Claims.kEffect x (cx1) r g lin (.kget 0 3 4 (.k 1) 0) = some (some y))) ((cx1).todo (activeOf (cx1))) (st1) t) :=
  ⟨⟨rfl, rfl⟩, rfl, issuing_st1, rfl, by decide, rfl, _, _, rfl, rfl⟩
theorem witness_KTeam : -- a team handle that names a team; a thread it has, and one it has not
    named.kTeam 0 8 = some (1, 0) ∧ (Claims.kEffect named (cx) (named.rd team 0) 1 0 (.kget 0 3 4 (.k 1) 0)).isSome = true ∧
    (named.kWrite 1 0 1 false 5 7).isSome = false ∧ named.threadsOf 1 0 = 2 := by decide
theorem witness_TranslationFlushes : (st1).Issuing (cx1) ∧ ((st1).gridOf (cx1).team).kmode = true ∧ Store.wf none (mapped).mem.tlb = true ∧
    511 < 512 ∧ (0 : Nat) < 512 ∧ 0 / 65536 % 2 ^ 38 < 2 ^ 38 ∧ Store.get none (mapped).mem.tlb ((0 * 512 + 0) * 2 ^ 38 + 0) = some ⟨0x1D, false⟩ :=
  ⟨issuing_st1, rfl, by decide⟩
theorem witness_ServiceCalls : (st1).Issuing (cx1) ∧ ((st1).gridOf (cx1).team).kmode = true ∧ activeOf (cx1) ≠ [] ∧ (cx1).team.tagged 4 = false ∧
    ({ team with tags := [4] } : Team).tagged 4 = true ∧
    (∃ t, Each (Claims.Part (cx1) [at32 (.s 1), ((.k 0 : Reg), true)] (fun x i y =>
      if (((st1).rd (cx1).team i).quad (.k 0)).toNat % 64 ≠ 0 then y = x.raise (cx1) i .alignment (((st1).rd (cx1).team i).quad (.k 0))
      else x.svcOn ((st1).gridOf (cx1).team).part = false ∧ y = x.raise (cx1) i .access 0)) ((cx1).todo (activeOf (cx1))) (st1) t) ∧
    (∃ bs m, readMany (mapped).ctl 0 0 .read 3 ((mapped).mem.drain 0) 0 128 = .ok bs m ∧ (mapped).isSvcRecord 0 0 = false) :=
  ⟨issuing_st1, rfl, by decide, by decide, by decide, ⟨_, _, ⟨rfl, rfl⟩, rfl⟩, _, _, rfl, by decide⟩
theorem witness_Transport : (st1).Issuing (cx1) ∧ (cx1).team.tagged 3 = false ∧ (cx1).team.tagged 4 = false ∧ 63 < 64 ∧
    (∃ t, Each (fun x i y => (((st1).rd (cx1).team i).s 4).toNat % 64 = 0 ∧ x.wqOn ((st1).gridOf (cx1).team).fn 0 = false ∧ y = x.raise (cx1) i .access 0)
      ((cx1).todo (activeOf (cx1))) (st1) t) ∧
    (∃ bs m, readMany (mapped).ctl 0 0 .read 4 ((mapped).mem.release 0 .part) 0 128 = .ok bs m) ∧
    (termsOf (List.replicate 64 0 ++ [0, 0, 0, 0, 0, 0, 0, 0x80] ++ List.replicate 56 0)).isSome = true :=
  ⟨issuing_st1, by decide, by decide, by decide, ⟨_, _, ⟨by decide, by decide, rfl⟩, rfl⟩, ⟨_, _, rfl⟩, by decide⟩
/-- A team whose threads wait at blocks 1 and 2. -/
def waiting : Team :=
  { team with sel := none, batches := [], threads := [{ Thread.blank with st := .waiting, pos := ⟨1, 0, 0⟩ }, { Thread.blank with st := .yielded, pos := ⟨2, 0, 0⟩ }] }
theorem witness_SelectionAndClauses : (st (fun _ => waiting)).team? 1 = some waiting ∧ waiting.uid = 1 ∧ waiting.placed = true ∧ waiting.phase = .live ∧ waiting.sel = none ∧
    waiting.leaving = false ∧ waiting.stopped = false ∧ waiting.threads.length ≤ 1024 ∧ (st (fun _ => waiting)).frameBusy waiting 0 = false ∧
    (∀ x ∈ waiting.threads, x.stepping = false) ∧ waiting.eligible ≠ [] := ⟨rfl, by decide⟩
/-- A batch before a clause whose one NOP the core has cached. -/
def atClause : Team := { team with batches := [{ batch with threads := [0], buf := none }] }
def cache : Clause := ⟨0x4100000000000000, [0x3E00000000000000]⟩
def starting : State :=
  { (st (fun _ => atClause) (fun g => { g with doff := 4096 })) with work := { (st (fun _ => atClause) (fun g => { g with doff := 4096 })).work with cores := [(0, { Core.zero with clauses := [((0, 0x80), cache)] })] } }
theorem witness_ClauseStarts : starting.Issuing ⟨atClause, { batch with threads := [0], buf := none }⟩ ∧ (starting.mayStart ⟨atClause, { batch with threads := [0], buf := none }⟩ ≠ none) ∧
    (∃ m2, fetchClause starting (starting.agent atClause) 0x80 Header.ok = .ok (some cache) m2) ∧ (∃ m2, fetchClause starting (starting.agent atClause) 0x80 (fun _ => false) = .ok none m2) ∧
    (0x80 : W64) = batch.addr ∧ 0x80 + 16 ≤ (starting.gridOf atClause).doff ∧ (Header.ofWord cache.header).ok = true ∧ shapeOk (Header.ofWord cache.header) cache.words = true ∧
    waitFlags (Header.ofWord 0x1400200000000000) = [1] ∧ setaOf (Header.ofWord 0x0100018000000000) = some 1 :=
  ⟨⟨rfl, rfl⟩, by decide, ⟨_, rfl⟩, ⟨_, rfl⟩, rfl, by decide, by decide, by decide, by decide, by decide⟩
/-- One clause's outstanding operations. -/
def tok : Tok := { id := 5, batch := 1, threads := [0], seta := some 1, setb := some 2, regs := 1, mems := 1, posts := 0, issued := true, aDone := false, bDone := false }
theorem witness_OperationsComplete : ({ team with toks := [tok] } : Team).tok? 5 = some tok ∧ ({ team with toks := [tok] } : Team).batch? 1 = some batch ∧
    tok.seta = some 1 ∧ tok.aDone = false ∧ ({ tok with setb := none } : Tok).setb = none ∧ (st).reserved team tok < tok.regs ∧
    cached.flights.find? (fun x => x.core == 0) = some ⟨0, 0, false, false, none, [0]⟩ ∧ cached.flightFree ⟨0, 0, false, false, none, [0]⟩ = true := by decide
/-- A thread that has trapped. -/
def trapped : Team := { team with sel := none, batches := [], threads := [{ Thread.blank with st := .trapped, trap := ⟨4, 2, 1, 0, 0, 2, false, 0⟩ }] }
theorem witness_ProgressOnTheCores : (st (fun _ => trapped)).team? 1 = some trapped ∧ (trapped.thread 0).st = .trapped ∧ (trapped.thread 0).trap.posted = false ∧
    (st (fun _ => trapped)).frameBusy trapped 0 = false ∧ (st).svcOn 0 = false ∧ ((st).gridOf team).kmode = true ∧
    -- the watchdog: one below its limit, and at it
    (let t := { team with wdogCtl := 1, wdog := 4095 }; t.wdog < t.wdogCtl.toNat % 65536 * 4096) ∧ ({ team with wdogCtl := 1, wdog := 4096 } : Team).wdog = 1 % 65536 * 4096 ∧
    ((st).core 0).alarm = false ∧ ({ Core.zero with stretch := 1 } : Core).stretch = 1 := ⟨rfl, by decide⟩

theorem named_st (t : Team) (g : Grid) (ht : t.uid = 1) (hg : g.uid = 1) : Claims.Named (st (fun _ => t) (fun _ => g)) := by
  refine ⟨rfl, rfl, ?_, ?_, rfl, rfl⟩
  · intro u x h
    by_cases e : 1 = u
    · subst e; cases h; exact ht
    · have : (st (fun _ => t) (fun _ => g)).team? u = none := by show (if 1 = u then _ else _) = _; rw [if_neg e]; rfl
      rw [this] at h; cases h
  · intro u x h
    by_cases e : 1 = u
    · subst e; cases h; exact hg
    · have : (st (fun _ => t) (fun _ => g)).grid? u = none := by show (if 1 = u then _ else _) = _; rw [if_neg e]; rfl
      rw [this] at h; cases h
/-- A team that has not started, and one that is saved. -/
def unstarted : Team := { mkTeam 1 grid 0 1 with phase := .unstarted, placed := false, started := false }
def saved : Team := { team with placed := false, saved := true, sel := none, batches := [], threads := team.threads.map (fun x => { x with st := .waiting }) }
def waits (t : Team) (g : Grid := grid) : State := st (fun _ => t) (fun _ => g)
theorem witness_DispatcherEvents : Claims.Named (waits saved) ∧ (waits saved).team? 1 = some saved ∧ saved.phase = .live ∧ saved.doomed = none ∧
    unstarted.phase = .unstarted ∧ (∃ bs, (waits unstarted).dataSection ((waits unstarted).gridOf unstarted) = .ok bs) ∧ (waits saved).work.plans = [] ∧
    ((waits saved).candidates 0 (waits saved).prioOf).length = 1 ∧ (waits unstarted).candidates 1 (waits unstarted).prioOf = [] ∧
    (waits saved).teams.find? (fun t => t.leaving && !t.ticked && ((waits saved).gridOf t).part == 0 && (waits saved).saveReady t.uid) = none ∧
    (waits saved).grid? 1 = some grid :=
  ⟨named_st saved grid rfl rfl, rfl, rfl, rfl, rfl, ⟨_, rfl⟩, rfl, rfl, rfl, by decide, rfl⟩
/-- A record for the ring at 0, in a page of the host's memory: 2^4 records, HEAD and TAIL 0. -/
def rec0 : Rec := mkRec 0 0 0 1 0 7 0 0
def ringed : State := { (mapped) with mem := { (mapped).mem with tlb := [(0, some ⟨0x1000000000001D, false⟩)], host := [(16, 4)] }, queues := { (mapped).queues with held := [rec0] } }
theorem witness_RecordsGridsAndPolls : (∃ h, ringed.ringHead 0 0 0 = some h) ∧ rec0.service = none ∧ (ringed.queues.held.find? (fun x => x.fn == 0 && x.ring == 0)) = some rec0 ∧
    (∃ m1, writeRegistry ringed.ctl ringed.mem 0 0 64 .write (List.replicate 32 1) = .ok () m1) ∧ (ringed.writeRec rec0).isSome = true ∧
    ({ rec0 with ring := 32 } : Rec).ring.toNat % 64 ≠ 0 ∧ (∀ r ∈ ringed.queues.held, ¬(r.fn = 1 ∧ r.ring = 0)) := by
  refine ⟨⟨_, rfl⟩, rfl, by decide, ⟨_, rfl⟩, by decide +kernel, by decide, by decide⟩
theorem witness_GridRetire : Claims.Named (waits team { grid with gone := 1 }) ∧ (waits team { grid with gone := 1 }).grid? 1 = some { grid with gone := 1 } ∧ grid.retired = false ∧
    grid.gone < grid.gx * grid.gy * grid.gz ∧ grid.gx * grid.gy * grid.gz ≤ ({ grid with gone := 1 } : Grid).gone := ⟨named_st team _ rfl rfl, rfl, rfl, by decide, by decide⟩
/-- A word that is not yet what is waited for. -/
def isNot : Watch → Bool | .not _ => true | _ => false
/-- A thread parked at a WAITF on a word of scratchpad. -/
def parked : Team := { saved with placed := true, saved := false, threads := [{ Thread.blank with st := .parked (.waitf (onWord 8 0 true) false 1) }] }
theorem witness_WaitPoll : (waits parked).team? 1 = some parked ∧ (parked.thread 0).st = .parked (.waitf (onWord 8 0 true) false 1) ∧ isNot ((waits parked).watch parked (onWord 8 0 true)) = true ∧
    (∃ x, named.target? (onWord 8 4 true).target = some x) ∧ (∃ bs m, readRegistry (mapped).ctl (mapped).mem 0 0 0 4 .read = .ok bs m) :=
  ⟨rfl, rfl, by decide +kernel, ⟨_, rfl⟩, _, _, rfl⟩
/-- A save of function 1 in partition 0, its share of die 0 left. -/
def saving (now : Nat) : State := { (st) with work := { (st).work with saves := [⟨0, 1, 0, [0], []⟩], turns := [(0, some 1)] }, sched := { (st).sched with now := now }, ctl := { (st).ctl with ctxArea := [(1, 3)] } }
theorem witness_TenantSwitch : (saving 0).work.saves.find? (fun y => y.part == 0 && y.left.contains 0) = some ⟨0, 1, 0, [0], []⟩ ∧
    Store.get none (saving 0).work.turns 0 = some 1 ∧ (saving 0).tickDue 0 = false ∧ (saving 0).shareReady ⟨0, 1, 0, [0], []⟩ 0 = true ∧ (saving 0).sharedVfs 0 = [] ∧
    ([0] : List Nat).filter (· != 0) = [] ∧ ((saving 0).sched.now < 0 + 4 * (bits ((saving 0).ctl.switchCtlOf 0).toNat 0 16 * 1000000)) ∧
    (0 + 4 * (bits ((saving 160000000).ctl.switchCtlOf 0).toNat 0 16 * 1000000) ≤ (saving 160000000).sched.now) := by decide
/-- Two VFs that share partition 0, and the first's turn at its end. -/
def shared : State :=
  { (st) with ctl := { (st).ctl with vfCfg := [(1, 0x3), (2, 0x3)] }, work := { (st).work with turns := [(0, some 1)], turnLeft := [] } }
/-- Queue 0 of the PF, mapped and enabled, its ring at 0 with one packet of a type. -/
def queued (ty : Byte) (k : W32) : State :=
  { (mapped) with
    mem := { (mapped).mem with hbm := [(56, ty)] }
    ctl := { (mapped).ctl with qmap := [(0, 0x80000000)] }
    queues := { (mapped).queues with q := [(0, { Queue.zero with ctl := 1, k := k })], slots := [(0, 0)] } }
theorem witness_QueueRegisters : (queued 1 0).running = true ∧ (queued 1 0).ctl.qMapped 0 0 = true ∧ ((queued 1 0).devq 0 0).en = true ∧ ((queued 1 0).devq 0 0).err = false ∧
    -- the window: full is taken, one more is not; back is not
    ((queued 1 0).devq 0 0).size = 16 ∧ ¬(16 < ((16 : W32) - 0).toNat) ∧ 16 < ((17 : W32) - 0).toNat ∧ ((1 : W32) - 0).toNat < ((2 : W32) - 0).toNat ∧
    (st).ctl.qMapped 0 0 = false ∧ (st).running = true ∧ 384 ≤ 384 ∧ 63 < 64 := by decide
theorem witness_PacketsStart : (∃ bs m, Claims.Starts (queued 1 1) 0 0 bs m ∧ packetType bs = some 1) ∧ (∃ bs m, Claims.Starts (queued 4 1) 0 0 bs m ∧ packetType bs = some 4) ∧
    (∃ bs m, Claims.Starts (queued 2 1) 0 0 bs m ∧ packetType bs = some 2) ∧ (∃ bs m, Claims.Starts (queued 3 1) 0 0 bs m ∧ packetType bs = some 3) ∧
    (∃ bs m, Claims.Starts (queued 9 1) 0 0 bs m ∧ packetType bs = none) :=
  ⟨⟨_, _, ⟨rfl, rfl, rfl, rfl⟩, rfl⟩, ⟨_, _, ⟨rfl, rfl, rfl, rfl⟩, rfl⟩, ⟨_, _, ⟨rfl, rfl, rfl, rfl⟩, rfl⟩, ⟨_, _, ⟨rfl, rfl, rfl, rfl⟩, rfl⟩, _, _, ⟨rfl, rfl, rfl, rfl⟩, rfl⟩
/-- A BARRIER_AND of no handle waits. -/
def anding : State := { (st) with queues := { (st).queues with packets := [⟨0, 0, 0, 3, none, [0, 0, 0, 0, 0, 0, 7]⟩] } }
theorem witness_SchedulerEvents : (anding.queues.packets.find? (fun p => p.fn == 0 && p.q == 0 && p.kind == 3)).isSome = true ∧ anding.andDone ⟨0, 0, 0, 3, none, [0, 0, 0, 0, 0, 0, 7]⟩ = true ∧
    anding.recsHeld = false ∧ (st).queues.testing = false ∧ (st).queues.standby = true ∧ bit (st).ctl.schedStat.toNat 31 = false ∧
    15 < 16 ∧ (st).ctl.fnOn 0 = true ∧ (st).ctl.fnOn 1 = false ∧ ({ (st) with ctl := { (st).ctl with schedStat := 0x40000000 } } : State).recsHeld = true := by decide
theorem witness_LaunchEntry : ({ (hosted []) with ctl := { (hosted []).ctl with declia := [(0, 1)], ntlCtl := [(0, 0x100000001)] } } : State).linked 0 = true ∧
    bit (0x100000001 : W64).toNat 0 = true ∧ bits (0x100000001 : W64).toNat 32 32 = (1 : W32).toNat ∧ (∃ bs m, deviceRead (hosted []).ctl (hosted []).mem 0 0 0 64 .read = .ok bs m) ∧
    (hosted []).fireHeld 0 0 0 = false :=
  ⟨by decide, by decide, by decide, ⟨_, _, rfl⟩, by decide +kernel⟩

/-- Partition 0 takes part in a domain; the page at 0 is cached; slot 0 of die 0 is a tile of 64 bytes at 64 in it. -/
def domain (f : Team → Team := id) : State :=
  { (mapped f) with
    ctl := { (mapped f).ctl with declia := [(0, 1)] }
    pairs := { (mapped f).pairs with slots := [(0, { Slot.zero with st := .filling, base := 64, size := 64, team := 1, holder := .team 1 })] } }
theorem home_fill : domain.homeCheck 0 fillHandle true .fill = .ok (0, 0) ∧ domain.homeCheck 0 fillHandle true .either = .ok (0, 0) := by
  have h := handle_fields 0x800000000000#48 (Config.cmac 0 0x800000000000#48)
  have hc := (Config.cmac 0 0x800000000000#48).isLt
  have e1 : hFill fillHandle = true := by unfold hFill bit fillHandle; rw [h]; simp; omega
  have e2 : hDevice fillHandle = 0 := by unfold hDevice bits fillHandle; rw [h]; simp; omega
  have e3 : hDie fillHandle = 0 := by unfold hDie bits fillHandle; rw [h]; simp; omega
  have e4 : hSlot fillHandle = 0 := by unfold hSlot bits fillHandle; rw [h]; simp; omega
  have e5 : hGen fillHandle = 0 := by unfold hGen bits fillHandle; rw [h]; simp; omega
  have e6 : fillHandle ≠ 0 := by intro e; have := congrArg BitVec.toNat e; unfold fillHandle at this; rw [h] at this; simp at this
  have e7 := seal_of 0x800000000000#48 (Config.cmac 0 0x800000000000#48)
  constructor <;> (unfold State.homeCheck State.checkHandle; rw [if_neg e6, e1, e2, e3, e4, e5]; unfold fillHandle; rw [e7.1, e7.2, show domain.ctl.devnum 0 = 0 from rfl, show domain.sealKey 0 = 0 from rfl]; simp only [ne_eq, not_true_eq_false, if_false]; rfl)
theorem home_see : domain.homeCheck 0 seeHandle false .seeRead = .ok (0, 0) ∧ domain.homeCheck 0 seeHandle false .seeFree = .ok (0, 0) ∧ domain.homeCheck 0 seeHandle false .either = .ok (0, 0) := by
  have h := handle_fields 5#48 (Config.cmac 0 5#48)
  have hc := (Config.cmac 0 5#48).isLt
  have e1 : hFill seeHandle = false := by unfold hFill bit seeHandle; rw [h]; simp; omega
  have e2 : hDevice seeHandle = 0 := by unfold hDevice bits seeHandle; rw [h]; simp; omega
  have e3 : hDie seeHandle = 0 := by unfold hDie bits seeHandle; rw [h]; simp; omega
  have e4 : hSlot seeHandle = 0 := by unfold hSlot bits seeHandle; rw [h]; simp; omega
  have e5 : hGen seeHandle = 0 := by unfold hGen bits seeHandle; rw [h]; simp; omega
  have e8 : hRights seeHandle = 5 := by unfold hRights bits seeHandle; rw [h]; simp; omega
  have e6 : seeHandle ≠ 0 := by intro e; have := congrArg BitVec.toNat e; unfold seeHandle at this; rw [h] at this; simp at this
  have e7 := seal_of 5#48 (Config.cmac 0 5#48)
  refine ⟨?_, ?_, ?_⟩ <;> (unfold State.homeCheck State.checkHandle; rw [if_neg e6, e1, e2, e3, e4, e5, e8]; unfold seeHandle; rw [e7.1, e7.2, show domain.ctl.devnum 0 = 0 from rfl, show domain.sealKey 0 = 0 from rfl]; simp only [ne_eq, not_true_eq_false, if_false]; rfl)
/-- A thread of the domain waits for a handle of tag 7. -/
def hears (t : Team) : Team := { t with batches := [], threads := [{ Thread.blank with st := .parked (.hrecv 7 4 1) }] }
def receiving : State := { (domain) with work := { (domain).work with teams := [(1, some (hears team))] } }
def full : State := { (domain) with pairs := { (domain).pairs with queue := List.replicate 64 (0, 7, 0) } }
/-- The transfer of a handle whose home is slot 0 here, until 5. -/
def transfer (fill : Bool) : Transfer := { id := 9, handle := 0x8000000000000000, team := 1, d := 4, dest := 2, tag := 7, fill := fill, tok := 0, deadline := 5 }
def moving (now : Nat) (t : Team) : State :=
  { (domain) with sched := { (domain).sched with now := now }, pairs := { (domain).pairs with transfers := [transfer true] }, work := { (domain).work with teams := [(1, some t)] } }
def peered : State := { (domain) with net := { (domain).net with peers := [(0, [2])] } }
theorem witness_DevicesTalk :
    -- HANDLE_ARRIVAL: no domain, an empty and a full queue, a receiver
    (st).linked 0 = false ∧ domain.linked 0 = true ∧ domain.receivers 0 7 = [] ∧ (domain.pairs.queue.filter (fun e => e.1 == 0)).length < 64 ∧
    full.linked 0 = true ∧ full.receivers 0 7 = [] ∧ 64 ≤ (full.pairs.queue.filter (fun e => e.1 == 0)).length ∧
    receiving.linked 0 = true ∧ receiving.receivers 0 7 = [(1, 0)] ∧ receiving.team? 1 = some (hears team) ∧ ((hears team).thread 0).st = .parked (.hrecv 7 4 1) ∧ (hears team).tagged 4 = false ∧
    -- HSEND: no such transfer; before its time and at it; its slot here; a team that lives and one that has ended
    (∀ x ∈ (moving 4 team).pairs.transfers, x.id ≠ 8) ∧ (moving 4 team).pairs.transfers.find? (fun y => y.id == 9) = some (transfer true) ∧
    (moving 4 team).sched.now < (transfer true).deadline ∧ (transfer true).deadline ≤ (moving 5 team).sched.now ∧ (moving 4 team).team? (transfer true).team = some team ∧ team.uid = 1 ∧ team.phase = .live ∧
    (hDevice (transfer true).handle = (moving 4 team).ctl.devnum ((moving 4 team).gridOf team).part ∧ ((moving 4 team).slot (hDie (transfer true).handle) (hSlot (transfer true).handle)).gen = hGen (transfer true).handle) ∧
    ((moving 4 team).slot 0 0).st = .filling ∧ { team with phase := .ended }.phase ≠ .live ∧ (transfer false).fill = false ∧
    -- peers: one that goes, one that comes, and one that is no peer
    2 ∈ peered.peersOf 0 ∧ 3 ∉ peered.peersOf 0 ∧ peered.linked 0 = true ∧ 3 ≠ peered.ctl.devnum 0 ∧
    -- a peer's accesses
    (∃ t, Claims.PeerAccess domain 0 (.stFh fillHandle true 60 4 [1, 2, 3, 4]) t) ∧ (∃ t, Claims.PeerAccess domain 0 (.ldFh fillHandle true 0 4 4) t) ∧ (∃ t, Claims.PeerAccess domain 0 (.ldsee seeHandle 60 4 4) t) ∧
    (∃ t, Claims.PeerAccess domain 0 (.drop fillHandle true) t) ∧ (∃ t, Claims.PeerAccess domain 0 (.seeh fillHandle true 1) t) ∧ (∃ t, Claims.PeerAccess domain 0 (.put 0 [(0, [1])]) t) ∧
    (∃ t, Claims.PeerAccess domain 0 (.get 0 [(0, 4)]) t) ∧
    -- and what is refused
    (∃ e, Claims.PeerRefused domain 0 (.stFh 0 true 0 1 [1]) e) ∧ (∃ e, Claims.PeerRefused domain 0 (.stFh fillHandle true 64 4 [1, 2, 3, 4]) e) ∧ (∃ e, Claims.PeerRefused domain 0 (.ldFh fillHandle true 2 4 4) e) ∧
    (∃ e, Claims.PeerRefused domain 0 (.ldsee seeHandle 64 4 4) e) ∧ (∃ e, Claims.PeerRefused domain 0 (.drop 0 true) e) ∧ (∃ e, Claims.PeerRefused domain 0 (.seeh fillHandle true 4) e) ∧
    (∃ e, Claims.PeerRefused domain 0 (.free seeHandle) e) ∧ (∃ e, Claims.PeerRefused domain 0 (.put 1 [(0, [1])]) e) ∧ (∃ e, Claims.PeerRefused domain 0 (.get 1 [(0, 4)]) e) := by
  refine ⟨by decide, by decide, by decide, by decide, by decide, by decide, by decide, by decide, by decide, rfl, by decide, by decide, by decide, by decide, by decide, by decide, rfl, rfl, rfl,
    by decide, by decide, by decide, by decide, by decide, by decide, by decide, by decide,
    ⟨_, 0, 0, _, home_fill.1, by decide, rfl, rfl⟩, ⟨_, 0, 0, _, _, home_fill.1, by decide, rfl, rfl⟩, ⟨_, 0, 0, home_see.1, by decide, rfl⟩, ⟨_, 0, 0, home_fill.1, rfl⟩,
    ⟨_, 0, 0, home_fill.2, by decide, by decide, .inl ?_, rfl⟩, ⟨_, _, _, _, rfl, rfl, rfl, rfl⟩, ⟨_, _, _, _, _, rfl, rfl, rfl, rfl⟩,
    ⟨_, .inl ⟨_, rfl, rfl⟩⟩, ⟨_, .inr ⟨0, 0, home_fill.1, rfl⟩⟩, ⟨_, .inr ⟨0, 0, home_fill.1, rfl⟩⟩, ⟨_, .inr ⟨0, 0, home_see.1, rfl⟩⟩, ⟨_, _, rfl, rfl⟩, ⟨_, .inr ⟨⟨_, home_fill.2⟩, by decide, rfl⟩⟩,
    ⟨_, .inr ⟨⟨_, home_see.2.1⟩, rfl⟩⟩, ⟨_, rfl, rfl⟩, ⟨_, rfl, rfl⟩⟩
  unfold hFill bit fillHandle
  rw [handle_fields]
  have := (Config.cmac 0 0x800000000000#48).isLt
  simp; omega
/-- Entry 0 of the PF's apertures is enabled. -/
def reducing (f : Team → Team := id) : State := { (st f) with ctl := { (st f).ctl with collAp := [(0, 0x1200011)] } }
def awaits (t : Team) : Team := { t with batches := [], threads := [{ Thread.blank with st := .parked (.aperture 0 3 0) }] }
/-- Request 9 of an operation, with what has become of it. -/
def request (op : Byte) (o : Option WqEnd) : Request := ⟨9, 0, none, [op, 0, 2, 0, 4] ++ List.replicate 59 0, 0, false, if op = 3 then [(3, 0)] else [], o, 0⟩
def asked (op : Byte) (o : Option WqEnd) : State := { (reducing) with net := { (reducing).net with requests := [request op o] } }
/-- Ring 0 of the PF is on at 64; its header says PROD `n`, CONS 0, 2^4 entries. -/
def posted (n : Byte) : State :=
  { (mapped) with ctl := { (mapped).ctl with wqRing := [(0, 65)] }, mem := { (mapped).mem with hbm := if n = 0 then [(80, 4)] else [(64, n), (80, 4)] } }
theorem witness_RequestsAndAnswers :
    -- a result: for a load, for a REDUCE, for nobody
    (bit ((reducing awaits).ctl.collApOf 0 0).toNat 0 = true ∧ ((awaits team).threads.any (fun x => x.st == .parked (.aperture 0 3 (Store.get 0 (reducing awaits).net.delivered (elemKey 0 0 3)))))) ∧
    bit ((st).ctl.collApOf 0 0).toNat 0 = false ∧
    ((asked 3 none).net.requests.find? (fun x => x.fn == 0 && x.opc == 3 && x.entry == 0 && x.rounds.contains (3, Store.get 0 (asked 3 none).net.delivered (elemKey 0 0 3)))) = some (request 3 none) ∧
    -- a request's start
    (st).net.fired = [] ∧ (st).running = true ∧ (st).ctl.fnOn 0 = true ∧ (st).ctl.fnOn 1 = false ∧ ¬(64 < 64) ∧ bit ((st).ctl.wqRingOf 0 63).toNat 0 = false ∧
    bit ((posted 1).ctl.wqRingOf 0 0).toNat 0 = true ∧ (∃ hb m, deviceRead (posted 1).ctl (posted 1).mem 0 ((posted 1).netPart 0) 64 64 .read = .ok hb m ∧ wqHead hb = some (1, 0, 4)) ∧
    (∃ hb m, deviceRead (posted 0).ctl (posted 0).mem 0 ((posted 0).netPart 0) 64 64 .read = .ok hb m ∧ wqHead hb = some (0, 0, 4)) ∧
    (∃ bs m, deviceRead (posted 1).ctl (posted 1).mem 0 ((posted 1).netPart 0) (64 + 64) 64 .read = .ok bs m) ∧ wqHead (List.replicate 64 0) = none ∧
    peered.requestBad (request 2 none) = false ∧ peered.requestBad (request 1 none) = false ∧ peered.requestBad (request 4 none) = false ∧ domain.requestBad (request 2 none) = true ∧
    (∃ data m, deviceRead peered.ctl peered.mem 0 0 0 4 .read = .ok data m) ∧ deviceRead (st).ctl (st).mem 0 0 (2 ^ 57) 4 .read = .fault .access ∧
    -- its end
    ((asked 1 none).net.requests.find? (fun x => x.id == 9) = some (request 1 none)) ∧ (∀ x ∈ (asked 1 none).net.requests, x.id ≠ 8) ∧ (request 1 (some .ok)).outcome ≠ none ∧ (request 4 none).opc = 4 ∧
    (WqEnd.refused 5 ≠ .ok ∧ WqEnd.refused 5 ≠ .saturated) ∧ (asked 1 none).consStop (request 1 none) = none ∧ Code.ofNum 5 ≠ none ∧ Code.ofNum 25 = none ∧ Code.ofNum 0 = none ∧
    -- answers
    (asked 2 none).copyNamed 9 = none ∧ (asked 2 none).net.waits.find? (fun w => w.id == 9 && w.answer.isNone) = none ∧
    (asked 2 none).net.requests.find? (fun x => x.id == 9 && x.outcome.isNone) = some (request 2 none) ∧ (∃ m, deviceWrite peered.ctl peered.mem 0 0 0 .write [1, 2, 3, 4] = .ok () m) ∧
    deviceWrite (st).ctl (st).mem 0 0 (2 ^ 57) .write [1] = .fault .access :=
  ⟨by decide, by decide, by decide, by decide, by decide, by decide, by decide, by decide, by decide, by decide, ⟨_, _, rfl, rfl⟩, ⟨_, _, rfl, rfl⟩, ⟨_, _, rfl⟩, by decide, by decide, by decide, by decide, by decide,
    ⟨_, _, rfl⟩, rfl, by decide, by decide, by decide, by decide, by decide, by decide, by decide, by decide, by decide, by decide, by decide, by decide, ⟨_, rfl⟩, rfl⟩
/-- Two functions share slice 0's ways: the PF could use one more, VF 1 holds more than its FLOOR. -/
def sharesWays (free : Bool) : State :=
  { (st) with
    ctl := { (st).ctl with vfCfg := [(1, 1)], vfL2 := [(0, 0x1801), (1, 0x1801)], l2Cur := [(0, if free then 1 else 20), (1, 4)] }
    mem := { (st).mem with gains := [(0, (9, 0)), (1, (2, 3))] } }
theorem witness_PowerAndWays :
    -- limits at and past their bounds
    (st).running = true ∧ (1 ≤ 1 ∧ 1 ≤ 3000 ∧ 3600 ≤ 3600) ∧ ¬(3601 ≤ 3600) ∧ State.reset.running = false ∧
    -- ways: a free one, and one of another's
    (st).ctl.partOfSlice 0 = some 0 ∧ State.reset.ctl.partOfSlice 0 = none ∧ (sharesWays true).ctl.functionsOf 0 = [0, 1] ∧
    (∀ f ∈ [0, 1], (sharesWays true).ctl.floorOf f ≤ (sharesWays true).ctl.waysOf 0 f ∧ (sharesWays true).ctl.waysOf 0 f ≤ 24) ∧
    0 < (sharesWays true).ctl.freeWays 0 [0, 1] ∧ (sharesWays false).ctl.freeWays 0 [0, 1] = 0 ∧ (sharesWays false).ctl.waysOf 0 0 < (sharesWays false).ctl.ceilOf 0 ∧
    (sharesWays false).ctl.floorOf 1 < (sharesWays false).ctl.waysOf 0 1 ∧ (Store.get (0, 0) (sharesWays false).mem.gains 1).2 < (Store.get (0, 0) (sharesWays false).mem.gains 0).1 := by decide
/-- A page of the PF moves. -/
def migrating : State := { (mapped) with mem := { cached with moves := [⟨0, 0, false, false, []⟩] } }
/-- The same page where the translation tables map it: a root, two tables, a leaf of 2 MiB at frame 0. -/
def migratingHere : State :=
  { migrating with
    ctl := { migrating.ctl with xltRoot := [(0, 0x8001)] }
    mem := { migrating.mem with hbm := [(0x8000, 3), (0x8002, 1), (0x10000, 3), (0x10001, 0x80), (0x10002, 1), (0x18000, 0x1D)] } }
/-- A VF's frame, its TDI in RUN; a poisoned line. -/
def secret : State :=
  { (st) with ctl := { (st).ctl with vfCfg := [(1, 0x2002004000000001)] }, mem := { (st).mem with frameKey := [(0, 1)], poison := [512] } }
theorem witness_KeysMovesAndHostMemory :
    (st).running = true ∧ bits 0x80000001 0 11 ≠ 0 ∧ bits 0x80000000 0 11 = 0 ∧ (st).mem.keyLoad = none ∧ (st).mem.scrub = none ∧
    ({ (st) with mem := { (st).mem with keyLoad := some 7 } } : State).mem.keyLoad = some 7 ∧ ({ (st) with mem := { (st).mem with scrub := some (5, 1, 3) } } : State).mem.scrub = some (5, 1, 3) ∧
    -- one frame, the last of a stack; two would cross into the next
    ((2 ^ 20 - 1) / 2 ^ 20 = (2 ^ 20 - 1 + 1 - 1) / 2 ^ 20 ∧ (2 ^ 20 - 1) / 2 ^ 20 ≠ (2 ^ 20 - 1 + 2 - 1) / 2 ^ 20) ∧
    -- a move, and none
    migrating.mem.moves.find? (fun x => x.covers 0 0 && !x.recalled) = some ⟨0, 0, false, false, []⟩ ∧ (∀ x ∈ migrating.mem.moves, (x.covers 0 1 && !x.recalled) = false) ∧
    -- the host: bytes of one stack, at its end and past it; a barred frame; a poisoned line
    hbmRange (2 ^ 36 - 1) 1 = true ∧ hbmRange (2 ^ 36 - 1) 2 = false ∧ (st).hostWait (linesOf false 0 4) (.hostMemRead 0 4) = none ∧ (st).hostWait (linesOf true 0 4) (.hostMemWrite ⟨true, 0⟩ [1, 2, 3, 4]) = none ∧
    (migratingHere.hostWait (linesOf false 0 4) (.hostMemRead 0 4)).isSome = true ∧ (2 ^ 52 - 4 + 4 ≤ 2 ^ 52) ∧ (2 ^ 52 < 2 ^ 52 - 3 + 4) ∧ (∀ a ∈ framesOf 0 4, (st).hostBarred a = false) ∧
    (secret.running = true ∧ secret.hostWait (linesOf false 0 4) (.hostMemRead 0 4) = none ∧ ∃ a ∈ framesOf 0 4, secret.hostBarred a = true) ∧
    (∃ a ∈ linesOf false 65536 4, secret.mem.poisonedAt a = true) ∧ secret.hostWait (linesOf false 65536 4) (.hostMemRead 65536 4) = none ∧ (∀ a ∈ framesOf 65536 4, secret.hostBarred a = false) := by decide
theorem witness_PartitionsAndFunctions :
    -- a partition: there, and not; at the last slice, and past it
    (bit ((st).ctl.partCtlOf 0).toNat 0 = true ∧ (st).running = true ∧ 0 < 12 ∧ (st).partIdle 0 = false) ∧ bit (State.reset.ctl.partCtlOf 0).toNat 0 = false ∧
    sizeOfCode (bits 0x51 4 3) = 12 ∧ sizeOfCode 7 = 0 ∧ 11 % sizeOfCode 0 = 0 ∧ 1 % sizeOfCode 1 ≠ 0 ∧ ¬(12 < 12) ∧
    -- a VF: there, and not
    bit (shared.ctl.vfCfgOf 1).toNat 0 = true ∧ bit (shared.ctl.vfCfgOf 384).toNat 0 = false ∧ 384 ≤ 384 ∧ 384 < 385 ∧ bits (shared.ctl.vfCfgOf 1).toNat 49 11 = bits 0x3 49 11 ∧ bits 0x3 8 4 ≠ bits 0x103 8 4 ∧
    -- shares: equal FLOOR and CEIL; a FLOOR above its CEIL; a CEIL past 24
    (bits 0x1818 0 5 ≤ bits 0x1818 8 5 ∧ bits 0x1818 8 5 ≤ 24) ∧ ¬(bits 0x0102 0 5 ≤ bits 0x0102 8 5) ∧ ¬(bits 0x1900 8 5 ≤ 24) ∧
    (∀ p ∈ (st).ctl.countedIn 0, ({ (st).ctl with vfL2 := [(0, 0x1818)] } : Ctl).floorsFit p = true) ∧ (st).ctl.linkFits = true ∧
    (st).queueOf 47 = [] ∧ (st).ctl.partOn 1 = false ∧ bits ((st).ctl.engOwnOf 47).toNat 8 4 ≠ bits 0x101 8 4 := by decide
theorem witness_RegisterWrites :
    regAt 0 0 = some .devId ∧ regAt 385 0 = none ∧ regAt 1 0x30008 = none ∧ State.reset.running = false ∧ RegName.devId ≠ .devReset ∧ (st).running = true ∧
    bits (0x3FF : W64).toNat 0 10 ≠ 0 ∧ bits (0x400 : W64).toNat 0 10 = 0 ∧ 287 < 288 ∧ (regAt 0 (0x1000040 + 0x10000 * 287)).isSome = true ∧
    -- an aperture: enabled, and not; legal at the ends of its ranges, and not
    bit ((reducing).ctl.collApOf 0 0).toNat 0 = true ∧ bit ((st).ctl.collApOf 0 255).toNat 0 = false ∧ apertureOk 0x1200011 = true ∧ apertureOk 0x4200011 = true ∧ apertureOk 0x5200011 = false ∧
    apertureOk 0x0200011 = false ∧ apertureOk 0x4A00011 = false ∧ apertureOk 0x1200001 = false ∧
    bit ((posted 1).ctl.wqRingOf 0 0).toNat 0 = true ∧ bit ((st).ctl.wqRingOf 0 63).toNat 0 = false ∧ bit (domain.ctl.decliaOf 0).toNat 0 = true ∧ bit ((st).ctl.decliaOf 0).toNat 0 = false := by decide
/-- An image: its signatures, its record, its SVN. -/
def img (e l w : Bool) (v : W32) : FlashSlot := ⟨e, l, ⟨[], [], [], w⟩, [], v⟩
/-- Stage `n` of a start, with two images. -/
def booting (n : W32) (a b : FlashSlot) : State :=
  { State.reset with ctl := { State.reset.ctl with bootReason := n }, boot := { State.reset.boot with slots := [a, b], resetDue := false } }
theorem witness_StartAndTdisp :
    -- a reset asked for, and not; its key
    (st).boot.resetDue = false ∧ ({ (st) with boot := { (st).boot with resetDue := true } } : State).boot.resetDue = true ∧ (bit 0xA501 0 = true ∧ bits 0xA501 8 8 = 0xA5) ∧
    -- the stages; two valid images of one SVN; one ill-formed; none
    (st).starting = false ∧ (booting 0 (img true true true 2) (img true true true 2)).starting = true ∧ (booting 4 (img true true true 2) (img true true true 2)).starting = true ∧
    (booting 4 (img true true true 2) (img true true true 2)).stage = 4 ∧
    ((booting 1 (img true true true 2) (img true true true 2)).boot.slotAt 1).svn ≤ ((booting 1 (img true true true 2) (img true true true 2)).boot.slotAt 0).svn ∧
    (((booting 1 (img true true false 0) (img false true true 2)).boot.slotAt 0).record.wellFormed = false ∧ ((booting 1 (img true true false 0) (img false true true 2)).boot.slotAt 1).ecdsa = false ∧
      (booting 1 (img true true false 0) (img false true true 2)).boot.antiRollback ≤ 0) ∧
    ¬(stageLimit 0 < (booting 0 (img true true true 2) (img true true true 2)).boot.stageAt) ∧
    ({ (st) with ctl := { (st).ctl with bootReason := 0x80000001 } } : State).lamp = true ∧
    -- TDISP: a VF at the first and last numbers, locked, started
    (shared.running = true ∧ shared.ctl.fnOn 1 = true ∧ shared.ctl.tdiOf 1 = 0 ∧ ∀ e ∈ shared.mem.frameKey, shared.ctl.keyOf 1 e.2 = false) ∧ shared.ctl.fnOn 384 = false ∧
    ({ shared with ctl := { shared.ctl with vfCfg := [(1, 0x1000000000000003)] } } : State).ctl.tdiOf 1 = 1 ∧ secret.ctl.tdiOf 1 = 2 ∧
    Store.get none ({ secret with tdisp := { secret.tdisp with bound := [(1, some 5)] } } : State).tdisp.bound 1 = some 5 ∧ State.reset.running = false := by decide
theorem witness_StopInterface : Claims.Named (st (fun _ => team) (fun _ => { grid with fn := 1 })) ∧ (st (fun _ => team) (fun _ => { grid with fn := 1 })).team? 1 = some team ∧
    ((st (fun _ => team) (fun _ => { grid with fn := 1 })).gridOf team).fn = 1 ∧ team.phase = .live := ⟨named_st _ _ rfl rfl, rfl, rfl, rfl⟩
theorem witness_ErrorsAreHandled :
    (waits saved).team? 1 = some saved ∧ saved.uid = 1 ∧ saved.saved = true ∧ (st).team? 1 = some team ∧ team.leaving = false ∧ team.saved = false ∧
    (migrating.Inv ∧ Store.wf none migrating.mem.l1 = true ∧ Store.wf none migrating.mem.tlb = true) ∧ Store.get none migrating.mem.l1 1 = some ⟨8, false, 1, 8, 0⟩ ∧ Store.get none migrating.mem.l1 0 = some ⟨7, true, 0, 0, 15⟩ ∧
    (domain.slot 0 0).st = .filling ∧ (domain.slot 0 1).st = .free :=
  ⟨rfl, rfl, rfl, rfl, rfl, rfl, by decide, by decide, by decide, rfl, rfl⟩
/-- The batch's turn is next, at this word of class CF. -/
def turnCf (w : W64) : State :=
  { (turn w) with work := { (turn w).work with teams := [(1, some { team with batches := [{ batch with threads := [0], buf := some ⟨0x4100000000000000, [w]⟩ }] })] } }
theorem witness_PredicateStack : (st1).Issuing (cx1) ∧
    -- a word of the opcode with another bit set, at its batch's turn
    ((0x1100000000000001 : W64).extractLsb' 56 8 = 0x11 ∧ (0x1100000000000001 : W64).extractLsb' 0 56 ≠ 0) ∧
    (∃ s0 s1 c c1, (turnCf 0x1100000000000001).nextTurn = (some ⟨0, .batch 1 1⟩, s0) ∧ s1 = (s0.elapseTo ((turnCf 0x1100000000000001).sched.now + 0)).setCur 1 1 ∧ s1.ctx? = some c ∧
      c.batch.word = some (.cf, 0x1100000000000001) ∧ (s1.beforeIssue c .cf).ctx? = some c1) ∧
    -- a stack of depth 0, 1 and 2
    (∃ t, Each (fun (x : State) i y => y = x.onCur (cx1 (ps [])) (fun t => t.onThread i (fun h => { h with preds := h.preds.drop 1 }))) ((cx1 (ps [])).todo (everyOf (cx1 (ps [])))) (st1 (ps [])) t) ∧
    (st1 (ps [true, false])).Issuing (cx1 (ps [true, false])) ∧ (st1 (ps [true])).Issuing (cx1 (ps [true])) :=
  ⟨issuing_st1, by decide, ⟨_, _, _, _, rfl, rfl, rfl, rfl, rfl⟩, ⟨_, _, rfl, rfl⟩, ⟨rfl, rfl⟩, ⟨rfl, rfl⟩⟩
theorem witness_HandleMove :
    -- a null source; one register; a move; a tagged destination; words of other types and fields
    ((st).Issuing (cx) ∧ ((st).sRd (cx)).s 4 = 0) ∧
    ((st (ss [(4, 9)])).Issuing (cx (ss [(4, 9)])) ∧ ((st (ss [(4, 9)])).sRd (cx (ss [(4, 9)]))).s 4 ≠ 0 ∧ (8 : SReg) ≠ 4 ∧ (cx (ss [(4, 9)])).team.tagged 8 = false) ∧
    ((st (fun t => { t with s := [(4, 9)], tags := [8] })).Issuing (cx (fun t => { t with s := [(4, 9)], tags := [8] })) ∧ (cx (fun t => { t with s := [(4, 9)], tags := [8] })).team.tagged 8 = true) ∧
    ((0x2281484400000000 : W64).extractLsb' 56 8 = 0x22 ∧ (0x2281484400000000 : W64).extractLsb' 48 1 = 1 ∧ (0x2281484400000000 : W64).extractLsb' 52 4 ≠ 9 ∧
      (0x2291484400000001 : W64).extractLsb' 0 32 ≠ 0 ∧ (0x2299484400000000 : W64).extractLsb' 49 3 ≠ 0) :=
  ⟨⟨⟨rfl, rfl⟩, by decide⟩, ⟨⟨rfl, rfl⟩, by decide, by decide, by decide⟩, ⟨⟨rfl, rfl⟩, by decide⟩, by decide⟩
theorem witness_ScalarCompare :
    ((st).Issuing (cx) ∧ (cx).team.tagged 3 = false ∧ Ty.n64 ∈ Claims.widths) ∧ (st (fun t => { t with tags := [3] })).Issuing (cx (fun t => { t with tags := [3] })) ∧
    (cx (fun t => { t with tags := [3] })).team.tagged 3 = true ∧ (0x2090434540000000 : W64).extractLsb' 56 8 = 0x20 ∧ decode .sc 0x2090434540000005 = .ok (.scmp .ge .n64 3 5 0) :=
  ⟨⟨⟨rfl, rfl⟩, by decide, by decide⟩, ⟨rfl, rfl⟩, by decide, by decide, by decide⟩
theorem witness_DivisionTable :
    (∀ ty ∈ Claims.widths, ty = .i8 ∨ ty = .i16 ∨ ty = .i32 ∨ ty = .i64 ∨ ty.isI = false) ∧
    -- the clauses: 0 over 0, −1 over 0, the least over −1, the least over 1, the greatest over −1
    (0 ≤ (0 : BitVec 8).toInt ∧ (0xFF : BitVec 8).toInt < 0 ∧ (0x80 : BitVec 8) = BitVec.intMin _ ∧ (0xFF : BitVec 8).toInt = -1 ∧ (1 : BitVec 8).toInt ≠ -1 ∧ (0x7F : BitVec 8) ≠ BitVec.intMin _) ∧
    Instr.wellFormed (.div .i64 (.k 126) (.k 0) (.k 2)) = true ∧ (st1).Issuing (cx1) ∧ (∀ x ∈ [0, 31, 2], (cx1).team.tagged x = false) := ⟨by decide, by decide, by decide, issuing_st1, by decide⟩
/-- An access answered. -/
def answers {α : Type} : Got α → Bool | .ok _ _ => true | _ => false
/-- The tile of the team's scratchpad, sealed. -/
def sealedTile : State := { (tiled holds) with pairs := { (tiled holds).pairs with slots := [(0, { Slot.zero with st := .sealed, base := 64, size := 64, scratch := true, team := 1 })] } }
theorem witness_ReadsAndWrites :
    (Claims.Alone (st1 sp) (cx1 sp) 0 (atTy .n32 (.k 5) :: basePosn .s (.w 0) none) ∧
      (st1 sp).whereOf (cx1 sp) ((st1 sp).rd (cx1 sp).team 0) .s (.w 0) none 0 4 false = .ok (.scratch 1 0) ∧ (∃ bs t, Claims.Reads (st1 sp) (cx1 sp) 0 (.scratch 1 0) .plain .team 4 bs t) ∧
      (∃ t, Claims.Wrote (st1 sp) (cx1 sp) (.scratch 1 0) .plain .team [1, 2, 3, 4] t)) ∧
    (∃ bs t, Claims.Reads (st1) (cx1) 0 (.param 12) .plain .team 4 bs t) ∧
    ((mapped).whereOf (cx1) ((mapped).rd (cx1).team 0) .g (.s 2) none 0 4 true = .ok (.global ((mapped).agent team) 0 .write) ∧
      (∃ bs t, Claims.Reads (mapped) (cx1) 0 (.global ((mapped).agent team) 0 .read) .acq .part 4 bs t) ∧ (∃ t, Claims.Wrote (mapped) (cx1) (.global ((mapped).agent team) 0 .write) .rel .part [1, 2, 3, 4] t)) ∧
    Claims.Alone (st1 sp) (cx1 sp) 0 ([atTy .n32 (.k 4), atTy .n32 (regPlus (.k 4) 1)] ++ basePosn .s (.w 0) none) ∧
    (Instr.wellFormed (.atom .cas .plain .team .n32 .s (.k 4) (.w 0) (.w 2) 0) = true ∧ Claims.Alone (st1 sp) (cx1 sp) 0 (atTy .n32 (.k 4) :: basePosn .s (.w 0) none ++ atomPosn .cas .n32 (.w 2))) ∧
    (∀ f, ∃ bs m, atomicGlobal (mapped).ctl (mapped).mem ⟨0, 0, 0, 0, []⟩ 0 4 f = .ok bs m) ∧
    (Claims.Alone (mapped) (cx1) 0 [(.s 2, true)] ∧ isAperture 0 = false ∧ ∃ bs m, loadGlobal (mapped).ctl (mapped).mem ((mapped).agent (cx1).team) 0 128 .read = .ok bs m) :=
  ⟨⟨⟨⟨rfl, rfl⟩, rfl, rfl⟩, rfl, ⟨_, _, rfl, rfl, rfl⟩, _, rfl, rfl⟩, ⟨_, _, rfl, rfl⟩,
    ⟨rfl, ⟨_, _, _, fun _ => rfl, _, rfl, rfl⟩, _, _, fun _ => rfl, _, rfl, rfl⟩, ⟨⟨rfl, rfl⟩, rfl, rfl⟩, ⟨by decide, ⟨rfl, rfl⟩, rfl, rfl⟩,
    (fun _ => ⟨_, _, rfl⟩), ⟨⟨rfl, rfl⟩, rfl, rfl⟩, by decide, _, _, rfl⟩
theorem sealed_see : sealedTile.checkHandle 0 seeHandle false .seeRead = .ok 0 0 := by
  have h := handle_fields 5#48 (Config.cmac 0 5#48)
  have hc := (Config.cmac 0 5#48).isLt
  have e1 : hFill seeHandle = false := by unfold hFill bit seeHandle; rw [h]; simp; omega
  have e2 : hDevice seeHandle = 0 := by unfold hDevice bits seeHandle; rw [h]; simp; omega
  have e3 : hDie seeHandle = 0 := by unfold hDie bits seeHandle; rw [h]; simp; omega
  have e4 : hSlot seeHandle = 0 := by unfold hSlot bits seeHandle; rw [h]; simp; omega
  have e5 : hGen seeHandle = 0 := by unfold hGen bits seeHandle; rw [h]; simp; omega
  have e8 : hRights seeHandle = 5 := by unfold hRights bits seeHandle; rw [h]; simp; omega
  have e6 : seeHandle ≠ 0 := by intro e; have := congrArg BitVec.toNat e; unfold seeHandle at this; rw [h] at this; simp at this
  have e7 := seal_of 5#48 (Config.cmac 0 5#48)
  unfold State.checkHandle; rw [if_neg e6, e1, e2, e3, e4, e5, e8]; unfold seeHandle; rw [e7.1, e7.2, show sealedTile.ctl.devnum 0 = 0 from rfl, show sealedTile.sealKey 0 = 0 from rfl]; simp only [ne_eq, not_true_eq_false, if_false]; rfl
theorem witness_SealedTile : Claims.Alone sealedTile (cx1 holds) 0 (atTy .n32 (.k 4) :: basePosn .see (.s 3) none ++ [at32 (.s 3)]) ∧
    sealedTile.checkHandle 0 seeHandle false .seeRead = .ok 0 0 ∧ (sealedTile.rd (cx1 holds).team 0).s 3 = seeHandle ∧ (60 : Int) + 4 ≤ (sealedTile.slot 0 0).size ∧
    (sealedTile.slot 0 0).team = (sealedTile.curTeam (cx1 holds)).uid ∧ sealedTile.mem.scratchBarred 1 124 4 = false ∧ (sealedTile.slot 0 0).st = .sealed ∧
    answers (sealedTile.tileRead (some 0) (sealedTile.slot 0 0) 60 4) = true := ⟨⟨⟨rfl, rfl⟩, rfl, rfl⟩, sealed_see, rfl, by decide, rfl, by decide, rfl, by decide +kernel⟩
/-- A wait's record in scratchpad, its word at 32, its value `v`. -/
def recorded (v : Byte) (t : Team) : Team := { t with scratch := if v = 0 then [(0, 32), (24, 0x10)] else [(0, 32), (8, v), (24, 0x10)] }
theorem witness_OneThreadWaits : (st1 (recorded 0)).Issuing (cx1 (recorded 0)) ∧ (st1 (recorded 0)).mayEnd (cx1 (recorded 0)) = true ∧ (cx1 (recorded 0)).todo (everyOf (cx1 (recorded 0))) = [0] ∧
    (cx1 (recorded 0)).regFault 0 [at32 (.w 0)] = none ∧ (3 : BitVec 24).toNat < ((st1 (recorded 0)).gridOf (cx1 (recorded 0)).team).blocks ∧ 0 + 32 ≤ ((st1 (recorded 0)).gridOf (cx1 (recorded 0)).team).spBytes ∧
    (∃ r t, waitRecOf ((st1 (recorded 0)).scratchRead 1 0 32) = some r ∧ (st1 (recorded 0)).waitOn (cx1 (recorded 0)) 0 r false 3 = .done t) ∧
    (∃ r t p, waitRecOf ((st1 (recorded 1)).scratchRead 1 0 32) = some r ∧ (st1 (recorded 1)).waitOn (cx1 (recorded 1)) 0 r false 3 = .park t p) :=
  ⟨⟨rfl, rfl⟩, by decide, by decide, by decide, by decide, by decide, ⟨_, _, rfl, rfl⟩, _, _, _, rfl, rfl⟩
/-- A shape record: I32, one dimension, one element, a grid of one device. -/
def shaped : Store Byte := [(28, 1), (30, 1), (32, 1), (34, 1), (44, 2), (45, 1), (48, 1), (49, 1), (52, 1)]
/-- The record is read, is a shape, and its tile fits at 0. -/
def tileFits (s : State) : Bool :=
  match readRegistry s.ctl (s.mem.drain 0) 0 0 0 64 .read with
  | .ok bs m => (match shapeOf bs true with | some p => decide (0 + p.bytes ≤ ((s.setMem m).gridOf (cx1).team).spBytes) && ((s.setMem m).globalBad 0 p.base.toNat).isNone | none => false)
  | _ => false
theorem copy_dst : (st1 k64).copyDst (cx1 k64) ((st1 k64).rd (cx1 k64).team 0) .s (.k 2) 64 = .ok (.scratch 1 0) := by
  unfold State.copyDst
  dsimp only
  have : inRange (((st1 k64).rd (cx1 k64).team 0).lo (.k 2)).toNat 64 ((st1 k64).gridOf (cx1 k64).team).spBytes = true := by decide
  rw [if_pos this]; rfl
theorem witness_OneThreadCopies :
    (Claims.Alone (st1 k64) (cx1 k64) 0 ([(.k 2, false)] ++ [(.k 0, false)] ++ (none : Option Reg).toList.map at32 ++ [at32 (.k 1)]) ∧
      (st1 k64).copyDst (cx1 k64) ((st1 k64).rd (cx1 k64).team 0) .s (.k 2) 64 = .ok (.scratch 1 0) ∧ (st1 k64).copySrc (cx1 k64) ((st1 k64).rd (cx1 k64).team 0) .s (.k 0) none 64 = .ok (.at (.scratch 1 0)) ∧
      (∃ e, (st1 k64).engineFor 0 = .engine e)) ∧
    (Claims.Alone (hosted shaped) (cx1) 0 [at32 (.k 0), at32 (.s 2)] ∧ tileFits (hosted shaped) = true ∧ (∃ e, (hosted shaped).engineFor 0 = .engine e)) :=
  ⟨⟨⟨⟨rfl, rfl⟩, rfl, rfl⟩, copy_dst, rfl, _, rfl⟩, ⟨⟨rfl, rfl⟩, rfl, rfl⟩, by decide +kernel, _, rfl⟩
theorem witness_OneThreadGraphsAndLaunches :
    (Claims.Alone (hosted []) (cx1) 0 [at32 (.k 0), at32 (.s 2)] ∧ ((hosted []).curTeam (cx1)).walker = none ∧
      (∃ t, (hosted []).startGraph (cx1) 0 (fun v z => .done (Claims.put (cx1) 0 [(.k 0, .n32, v)] z)) = .done t)) ∧
    ((hosted [] (fun t => { t with walker := some graph })).curTeam (cx1 (fun t => { t with walker := some graph }))).walker ≠ none ∧
    Claims.Alone (mapped) (cx1) 0 [at32 (.s 2), at32 (.w 0)] ∧
    ((hosted []).Issuing (cx1) ∧ (cx1).todo (activeOf (cx1)) = [0] ∧ (cx1).team.tagged 3 = false ∧ (cx1).team.tagged 2 = false ∧
      ∃ s1 bs hb m m2, Claims.Released (hosted []) 0 .part s1 ∧ readRegistry s1.ctl s1.mem 0 0 0 64 .read = .ok bs m ∧ (descOf bs).ring.toNat % 64 = 0 ∧
        readRegistry s1.ctl m 0 0 (descOf bs).ring.toNat 64 .read = .ok hb m2 ∧
        ((s1.setMem m).setMem m2).launchHeld 0 0 (descOf bs) (some 0) = false) :=
  ⟨⟨⟨⟨rfl, rfl⟩, rfl, rfl⟩, rfl, _, rfl⟩, by decide, ⟨⟨rfl, rfl⟩, rfl, rfl⟩, ⟨rfl, rfl⟩, rfl, rfl, rfl, _, _, _, _, _, ⟨fun _ => rfl, rfl⟩, rfl, rfl, rfl, rfl⟩
/-- The service ring of partition 0, and work-request ring 0 of the PF, stand at 4096. -/
def ringsAt (bytes : Store Byte) : State := { hosted bytes with ctl := { (hosted bytes).ctl with svcRing := [(0, 4097)], wqRing := [(0, 4097)] } }
theorem witness_OneThreadCalls : Claims.Alone (ringsAt [(4112, 4)]) (cx1) 0 [at32 (.s 1), (.k 0, true)] ∧ (ringsAt [(4112, 4)]).svcOn 0 = true ∧
    (∃ bs t z, Claims.Reads (ringsAt [(4112, 4)]) (cx1) 0 (.global ⟨0, 0, 0, 0, []⟩ 0 .read) .plain .team 64 bs t ∧ Claims.Released t 0 .device z) ∧ isAperture 0 = false ∧
    (((ringsAt [(4112, 4)]).handleFor (.team 1 0)).2.writeSvc 0 (svcBody 1 0 1 0 0 0 0 0 0 (List.replicate 64 0))).isSome = true :=
  ⟨⟨⟨rfl, rfl⟩, rfl, rfl⟩, by decide, ⟨_, _, _, ⟨_, fun _ => rfl, _, rfl, rfl⟩, by decide, rfl⟩, by decide, by decide +kernel⟩
/-- A call's record is the service ring's first, its reply's ring at 0. -/
def called : State := ringsAt [(16, 4), (4096, 1), (4112, 4), (4160, 1)]
theorem witness_OneThreadReturns : called.Issuing (cx1) ∧ (called.gridOf (cx1).team).kmode = true ∧
    (∃ bs m z1 m2, readMany called.ctl 0 0 .read 3 (called.mem.drain 0) 4160 128 = .ok bs m ∧ (called.setMem m).isSvcRecord 0 4160 = true ∧ field bs 0 1 = 1 ∧ field bs 2 1 % 2 = 0 ∧
      (called.setMem m).ringHeld (field bs 4 2) 0 (field bs 64 8) = false ∧ (called.setMem m).answering 0 4162 = false ∧
      writeRegistry (called.setMem m).ctl (called.setMem m).mem 0 0 4162 .write [1] = .ok () m2 ∧ (called.setMem m).serviceReply 0 bs 7 stOk (0, 0, 4162, 1) = .ok z1) :=
  ⟨⟨rfl, rfl⟩, rfl, _, _, _, _, rfl, rfl, rfl, rfl, rfl, rfl, rfl, rfl⟩
/-- The ring's header is read and allows a request, the request is read, and it and the new index are written. -/
def posts (s : State) : Bool :=
  match deviceRead s.ctl (s.mem.release 0 .part) 0 0 (s.wqBase 0 0) 64 .read with
  | .ok hb m =>
    wqHead hb == some (0, 0, 4) &&
    (match loadGlobal s.ctl m ⟨0, 0, 0, 0, []⟩ 0 64 .read with
    | .ok bs m1 => (match writeRegistry s.ctl m1 0 0 (4096 + 64) .write bs with | .ok _ m4 => answers (writeRegistry s.ctl m4 0 0 4096 .write (toLE 8 1)) | _ => false)
    | _ => false)
  | _ => false
theorem witness_OneThreadRequests : (ringsAt [(4112, 4)]).Issuing (cx1) ∧ (ringsAt [(4112, 4)]).wqOn 0 0 = true ∧
    posts (ringsAt [(4112, 4)]) = true ∧
    (∃ bs m ts, readMany (hosted [(71, 0x80)]).ctl 0 0 .read 4 ((hosted [(71, 0x80)]).mem.release 0 .part) 0 128 = .ok bs m ∧ termsOf bs = some ts) :=
  ⟨⟨rfl, rfl⟩, by decide, by decide +kernel, _, _, _, rfl, rfl⟩

-- what the statements ask besides

/-- Core 0's owned word with one byte stored since its registration, of function `fn`, its registration in flight. -/
def inFlight (fn : Nat) : Mem := { (mapped).mem with l1 := [(fn * 2 ^ 55, some ⟨7, true, 0, 0, 1⟩)], flights := [⟨0, fn * 2 ^ 55, false, false, none, [0]⟩] }
/-- The same, its page moving. -/
def stuck : Mem := { inFlight 0 with moves := [⟨0, 0, false, false, []⟩] }
theorem witness_NothingBlocked : Claims.NoneBlocked (st1) 0 ∧ ({ (st1) with mem := inFlight 0 } : State).mem.flightFree ⟨0, 0, false, false, none, [0]⟩ = true ∧
    stuck.flightFree ⟨0, 0, false, false, none, [0]⟩ = false := ⟨(by intro f h; cases h), by decide, by decide⟩
theorem witness_FenceAndPrefetch : (st1).Issuing (cx1) ∧ Instr.wellFormed (.fence .sc .part) = true ∧ Claims.NoneBlocked (st1) (cx1).team.core ∧
    (∃ t, Each (Claims.Part (cx1) ((.s 2, true) :: (none : Option Reg).toList.map at32) (Claims.Prefetches (mapped) (cx1) (.s 2) none 0))
      ((cx1).todo (activeOf (cx1))) (mapped) t) ∧
    (∃ t, Each (Claims.Part (cx1 (ss [(2, 0x0140000000000000)])) ((.s 2, true) :: (none : Option Reg).toList.map at32) (Claims.Prefetches (st1 (ss [(2, 0x0140000000000000)])) (cx1 (ss [(2, 0x0140000000000000)])) (.s 2) none 0))
      ((cx1 (ss [(2, 0x0140000000000000)])).todo (activeOf (cx1 (ss [(2, 0x0140000000000000)])))) (st1 (ss [(2, 0x0140000000000000)])) t) :=
  ⟨issuing_st1, by decide, (by intro f h; cases h), ⟨_, _, rfl, rfl⟩, _, _, rfl, rfl⟩
/-- An L1 that holds 2048 lines. -/
def fullL1 : Mem := { (mapped).mem with l1 := (List.range 2048).map (fun i => (32 * i, some ⟨0, false, i, 0, 0⟩)) }
theorem witness_L1Room : Claims.Roomy (mapped).mem ⟨0, 0, 0, 0, []⟩ 4 ∧ ((mapped).mem.l1Lines 0).length < 2048 ∧ (mapped).mem.makeRoom 0 [] 5 = some (mapped).mem := ⟨.inl (by decide), by decide, rfl⟩
set_option maxRecDepth 20000 in
theorem witness_L1Full : (fullL1.l1Lines 0).length = 2048 ∧ 2048 ∉ fullL1.l1Lines 0 := by decide +kernel
theorem witness_AtomicAtTheRegistry :
    ∃ p m1 old m', translate (hosted []).ctl (hosted []).mem 0 0 0 .write = .ok p m1 ∧
      atomicGlobal (hosted []).ctl (hosted []).mem ⟨0, 0, 0, 0, []⟩ 0 8 (fun _ => some [1, 2, 3, 4, 5, 6, 7, 8]) = .ok old m' ∧
      Claims.Homes ((m1.sample (hosted []).ctl 0 p).drain 0) ∧ Claims.Fits ((m1.sample (hosted []).ctl 0 p).drain 0) ⟨0, 0, 0, 0, []⟩ 0 8 p :=
  ⟨_, _, _, _, rfl, rfl, (by intro w k h; cases h), by intro k hk w h; cases h⟩
theorem witness_ReleaseAndAcquire : Store.get none (inFlight 0).l1 0 = some ⟨7, true, 0, 0, 1⟩ ∧ Store.wf none (inFlight 0).l1 = true ∧ Store.wf none cached.l1 = true ∧
    (∃ f ∈ (stuck.drain 0).flights, f.core = 0) ∧ l1Core 0 = 0 ∧ Store.get none ((inFlight 0).acquire 0).l1 0 = some ⟨7, true, 0, 0, 1⟩ := by decide
/-- A team whose clause has a register write outstanding. -/
def pending (t : Team) : Team := { t with toks := [{ id := 5, batch := 1, threads := [0], seta := none, setb := none, regs := 1, mems := 0, posts := 0, issued := true, aDone := true, bDone := true }] }
theorem witness_ExitCompletes : (st1).Issuing (cx1) ∧ (st1).mayEnd (cx1) = true ∧ (st1 pending).Issuing (cx1 pending) ∧ (st1 pending).mayEnd (cx1 pending) = false :=
  ⟨issuing_st1, by decide, ⟨rfl, rfl⟩, by decide⟩
/-- At its first clause: a block the image does not have; a block whose entry is odd. -/
def firstClause (block : Nat) : Ctx := ⟨{ team with batches := [{ batch with threads := [0], buf := none, clause := 0, block := block }] }, { batch with threads := [0], buf := none, clause := 0, block := block }⟩
def beforeFirst (block : Nat) (bytes : Store Byte) : State :=
  { (hosted bytes) with work := { (hosted bytes).work with teams := [(1, some (firstClause block).team)] } }
theorem witness_ClauseWaitsOrFaults : (beforeFirst 9 []).Issuing (firstClause 9) ∧ (beforeFirst 9 []).mayStart (firstClause 9) ≠ none ∧
    ((beforeFirst 9 []).gridOf (firstClause 9).team).blocks ≤ 9 ∧
    ((beforeFirst 2 [(264, 3)]).Issuing (firstClause 2) ∧ (beforeFirst 2 [(264, 3)]).mayStart (firstClause 2) ≠ none ∧
    2 < ((beforeFirst 2 [(264, 3)]).gridOf (firstClause 2).team).blocks ∧
    ∃ o m, blockEntry (beforeFirst 2 [(264, 3)]).ctl (beforeFirst 2 [(264, 3)]).mem ((beforeFirst 2 [(264, 3)]).agent (firstClause 2).team) ((beforeFirst 2 [(264, 3)]).gridOf (firstClause 2).team) 2 = .ok o m ∧
      (o % 8 ≠ 0 ∨ o < ((beforeFirst 2 [(264, 3)]).gridOf (firstClause 2).team).codeAt ∨ ((beforeFirst 2 [(264, 3)]).gridOf (firstClause 2).team).doff < o + 16)) ∧
    -- its turn has not come
    ({ (beforeFirst 2 []) with work := { (beforeFirst 2 []).work with teams := [(1, some { (firstClause 2).team with leaving := true })] } } : State).mayStart ⟨{ (firstClause 2).team with leaving := true }, (firstClause 2).batch⟩ = none :=
  ⟨⟨rfl, rfl⟩, by decide, by decide, ⟨⟨rfl, rfl⟩, by decide, by decide, _, _, rfl, by decide⟩, by decide⟩
/-- A trapped team in whose cycle another's thread, before it in order, has trapped too. -/
def twoTrapped : State :=
  (st (fun _ => { trapped with threads := trapped.threads ++ trapped.threads }))
theorem witness_TrapPosts : (st (fun _ => trapped)).trapBehind trapped 0 = false ∧ (st (fun _ => trapped)).svcOn 0 = false ∧ ((st (fun _ => trapped) user).gridOf trapped).kmode = false ∧
    twoTrapped.trapBehind { trapped with threads := trapped.threads ++ trapped.threads } 1 = true ∧
    twoTrapped.trapBehind { trapped with threads := trapped.threads ++ trapped.threads } 0 = false ∧ (ringsAt []).svcOn 0 = true := by decide
/-- A thread that has waited at a scratchpad word for longer than its team's limit, or not. -/
def waitsFor (ps : Nat) (t : Team) : Team := { t with wdogCtl := 0x10000, threads := [{ Thread.blank with st := .parked (.waitf (onWord 0 0 true) false 1), parkedFor := ps }] }
theorem witness_WatchdogBites : (waitsFor 0 team).waitedOut ((waitsFor 0 team).thread 0) = false ∧ (waitsFor (10 ^ 12) team).waitedOut ((waitsFor (10 ^ 12) team).thread 0) = true ∧
    team.phase = .live ∧ 0 < 1 % 65536 * 4096 := by decide
/-- A DUSK team past its grace, and a NIGHT team that waits. -/
def late : State := waits { unstarted with waited := 10 ^ 12, cls := 1 } { grid with cls := 1, nextLin := 1 }
theorem witness_Dispatches : (waits saved).duskLate 0 = false ∧ late.duskLate 0 = true ∧ ((waits saved).candidates 0 (waits saved).prioOf).length = 1 ∧
    ((waits saved).candidates 0 (waits saved).prioOf).all (fun c => ((waits saved).coreFor (waits saved).occupied c.g).isSome) = true ∧
    (late.candidates 0 late.prioOf).any (fun c => c.g.uid == 1 && c.lin == 0 && late.pastGrace 0 c) = true ∧
    ((waits { unstarted with cls := 2 }).candidates 0 (waits { unstarted with cls := 2 }).prioOf).any (fun c => c.cls == 2) = true ∧
    ((waits unstarted).candidates 0 (waits unstarted).prioOf).all (fun c => !(c.g.uid == 1 && c.lin == 0 && ((waits unstarted).pastGrace 0 c || c.cls == 2))) = true := by decide +kernel
/-- A ring that is full. -/
def fullRing : State := { ringed with mem := { ringed.mem with host := [(0, 16), (16, 4)] } }
theorem witness_RecordsAreWritten : rec0.service = none ∧ rec0.trig = none ∧ rec0.answer = none ∧ ringed.recsHeld = false ∧
    (∃ h, ringed.ringHead 0 0 0 = some h ∧ (h.head + 2 ^ 64 - h.tail) % 2 ^ 64 < 2 ^ h.log) ∧
    (∃ h, fullRing.ringHead 0 0 0 = some h ∧ 2 ^ h.log ≤ (h.head + 2 ^ 64 - h.tail) % 2 ^ 64 ∧ (h.head + 2 ^ 64 - h.tail) % 2 ^ 64 < 2 ^ 63) ∧
    (∃ m1 m2, writeRegistry ringed.ctl ringed.mem 0 0 64 .write (List.replicate 32 1) = .ok () m1 ∧ writeRegistry ringed.ctl m1 0 0 0 .write (toLE 8 1) = .ok () m2) :=
  ⟨rfl, rfl, rfl, by decide, ⟨_, rfl, by decide⟩, ⟨_, rfl, by decide, by decide⟩, _, _, rfl, rfl⟩
/-- A grid that is over, of a function with a write at a moving page. -/
def owing : State := { (waits team { grid with gone := 1 }) with mem := stuck }
theorem witness_GridsRetire : owing.mem.flights ≠ [] ∧ (owing.mem.settleGrid 0).gridOwes 0 = true ∧ (owing.mem.settleGrid 7).gridOwes 7 = false ∧ ((waits team { grid with gone := 1 }).mem.settleGrid 0).gridOwes 0 = false ∧
    owing.grid? 1 = some { grid with gone := 1 } ∧ Claims.Named owing := ⟨by decide, by decide, by decide, by decide, rfl, named_st team _ rfl rfl⟩
theorem witness_LaunchEntryHeld : (st).net.inbox = [] ∧ migratingHere.net.inbox = [] := ⟨rfl, rfl⟩
theorem witness_Owns : Claims.Owns domain 0 0x8000000000000000 ∧ ¬Claims.Owns domain 0 0x8000000800000000 ∧ ¬Claims.Owns domain 0 0 := by
  refine ⟨⟨by decide, by decide, by decide, by decide, by decide⟩, fun h => absurd h.2.2.2.2 (by decide), fun h => absurd h.1 (by decide)⟩
/-- S4 awaits a transfer's outcome; a later write of it is still to take effect, or has. -/
def sent (olds : List (Old W64)) (t : Team) : Team := { t with sOlds := olds }
theorem witness_TransferLands :
    (({ team with sOlds := [⟨4, false, 7, 0, 9⟩] } : Team).landS 9 4 0).map (·.2) = some true ∧
    (({ team with sOlds := [⟨4, false, 7, 0, 11⟩, ⟨4, false, 7, 0, 9⟩] } : Team).landS 9 4 0).map (·.2) = some false ∧ (team.landS 9 4 0).isNone = true ∧
    (transfer true).fill = hFill (transfer true).handle ∧ team.tagged 4 = false ∧ ({ team with tags := [4] } : Team).tagged 4 = true ∧
    ({ (domain) with pairs := { (domain).pairs with returned := [transfer true] } } : State).pairs.returned.find? (fun y => y.id == 9) = some (transfer true) ∧
    (∀ x ∈ (domain).pairs.transfers, x.id ≠ 9) := by decide
/-- Ring 0 of the PF has a request, in host memory. -/
def requested : State := { (ringsAt [(4096, 1), (4112, 4), (4160, 4)]) with net := { (st).net with fired := [(0, [4], 0)] } }
theorem witness_RequestsStart : requested.nextVisit 0 = some 0 ∧ requested.canStart 0 0 = true ∧ requested.running = true ∧ requested.ctl.fnOn 0 = true ∧
    ({ requested with net := { requested.net with visit := [(0, 1)] } } : State).nextVisit 0 = some 64 ∧ (ringsAt [(4112, 4)]).nextVisit 0 = none ∧
    ({ requested with net := { requested.net with visit := [(0, 64)] } } : State).canStart 0 64 = true := by decide +kernel
theorem witness_AnswersKnown : Code.ofNum 6 ≠ none ∧ ¬((25 : Nat) = 0 ∨ Code.ofNum 25 ≠ none) ∧ ¬((16 : Nat) = 0 ∨ Code.ofNum 16 ≠ none) := by decide
/-- A handle waits in the partition's receive queue. -/
def received : State := { (domain) with pairs := { (domain).pairs with queue := [(0, 7, fillHandle)] } }
theorem witness_PeerAccess :
    (∃ t, Claims.PeerAccess domain 0 (.copyFrom seeHandle 60 4) t) ∧ (∃ t, Claims.PeerAccess domain 0 (.copyTo fillHandle true 60 4) t) ∧
    (∃ t, Claims.PeerAccess domain 0 (.pass fillHandle true) t) ∧ (∃ t, Claims.PeerAccess domain 0 (.hold fillHandle 2) t) ∧
    (∃ t, Claims.PeerAccess domain 0 (.abandon fillHandle) t) ∧ (∃ t, Claims.PeerAccess received 0 (.withdraw 7 fillHandle 2) t) ∧
    (∃ e, Claims.PeerRefused domain 0 (.copyFrom seeHandle 64 4) e) ∧ (∃ e, Claims.PeerRefused domain 0 (.copyTo fillHandle true 62 4) e) ∧
    (∃ e, Claims.PeerRefused domain 0 (.pass 0 true) e) := by
  have hf : fillHandle.toNat = 0x800000000000 * 65536 + (Config.cmac 0 0x800000000000#48).toNat := handle_fields 0x800000000000#48 (Config.cmac 0 0x800000000000#48)
  have hc := (Config.cmac 0 0x800000000000#48).isLt
  have e3 : hDie fillHandle = 0 := by unfold hDie bits; rw [hf]; omega
  have e4 : hSlot fillHandle = 0 := by unfold hSlot bits; rw [hf]; omega
  have e5 : hGen fillHandle = 0 := by unfold hGen bits; rw [hf]; omega
  have e1 : hFill fillHandle = true := by unfold hFill bit; rw [hf]; simp; omega
  have e2 : hDevice fillHandle = 0 := by unfold hDevice bits; rw [hf]; omega
  have own : Claims.Owns domain 0 fillHandle := by unfold Claims.Owns; rw [e1, e2, e3, e4, e5]; decide
  have hs : hSeal fillHandle = Config.cmac (domain.sealKey (hDie fillHandle)) (hBody fillHandle) := by
    have e7 := seal_of 0x800000000000#48 (Config.cmac 0 0x800000000000#48)
    rw [e3]; unfold fillHandle; rw [e7.1, e7.2]; rfl
  exact ⟨⟨_, 0, 0, home_see.1, by decide, rfl⟩, ⟨_, 0, 0, home_fill.1, by decide, rfl⟩, ⟨_, _, home_fill.2, rfl⟩, ⟨_, rfl⟩, ⟨_, own, hs, rfl⟩,
    ⟨_, List.mem_cons_self .., rfl⟩, ⟨_, .inr ⟨0, 0, home_see.1, rfl⟩⟩, ⟨_, .inr ⟨0, 0, home_fill.1, rfl⟩⟩, ⟨_, _, rfl, rfl⟩⟩
/-- Time is `ps`. -/
def timed (ps : Nat) (s : State) : State := { s with sched := { s.sched with now := ps } }
theorem witness_EpochsDue : (st).powerDue = false ∧ (timed 1000000 (st)).powerDue = true ∧
    Store.get 0 (timed 100000250 (st)).sched.waysAt 0 < ((timed 100000250 (st)).sched.now - (timed 100000250 (st)).sched.startAt - 250) / 100000000 ∧
    ¬(Store.get 0 (timed 100000249 (st)).sched.waysAt 0 < ((timed 100000249 (st)).sched.now - (timed 100000249 (st)).sched.startAt - 250) / 100000000) := by decide +kernel
theorem witness_CountersClear : ∀ r ∈ ringed.queues.held, r.fn = 0 → r.trig = none := by decide
theorem witness_SessionExpiry :
    (∃ x ∈ (saving 0).work.saves, ∃ e ∈ ([(1, some 5)] : Store (Option Nat)), e.1 = x.fn ∧ e.2 = some 5) ∧
    (∀ x ∈ (st).work.saves, ∀ e ∈ ([(1, some 5)] : Store (Option Nat)), e.1 = x.fn → e.2 ≠ some 5) := by decide
theorem witness_Stages :
    (let s := booting 0 (img true true true 2) (img true true true 2)
     let l := { s with boot := { s.boot with stageAt := stageLimit 0 + 1 } }
     ¬(stageLimit s.stage < s.boot.stageAt ∨ 10000000000000 ≤ s.boot.began) ∧ (stageLimit l.stage < l.boot.stageAt) ∧ l.starting = true) ∧
    10000000000000 ≤ ({ (booting 0 (img true true true 2) (img true true true 2)).boot with began := 10000000000000 } : Boot).began := by decide
theorem witness_RootOfAFixedTdi : secret.ctl.fixed 1 = true ∧ (st).ctl.fixed 1 = false ∧ secret.running = true ∧ (regAt 1 0).isSome = true := by decide
theorem witness_BarrierOpens :
    (let y := { Bar.zero with pending := 64, lowered := 64, arrived := [(0, 0)] }
     let t := { ready with bars := listPut ready.bars 14 y }
     14 < t.bars.length ∧ (t.bar 14).lowered ≠ 0 ∧ t.liveCrews = [0] ∧ y.pending - y.lowered = 0 ∧ ∀ k ∈ t.liveCrews, (0, k) ∈ (t.bar 14).arrived) ∧
    (st).sched.now < 250 ∧ (st).sched.now / 250 ≠ 250 / 250 := by decide

/-- Another thread of the team waits for the answer to an access through the handle 5. -/
def storing : State := { (tiled holds) with net := { (tiled holds).net with waits := [⟨1, 1, 1, 1, 5, false, none⟩] } }
theorem witness_DropsAndPosts :
    -- DROP: no earlier access through the handle waits, and one does
    (tiled holds).fillsOut (cx1) 0 5 = false ∧ storing.fillsOut (cx1) 0 5 = true ∧ Claims.Released (tiled holds) 0 .device ((tiled holds).setMem ((tiled holds).mem.release 0 .device)) ∧
    -- WQPOST: a post whose index is next, and one behind another thread's
    ((ringsAt []).arrive (0, 1, 0)).postsAhead (0, 1, 0) = 0 ∧ Claims.Released (st1) 0 .part ((st1).setMem ((st1).mem.release 0 .part)) :=
  ⟨by decide, by decide, ⟨fun _ => rfl, rfl⟩, by decide, fun _ => rfl, rfl⟩
theorem witness_FillHandleOrder : fillOf (.stFh 5 true 0 4 [1, 2, 3, 4]) = some 5 ∧ domain.behindFill 0 (.drop 5 true) 5 = false ∧
    ({ domain with net := { domain.net with fhWait := [(0, .stFh 5 true 0 4 [1, 2, 3, 4])] } } : State).behindFill 0 (.drop 5 true) 5 = true := by decide
/-- VF 1 as it is written: partition 0, one key at 1; and with no key. -/
def vfAs (w : W64) : Ctl := { (st).ctl with vfCfg := [(1, w)] }
theorem witness_VfFits : (vfAs 0x0002004000000001).vfFits 1 = true ∧ (vfAs 1).vfFits 1 = false ∧ (vfAs 0x0002004000000101).vfFits 1 = false ∧
    bit ((st).ctl.vfCfgOf 1).toNat 0 = false ∧ bits (0x0002004000000001 : W64).toNat 0 1 = 1 := by decide
theorem witness_FlushCompletes : ((mapped).mem.settleRange 0 0 0).rangeOwes 0 0 0 = false ∧ (stuck.settleRange 0 0 0).rangeOwes 0 0 0 = true ∧ (mapped).ctl.onDie 0 0 = true ∧
    Claims.Released (mapped) 0 .device ((mapped).setMem ((mapped).mem.release 0 .device)) := ⟨by decide, by decide, by decide, fun _ => rfl, rfl⟩

end Sys2Proof.Tests
end

section
/-! The table of DIV and REM, and that DIV, REM, SDIV and SREM complete with its values (R65, R332, R377, R389, R390). -/

namespace Sys2Proof.Machine

-- quotient and remainder, by the signedness of the type and the zero divisor

theorem quot_zero_signed {ty : Ty} (h : ty.isI = true) (x : BitVec ty.bits) :
    Claims.quot ty x 0 = if x.slt 0 then 1 else BitVec.allOnes _ := by
  simp [Claims.quot, h]
theorem quot_zero_unsigned {ty : Ty} (h : ty.isI = false) (x : BitVec ty.bits) : Claims.quot ty x 0 = BitVec.allOnes _ := by
  simp [Claims.quot, h]
theorem quot_signed {ty : Ty} (h : ty.isI = true) (x : BitVec ty.bits) {y : BitVec ty.bits} (hy : y ≠ 0) :
    Claims.quot ty x y = x.sdiv y :=
  (if_neg hy).trans (if_pos h)
theorem quot_unsigned {ty : Ty} (h : ty.isI = false) (x : BitVec ty.bits) {y : BitVec ty.bits} (hy : y ≠ 0) :
    Claims.quot ty x y = x / y :=
  (if_neg hy).trans (if_neg (by simp [h]))
theorem rest_zero (ty : Ty) (x : BitVec ty.bits) : Claims.rest ty x 0 = x := if_pos rfl
theorem rest_signed {ty : Ty} (h : ty.isI = true) (x : BitVec ty.bits) {y : BitVec ty.bits} (hy : y ≠ 0) :
    Claims.rest ty x y = x.srem y :=
  (if_neg hy).trans (if_pos h)
theorem rest_unsigned {ty : Ty} (h : ty.isI = false) (x : BitVec ty.bits) {y : BitVec ty.bits} (hy : y ≠ 0) :
    Claims.rest ty x y = x % y :=
  (if_neg hy).trans (if_neg (by simp [h]))

-- the model's raw results are those of the table

theorem divRaw_eq (ty : Ty) (x y : Nat) : divRaw ty x y = (Claims.quot ty (ty.vec x) (ty.vec y)).toNat := by
  cases h : ty.isI
  · rw [divRaw_unsigned h]; simp [Claims.quot, h]
  · rw [divRaw_signed h]; simp [Claims.quot, h]
theorem remRaw_eq (ty : Ty) (x y : Nat) : remRaw ty x y = (Claims.rest ty (ty.vec x) (ty.vec y)).toNat := by
  cases h : ty.isI
  · rw [remRaw_unsigned h]; simp [Claims.rest, h]
  · rw [remRaw_signed h]; simp [Claims.rest, h]

-- the rows of the table

theorem toInt_one_bits (ty : Ty) : (1 : BitVec ty.bits).toInt = 1 := BitVec.toInt_one (by cases ty <;> decide)
theorem toInt_allOnes_bits (ty : Ty) : (BitVec.allOnes ty.bits).toInt = -1 := by
  rw [BitVec.toInt_allOnes, if_pos ty.bits_pos]
theorem eq_allOnes_of_toInt {ty : Ty} {y : BitVec ty.bits} (h : y.toInt = -1) : y = BitVec.allOnes _ :=
  BitVec.eq_of_toInt_eq (h.trans (toInt_allOnes_bits ty).symm)

/-- A signed division by zero gives −1 or +1, by the sign of the dividend. -/
theorem toInt_quot_zero {ty : Ty} (h : ty.isI = true) (x : BitVec ty.bits) :
    (Claims.quot ty x 0).toInt = if x.toInt < 0 then 1 else -1 := by
  have hs : x.slt 0 = decide (x.toInt < 0) := by rw [BitVec.slt_eq_decide]; simp
  rw [quot_zero_signed h, hs]
  by_cases hx : x.toInt < 0
  · rw [if_pos (decide_eq_true hx), if_pos hx, toInt_one_bits]
  · rw [if_neg (by simpa using hx), if_neg hx, toInt_allOnes_bits]

/-- The most negative value by −1 wraps to itself, and leaves nothing. -/
theorem quot_rest_overflow {ty : Ty} (h : ty.isI = true) {y : BitVec ty.bits} (hy : y.toInt = -1) :
    Claims.quot ty (BitVec.intMin _) y = BitVec.intMin _ ∧ Claims.rest ty (BitVec.intMin _) y = 0 := by
  have h0 : y ≠ 0 := by rintro rfl; simp at hy
  constructor
  · rw [quot_signed h _ h0, eq_allOnes_of_toInt hy, ← BitVec.neg_one_eq_allOnes, BitVec.intMin_sdiv_neg_one]
  · rw [rest_signed h _ h0]
    exact BitVec.srem_zero_of_dvd (by rw [hy]; simp)

/-- Signed division overflows in that one case only, so that anywhere else the quotient is exact. -/
theorem toInt_quot {ty : Ty} (h : ty.isI = true) {x y : BitVec ty.bits} (hy : y ≠ 0)
    (ho : ¬(x = BitVec.intMin _ ∧ y.toInt = -1)) : (Claims.quot ty x y).toInt = x.toInt.tdiv y.toInt := by
  rw [quot_signed h x hy]
  refine BitVec.toInt_sdiv_of_ne_or_ne x y ?_
  by_cases hx : x = BitVec.intMin _
  · refine .inr fun hn => ho ⟨hx, ?_⟩
    rw [hn, BitVec.neg_one_eq_allOnes, toInt_allOnes_bits]
  · exact .inl hx
/-- The signed remainder is that of the truncated division, for a zero divisor as well. -/
theorem toInt_rest {ty : Ty} (h : ty.isI = true) (x y : BitVec ty.bits) :
    (Claims.rest ty x y).toInt = x.toInt.tmod y.toInt := by
  by_cases hy : y = 0
  · subst hy; rw [rest_zero]; simp
  · rw [rest_signed h x hy, BitVec.toInt_srem]
theorem toNat_quot {ty : Ty} (h : ty.isI = false) (x : BitVec ty.bits) {y : BitVec ty.bits} (hy : y ≠ 0) :
    (Claims.quot ty x y).toNat = x.toNat / y.toNat := by
  rw [quot_unsigned h x hy, BitVec.toNat_udiv]
theorem toNat_rest {ty : Ty} (h : ty.isI = false) (x : BitVec ty.bits) {y : BitVec ty.bits} (hy : y ≠ 0) :
    (Claims.rest ty x y).toNat = x.toNat % y.toNat := by
  rw [rest_unsigned h x hy, BitVec.toNat_umod]

/-- A signed remainder other than 0 has the sign of the dividend. -/
theorem rest_neg_iff {ty : Ty} (h : ty.isI = true) {x y : BitVec ty.bits} (hr : Claims.rest ty x y ≠ 0) :
    (Claims.rest ty x y).toInt < 0 ↔ x.toInt < 0 := by
  by_cases hy : y = 0
  · subst hy; rw [rest_zero]
  · rw [rest_signed h x hy] at hr ⊢
    have hm := BitVec.msb_srem (x := x) (y := y)
    simpa [BitVec.msb_eq_toInt, show x.srem y ≠ 0#ty.bits from hr] using hm

/-- a = d × b + r modulo 2^w, in every row: what a wrapped quotient loses is a multiple of 2^w. -/
theorem eq_mul_quot_add_rest (ty : Ty) (x y : BitVec ty.bits) : x = y * Claims.quot ty x y + Claims.rest ty x y := by
  by_cases hy : y = 0
  · subst hy; rw [rest_zero]; simp
  cases h : ty.isI with
  | false =>
    apply BitVec.eq_of_toNat_eq
    rw [BitVec.toNat_add, BitVec.toNat_mul, toNat_quot h x hy, toNat_rest h x hy, Nat.mod_add_mod, Nat.div_add_mod,
      Nat.mod_eq_of_lt x.isLt]
  | true =>
    apply BitVec.eq_of_toInt_eq
    rw [BitVec.toInt_add, BitVec.toInt_mul, toInt_rest h, quot_signed h x hy, BitVec.toInt_sdiv, Int.mul_bmod_bmod,
      Int.bmod_add_bmod, Int.mul_tdiv_add_tmod, BitVec.toInt_bmod_cancel]

-- two-source instructions complete with the value their raw function has on bit vectors

/-- A two-source vector instruction, once for all of them (R332). -/
theorem vecBin_does {s : State} {c : Ctx} (hs : s.Issuing c) {i : Instr} {ty : Ty} {d a b : Reg} {late : Bool}
    {f : Nat → Nat → Nat} (g : BitVec ty.bits → BitVec ty.bits → BitVec ty.bits) (hi : exec i s = vecBin ty d a b late f s)
    (hf : ∀ x y, f x y = (g (ty.vec x) (ty.vec y)).toNat) :
    Claims.VecDoes i [atTy ty d, atTy ty a, atTy ty b] (fun r => Claims.int ty d (g (Claims.v ty r a) (Claims.v ty r b))) s c := by
  have he : exec i s = vecOp late [atTy ty d, atTy ty a, atTy ty b]
      (fun r => Claims.int ty d (g (Claims.v ty r a) (Claims.v ty r b))) s := by
    simp only [hi, vecBin, hf, VRes.one, Claims.int, Claims.v]
  rw [Claims.VecDoes, he]
  exact vecOp_next hs _ _ _

theorem vec_low (ty : Ty) (v : W64) : ty.vec (v.toNat % 2 ^ ty.bits) = Claims.low ty v := by
  apply BitVec.eq_of_toNat_eq
  simp [Claims.low]

/-- A two-source scalar instruction none of whose registers is tagged, once for all of them (R389, R390). -/
theorem scalarBin_done {s : State} {c : Ctx} (hs : s.Issuing c) {i : Instr} {ty : Ty} {d a b : SReg} {late : Bool}
    {f : Nat → Nat → Nat} (g : BitVec ty.bits → BitVec ty.bits → BitVec ty.bits) (hty : ty.isInt = true)
    (hi : exec i s = scalarBin ty d a b late f s) (hf : ∀ x y, f x y = (g (ty.vec x) (ty.vec y)).toNat)
    (ht : ∀ x ∈ [d, a, b], c.team.tagged x.val = false) :
    Claims.ScalarDone i s c d
      (Claims.sKeep ty ((s.sRd c).s a) (g (Claims.low ty ((s.sRd c).s a)) (Claims.low ty ((s.sRd c).s b)))) := by
  have hl : c.team.linear? (d.val :: [a, b].map (·.val)) = none := by
    simp only [List.forall_mem_cons] at ht
    simp [Team.linear?, ht]
  obtain ⟨s', t', he, hrest⟩ := scalarOp_next hs d [a, b] late
    (fun r => sPlace ty (r.s a) (f ((r.s a).toNat % 2 ^ ty.bits) ((r.s b).toNat % 2 ^ ty.bits))) hl
  refine ⟨s', t', hi.trans he, ?_⟩
  simpa only [hf, vec_low, sPlace_eq hty, Claims.sKeep] using hrest

theorem isInt_of_mem_widths {ty : Ty} (h : ty ∈ Claims.widths) : ty.isInt = true := by
  revert h; cases ty <;> decide

-- the four instructions

theorem div_does {s : State} {c : Ctx} (hs : s.Issuing c) (ty : Ty) (d a b : Reg) :
    Claims.VecDoes (.div ty d a b) [atTy ty d, atTy ty a, atTy ty b]
      (fun r => Claims.int ty d (Claims.quot ty (Claims.v ty r a) (Claims.v ty r b))) s c :=
  vecBin_does hs (Claims.quot ty) rfl (divRaw_eq ty)
theorem rem_does {s : State} {c : Ctx} (hs : s.Issuing c) (ty : Ty) (d a b : Reg) :
    Claims.VecDoes (.rem ty d a b) [atTy ty d, atTy ty a, atTy ty b]
      (fun r => Claims.int ty d (Claims.rest ty (Claims.v ty r a) (Claims.v ty r b))) s c :=
  vecBin_does hs (Claims.rest ty) rfl (remRaw_eq ty)

/-- Settles O24: the rows of R65's table one by one, and the four instructions through the rules of two-source words. -/
theorem divisionTable : Obligations.DivisionTable := by
  refine ⟨fun ty _ x y => ⟨?_, ?_, ?_, ?_, ?_, ?_, ?_, eq_mul_quot_add_rest ty x y⟩, ?_, ?_⟩
  · rintro h rfl
    exact ⟨quot_zero_unsigned h x, rest_zero ty x⟩
  · rintro h rfl hx
    exact ⟨by rw [toInt_quot_zero h, if_neg (by omega)], rest_zero ty x⟩
  · rintro h rfl hx
    exact ⟨by rw [toInt_quot_zero h, if_pos hx], rest_zero ty x⟩
  · rintro h rfl hy
    exact quot_rest_overflow h hy
  · intro h hy ho
    have hq := toInt_quot h hy ho
    exact ⟨hq, by rw [toInt_rest h, hq, Int.tmod_def, Int.mul_comm]⟩
  · intro h hy
    have hq := toNat_quot h x hy
    exact ⟨hq, by rw [toNat_rest h x hy, hq, Nat.mod_eq_sub_div_mul]⟩
  · exact fun h hr => rest_neg_iff h hr
  · intro rem ty d a b s c _ hs
    cases rem with
    | false => exact div_does hs ty d a b
    | true => exact rem_does hs ty d a b
  · intro rem ty d a b s c hty hs ht
    have hi := isInt_of_mem_widths hty
    cases rem with
    | false => exact scalarBin_done hs (Claims.quot ty) hi rfl (divRaw_eq ty) ht
    | true => exact scalarBin_done hs (Claims.rest ty) hi rfl (remRaw_eq ty) ht

end Sys2Proof.Machine
end

section
/-! The predicate stack: PNOT and PPOP, and a word of theirs that does not decode (R52, R56, R311, R380). -/

namespace Sys2Proof

/-- Two neighbouring fields that are zero are zero as one field. -/
theorem Decode.extract_zero {w : W64} {lo n m : Nat} (hlow : w.extractLsb' lo n = 0) (hhigh : w.extractLsb' (lo + n) m = 0) :
    w.extractLsb' lo (m + n) = 0 := by
  rw [← BitVec.extractLsb'_append_extractLsb'_eq_extractLsb' rfl, hlow, hhigh]
  exact BitVec.zero_append_zero

/-- The fields of a C word below its opcode are its low 56 bits (R319). -/
theorem Decode.cOf_fields_zero {w : W64} (hk : (Decode.cOf w).kind = 0) (hm : (Decode.cOf w).mod = 0)
    (ht : (Decode.cOf w).target = 0) (ha : (Decode.cOf w).a = 0) (hi : (Decode.cOf w).imm = 0) : w.extractLsb' 0 56 = 0 :=
  extract_zero (n := 52) (extract_zero (n := 48) (extract_zero (n := 24) (extract_zero (n := 16) hi ha) ht) hm) hk

/-- A C word that uses no field decodes to nothing where a field is set (R311). -/
theorem Decode.bare_error {w : W64} (i : Instr) (h : w.extractLsb' 0 56 ≠ 0) :
    Decode.bare (Decode.cOf w) i = .error .nonzeroField := by
  have hz : Decode.cZero (Decode.cOf w) false false false false = .error .nonzeroField := by
    unfold Decode.cZero Decode.need
    rw [if_neg]
    intro hall
    simp only [Bool.and_eq_true, Bool.false_or, beq_iff_eq] at hall
    obtain ⟨⟨⟨⟨hk, hm⟩, ht⟩, ha⟩, hi⟩ := hall
    exact h (Decode.cOf_fields_zero hk hm ht ha hi)
  simp only [Decode.bare, hz]
  rfl

theorem Decode.cf_pnot {w : W64} (h : w.extractLsb' 56 8 = 0x10) : Decode.cf w = Decode.bare (Decode.cOf w) .pnot := by
  simp only [Decode.cf, show (Decode.cOf w).op = 0x10 from h]
  rfl
theorem Decode.cf_ppop {w : W64} (h : w.extractLsb' 56 8 = 0x11) : Decode.cf w = Decode.bare (Decode.cOf w) .ppop := by
  simp only [Decode.cf, show (Decode.cOf w).op = 0x11 from h]
  rfl

/-- A word of PNOT's or PPOP's opcode with a field set is no instruction (R380). -/
theorem decode_predicateStack_error {w : W64} (ho : w.extractLsb' 56 8 = 0x10 ∨ w.extractLsb' 56 8 = 0x11)
    (h : w.extractLsb' 0 56 ≠ 0) : decode .cf w = .error .nonzeroField := by
  have hf : Decode.cf w = .error .nonzeroField := by
    rcases ho with ho | ho
    · exact (Decode.cf_pnot ho).trans (Decode.bare_error .pnot h)
    · exact (Decode.cf_ppop ho).trans (Decode.bare_error .ppop h)
  simp only [decode, Decode.fields, hf]

end Sys2Proof

namespace Sys2Proof.Machine

/-- A batch's turn at a word that does not decode (R311): its threads fault, and the device goes on. -/
theorem step_of_decode_error {s s0 s1 : State} {dt u b : Nat} {c c1 : Ctx} {cls : Cls} {w : W64} {why : DecodeError}
    (ht : s.nextTurn = (some ⟨dt, .batch u b⟩, s0)) (hs : s1 = (s0.elapseTo (s0.sched.now + dt)).setCur u b)
    (hc : s1.ctx? = some c) (hw : c.batch.word = some (cls, w)) (hc1 : (s1.beforeIssue c cls).ctx? = some c1)
    (hd : decode cls w = .error why) :
    step s = .next ((((s1.beforeIssue c cls).badWord c1 cls).afterIssue c1 cls none).finish).stir := by
  subst hs
  simp only [step, ht, runBatch, hc, hw, runWord, hd, hc1, Option.getD_some, andThen]

/-- One thread's predicate stack changed. -/
def State.onPreds (c : Ctx) (g : List Bool → List Bool) (x : State) (i : Nat) : State :=
  x.onCur c (fun t => t.onThread i (fun h => { h with preds := g h.preds }))

/-- The stack with its top replaced by the top's negation and the parent, which is true at depth 1 (R56). -/
def notTop : List Bool → List Bool
  | [] => []
  | [p] => [!p]
  | p :: q :: ps => (!p && q) :: q :: ps

theorem exec_pnot (s : State) : exec .pnot s = perThread s everyOf (fun c x i => .done (x.onPreds c notTop i)) := by
  have hg : (fun h : Thread => { h with preds := notTop h.preds }) = fun h : Thread =>
      { h with preds := match h.preds with
        | [] => []
        | p :: ps => (!p && ps.headD true) :: ps } := by
    funext h
    match h.preds with
    | [] => rfl
    | [p] => simp [notTop]
    | p :: q :: ps => rfl
  simp only [State.onPreds, hg]
  rfl

theorem exec_ppop (s : State) : exec .ppop s = perThread s everyOf (fun c x i => .done (x.onPreds c (List.drop 1) i)) := by
  simp only [State.onPreds, List.drop_one]
  rfl

/-- Parts that each complete with a next state, one after another. -/
theorem each_foldl {α : Type} (g : State → α → State) (is : List α) (s : State) :
    Each (fun x i y => y = g x i) is s (is.foldl g s) := by
  induction is generalizing s with
  | nil => rfl
  | cons i is ih => exact ⟨g s i, rfl, ih (g s i)⟩

/-- An instruction that changes the stack of every thread of its batch completes in each of them, whatever its top (R52). -/
theorem perThread_onPreds {s : State} {c : Ctx} (h : s.Issuing c) (g : List Bool → List Bool) :
    ∃ t, Each (fun x i y => y = x.onPreds c g i) (c.todo (everyOf c)) s t ∧
      perThread s everyOf (fun c x i => .done (x.onPreds c g i)) = .next (t.moveOn c []) :=
  have he := each_foldl (State.onPreds c g) (c.todo (everyOf c)) s
  ⟨_, he, perThread_each h.ctx everyOf _ he⟩

/-- Settles O21: the words by evaluation, any other word of the two opcodes by the fields of C format, and the effect in
each thread through the rule of instructions that change every stack of the batch. -/
theorem predicateStack : Obligations.PredicateStack := by
  refine ⟨by decide, by decide, rfl, rfl, fun w ho h => ⟨_, decode_predicateStack_error ho h⟩, ?_, fun s c h => ⟨?_, ?_⟩⟩
  · intro s s0 s1 dt u b c c1 w ho h ht hs hc hw hc1
    exact step_of_decode_error ht hs hc hw hc1 (decode_predicateStack_error ho h)
  · obtain ⟨t, he, hp⟩ := perThread_onPreds h notTop
    exact ⟨t, he, (exec_pnot s).trans hp⟩
  · obtain ⟨t, he, hp⟩ := perThread_onPreds h (List.drop 1)
    exact ⟨t, he, (exec_ppop s).trans hp⟩

end Sys2Proof.Machine
end

section
/-! SCMP: its word, its result and its tagged destination (R232, R311, R317, R389, R391). -/

namespace Sys2Proof

-- what the parts of a decoded word were

theorem Decode.bind_ok_iff {α β : Type} {x : Decode.Res α} {f : α → Decode.Res β} {b : β} :
    x >>= f = .ok b ↔ ∃ a, x = .ok a ∧ f a = .ok b := by
  cases x with
  | error e => exact ⟨nofun, fun ⟨_, h, _⟩ => nomatch h⟩
  | ok a => exact ⟨fun h => ⟨a, rfl, h⟩, fun ⟨_, h, hf⟩ => by cases h; exact hf⟩

theorem Decode.need_ok_iff {p : Bool} {e : DecodeError} {u : Unit} : Decode.need p e = .ok u ↔ p = true := by
  cases p <;> simp [Decode.need]

/-- A field that names an S register is 64 more than its number (R312). -/
theorem Decode.toNat_of_sreg {x : BitVec 8} {n : SReg} (h : Decode.sreg x = .ok n) : x.toNat = 64 + n.val := by
  unfold Decode.sreg Decode.reg at h
  split at h
  · rename_i m hm
    split at hm
    · cases hm
    · split at hm
      · rename_i h7 h6
        cases hm
        cases h
        simp only [BitVec.getLsbD, Nat.testBit_eq_decide_div_mod_eq, decide_eq_true_eq, BitVec.extractLsb'_toNat] at h7 h6 ⊢
        have := x.isLt
        omega
      · cases hm
  · cases h

/-- The code of a relation (R317). -/
theorem Decode.toNat_of_rel {x : BitVec 16} {r : Rel} (h : Decode.rel x = .ok r) : x.toNat = (Encode.rel r).toNat := by
  unfold Decode.rel at h
  split at h <;> cases h <;> assumption

/-- A G word that uses b and imm16 only has its RM, AX and c zero (R311). -/
theorem Decode.gZero_scmp {w : W64} {u : Unit} (h : Decode.gZero (Decode.gOf w) true false true = .ok u) :
    w.extractLsb' 48 4 = 0 ∧ w.extractLsb' 16 8 = 0 := by
  have hall := Decode.need_ok_iff.mp h
  simp only [Bool.and_eq_true, Bool.true_or, Bool.false_or, and_true, beq_iff_eq] at hall
  obtain ⟨⟨hrm, hax⟩, hc⟩ := hall
  exact ⟨extract_zero (n := 1) hax hrm, hc⟩

/-- What a word of SCMP's opcode decodes to, with the fields it came from (R391). -/
theorem Decode.sc_scmp {w : W64} {i : Instr} (ho : w.extractLsb' 56 8 = 0x20) (h : Decode.sc w = .ok i) :
    ∃ rel ty d a b, i = .scmp rel ty d a b ∧ Decode.gZero (Decode.gOf w) true false true = .ok () ∧
      Decode.rel (w.extractLsb' 0 16) = .ok rel ∧ Decode.sreg (w.extractLsb' 40 8) = .ok d ∧
      Decode.sreg (w.extractLsb' 32 8) = .ok a ∧ Decode.sreg (w.extractLsb' 24 8) = .ok b := by
  have hop : (Decode.gOf w).op = 0x20 := ho
  simp only [Decode.sc, hop] at h
  obtain ⟨_, hz, h⟩ := Decode.bind_ok_iff.mp h
  obtain ⟨rel, hr, h⟩ := Decode.bind_ok_iff.mp h
  obtain ⟨ty, _, h⟩ := Decode.bind_ok_iff.mp h
  obtain ⟨d, hd, h⟩ := Decode.bind_ok_iff.mp h
  obtain ⟨a, ha, h⟩ := Decode.bind_ok_iff.mp h
  obtain ⟨b, hb, h⟩ := Decode.bind_ok_iff.mp h
  cases h
  exact ⟨rel, ty, d, a, b, rfl, hz, hr, hd, ha, hb⟩

/-- What decodes has passed its static checks (R311). -/
theorem fields_of_decode {c : Cls} {w : W64} {i : Instr} (h : decode c w = .ok i) :
    Decode.fields c w = .ok i ∧ i.wellFormed = true := by
  unfold decode at h
  split at h
  · split at h
    · cases h; exact ⟨‹_›, ‹_›⟩
    · cases h
  · cases h

end Sys2Proof

namespace Sys2Proof.Machine

theorem mem_widths_of_isInt {ty : Ty} (h : ty.isInt = true) : ty ∈ Claims.widths := by
  revert h; cases ty <;> decide

-- the relation of two operands

theorem intVal_le_iff (ty : Ty) (x y : Nat) : intVal ty x ≤ intVal ty y ↔ Claims.le ty (ty.vec x) (ty.vec y) = true := by
  cases h : ty.isI
  · rw [intVal_unsigned h, intVal_unsigned h, Int.ofNat_le]
    simp [Claims.le, h, BitVec.ule_eq_decide]
  · simp [Claims.le, h, intVal_signed h, BitVec.sle_eq_decide]
theorem intVal_eq_iff (ty : Ty) (x y : Nat) : intVal ty x = intVal ty y ↔ ty.vec x = ty.vec y := by
  refine ⟨fun h => ?_, fun h => ?_⟩
  · rw [← ofInt_intVal ty x, h, ofInt_intVal]
  · cases hi : ty.isI
    · rw [intVal_unsigned hi, intVal_unsigned hi, h]
    · rw [intVal_signed hi, intVal_signed hi, h]

/-- The model's relation of integer values is that of the bits, by the signedness of the type. -/
theorem relInt_intVal (r : Rel) (ty : Ty) (x y : Nat) :
    relInt r (intVal ty x) (intVal ty y) = Claims.rel r ty (ty.vec x) (ty.vec y) := by
  have hle : ∀ x y, decide (intVal ty x ≤ intVal ty y) = Claims.le ty (ty.vec x) (ty.vec y) := fun x y => by
    simp [intVal_le_iff]
  have hlt : ∀ x y, decide (intVal ty x < intVal ty y) = !Claims.le ty (ty.vec y) (ty.vec x) := fun x y => by
    simp [← Int.not_le, intVal_le_iff]
  cases r with
  | eq | ne => simp only [relInt, Claims.rel, bne, beq_eq_decide, intVal_eq_iff]
  | lt => exact hlt x y
  | le => exact hle x y
  | gt => exact hlt y x
  | ge => exact hle y x

-- the instruction

/-- SCMP is a scalar word of which only the destination may not be tagged (R391). -/
theorem exec_scmp (rel : Rel) (ty : Ty) (d a b : SReg) (s : State) :
    exec (.scmp rel ty d a b) s =
      scalarOp d [] false (fun r => if Claims.rel rel ty (Claims.low ty (r.s a)) (Claims.low ty (r.s b)) then 1 else 0) s := by
  simp only [Claims.low, ← BitVec.ofNat_toNat, ← relInt_intVal]
  rfl

/-- A scalar instruction with a tagged register faults LINEAR_COPY in every thread of the batch (R232). -/
theorem scalarOp_tagged {s : State} {c : Ctx} (h : s.ctx? = some c) {d : SReg} {srcs : List SReg} {late : Bool}
    {f : Rd → W64} {v : W64} (hl : c.team.linear? (d.val :: srcs.map (·.val)) = some v) :
    scalarOp d srcs late f s = .next ((s.raiseAll c .linearCopy v (everyOf c)).moveOn c []) :=
  scalarEffect_fault h _ (by simp only [hl])

/-- Settles O23: the decoder's fields one by one, the round trip of SCMP's word, and the result and the fault through the rules
of a scalar word whose only checked register is its destination. -/
theorem scalarCompare : Obligations.ScalarCompare := by
  refine ⟨by decide, ?_, ?_, ?_, ?_⟩
  · intro w i ho h
    obtain ⟨hf, hwf⟩ := fields_of_decode h
    obtain ⟨rel, ty, d, a, b, rfl, hz, hr, hd, ha, hb⟩ := Decode.sc_scmp ho hf
    obtain ⟨hmod, hc⟩ := Decode.gZero_scmp hz
    exact ⟨rel, ty, d, a, b, rfl, mem_widths_of_isInt hwf, hmod, hc, Decode.toNat_of_sreg hd, Decode.toNat_of_sreg ha,
      Decode.toNat_of_sreg hb, (Decode.toNat_of_rel hr).trans (by cases rel <;> rfl)⟩
  · intro rel ty d a b hty
    refine ⟨_, rfl, ?_, Laws.RoundTrip.scmp rel ty d a b (isInt_of_mem_widths hty) _ _ rfl⟩
    exact congrArg Decode.G.op (Decode.gOf_g _)
  · intro rel ty d a b s c _ hs ht
    rw [exec_scmp]
    exact scalarOp_next hs d [] false _ (by simp [Team.linear?, ht])
  · intro rel ty d a b s c hs ht
    rw [exec_scmp]
    exact scalarOp_tagged hs.ctx (by simp [Team.linear?, ht])

end Sys2Proof.Machine
end
